-- ==== Sys2Proof/Word.lean ====
section
/-! DEFINITION. The word of the block's registers and the byte of its buffers (spec/00_scope.md R8, R11). -/

namespace Sys2Proof

/-- A register or command word: every CSR is 32 bits wide (10_state R21). -/
abbrev Word := BitVec 32

/-- A byte of a buffer, of the entropy-coded stream or of a table record. -/
abbrev Byte := BitVec 8

end Sys2Proof
end

