-- ==== Sys2Proof/Syntax.lean ====
section
/-! DEFINITION. The commands: one constructor per row of spec/opcode_table.json (spec/30_encoding.md R92), with the
operand bits the row's `fields` name. -/

namespace Sys2Proof

/-- The two classes of Huffman table (10_state R49): 0 is DC, 1 is AC. -/
inductive HuffClass where
  | dc
  | ac
deriving DecidableEq, Repr

/-- The eleven commands of 30_encoding R92. -/
inductive Instr where
  /-- NOP (42_control R162). -/
  | nop
  /-- SOFT_RESET (42_control R163); `ignored` is bits [31:8], which it does not look at. -/
  | softReset (ignored : BitVec 24)
  /-- LOAD_DQT (41_tables R136). -/
  | loadDqt
  /-- LOAD_DHT (41_tables R139). -/
  | loadDht
  /-- SET_FRAME (42_control R164). -/
  | setFrame
  /-- BEGIN_SCAN (42_control R166). -/
  | beginScan
  /-- DECODE_MCU (42_control R170). -/
  | decodeMcu
  /-- DECODE_SCAN (42_control R172). -/
  | decodeScan
  /-- END_SCAN (42_control R168). -/
  | endScan
  /-- READ_BITS (40_bit_reader R125); `n` is operand A. -/
  | readBits (n : Byte)
  /-- HUFF_DECODE (41_tables R147); `c` is operand A, `t` operand B. -/
  | huffDecode (c t : Byte)
deriving DecidableEq, Repr

end Sys2Proof
end

