-- ==== Sys2Proof/Decode.lean ====
section
/-! DEFINITION. Decoding and encoding of command words (spec/30_encoding.md section 1). The decoder is total: a word
that is no row of spec/opcode_table.json is rejected by a named reason, and the machine turns the reason into the
error the spec raises for it (R93, R94). READ_BITS with n > 16 and HUFF_DECODE with a class above 1 are words of their
rows: they decode, and their meanings raise the error (log 15). -/

namespace Sys2Proof

/-- Why a sequence of bytes is no command. -/
inductive DecodeError where
  /-- Bits [7:0] are 0x0B to 0xFF (R93). -/
  | reservedOpcode (op : Byte)
  /-- A bit that must be 0 is not (R94). -/
  | illegalField (op : Byte)
  /-- Fewer than the four bytes of a command word (R90). -/
  | incomplete
deriving DecidableEq, Repr

/-- The opcodes of R92. -/
inductive Opcode where
  | nop | softReset | loadDqt | loadDht | setFrame | beginScan | decodeMcu | decodeScan | endScan | readBits | huffDecode
deriving DecidableEq, Repr

/-- The OP byte of each command (R92). -/
def Opcode.toByte : Opcode → Byte
  | .nop => 0x00#8
  | .softReset => 0x01#8
  | .loadDqt => 0x02#8
  | .loadDht => 0x03#8
  | .setFrame => 0x04#8
  | .beginScan => 0x05#8
  | .decodeMcu => 0x06#8
  | .decodeScan => 0x07#8
  | .endScan => 0x08#8
  | .readBits => 0x09#8
  | .huffDecode => 0x0A#8

/-- The command an OP byte names; none for the reserved opcodes (R93). -/
def Opcode.ofByte (b : Byte) : Option Opcode :=
  match b.toNat with
  | 0 => some .nop
  | 1 => some .softReset
  | 2 => some .loadDqt
  | 3 => some .loadDht
  | 4 => some .setFrame
  | 5 => some .beginScan
  | 6 => some .decodeMcu
  | 7 => some .decodeScan
  | 8 => some .endScan
  | 9 => some .readBits
  | 10 => some .huffDecode
  | _ => none

/-- Field OP, bits [7:0] (R90). -/
def opField (w : Word) : Byte := w.extractLsb' 0 8

/-- Field A, bits [15:8] (R90). -/
def aField (w : Word) : Byte := w.extractLsb' 8 8

/-- Field B, bits [23:16] (R90). -/
def bField (w : Word) : Byte := w.extractLsb' 16 8

/-- Bits [31:24], reserved, must be 0 (R90). -/
def reservedField (w : Word) : Byte := w.extractLsb' 24 8

/-- The instruction `i` when every bit of `must` is 0, else the field error of R94. -/
def whenZero (w : Word) (must : Bool) (i : Instr) : Except DecodeError Instr :=
  if must then .ok i else .error (.illegalField (opField w))

/-- A, B and [31:24] are 0: what R91 asks of a command without operands. -/
def noOperands (w : Word) : Bool := aField w == 0#8 && bField w == 0#8 && reservedField w == 0#8

/-- The command a word encodes (R90 to R94). -/
def decodeWord (w : Word) : Except DecodeError Instr :=
  match Opcode.ofByte (opField w) with
  | none => .error (.reservedOpcode (opField w))
  | some .nop => whenZero w (noOperands w) .nop
  | some .softReset => .ok (.softReset (w.extractLsb' 8 24))
  | some .loadDqt => whenZero w (noOperands w) .loadDqt
  | some .loadDht => whenZero w (noOperands w) .loadDht
  | some .setFrame => whenZero w (noOperands w) .setFrame
  | some .beginScan => whenZero w (noOperands w) .beginScan
  | some .decodeMcu => whenZero w (noOperands w) .decodeMcu
  | some .decodeScan => whenZero w (noOperands w) .decodeScan
  | some .endScan => whenZero w (noOperands w) .endScan
  | some .readBits => whenZero w (bField w == 0#8 && reservedField w == 0#8) (.readBits (aField w))
  | some .huffDecode => whenZero w (reservedField w == 0#8) (.huffDecode (aField w) (bField w))

/-- The word of a CSR write: its first byte is bits [7:0] (20_memory R74). -/
def wordOfBytes (b0 b1 b2 b3 : Byte) : Word := b3 ++ b2 ++ b1 ++ b0

/-- The command at the start of a byte sequence, with the bytes that follow it. -/
def decodeBytes : List Byte → Except DecodeError (Instr × List Byte)
  | b0 :: b1 :: b2 :: b3 :: rest =>
    match decodeWord (wordOfBytes b0 b1 b2 b3) with
    | .ok i => .ok (i, rest)
    | .error e => .error e
  | _ => .error .incomplete

/-- The opcode of a command. -/
def Instr.opcode : Instr → Opcode
  | .nop => .nop
  | .softReset _ => .softReset
  | .loadDqt => .loadDqt
  | .loadDht => .loadDht
  | .setFrame => .setFrame
  | .beginScan => .beginScan
  | .decodeMcu => .decodeMcu
  | .decodeScan => .decodeScan
  | .endScan => .endScan
  | .readBits _ => .readBits
  | .huffDecode _ _ => .huffDecode

/-- The word with the given operands: [31:24], B, A, OP from the top (R90). -/
def packWord (hi b a op : Byte) : Word := hi ++ b ++ a ++ op

/-- The word of a command (R91, R92). -/
def encode (i : Instr) : Word :=
  match i with
  | .softReset ignored => ignored ++ Opcode.softReset.toByte
  | .readBits n => packWord 0 0 n Opcode.readBits.toByte
  | .huffDecode c t => packWord 0 t c Opcode.huffDecode.toByte
  | .nop => packWord 0 0 0 Opcode.nop.toByte
  | .loadDqt => packWord 0 0 0 Opcode.loadDqt.toByte
  | .loadDht => packWord 0 0 0 Opcode.loadDht.toByte
  | .setFrame => packWord 0 0 0 Opcode.setFrame.toByte
  | .beginScan => packWord 0 0 0 Opcode.beginScan.toByte
  | .decodeMcu => packWord 0 0 0 Opcode.decodeMcu.toByte
  | .decodeScan => packWord 0 0 0 Opcode.decodeScan.toByte
  | .endScan => packWord 0 0 0 Opcode.endScan.toByte

/-- The four bytes of a word, bits [7:0] first (20_memory R74). -/
def bytesOfWord (w : Word) : List Byte := [opField w, aField w, bField w, reservedField w]

/-- The bytes of a command, in the order a host write to CMD carries them. -/
def encodeBytes (i : Instr) : List Byte := bytesOfWord (encode i)

/-- The command word with the low `nbits` bits of `w` and zeros above. -/
def tableWord (nbits w : Nat) : Word := BitVec.ofNat 32 (w % 2 ^ nbits)

/-- What the decoder reads from an instruction whose bits are `w`, numbered as spec/opcode_table.json numbers them. -/
def decodeTableWord (nbits w : Nat) : Option Instr :=
  match decodeBytes (bytesOfWord (tableWord nbits w)) with
  | .ok (i, _) => some i
  | .error _ => none

end Sys2Proof
end

