-- ==== Sys2Proof/Config.lean ====
section
/-! DEFINITION. What is fixed for one block: the address map's constants (spec/00_scope.md R8, spec/20_memory.md
section 1), the parameters the spec leaves OPEN (92 D50 to D52), and the free values: constants without a body, of
which no proof can see the value. -/

namespace Sys2Proof

/-- The constant value of the ID register (10_state R22). -/
def Config.idValue : Word := 0x42470001#32

/-- Bytes of the host's window (20_memory R70). -/
def Config.windowBytes : Nat := 0x4000000

/-- Bytes of the CSR aperture, which starts at window offset 0 (20_memory R71). -/
def Config.csrBytes : Nat := 0x1000

/-- Window offset of IBUF's first byte (20_memory R72). -/
def Config.ibufBase : Nat := 0x1000000

/-- Window offset of OBUF's first byte (20_memory R73). -/
def Config.obufBase : Nat := 0x2000000

/-- The largest size of a buffer (00_scope R8). -/
def Config.maxBufferBytes : Nat := 0x1000000

/-- The two buffers the host's window reaches (10_state R51, R52). -/
inductive BufferId where
  | ibuf
  | obuf
deriving DecidableEq, Repr

/-- The parameters of one block (00_scope R8): `IBUF_BYTES`, `OBUF_BYTES`, `BGJD_BASE`.
They are arguments of the model: State carries them, no step changes them, and a statement about every state holds for
every choice of them. -/
structure Params where
  ibufBytes : Nat
  obufBytes : Nat
  base      : Nat
deriving DecidableEq, Repr

/-- The bounds the spec puts on the parameters (00_scope R8). -/
abbrev Params.Legal (p : Params) : Prop :=
  1 ≤ p.ibufBytes ∧ p.ibufBytes ≤ Config.maxBufferBytes ∧
  1 ≤ p.obufBytes ∧ p.obufBytes ≤ Config.maxBufferBytes ∧
  p.base % Config.windowBytes = 0

/-- A quantization table in natural order (10_state R48). -/
abbrev QuantTable := Vector (BitVec 16) 64

/-- A Huffman table (10_state R49, R50). Index L - 1 of a vector is the entry of code length L. `huffval` lists the
symbols that LOAD_DHT stored; an entry beyond them is unspecified (41_tables R139) and is not held. -/
structure HuffTable where
  count     : Vector Byte 16
  nsym      : BitVec 9
  huffval   : List Byte
  firstCode : Vector (BitVec 17) 16
  valPtr    : Vector (BitVec 9) 16
deriving DecidableEq, Repr, Inhabited

/-- FREE VALUE: what the `k`-th draw of 20_memory R77 gives. No body: any value. Log 6. -/
opaque Config.draw : Nat → Word

/-- FREE VALUE: the byte at an offset of a buffer to which no value is stored, after its contents became unspecified
the given number of times (at power-on: 0). No body: any value. Log 4, log 5. -/
opaque Config.unspecifiedByte : BufferId → Nat → Nat → Byte

/-- FREE VALUE: HUFFVAL[k] beyond the listed symbols of a table (41_tables R139). No body: any value. Log 9. -/
opaque Config.unspecifiedSymbol : List Byte → Nat → Byte

/-- FREE VALUE: PEND after the `k`-th reset, of any kind (10_state R47). No body: any value. Log 7. -/
opaque Config.unspecifiedPend : Nat → Word

/-- FREE VALUE: the contents of QT after the `k`-th reset, if it was no SOFT_RESET (70_reset R241). No body: any
value. Log 8. -/
opaque Config.unspecifiedQuant : Nat → Vector QuantTable 4

/-- FREE VALUE: the contents of HT[DC] after the `k`-th reset, if it was no SOFT_RESET (70_reset R241). No body: any
value. Log 8. -/
opaque Config.unspecifiedDc : Nat → Vector HuffTable 4

/-- FREE VALUE: the contents of HT[AC] after the `k`-th reset, if it was no SOFT_RESET (70_reset R241). No body: any
value. Log 8. -/
opaque Config.unspecifiedAc : Nat → Vector HuffTable 4

end Sys2Proof
end

