-- ==== Sys2Proof/Machine/State.lean ====
section
/-! DEFINITION. The state of the block: every register of spec/10_state.md section 2 as its named fields, the internal
state of section 3, the buffers of section 4, the parameters of spec/00_scope.md R8, and the turns of the two agents.
Reserved bits are not held: they read 0 and ignore writes (R21). STATUS.IRQ and `irq` are computed (R53,
Machine/Flags.lean); ID is the constant Config.idValue (R22). -/

namespace Sys2Proof.Machine

/-- How the model stops where the spec's own checks say the engine never goes. Each is safe: no state that meets
State.Inv (Safety.lean) reaches one (20_memory R88). Log 11. -/
inductive Fault where
  /-- Raised by an engine read at or beyond IBUF_BYTES (20_memory R88); safe. -/
  | ibufOutOfRange (a : Nat)
  /-- Raised by an engine write at or beyond OBUF_BYTES (20_memory R88); safe. -/
  | obufOutOfRange (a : Nat)
  /-- Raised when a component selects a table id above 3 (00_scope R8) in a decode; safe. -/
  | noSuchTable (t : Nat)
deriving DecidableEq, Repr

/-- Why a command has no meaning. -/
inductive Refusal where
  /-- Raised by exec's arm of a command that has no meaning yet; safe. No arm uses it. -/
  | notModelled (mnemonic : String)
deriving DecidableEq, Repr

/-- Whose step comes next, and what it does (00_scope R9). Log 1. -/
inductive Turn where
  /-- A host read of `n` bytes at host address `addr` (20_memory R74). -/
  | hostRead (addr n : Nat)
  /-- A host write of the low `n` bytes of `v` at host address `addr` (20_memory R74). -/
  | hostWrite (addr n : Nat) (v : Word)
  /-- The engine's step (42_control R161). -/
  | engine
  /-- The reset input at a platform reset (70_reset R240). -/
  | platformReset
  /-- The reset input at power-on (70_reset R240). -/
  | powerOn
deriving DecidableEq, Repr

/-- STATUS without its IRQ bit (10_state R24). -/
structure Status where
  busy       : Bool
  done       : Bool
  err        : Bool
  frameValid : Bool
  scanActive : Bool
  scanDone   : Bool
  markerSeen : Bool
  haz        : Bool
  accerr     : Bool
  markerCode : Byte
deriving DecidableEq, Repr

/-- ERROR (10_state R26). -/
structure ErrorReg where
  code : Byte
  sub  : Byte
  info : Byte
deriving DecidableEq, Repr

/-- IRQ_EN (10_state R27). -/
structure IrqEnable where
  doneIe : Bool
  errIe  : Bool
deriving DecidableEq, Repr

/-- FRAME_TYPE (10_state R28). -/
structure FrameType where
  sof : Byte
  p   : Byte
deriving DecidableEq, Repr

/-- FRAME_SIZE (10_state R29): `x` samples per line, `y` lines. -/
structure FrameSize where
  x : BitVec 16
  y : BitVec 16
deriving DecidableEq, Repr

/-- COMPi (10_state R31): sampling factors and table selectors of one component. -/
structure Comp where
  h  : BitVec 4
  v  : BitVec 4
  tq : BitVec 4
  td : BitVec 4
  ta : BitVec 4
deriving DecidableEq, Repr

/-- BR_BITS (10_state R40): the last data byte and how many of its bits are unread. -/
structure BrBits where
  byte : Byte
  cnt  : BitVec 4
deriving DecidableEq, Repr

/-- TABLE_VALID (10_state R44): bit t of each field says that table t is defined. -/
structure TableValid where
  qv : BitVec 4
  dv : BitVec 4
  av : BitVec 4
deriving DecidableEq, Repr

/-- A buffer (10_state R51, R52): the bytes stored in it, offsets strictly rising, and the ranges (offset, length)
whose contents became unspecified, newest first. A byte that is not listed has no stored value. Log 4. -/
structure Memory where
  cells : List Host.Cell
  lost  : List (Nat × Nat)
deriving DecidableEq, Repr

/-- The state of the block (10_state R20). -/
structure State where
  params          : Params
  cmd             : Word
  status          : Status
  error           : ErrorReg
  irqEn           : IrqEnable
  frameType       : FrameType
  frameSize       : FrameSize
  frameNcomp      : Byte
  comp            : Vector Comp 3
  restartInterval : BitVec 16
  srcPtr          : Word
  srcEnd          : Word
  inBase          : Word
  inLen           : Word
  outBase         : Word
  brPos           : Word
  brBits          : BrBits
  mcuIndex        : Word
  mcuTotal        : Word
  result          : Word
  tableValid      : TableValid
  pred            : Vector Word 3
  pend            : Word
  quant           : Vector QuantTable 4
  dcTable         : Vector HuffTable 4
  acTable         : Vector HuffTable 4
  ibuf            : Memory
  obuf            : Memory
  schedule        : List Turn
  readData        : Word
  draws           : Nat
  resets          : Nat
deriving DecidableEq, Repr

/-- Every STATUS field 0 (70_reset R240). -/
def Status.cleared : Status :=
  { busy := false, done := false, err := false, frameValid := false, scanActive := false, scanDone := false,
    markerSeen := false, haz := false, accerr := false, markerCode := 0#8 }

/-- COMPi with every field 0 (10_state R31). -/
def Comp.cleared : Comp := { h := 0#4, v := 0#4, tq := 0#4, td := 0#4, ta := 0#4 }

/-- A buffer in which nothing is stored. -/
def Memory.empty : Memory := { cells := [], lost := [] }

/-- The contents named for a quantization table at power-on, where the spec gives none (DESIGN CHOICE, log 8). -/
def quantPowerOn : QuantTable := Vector.replicate 64 0#16

/-- The contents named for a Huffman table at power-on, where the spec gives none (DESIGN CHOICE, log 8). -/
def huffPowerOn : HuffTable :=
  { count := Vector.replicate 16 0#8, nsym := 0#9, huffval := [], firstCode := Vector.replicate 16 0#17,
    valPtr := Vector.replicate 16 0#9 }

/-- The block right after power-on (70_reset R240): every register 0, no error, no frame, no table, nothing stored in
the buffers. The parameters, PEND, QT, HT and the model's own fields hold values the log names (logs 1 to 10). -/
def State.reset : State :=
  { params := { ibufBytes := 4096, obufBytes := 4096, base := 0 }
    cmd := 0#32
    status := Status.cleared
    error := { code := 0#8, sub := 0#8, info := 0#8 }
    irqEn := { doneIe := false, errIe := false }
    frameType := { sof := 0#8, p := 0#8 }
    frameSize := { x := 0#16, y := 0#16 }
    frameNcomp := 0#8
    comp := Vector.replicate 3 Comp.cleared
    restartInterval := 0#16
    srcPtr := 0#32
    srcEnd := 0#32
    inBase := 0#32
    inLen := 0#32
    outBase := 0#32
    brPos := 0#32
    brBits := { byte := 0#8, cnt := 0#4 }
    mcuIndex := 0#32
    mcuTotal := 0#32
    result := 0#32
    tableValid := { qv := 0#4, dv := 0#4, av := 0#4 }
    pred := Vector.replicate 3 0#32
    pend := 0#32
    quant := Vector.replicate 4 quantPowerOn
    dcTable := Vector.replicate 4 huffPowerOn
    acTable := Vector.replicate 4 huffPowerOn
    ibuf := Memory.empty
    obuf := Memory.empty
    schedule := []
    readData := 0#32
    draws := 0
    resets := 0 }

end Sys2Proof.Machine
end

