-- ==== Sys2Proof/Machine/Flags.lean ====
section
/-! DEFINITION. The status flags: the irq level (spec/10_state.md R53), the words of STATUS, ERROR, IRQ_EN, the frame
registers, BR_BITS and TABLE_VALID as a host reads and writes them (R24 to R31, R40, R44), and the write-1-to-clear of
STATUS (R25). -/

namespace Sys2Proof.Machine

/-- The `irq` output (R53), which STATUS.IRQ mirrors. -/
def State.irq (s : State) : Bool :=
  (s.status.done && s.irqEn.doneIe) || (s.status.err && s.irqEn.errIe)

/-- STATUS as a word (R24): [31:24] and [15:10] reserved, [23:16] MARKER_CODE, bit 9 IRQ, then ACCERR, HAZ,
MARKER_SEEN, SCAN_DONE, SCAN_ACTIVE, FRAME_VALID, ERR, DONE, BUSY from bit 8 down to bit 0. -/
def Status.word (st : Status) (irq : Bool) : Word :=
  0#8 ++ st.markerCode ++ 0#6 ++ BitVec.ofBool irq ++ BitVec.ofBool st.accerr ++ BitVec.ofBool st.haz
    ++ BitVec.ofBool st.markerSeen ++ BitVec.ofBool st.scanDone ++ BitVec.ofBool st.scanActive
    ++ BitVec.ofBool st.frameValid ++ BitVec.ofBool st.err ++ BitVec.ofBool st.done ++ BitVec.ofBool st.busy

/-- The STATUS register as a host reads it while no command is pending. -/
def State.statusWord (s : State) : Word := s.status.word s.irq

/-- The effect of a host write of `w` to STATUS (R25): bits 1, 7 and 8 clear DONE, HAZ and ACCERR. -/
def Status.clearNamed (st : Status) (w : Word) : Status :=
  { st with done := st.done && !w.getLsbD 1, haz := st.haz && !w.getLsbD 7, accerr := st.accerr && !w.getLsbD 8 }

/-- ERROR as a word (R26): CODE [7:0], SUB [15:8], INFO [23:16]. -/
def ErrorReg.word (e : ErrorReg) : Word := 0#8 ++ e.info ++ e.sub ++ e.code

/-- IRQ_EN as a word (R27): DONE_IE bit 0, ERR_IE bit 1. -/
def IrqEnable.word (e : IrqEnable) : Word := 0#30 ++ BitVec.ofBool e.errIe ++ BitVec.ofBool e.doneIe

/-- IRQ_EN after a write (R27). -/
def IrqEnable.ofWord (w : Word) : IrqEnable := { doneIe := w.getLsbD 0, errIe := w.getLsbD 1 }

/-- FRAME_TYPE as a word (R28): SOF [7:0], P [15:8]. -/
def FrameType.word (f : FrameType) : Word := 0#16 ++ f.p ++ f.sof

/-- FRAME_TYPE after a write (R28). -/
def FrameType.ofWord (w : Word) : FrameType := { sof := w.extractLsb' 0 8, p := w.extractLsb' 8 8 }

/-- FRAME_SIZE as a word (R29): X [15:0], Y [31:16]. -/
def FrameSize.word (f : FrameSize) : Word := f.y ++ f.x

/-- FRAME_SIZE after a write (R29). -/
def FrameSize.ofWord (w : Word) : FrameSize := { x := w.extractLsb' 0 16, y := w.extractLsb' 16 16 }

/-- COMPi as a word (R31): H [3:0], V [7:4], TQ [11:8], TD [15:12], TA [19:16]. -/
def Comp.word (c : Comp) : Word := 0#12 ++ c.ta ++ c.td ++ c.tq ++ c.v ++ c.h

/-- COMPi after a write (R31). -/
def Comp.ofWord (w : Word) : Comp :=
  { h := w.extractLsb' 0 4, v := w.extractLsb' 4 4, tq := w.extractLsb' 8 4, td := w.extractLsb' 12 4,
    ta := w.extractLsb' 16 4 }

/-- BR_BITS as a word (R40): BYTE [7:0], CNT [11:8]. -/
def BrBits.word (b : BrBits) : Word := 0#20 ++ b.cnt ++ b.byte

/-- TABLE_VALID as a word (R44): QV [3:0], DV [7:4], AV [11:8]. -/
def TableValid.word (t : TableValid) : Word := 0#20 ++ t.av ++ t.dv ++ t.qv

/-- The valid bit of table `t` in one field of TABLE_VALID; ids 4 and above name no table (R44). -/
def tableDefined (v : BitVec 4) (t : Nat) : Bool := v.getLsbD t

/-- The field with the bit of table `t` set (R44). -/
def defineTable (v : BitVec 4) (t : Fin 4) : BitVec 4 := v ||| BitVec.twoPow 4 t.val

/-- Whether quantization table `t` is defined (R44). -/
def TableValid.quant (v : TableValid) (t : Nat) : Bool := tableDefined v.qv t

/-- Whether Huffman table `t` of class `c` is defined (R44). -/
def TableValid.huff (v : TableValid) (c : HuffClass) (t : Nat) : Bool :=
  match c with
  | .dc => tableDefined v.dv t
  | .ac => tableDefined v.av t

end Sys2Proof.Machine
end

