-- ==== Sys2Proof/Machine/Ops.lean ====
section
/-! DEFINITION. The named operations over memory and registers that the commands and the host's accesses share: the
buffers (spec/20_memory.md), the register updates, the engine's way of running pseudocode (spec/00_scope.md R12, R13),
error entry (spec/60_exceptions.md R218), which is how this block takes an exception, and the end of a command
(spec/42_control.md R161). There is no return from an error (R223): SOFT_RESET is the recovery, and `softReset` stands
beside error entry. -/

namespace Sys2Proof.Machine

/-! ## Buffers -/

/-- The byte stored at offset `a`, if one is. -/
def lookupCell : List Host.Cell → Nat → Option Byte
  | [], _ => none
  | (k, b) :: rest, a => if k = a then some b else lookupCell rest a

/-- Store `b` at offset `a`, keeping the offsets strictly rising. -/
def insertCell : List Host.Cell → Nat → Byte → List Host.Cell
  | [], a, b => [(a, b)]
  | (k, c) :: rest, a, b =>
    if a < k then (a, b) :: (k, c) :: rest
    else if a = k then (a, b) :: rest
    else (k, c) :: insertCell rest a b

/-- How often the contents of offset `a` became unspecified since power-on. -/
def Memory.lossCount (m : Memory) (a : Nat) : Nat :=
  (m.lost.filter fun r => decide (r.1 ≤ a ∧ a < r.1 + r.2)).length

/-- What an unlisted offset reads as: a free value (10_state R51, R52: contents unspecified). Log 4. -/
def Memory.unlisted (id : BufferId) (m : Memory) (a : Nat) : Byte := Config.unspecifiedByte id (m.lossCount a) a

/-- The byte at offset `a` (00_scope R12). -/
def Memory.read (id : BufferId) (m : Memory) (a : Nat) : Byte :=
  match lookupCell m.cells a with
  | some b => b
  | none => m.unlisted id a

/-- Store one byte (00_scope R12). -/
def Memory.write (m : Memory) (a : Nat) (b : Byte) : Memory := { m with cells := insertCell m.cells a b }

/-- Store bytes at the offsets the cells name, first to last. -/
def Memory.writeAll (m : Memory) : List Host.Cell → Memory
  | [] => m
  | (a, b) :: rest => Memory.writeAll (m.write a b) rest

/-- The contents of `len` bytes from offset `base` become unspecified (60_exceptions R220, 70_reset R241). -/
def Memory.forget (m : Memory) (base len : Nat) : Memory :=
  if len = 0 then m
  else { cells := m.cells.filter fun c => !decide (base ≤ c.1 ∧ c.1 < base + len), lost := (base, len) :: m.lost }

/-- The canonical form: offsets strictly rising. (No stored byte can equal what an unlisted offset reads as, which has
no stored value.) -/
abbrev Memory.wf (m : Memory) : Prop := List.Pairwise (fun c d => c.1 < d.1) m.cells

/-- Every listed offset lies within a buffer of `size` bytes. -/
abbrev Memory.within (m : Memory) (size : Nat) : Prop := ∀ c ∈ m.cells, c.1 < size

/-- IBUF[a]. -/
def State.ibufByte (s : State) (a : Nat) : Byte := s.ibuf.read .ibuf a

/-- OBUF[a]. -/
def State.obufByte (s : State) (a : Nat) : Byte := s.obuf.read .obuf a

/-! ## Register updates -/

def State.setBusy (s : State) (b : Bool) : State := { s with status := { s.status with busy := b } }
def State.setDone (s : State) (b : Bool) : State := { s with status := { s.status with done := b } }
def State.setHaz (s : State) : State := { s with status := { s.status with haz := true } }
def State.setAccErr (s : State) : State := { s with status := { s.status with accerr := true } }
def State.setFrameValid (s : State) : State := { s with status := { s.status with frameValid := true } }
def State.setScanActive (s : State) (b : Bool) : State := { s with status := { s.status with scanActive := b } }
def State.setScanDone (s : State) (b : Bool) : State := { s with status := { s.status with scanDone := b } }

/-- A marker was found: MARKER_SEEN and MARKER_CODE (10_state R24). -/
def State.setMarker (s : State) (m : Byte) : State :=
  { s with status := { s.status with markerSeen := true, markerCode := m } }

def State.setBrPos (s : State) (v : Word) : State := { s with brPos := v }
def State.setBrBits (s : State) (v : BrBits) : State := { s with brBits := v }
def State.setResult (s : State) (v : Word) : State := { s with result := v }
def State.setSrcPtr (s : State) (v : Word) : State := { s with srcPtr := v }
def State.setMcuIndex (s : State) (v : Word) : State := { s with mcuIndex := v }
def State.setPred (s : State) (i : Fin 3) (v : Word) : State := { s with pred := s.pred.set i.val v }
def State.setObuf (s : State) (m : Memory) : State := { s with obuf := m }
def State.setIbuf (s : State) (m : Memory) : State := { s with ibuf := m }
def State.setSchedule (s : State) (l : List Turn) : State := { s with schedule := l }
def State.setReadData (s : State) (v : Word) : State := { s with readData := v }
def State.countDraw (s : State) : State := { s with draws := s.draws + 1 }

/-- Quantization table `t` is replaced whole and becomes defined (41_tables R136, R137). -/
def State.storeQuant (s : State) (t : Fin 4) (q : QuantTable) : State :=
  { s with quant := s.quant.set t.val q, tableValid := { s.tableValid with qv := defineTable s.tableValid.qv t } }

/-- Huffman table `t` of class `c` is replaced whole and becomes defined (41_tables R139, R140). -/
def State.storeHuff (s : State) (c : HuffClass) (t : Fin 4) (h : HuffTable) : State :=
  match c with
  | .dc =>
    { s with dcTable := s.dcTable.set t.val h
             tableValid := { s.tableValid with dv := defineTable s.tableValid.dv t } }
  | .ac =>
    { s with acTable := s.acTable.set t.val h
             tableValid := { s.tableValid with av := defineTable s.tableValid.av t } }

/-- HT[c][t] (10_state R49). -/
def State.huffTable (s : State) (c : HuffClass) (t : Fin 4) : HuffTable :=
  match c with
  | .dc => s.dcTable[t.val]
  | .ac => s.acTable[t.val]

/-! ## Running pseudocode -/

/-- The error codes a command can raise or the host reports (60_exceptions R215). -/
inductive ErrorCode where
  | malformedHeader | unsupportedFeature | undefinedTableReference | noMatchingHuffmanCode | scanWithoutFrame
  | unexpectedEndOfData | invalidTableDefinition | corruptEntropyData | invalidCommand | invalidConfiguration
deriving DecidableEq, Repr

/-- The number in ERROR.CODE (60_exceptions R215). -/
def ErrorCode.toByte : ErrorCode → Byte
  | .malformedHeader => 0x01#8
  | .unsupportedFeature => 0x02#8
  | .undefinedTableReference => 0x03#8
  | .noMatchingHuffmanCode => 0x04#8
  | .scanWithoutFrame => 0x05#8
  | .unexpectedEndOfData => 0x06#8
  | .invalidTableDefinition => 0x07#8
  | .corruptEntropyData => 0x08#8
  | .invalidCommand => 0x09#8
  | .invalidConfiguration => 0x0A#8

/-- `raise E(sub)` with its INFO (00_scope R12, 60_exceptions R216). -/
structure Raise where
  code : ErrorCode
  sub  : Byte
  info : Byte
deriving DecidableEq, Repr

/-- What ends the pseudocode of a command early: an error of the block, or a fault of the model. -/
inductive Stop where
  | raised (e : Raise)
  | faulted (f : Fault)
deriving DecidableEq, Repr

/-- A piece of pseudocode (00_scope R13): lines run in order, and a line that raises keeps every write made before it. -/
abbrev Engine := EStateM Stop State

/-- `raise` (00_scope R12). -/
def raise {α : Type} (e : Raise) : Engine α := throw (.raised e)

/-- The model's own stop. -/
def faultWith {α : Type} (f : Fault) : Engine α := throw (.faulted f)

/-- `if b: raise e`. -/
def failIf (b : Bool) (e : Raise) : Engine Unit := if b then raise e else pure ()

/-- The byte IBUF[a] as the engine reads it (20_memory R81). -/
def engineRead (a : Nat) : Engine Byte := do
  let s ← get
  if a < s.params.ibufBytes then pure (s.ibufByte a) else faultWith (.ibufOutOfRange a)

/-- The bytes IBUF[a .. a + n - 1], read at rising offsets (20_memory R78). -/
def engineReadBytes (a n : Nat) : Engine (Vector Byte n) := do
  let s ← get
  if a + n ≤ s.params.ibufBytes then pure (Vector.ofFn fun i => s.ibufByte (a + i.val))
  else faultWith (.ibufOutOfRange (a + n))

/-- The engine's writes OBUF[a] <- b (20_memory R81). -/
def engineStore (cells : List Host.Cell) : Engine Unit := do
  let s ← get
  match cells.find? fun c => !decide (c.1 < s.params.obufBytes) with
  | none => set (s.setObuf (s.obuf.writeAll cells))
  | some c => faultWith (.obufOutOfRange c.1)

/-- A table id a component selects (10_state R31). -/
def tableId (sel : BitVec 4) : Engine (Fin 4) :=
  if h : sel.toNat < 4 then pure ⟨sel.toNat, h⟩ else faultWith (.noSuchTable sel.toNat)

/-! ## Error entry, end of a command, recovery -/

/-- Error entry (60_exceptions R218), with the BUSY <- 0 that follows it in the same engine step (42_control R161).
DONE keeps its value, which is 0 while a command executes. -/
def State.enterError (s : State) (e : Raise) : State :=
  { s with
    status := { s.status with err := true, scanActive := false, busy := false }
    error := { code := e.code.toByte, sub := e.sub, info := e.info } }

/-- The end of a command that did not raise (42_control R161). -/
def State.complete (s : State) : State := { s with status := { s.status with done := true, busy := false } }

/-- Run a command's pseudocode to its end or to its first `raise` (42_control R161). -/
def runCommand (m : Engine Unit) (s : State) : Host.Outcome State Fault Refusal :=
  match m.run s with
  | .ok _ s' => .next s'.complete
  | .error (.raised e) s' => .next (s'.enterError e)
  | .error (.faulted f) _ => .fault f

/-- The bytes of the sample grid (60_exceptions R220): offset and length. -/
def State.gridBase (s : State) : Nat := s.outBase.toNat
def State.gridBytes (s : State) : Nat := 3 * s.frameSize.x.toNat * s.frameSize.y.toNat

/-- The sample grid becomes any value (60_exceptions R220). Log 5. -/
def State.forgetGrid (s : State) : State := s.setObuf (s.obuf.forget s.gridBase s.gridBytes)

/-- Run DECODE_MCU's or DECODE_SCAN's pseudocode: as `runCommand`, and after an error the sample grid is any value
(60_exceptions R220). -/
def runDecode (m : Engine Unit) (s : State) : Host.Outcome State Fault Refusal :=
  match m.run s with
  | .ok _ s' => .next s'.complete
  | .error (.raised e) s' => .next (s'.enterError e).forgetGrid
  | .error (.faulted f) _ => .fault f

/-- Every register of 70_reset R240 at its reset value; CMD, the buffers and the tables' contents as they are
(42_control R163, 70_reset R241). PEND's reset value is unspecified: a free value (log 7). -/
def State.clearRegisters (s : State) : State :=
  { State.reset with
    params := s.params, cmd := s.cmd, quant := s.quant, dcTable := s.dcTable, acTable := s.acTable
    ibuf := s.ibuf, obuf := s.obuf, schedule := s.schedule, readData := s.readData, draws := s.draws
    pend := Config.unspecifiedPend s.resets, resets := s.resets + 1 }

end Sys2Proof.Machine
end

