-- ==== Sys2Proof/Machine/Operands.lean ====
section
/-! DEFINITION. Every operand form of the commands (spec/30_encoding.md R91, R94): the bit count of READ_BITS, the
class and table id of HUFF_DECODE, and the check of the scan state that a command makes before it does anything
(spec/60_exceptions.md R216, InvalidCommand(3)). Forms that no command has (reserved opcodes, bits that must be 0) are
rejected by the decoder and raised by `decodeFailure`. -/

namespace Sys2Proof.Machine

/-- Operand A of READ_BITS as a bit count: above 16 raises InvalidCommand(4), INFO = n (R94, 60_exceptions R216). -/
def bitCount (n : Byte) : Engine Nat :=
  if n.toNat ≤ 16 then pure n.toNat else raise ⟨.invalidCommand, 4#8, n⟩

/-- Operand A of HUFF_DECODE as a class: above 1 raises InvalidCommand(2), INFO = OP (R94, 60_exceptions R216). -/
def huffClass (c : Byte) : Engine HuffClass :=
  if c = 0#8 then pure .dc
  else if c = 1#8 then pure .ac
  else raise ⟨.invalidCommand, 2#8, Opcode.huffDecode.toByte⟩

/-- Operand B of HUFF_DECODE as a table that is defined: else UndefinedTableReference(2 + c), INFO = t (41_tables R147). -/
def definedHuffTable (c : HuffClass) (t : Byte) : Engine (Fin 4) := do
  let s ← get
  if h : t.toNat < 4 then
    if s.tableValid.huff c t.toNat then pure ⟨t.toNat, h⟩ else raise (undefinedTable c t)
  else raise (undefinedTable c t)
where
  undefinedTable (c : HuffClass) (t : Byte) : Raise :=
    match c with
    | .dc => ⟨.undefinedTableReference, 2#8, t⟩
    | .ac => ⟨.undefinedTableReference, 3#8, t⟩

/-- `if STATUS.SCAN_ACTIVE = 0: raise InvalidCommand(3)`, INFO = OP (60_exceptions R216). -/
def requireScan (op : Opcode) : Engine Unit := do
  let s ← get
  failIf (!s.status.scanActive) ⟨.invalidCommand, 3#8, op.toByte⟩

/-- `if STATUS.SCAN_ACTIVE = 1: raise InvalidCommand(3)`, INFO = OP (60_exceptions R216). -/
def requireNoScan (op : Opcode) : Engine Unit := do
  let s ← get
  failIf s.status.scanActive ⟨.invalidCommand, 3#8, op.toByte⟩

/-- The error a word that is no command raises when it executes: InvalidCommand(1) for a reserved opcode (R93),
InvalidCommand(2) for a bit that must be 0 (R94), INFO = OP (60_exceptions R216). A word is never incomplete. -/
def decodeFailure (w : Word) : DecodeError → Raise
  | .reservedOpcode op => ⟨.invalidCommand, 1#8, op⟩
  | .illegalField op => ⟨.invalidCommand, 2#8, op⟩
  | .incomplete => ⟨.invalidCommand, 1#8, opField w⟩

/-- The engine's step on a pending word that is no command: error entry, and for the opcodes of DECODE_MCU and
DECODE_SCAN the sample grid is any value (60_exceptions R220). Log 5, log 15. -/
def rejectWord (w : Word) (e : DecodeError) (s : State) : State :=
  if opField w = Opcode.decodeMcu.toByte ∨ opField w = Opcode.decodeScan.toByte then
    (s.enterError (decodeFailure w e)).forgetGrid
  else s.enterError (decodeFailure w e)

end Sys2Proof.Machine
end

