-- ==== Sys2Proof/Machine/BitReader.lean ====
section
/-! DEFINITION. The bit reader (spec/40_bit_reader.md): byte fetch with stuffing removal (R121), bit and n-bit reads
(R122, R123), the end-of-scan probe (R127), and READ_BITS (R125). Every read carries the INFO that
UnexpectedEndOfData records where it is used (spec/60_exceptions.md R216). -/

namespace Sys2Proof.Machine

/-- Offset in IBUF of the next payload byte (10_state R39). -/
def State.payloadPos (s : State) : Nat := s.inBase.toNat + s.brPos.toNat

/-- `raise UnexpectedEndOfData(sub)`. -/
def endOfData {α : Type} (sub info : Byte) : Engine α := raise ⟨.unexpectedEndOfData, sub, info⟩

/-- `fetch_byte()` (R121). -/
def fetchByte (info : Byte) : Engine Byte := do
  let s ← get
  if s.status.markerSeen then endOfData 2#8 info
  else if s.inLen.toNat ≤ s.brPos.toNat then endOfData 1#8 info
  else do
    let b ← engineRead s.payloadPos
    if b ≠ 0xFF#8 then do
      set (s.setBrPos (s.brPos + 1#32))
      pure b
    else if s.inLen.toNat ≤ s.brPos.toNat + 1 then endOfData 3#8 info
    else do
      let m ← engineRead (s.payloadPos + 1)
      if m = 0x00#8 then do
        set (s.setBrPos (s.brPos + 2#32))
        pure 0xFF#8
      else do
        set (s.setMarker m)
        endOfData 2#8 info

/-- Fetch a byte when no bit is pending (R122). -/
def refill (info : Byte) : Engine Unit := do
  let s ← get
  if s.brBits.cnt = 0#4 then do
    let b ← fetchByte info
    modify fun t => t.setBrBits { byte := b, cnt := 8#4 }
  else pure ()

/-- Take the pending bit BYTE[CNT - 1] (R122). -/
def takeBit : Engine Bool := do
  let s ← get
  set (s.setBrBits { s.brBits with cnt := s.brBits.cnt - 1#4 })
  pure (s.brBits.byte.getLsbD (s.brBits.cnt - 1#4).toNat)

/-- `readBit()` (R122). -/
def readBit (info : Byte) : Engine Bool := do
  refill info
  takeBit

/-- The loop of `readBits` (R123), `v` being the value assembled so far. -/
def readBitsFrom (info : Byte) : Nat → Nat → Engine Nat
  | 0, v => pure v
  | n + 1, v => do
    let b ← readBit info
    readBitsFrom info n (2 * v + b.toNat)

/-- `readBits(n)` (R123). -/
def readBits (info : Byte) (n : Nat) : Engine Nat := readBitsFrom info n 0

/-- Whether the payload's next unit is a marker (R127). -/
def State.markerNext (s : State) : Bool :=
  decide (s.brPos.toNat + 1 < s.inLen.toNat) && s.ibufByte s.payloadPos == 0xFF#8
    && s.ibufByte (s.payloadPos + 1) != 0x00#8

/-- `probe_marker()` (R127). -/
def State.probeMarker (s : State) : State :=
  if !s.status.markerSeen && s.markerNext then s.setMarker (s.ibufByte (s.payloadPos + 1)) else s

/-- READ_BITS's pseudocode (R125). -/
def readBitsCommand (n : Byte) : Engine Unit := do
  let k ← bitCount n
  requireScan .readBits
  let v ← readBits 0#8 k
  modify fun t => t.setResult (BitVec.ofNat 32 v)

/-- READ_BITS n (R125). -/
def execReadBits (n : Byte) (s : State) : Host.Outcome State Fault Refusal := runCommand (readBitsCommand n) s

end Sys2Proof.Machine
end

