-- ==== Sys2Proof/Machine/Tables.lean ====
section
/-! DEFINITION. The table builder and the Huffman decoder (spec/41_tables.md): the zig-zag order (spec/30_encoding.md
R103), LOAD_DQT (R135 to R137), LOAD_DHT with the canonical construction (R138 to R144), symbol decode (R145) and
HUFF_DECODE (R147). -/

namespace Sys2Proof.Machine

/-- ZZ: the natural index of the i-th coefficient in zig-zag order (30_encoding R103). PRESUMED by the spec, log 14. -/
def zigzag : Vector (Fin 64) 64 :=
  #v[0, 1, 8, 16, 9, 2, 3, 10,
     17, 24, 32, 25, 18, 11, 4, 5,
     12, 19, 26, 33, 40, 48, 41, 34,
     27, 20, 13, 6, 7, 14, 21, 28,
     35, 42, 49, 56, 57, 50, 43, 36,
     29, 22, 15, 23, 30, 37, 44, 51,
     58, 59, 52, 45, 38, 31, 39, 46,
     53, 60, 61, 54, 47, 55, 62, 63]

/-- ZZ[i]. -/
def zz (i : Fin 64) : Fin 64 := zigzag[i.val]

/-! ## Quantization tables -/

/-- `raise InvalidTableDefinition(sub, info = h)` (R136, R139). -/
def badTable {α : Type} (sub h : Byte) : Engine α := raise ⟨.invalidTableDefinition, sub, h⟩

/-- High nibble of a record's first byte: Pq or Tc (30_encoding R97, R98). -/
def headerHigh (h : Byte) : Nat := h.toNat / 16

/-- Low nibble of a record's first byte: Tq or Th (30_encoding R97, R98). -/
def headerLow (h : Byte) : Nat := h.toNat % 16

/-- Element `i` of a quantization record, in zig-zag order, from its element bytes: one byte, or two with the first the
high one (R136, 20_memory R79). -/
def quantElement {n : Nat} (pq : Nat) (bytes : Vector Byte n) (i : Fin 64) (h : n = 64 * (pq + 1)) (hp : pq ≤ 1) :
    BitVec 16 :=
  if h0 : pq = 0 then (bytes[i.val]'(by subst h0; omega)).setWidth 16
  else (bytes[2 * i.val]'(by have : pq = 1 := by omega
                             subst this; omega)) ++ (bytes[2 * i.val + 1]'(by have : pq = 1 := by omega
                                                                              subst this; omega))

/-- The table in natural order from its elements in zig-zag order: tmp[ZZ[i]] <- e_i (R136). -/
def unzigzag (e : Fin 64 → BitVec 16) : QuantTable :=
  (List.finRange 64).foldl (fun tmp i => tmp.set (zz i).val (e i)) (Vector.replicate 64 0#16)

/-- Checks of R135, which LOAD_DHT makes too (R138). -/
def loadChecks (op : Opcode) : Engine Unit := do
  requireNoScan op
  let s ← get
  failIf (decide (s.params.ibufBytes < s.srcEnd.toNat ∨ s.srcEnd.toNat < s.srcPtr.toNat))
    ⟨.invalidConfiguration, 1#8, 0#8⟩

/-- One record of a quantization payload: one turn of R136's loop. -/
def loadQuantRecord : Engine Unit := do
  let s ← get
  let p := s.srcPtr.toNat
  let h ← engineRead p
  if hpq : headerHigh h ≤ 1 then
    if htq : headerLow h ≤ 3 then
      if s.srcEnd.toNat < p + (1 + 64 * (headerHigh h + 1)) then badTable 5#8 h
      else do
        let bytes ← engineReadBytes (p + 1) (64 * (headerHigh h + 1))
        set ((s.storeQuant ⟨headerLow h, by omega⟩
            (unzigzag fun i => quantElement (headerHigh h) bytes i rfl hpq)).setSrcPtr
          (BitVec.ofNat 32 (p + (1 + 64 * (headerHigh h + 1)))))
    else badTable 2#8 h
  else badTable 1#8 h

/-- `while SRC_PTR < SRC_END`, running one record's pseudocode at a time; every record advances SRC_PTR, so the number
of bytes left bounds the turns (70_reset R246). -/
def loadRecords (record : Engine Unit) : Nat → Engine Unit
  | 0 => pure ()
  | n + 1 => do
    let s ← get
    if s.srcPtr.toNat < s.srcEnd.toNat then do
      record
      loadRecords record n
    else pure ()

/-- The loop from the present SRC_PTR. -/
def loadAll (record : Engine Unit) : Engine Unit := do
  let s ← get
  loadRecords record (s.srcEnd.toNat - s.srcPtr.toNat)

/-- LOAD_DQT's pseudocode (R136). -/
def loadDqtCommand : Engine Unit := do
  loadChecks .loadDqt
  loadAll loadQuantRecord

/-- LOAD_DQT (R136). -/
def execLoadDqt (s : State) : Host.Outcome State Fault Refusal := runCommand loadDqtCommand s

/-! ## Canonical construction -/

/-- cnt[L], the number of codes of length L; 0 outside 1..16. -/
def countAt (cnt : Vector Byte 16) (len : Nat) : Nat :=
  if h : 1 ≤ len ∧ len ≤ 16 then (cnt[len - 1]'(by omega)).toNat else 0

/-- The running code value before the codes of length `len` are assigned: FIRSTCODE[len] (R141). -/
def codeBefore (cnt : Vector Byte 16) : Nat → Nat
  | 0 => 0
  | len + 1 => 2 * (codeBefore cnt len + countAt cnt len)

/-- The number of symbols of lengths below `len`: VALPTR[len] (R141). -/
def symbolsBefore (cnt : Vector Byte 16) : Nat → Nat
  | 0 => 0
  | len + 1 => symbolsBefore cnt len + countAt cnt len

/-- The number of symbols: cnt[1] + ... + cnt[16] (R139). -/
def symbolCount (cnt : Vector Byte 16) : Nat := symbolsBefore cnt 17

/-- The codes of every length fit (R141, R142): `canonical` returns true. -/
def codesFit (cnt : Vector Byte 16) : Bool :=
  (List.finRange 16).all fun i => decide (codeBefore cnt (i.val + 1) + countAt cnt (i.val + 1) ≤ 2 ^ (i.val + 1))

/-- The table R139 stores: the counts, the symbols and the arrays of `canonical(cnt)` (R141). -/
def buildTable (cnt : Vector Byte 16) (symbols : List Byte) : HuffTable :=
  { count := cnt
    nsym := BitVec.ofNat 9 (symbolCount cnt)
    huffval := symbols
    firstCode := Vector.ofFn fun i => BitVec.ofNat 17 (codeBefore cnt (i.val + 1))
    valPtr := Vector.ofFn fun i => BitVec.ofNat 9 (symbolsBefore cnt (i.val + 1)) }

/-! ## Huffman tables -/

/-- The class a record's Tc names (R139). -/
def classOf (tc : Nat) : HuffClass := if tc = 0 then .dc else .ac

/-- One record of a Huffman payload: one turn of R139's loop. -/
def loadHuffRecord : Engine Unit := do
  let s ← get
  let p := s.srcPtr.toNat
  let h ← engineRead p
  if headerHigh h ≤ 1 then
    if hth : headerLow h ≤ 3 then
      if s.srcEnd.toNat < p + 17 then badTable 5#8 h
      else do
        let cnt ← engineReadBytes (p + 1) 16
        if 256 < symbolCount cnt then badTable 6#8 h
        else if s.srcEnd.toNat < p + 17 + symbolCount cnt then badTable 5#8 h
        else if !codesFit cnt then badTable 7#8 h
        else do
          let symbols ← engineReadBytes (p + 17) (symbolCount cnt)
          set ((s.storeHuff (classOf (headerHigh h)) ⟨headerLow h, by omega⟩
              (buildTable cnt symbols.toList)).setSrcPtr (BitVec.ofNat 32 (p + 17 + symbolCount cnt)))
    else badTable 4#8 h
  else badTable 3#8 h

/-- LOAD_DHT's pseudocode (R139). -/
def loadDhtCommand : Engine Unit := do
  loadChecks .loadDht
  loadAll loadHuffRecord

/-- LOAD_DHT (R139). -/
def execLoadDht (s : State) : Host.Outcome State Fault Refusal := runCommand loadDhtCommand s

/-! ## Symbol decode -/

/-- HUFFVAL[k]; beyond the stored symbols the spec gives no value (R139). Log 9. -/
def symbolAt (t : HuffTable) (k : Nat) : Byte :=
  match t.huffval[k]? with
  | some b => b
  | none => Config.unspecifiedSymbol t.huffval k

/-- The symbol whose code of length `i + 1` is `code`, if the table has one (R145). -/
def matchCode (t : HuffTable) (i code : Nat) : Option Byte :=
  if h : i < 16 then
    if 0 < t.count[i].toNat ∧ t.firstCode[i].toNat ≤ code ∧ code < t.firstCode[i].toNat + t.count[i].toNat then
      some (symbolAt t (t.valPtr[i].toNat + code - t.firstCode[i].toNat))
    else none
  else none

/-- The loop of R145: `n` lengths are left, `i` bits have been read, and their value is `code`. -/
def huffLoop (t : HuffTable) (sub info : Byte) : Nat → Nat → Nat → Engine Byte
  | 0, _, _ => raise ⟨.noMatchingHuffmanCode, sub, info⟩
  | n + 1, i, code => do
    let b ← readBit info
    match matchCode t i (2 * code + b.toNat) with
    | some v => pure v
    | none => huffLoop t sub info n (i + 1) (2 * code + b.toNat)

/-- `huff_decode(c, t, sub, info)` on a table (R145). -/
def huffSymbol (t : HuffTable) (sub info : Byte) : Engine Byte := huffLoop t sub info 16 0 0

/-- HUFF_DECODE's pseudocode (R147). -/
def huffDecodeCommand (c t : Byte) : Engine Unit := do
  let cls ← huffClass c
  requireScan .huffDecode
  let id ← definedHuffTable cls t
  let s ← get
  let v ← huffSymbol (s.huffTable cls id) 1#8 t
  modify fun u => u.setResult (v.setWidth 32)

/-- HUFF_DECODE c, t (R147). -/
def execHuffDecode (c t : Byte) (s : State) : Host.Outcome State Fault Refusal := runCommand (huffDecodeCommand c t) s

end Sys2Proof.Machine
end

