-- ==== Sys2Proof/Machine/Block.lean ====
section
/-! DEFINITION. The block decoder (spec/43_block_decoder.md): magnitude extension (R183), DC decode with prediction
(R181, R182, R184), AC run-length decode with dequantization and zig-zag placement (R185 to R187), and the whole block
(R188). The coefficient array is transient: it is no part of State (R180). -/

namespace Sys2Proof.Machine

/-- The coefficients of one block in natural order, each an s32 (R180). -/
abbrev Coefs := Vector Word 64

/-- Every coefficient 0 (R188). -/
def zeroCoefs : Coefs := Vector.replicate 64 0#32

/-- `extend(v, t)` (R183). -/
def extend (v t : Nat) : Int :=
  if t = 0 then 0
  else if v < 2 ^ (t - 1) then (v : Int) - (2 ^ t - 1)
  else (v : Int)

/-- `raise CorruptEntropyData(sub, info)` (R181, R185). -/
def corrupt {α : Type} (sub info : Byte) : Engine α := raise ⟨.corruptEntropyData, sub, info⟩

/-- PREDi after a difference, modulo 2^32 (R182). -/
def nextPred (p : Word) (diff : Int) : Word := BitVec.ofInt 32 (p.toInt + diff)

/-- A value times a quantization element, as an s32 (R184, R187). -/
def dequant (v : Int) (q : BitVec 16) : Word := BitVec.ofInt 32 (v * (q.toNat : Int))

/-- The INFO of an error in a block: the component index (60_exceptions R216). -/
def compInfo (i : Fin 3) : Byte := BitVec.ofNat 8 i.val

/-- The DC part of `decode_block(i)` (R181): it moves PREDi and returns F[0]. -/
def decodeDc (i : Fin 3) (dc : HuffTable) (q : QuantTable) : Engine Word := do
  let t ← huffSymbol dc 2#8 (compInfo i)
  if 16 < t.toNat then corrupt 1#8 (compInfo i)
  else do
    let v ← readBits (compInfo i) t.toNat
    let s ← get
    set (s.setPred i (nextPred s.pred[i.val] (extend v t.toNat)))
    pure (dequant (nextPred s.pred[i.val] (extend v t.toNat)).toInt q[0])

/-- The loop of R185 from zig-zag index `k`; every turn advances `k`, so 63 turns reach its end. -/
def decodeAcFrom (i : Fin 3) (ac : HuffTable) (q : QuantTable) : Nat → Nat → Coefs → Engine Coefs
  | 0, _, f => pure f
  | n + 1, k, f =>
    if k ≤ 63 then do
      let rs ← huffSymbol ac 3#8 (compInfo i)
      let r := rs.toNat / 16
      let sz := rs.toNat % 16
      if sz = 0 then
        if r = 0 then pure f
        else if r = 15 then
          if 64 < k + 16 then corrupt 4#8 (compInfo i)
          else decodeAcFrom i ac q n (k + 16) f
        else corrupt 2#8 (compInfo i)
      else if h : k + r < 64 then do
        let v ← readBits (compInfo i) sz
        decodeAcFrom i ac q n (k + r + 1)
          (f.set (zz ⟨k + r, h⟩).val (dequant (extend v sz) q[(zz ⟨k + r, h⟩).val]))
      else corrupt 3#8 (compInfo i)
    else pure f

/-- The AC part of `decode_block(i)` (R185). -/
def decodeAc (i : Fin 3) (ac : HuffTable) (q : QuantTable) (f : Coefs) : Engine Coefs := decodeAcFrom i ac q 63 1 f

/-- `decode_block(i)` (R188), with the tables COMPi selects (R180). -/
def decodeBlock (i : Fin 3) : Engine Coefs := do
  let s ← get
  let tq ← tableId s.comp[i.val].tq
  let td ← tableId s.comp[i.val].td
  let ta ← tableId s.comp[i.val].ta
  let f0 ← decodeDc i s.dcTable[td.val] s.quant[tq.val]
  decodeAc i s.acTable[ta.val] s.quant[tq.val] (zeroCoefs.set 0 f0)

/-- The blocks of an MCU, in the order of the components (42_control R169). -/
def decodeBlocks : List (Fin 3) → Engine (List Coefs)
  | [] => pure []
  | i :: rest => do
    let f ← decodeBlock i
    let fs ← decodeBlocks rest
    pure (f :: fs)

end Sys2Proof.Machine
end

