-- ==== Sys2Proof/Machine/Reconstruct.lean ====
section
/-! DEFINITION. Reconstruction (spec/44_reconstruction.md): the exact integer inverse DCT (R201, R202), level shift and
clamp (R204, R205), colour conversion (R207 to R209), and the pixels of an MCU with their places in OBUF (R211). -/

namespace Sys2Proof.Machine

/-- The constant matrix K[p][f] (R201). -/
def idctConst : Vector (Vector Int 8) 8 :=
  #v[#v[2896,  4017,  3784,  3406,  2896,  2276,  1567,   799],
     #v[2896,  3406,  1567,  -799, -2896, -4017, -3784, -2276],
     #v[2896,  2276, -1567, -4017, -2896,   799,  3784,  3406],
     #v[2896,   799, -3784, -2276,  2896,  3406, -1567, -4017],
     #v[2896,  -799, -3784,  2276,  2896, -3406, -1567,  4017],
     #v[2896, -2276, -1567,  4017, -2896,  -799,  3784, -3406],
     #v[2896, -3406,  1567,   799, -2896,  4017, -3784,  2276],
     #v[2896, -4017,  3784, -3406,  2896, -2276,  1567,  -799]]

/-- K[p][f]. -/
def kc (p f : Fin 8) : Int := idctConst[p.val][f.val]

/-- Natural index 8*row + col (00_scope R15, PRESUMED by the spec, log 14). -/
def natIndex (row col : Fin 8) : Fin 64 := ⟨8 * row.val + col.val, by omega⟩

/-- Row and column of a natural index. -/
def rowOf (n : Fin 64) : Fin 8 := ⟨n.val / 8, by omega⟩
def colOf (n : Fin 64) : Fin 8 := ⟨n.val % 8, by omega⟩

/-- The sum of eight terms. -/
def sum8 (f : Fin 8 → Int) : Int := ((List.finRange 8).map f).sum

/-- Pass 1 of R202: T[v][x], rows over the horizontal frequency. -/
def idctRows (f : Coefs) : Vector Int 64 :=
  Vector.ofFn fun n => sum8 fun u => kc (colOf n) u * (f[(natIndex (rowOf n) u).val]).toInt

/-- Pass 2 of R202: S[y][x], columns over the vertical frequency. -/
def idctCols (t : Vector Int 64) : Vector Int 64 :=
  Vector.ofFn fun n => sum8 fun v => kc (rowOf n) v * t[(natIndex v (colOf n)).val]

/-- The one rounding of R202: (S + 2^25) >> 26, rounding half up. -/
def idctRound (s : Int) : Int := (s + 2 ^ 25) / 2 ^ 26

/-- `idct(F)` (R202). -/
def idct (f : Coefs) : Vector Int 64 := (idctCols (idctRows f)).map idctRound

/-- `clamp(v, 0, 255)` as a byte (00_scope R11). -/
def clampByte (v : Int) : Byte := BitVec.ofInt 8 (min 255 (max 0 v))

/-- The 64 samples of a block. -/
abbrev Samples := Vector Byte 64

/-- `reconstruct(F)` (R204, R205). -/
def reconstruct (f : Coefs) : Samples := (idct f).map fun v => clampByte (v + 128)

/-! ## Colour conversion -/

/-- Rounding to nearest of a value scaled by 10^6, ties upward (R208). -/
def roundMillion (v : Int) : Int := (v + 500000) / 1000000

/-- `ycc_to_rgb(Y, Cb, Cr)` (R207): R, G, B. -/
def yccToRgb (y cb cr : Byte) : Byte × Byte × Byte :=
  let yy : Int := y.toNat
  let b : Int := (cb.toNat : Int) - 128
  let r : Int := (cr.toNat : Int) - 128
  (clampByte (roundMillion (1000000 * yy + 1402000 * r)),
   clampByte (roundMillion (1000000 * yy - 344136 * b - 714136 * r)),
   clampByte (roundMillion (1000000 * yy + 1772000 * b)))

/-- The chroma of a one-component frame: 128 everywhere (R209). -/
def grayPlane : Samples := Vector.replicate 64 128#8

/-- The Y, Cb and Cr samples of an MCU with 1 or 3 components (R209, R211); BEGIN_SCAN admits no other number. -/
def colourPlanes : List Samples → Option (Samples × Samples × Samples)
  | [y] => some (y, grayPlane, grayPlane)
  | [y, cb, cr] => some (y, cb, cr)
  | _ => none

/-! ## Writing the sample grid -/

/-- `ceil_div(a, 8)` (00_scope R11). -/
def ceilDiv8 (a : Nat) : Nat := (a + 7) / 8

/-- MCUs per row: MW (42_control R165). -/
def State.mcusPerRow (s : State) : Nat := ceilDiv8 s.frameSize.x.toNat

/-- OBUF offset of pixel (x, y) (R211). -/
def State.pixelAddr (s : State) (x y : Nat) : Nat := s.outBase.toNat + 3 * (y * s.frameSize.x.toNat + x)

/-- The three stores of the pixel at sample `n` of MCU (mx, my); none for a padding pixel (R211). -/
def State.pixelCells (s : State) (mx my : Nat) (planes : Samples × Samples × Samples) (n : Fin 64) : List Host.Cell :=
  let x := 8 * mx + n.val % 8
  let y := 8 * my + n.val / 8
  if x < s.frameSize.x.toNat ∧ y < s.frameSize.y.toNat then
    let rgb := yccToRgb planes.1[n.val] planes.2.1[n.val] planes.2.2[n.val]
    [(s.pixelAddr x y, rgb.1), (s.pixelAddr x y + 1, rgb.2.1), (s.pixelAddr x y + 2, rgb.2.2)]
  else []

/-- The stores of `write_mcu(mx, my, smp)`, in raster order of the block (R211). -/
def State.mcuCells (s : State) (mx my : Nat) (smp : List Samples) : List Host.Cell :=
  match colourPlanes smp with
  | some planes => (List.finRange 64).flatMap (s.pixelCells mx my planes)
  | none => []

end Sys2Proof.Machine
end

