-- ==== Sys2Proof/Machine/Control.lean ====
section
/-! DEFINITION. Frame and scan control (spec/42_control.md): NOP, SOFT_RESET, SET_FRAME, BEGIN_SCAN, END_SCAN,
DECODE_MCU and DECODE_SCAN. -/

namespace Sys2Proof.Machine

/-! ## NOP, SOFT_RESET, SET_FRAME, END_SCAN -/

/-- NOP's pseudocode: nothing beyond the handshake (R162). -/
def nopCommand : Engine Unit := pure ()

/-- NOP (R162). -/
def execNop (s : State) : Host.Outcome State Fault Refusal := runCommand nopCommand s

/-- SOFT_RESET (R163): no field check, no DONE, BUSY ends at 0 (R161). -/
def execSoftReset (s : State) : Host.Outcome State Fault Refusal := .next s.clearRegisters

/-- SET_FRAME's pseudocode (R164). -/
def setFrameCommand : Engine Unit := do
  requireNoScan .setFrame
  modify fun s => s.setFrameValid

/-- SET_FRAME (R164). -/
def execSetFrame (s : State) : Host.Outcome State Fault Refusal := runCommand setFrameCommand s

/-- END_SCAN's pseudocode (R168). -/
def endScanCommand : Engine Unit := modify fun s => s.setScanActive false

/-- END_SCAN (R168). -/
def execEndScan (s : State) : Host.Outcome State Fault Refusal := runCommand endScanCommand s

/-! ## BEGIN_SCAN -/

/-- The frame's components: 0 .. NF - 1 of the three the block has (R166, R169). -/
def State.frameComps (s : State) : List (Fin 3) := (List.finRange 3).take s.frameNcomp.toNat

/-- MCU_TOTAL of the frame (R165). -/
def State.mcuCount (s : State) : Nat := ceilDiv8 s.frameSize.y.toNat * ceilDiv8 s.frameSize.x.toNat

/-- The sampling factors of component `i` are 1 (R166). -/
def State.samplingOk (s : State) (i : Fin 3) : Bool := s.comp[i.val].h == 1#4 && s.comp[i.val].v == 1#4

/-- The first of R166's table checks of component `i` that fails. -/
def State.tableError (s : State) (i : Fin 3) : Option Raise :=
  if !s.tableValid.quant s.comp[i.val].tq.toNat then some ⟨.undefinedTableReference, 1#8, compInfo i⟩
  else if !s.tableValid.huff .dc s.comp[i.val].td.toNat then some ⟨.undefinedTableReference, 2#8, compInfo i⟩
  else if !s.tableValid.huff .ac s.comp[i.val].ta.toNat then some ⟨.undefinedTableReference, 3#8, compInfo i⟩
  else none

/-- The first of R166's checks that fails, in the order of its lines (60_exceptions R221). The sums and the product
are exact. -/
def State.scanError (s : State) : Option Raise :=
  if s.status.scanActive then some ⟨.invalidCommand, 3#8, Opcode.beginScan.toByte⟩
  else if !s.status.frameValid then some ⟨.scanWithoutFrame, 0#8, 0#8⟩
  else if s.frameType.sof != 0xC0#8 then some ⟨.unsupportedFeature, 1#8, s.frameType.sof⟩
  else if s.frameType.p != 8#8 then some ⟨.unsupportedFeature, 2#8, s.frameType.p⟩
  else if s.frameNcomp != 1#8 && s.frameNcomp != 3#8 then some ⟨.unsupportedFeature, 3#8, s.frameNcomp⟩
  else match s.frameComps.find? fun i => !s.samplingOk i with
  | some i => some ⟨.unsupportedFeature, 4#8, compInfo i⟩
  | none =>
    if s.frameSize.x == 0#16 || s.frameSize.y == 0#16 then some ⟨.unsupportedFeature, 5#8, 0#8⟩
    else match s.frameComps.findSome? s.tableError with
    | some e => some e
    | none =>
      if s.params.ibufBytes < s.inBase.toNat + s.inLen.toNat then some ⟨.invalidConfiguration, 2#8, 0#8⟩
      else if s.params.obufBytes < s.gridBase + s.gridBytes then some ⟨.invalidConfiguration, 3#8, 0#8⟩
      else none

/-- What BEGIN_SCAN writes when every check passes (R166). -/
def State.startScan (s : State) : State :=
  { s with
    pred := Vector.replicate 3 0#32
    brPos := 0#32
    brBits := { byte := 0#8, cnt := 0#4 }
    mcuIndex := 0#32
    mcuTotal := BitVec.ofNat 32 s.mcuCount
    status := { s.status with markerSeen := false, markerCode := 0#8, scanDone := false, scanActive := true } }

/-- BEGIN_SCAN's pseudocode (R166). -/
def beginScanCommand : Engine Unit := do
  let s ← get
  match s.scanError with
  | some e => raise e
  | none => set s.startScan

/-- BEGIN_SCAN (R166). -/
def execBeginScan (s : State) : Host.Outcome State Fault Refusal := runCommand beginScanCommand s

/-! ## DECODE_MCU, DECODE_SCAN -/

/-- The stores of the MCU number MCU_INDEX whose blocks are `coefs` (R170, R165). -/
def State.currentMcuCells (s : State) (coefs : List Coefs) : List Host.Cell :=
  s.mcuCells (s.mcuIndex.toNat % s.mcusPerRow) (s.mcuIndex.toNat / s.mcusPerRow) (coefs.map reconstruct)

/-- MCU_INDEX <- m + 1, and at MCU_TOTAL the end of the scan with its probe (R170). -/
def State.advanceMcu (s : State) : State :=
  if s.mcuIndex + 1#32 = s.mcuTotal then
    (((s.setMcuIndex (s.mcuIndex + 1#32)).setScanActive false).setScanDone true).probeMarker
  else s.setMcuIndex (s.mcuIndex + 1#32)

/-- DECODE_MCU's pseudocode after its checks (R170): every block is decoded before a pixel is written. -/
def decodeMcuBody : Engine Unit := do
  let s ← get
  let coefs ← decodeBlocks s.frameComps
  engineStore (s.currentMcuCells coefs)
  modify fun t => t.advanceMcu

/-- DECODE_MCU's pseudocode (R170). -/
def decodeMcuCommand : Engine Unit := do
  requireScan .decodeMcu
  decodeMcuBody

/-- DECODE_MCU (R170). -/
def execDecodeMcu (s : State) : Host.Outcome State Fault Refusal := runDecode decodeMcuCommand s

/-- `while STATUS.SCAN_ACTIVE = 1` of R172, for at most the given number of turns. -/
def decodeRemaining : Nat → Engine Unit
  | 0 => pure ()
  | n + 1 => do
    let s ← get
    if s.status.scanActive then do
      decodeMcuBody
      decodeRemaining n
    else pure ()

/-- How many turns of R172's loop bring MCU_INDEX to MCU_TOTAL. -/
def State.mcusLeft (s : State) : Nat := (s.mcuTotal - s.mcuIndex - 1#32).toNat + 1

/-- DECODE_SCAN's pseudocode (R172). -/
def decodeScanCommand : Engine Unit := do
  requireScan .decodeScan
  let s ← get
  decodeRemaining s.mcusLeft

/-- DECODE_SCAN (R172). -/
def execDecodeScan (s : State) : Host.Outcome State Fault Refusal := runDecode decodeScanCommand s

end Sys2Proof.Machine
end

