-- ==== Sys2Proof/Machine/Dispatch.lean ====
section
/-! DEFINITION. The meaning of every command: one arm per constructor of Instr (spec/30_encoding.md R92). -/

namespace Sys2Proof.Machine

def exec (i : Instr) (s : State) : Host.Outcome State Fault Refusal :=
  match i with
  | .nop => Sys2Proof.Machine.execNop s
  | .softReset _ => Sys2Proof.Machine.execSoftReset s
  | .loadDqt => Sys2Proof.Machine.execLoadDqt s
  | .loadDht => Sys2Proof.Machine.execLoadDht s
  | .setFrame => Sys2Proof.Machine.execSetFrame s
  | .beginScan => Sys2Proof.Machine.execBeginScan s
  | .decodeMcu => Sys2Proof.Machine.execDecodeMcu s
  | .decodeScan => Sys2Proof.Machine.execDecodeScan s
  | .endScan => Sys2Proof.Machine.execEndScan s
  | .readBits n => Sys2Proof.Machine.execReadBits n s
  | .huffDecode c t => Sys2Proof.Machine.execHuffDecode c t s

end Sys2Proof.Machine
end

