-- ==== Sys2Proof/Machine/Csr.lean ====
section
/-! DEFINITION. The control and status registers as the host reaches them (spec/10_state.md section 2): the offsets,
what a read returns, what a write does (R21 to R46), which are locked during a scan, and the acceptance of a command
(spec/42_control.md R160). -/

namespace Sys2Proof.Machine

/-- The registers of 10_state section 2. -/
inductive Csr where
  | id | cmd | status | error | irqEn | frameType | frameSize | frameNcomp | comp (i : Fin 3) | restartInterval
  | srcPtr | srcEnd | inBase | inLen | outBase | brPos | brBits | mcuIndex | mcuTotal | result | tableValid
  | pred (i : Fin 3)
deriving DecidableEq, Repr

/-- The register at offset 4 * k of the aperture; none for the reserved offsets (R46). -/
def Csr.ofIndex (k : Nat) : Option Csr :=
  match k with
  | 0 => some .id
  | 1 => some .cmd
  | 2 => some .status
  | 3 => some .error
  | 4 => some .irqEn
  | 5 => some .frameType
  | 6 => some .frameSize
  | 7 => some .frameNcomp
  | 8 => some (.comp 0)
  | 9 => some (.comp 1)
  | 10 => some (.comp 2)
  | 11 => some .restartInterval
  | 12 => some .srcPtr
  | 13 => some .srcEnd
  | 14 => some .inBase
  | 15 => some .inLen
  | 16 => some .outBase
  | 17 => some .brPos
  | 18 => some .brBits
  | 19 => some .mcuIndex
  | 20 => some .mcuTotal
  | 21 => some .result
  | 22 => some .tableValid
  | 23 => some (.pred 0)
  | 24 => some (.pred 1)
  | 25 => some (.pred 2)
  | _ => none

/-- The register's value (R22 to R45). -/
def State.readCsr (s : State) : Csr → Word
  | .id => Config.idValue
  | .cmd => s.cmd
  | .status => s.statusWord
  | .error => s.error.word
  | .irqEn => s.irqEn.word
  | .frameType => s.frameType.word
  | .frameSize => s.frameSize.word
  | .frameNcomp => s.frameNcomp.setWidth 32
  | .comp i => s.comp[i.val].word
  | .restartInterval => s.restartInterval.setWidth 32
  | .srcPtr => s.srcPtr
  | .srcEnd => s.srcEnd
  | .inBase => s.inBase
  | .inLen => s.inLen
  | .outBase => s.outBase
  | .brPos => s.brPos
  | .brBits => s.brBits.word
  | .mcuIndex => s.mcuIndex
  | .mcuTotal => s.mcuTotal
  | .result => s.result
  | .tableValid => s.tableValid.word
  | .pred i => s.pred[i.val]

/-- "locked in scan" (R21 and the table of section 2). -/
def Csr.locked : Csr → Bool
  | .frameType => true
  | .frameSize => true
  | .frameNcomp => true
  | .comp _ => true
  | .inBase => true
  | .inLen => true
  | .outBase => true
  | .id => false
  | .cmd => false
  | .status => false
  | .error => false
  | .irqEn => false
  | .restartInterval => false
  | .srcPtr => false
  | .srcEnd => false
  | .brPos => false
  | .brBits => false
  | .mcuIndex => false
  | .mcuTotal => false
  | .result => false
  | .tableValid => false
  | .pred _ => false

/-- What a read returns while a command is pending, for a register the command may write, when the draw is `d`: a value
of the register's fields (20_memory R77); BUSY reads 1 and reserved bits 0 (R21). None for a register that returns its
value. Log 6. -/
def Csr.drawn (d : Word) : Csr → Option Word
  | .status => some ((d &&& 0x00FF03FF#32) ||| 1#32)
  | .error => some (d &&& 0x00FFFFFF#32)
  | .srcPtr => some d
  | .brPos => some d
  | .brBits => some (d &&& 0x00000FFF#32)
  | .mcuIndex => some d
  | .mcuTotal => some d
  | .result => some d
  | .tableValid => some (d &&& 0x00000FFF#32)
  | .pred _ => some d
  | .id => none
  | .cmd => none
  | .irqEn => none
  | .frameType => none
  | .frameSize => none
  | .frameNcomp => none
  | .comp _ => none
  | .restartInterval => none
  | .srcEnd => none
  | .inBase => none
  | .inLen => none
  | .outBase => none

/-- A host write of `w` to CMD while no command is pending (42_control R160). -/
def State.writeCmd (s : State) (w : Word) : State :=
  if s.status.err && opField w != Opcode.softReset.toByte then { s with cmd := w }
  else { s with cmd := w, pend := w, status := { s.status with done := false, busy := true } }

/-- What a write that is neither dropped nor locked out does (R21, R25, R27 to R38); a write to a read-only register
does nothing. -/
def State.storeCsr (s : State) (w : Word) : Csr → State
  | .cmd => s.writeCmd w
  | .status => { s with status := s.status.clearNamed w }
  | .irqEn => { s with irqEn := IrqEnable.ofWord w }
  | .frameType => { s with frameType := FrameType.ofWord w }
  | .frameSize => { s with frameSize := FrameSize.ofWord w }
  | .frameNcomp => { s with frameNcomp := w.extractLsb' 0 8 }
  | .comp i => { s with comp := s.comp.set i.val (Comp.ofWord w) }
  | .restartInterval => { s with restartInterval := w.extractLsb' 0 16 }
  | .srcPtr => s.setSrcPtr w
  | .srcEnd => { s with srcEnd := w }
  | .inBase => { s with inBase := w }
  | .inLen => { s with inLen := w }
  | .outBase => { s with outBase := w }
  | .id => s
  | .error => s
  | .brPos => s
  | .brBits => s
  | .mcuIndex => s
  | .mcuTotal => s
  | .result => s
  | .tableValid => s
  | .pred _ => s

/-- A host write to a register while no command is pending: a register locked during the scan keeps its value and HAZ
is set (R21). -/
def State.writeCsr (s : State) (r : Csr) (w : Word) : State :=
  if r.locked && s.status.scanActive then s.setHaz else s.storeCsr w r

end Sys2Proof.Machine
end

