-- ==== Sys2Proof/Machine/HostAccess.lean ====
section
/-! DEFINITION. The host's accesses (spec/20_memory.md): the window and its apertures (R70 to R73), malformed accesses
(R75), reads with their draws (R74, R77), writes with the drop while BUSY (R74, R76), and the reset input
(spec/70_reset_and_hazards.md R240 to R242). -/

namespace Sys2Proof.Machine

/-- What a well-formed access reaches. -/
inductive Target where
  | csr (r : Csr)
  | ibuf (a : Nat)
  | obuf (a : Nat)
deriving DecidableEq, Repr

/-- The offset in a buffer of `size` bytes at window offset `base` that an access of `n` bytes reaches; none when it is
not aligned or passes the end (R75). -/
def bufferOffset (base size off n : Nat) : Option Nat :=
  if (off - base) % n = 0 ∧ off - base + n ≤ size then some (off - base) else none

/-- What an access of `n` bytes at window offset `off` reaches; none when it is malformed (R71 to R73, R75). -/
def State.target (s : State) (off n : Nat) : Option Target :=
  if n ≠ 1 ∧ n ≠ 2 ∧ n ≠ 4 then none
  else if off < Config.csrBytes then
    if n = 4 ∧ off % 4 = 0 then (Csr.ofIndex (off / 4)).map .csr else none
  else if off < Config.ibufBase then none
  else if off < Config.obufBase then (bufferOffset Config.ibufBase s.params.ibufBytes off n).map .ibuf
  else (bufferOffset Config.obufBase s.params.obufBytes off n).map .obuf

/-- The window offset of a host address; none outside the block's window (R70, R89). -/
def State.windowOffset (s : State) (addr : Nat) : Option Nat :=
  if s.params.base ≤ addr ∧ addr < s.params.base + Config.windowBytes then some (addr - s.params.base) else none

/-- `n` bytes of a buffer assembled with the byte at the lowest offset in bits [7:0] (R74). -/
def littleEndian (f : Nat → Byte) (a : Nat) : Nat → Word
  | 0 => 0#32
  | n + 1 => (littleEndian f (a + 1) n) <<< 8 ||| (f a).setWidth 32

/-- The low `n` bytes of `v` with their offsets from `a` (R74). -/
def bytesAt (v : Word) (a n : Nat) : List Host.Cell :=
  (List.range n).map fun k => (a + k, v.extractLsb' (8 * k) 8)

/-- The low `n` bytes of a word. -/
def lowBytes (v : Word) (n : Nat) : Word := v &&& BitVec.ofNat 32 (2 ^ (8 * n) - 1)

/-- A draw (R77): the value returned is any value, and the next draw is another. Log 6. -/
def State.returnDraw (s : State) (v : Word) : State := (s.countDraw).setReadData v

/-- A well-formed read (R74, R77). -/
def State.readTarget (s : State) (n : Nat) : Target → State
  | .csr r =>
    match if s.status.busy then r.drawn (Config.draw s.draws) else none with
    | some v => s.returnDraw v
    | none => s.setReadData (s.readCsr r)
  | .ibuf a => s.setReadData (littleEndian s.ibufByte a n)
  | .obuf a =>
    if s.status.busy then s.returnDraw (lowBytes (Config.draw s.draws) n)
    else s.setReadData (littleEndian s.obufByte a n)

/-- A well-formed write while no command is pending (R74). -/
def State.writeTarget (s : State) (n : Nat) (v : Word) : Target → State
  | .csr r => s.writeCsr r v
  | .ibuf a => s.setIbuf (s.ibuf.writeAll (bytesAt v a n))
  | .obuf a => s.setObuf (s.obuf.writeAll (bytesAt v a n))

/-- `MemRead(addr, n)`: a malformed read returns 0 and sets ACCERR (R75); one outside the window does not reach the
block (log 13). -/
def State.hostRead (s : State) (addr n : Nat) : State :=
  match s.windowOffset addr with
  | none => s
  | some off =>
    match s.target off n with
    | none => s.setAccErr.setReadData 0#32
    | some t => s.readTarget n t

/-- `MemWrite(addr, n, v)`: a malformed write sets ACCERR (R75), a write while BUSY = 1 is dropped and sets HAZ (R76),
and a malformed one while BUSY = 1 sets both. -/
def State.hostWrite (s : State) (addr n : Nat) (v : Word) : State :=
  match s.windowOffset addr with
  | none => s
  | some off =>
    match s.target off n with
    | none => if s.status.busy then s.setAccErr.setHaz else s.setAccErr
    | some t => if s.status.busy then s.setHaz else s.writeTarget n v t

/-- The reset input at a platform reset (R240 to R242): the registers take their reset values, CMD too, and the contents
of the tables are unspecified (10_state R48, R49). IBUF and OBUF keep their bytes: reset does not change them (10_state
R51, R52). A pending command is abandoned. Log 8, log 12. -/
def State.platformReset (s : State) : State :=
  { s.clearRegisters with
    cmd := 0#32
    quant := Config.unspecifiedQuant s.resets
    dcTable := Config.unspecifiedDc s.resets
    acTable := Config.unspecifiedAc s.resets }

/-- The reset input at power-on (R240, R241): as at a platform reset, and the contents of IBUF and OBUF become
unspecified (10_state R51, R52). Log 4, log 12. -/
def State.powerOn (s : State) : State :=
  { s.platformReset with
    ibuf := s.ibuf.forget 0 s.params.ibufBytes
    obuf := s.obuf.forget 0 s.params.obufBytes }

end Sys2Proof.Machine
end

