-- ==== Sys2Proof/Machine/Step.lean ====
section
/-! DEFINITION. One step (spec/00_scope.md R9, spec/20_memory.md R83): the step of the agent whose turn it is. -/

namespace Sys2Proof.Machine

/-- The engine's step (42_control R161): while BUSY = 1 it executes PEND; a word that is no command raises
(30_encoding R93, R94). While BUSY = 0 the engine is idle (60_exceptions R232). -/
def engineStep (s : State) : Host.Outcome State Fault Refusal :=
  if s.status.busy then
    match decodeWord s.pend with
    | .ok i => exec i s
    | .error e => .next (rejectWord s.pend e s)
  else .next s

/-- The step of one turn. -/
def turnStep (s : State) : Turn → Host.Outcome State Fault Refusal
  | .hostRead addr n => .next (s.hostRead addr n)
  | .hostWrite addr n v => .next (s.hostWrite addr n v)
  | .engine => engineStep s
  | .platformReset => .next s.platformReset
  | .powerOn => .next s.powerOn

/-- One step: the next turn of the schedule, or, when it lists none, the engine's (70_reset R246: a pending command is
executed in the end). Log 1. -/
def step (s : State) : Host.Outcome State Fault Refusal :=
  match s.schedule with
  | [] => engineStep s
  | t :: rest => turnStep (s.setSchedule rest) t

/-- `s` with the command of the table's word `w` accepted (42_control R160) and the engine's turn next, so that the
very next step executes it. Log 2. -/
def State.withFetchWord (s : State) (nbits w : Nat) : State :=
  { s with
    cmd := tableWord nbits w
    pend := tableWord nbits w
    status := { s.status with done := false, busy := true }
    schedule := .engine :: s.schedule }

end Sys2Proof.Machine
end

