-- ==== Sys2Proof/Safety.lean ====
section
/-! DEFINITION. What counts as a good state (`State.Inv`), and the terms the statements use: the payload's bit stream
as spec/30_encoding.md R95 and R96 define it (not as the bit reader computes it), the codes of a Huffman table as
spec/41_tables.md R141 numbers them, and what an outcome says. -/

namespace Sys2Proof.Machine

/-! ## Outcomes -/

/-- The next state of an outcome, if it has one. -/
def nextState (o : Host.Outcome State Fault Refusal) : Option State :=
  match o with
  | .next s => some s
  | .fault _ => none
  | .refused _ => none

/-! ## The invariant -/

/-- The parameters keep their bounds (00_scope R8); the buffers keep their canonical form and their size. -/
abbrev State.MemoryOk (s : State) : Prop :=
  s.params.Legal ∧ s.ibuf.wf ∧ s.obuf.wf ∧ s.ibuf.within s.params.ibufBytes ∧ s.obuf.within s.params.obufBytes

/-- How the flags of STATUS and ERROR go together: BUSY excludes DONE (42_control R160), DONE excludes ERR (60_exceptions
R227), an error ends the scan (R218), while ERR = 1 only a SOFT_RESET word is pending (R160), MARKER_CODE is 0 unless
MARKER_SEEN (10_state R24), an active scan has a frame, is not done and has seen no marker, and ERROR is 0 exactly
while ERR = 0 (10_state R26). -/
abbrev State.StatusOk (s : State) : Prop :=
  (s.status.busy = true → s.status.done = false) ∧
  (s.status.done = true → s.status.err = false) ∧
  (s.status.err = true → s.status.scanActive = false) ∧
  (s.status.err = true → s.status.busy = true → opField s.pend = Opcode.softReset.toByte) ∧
  (s.status.markerSeen = false → s.status.markerCode = 0#8) ∧
  (s.status.scanActive = true → s.status.frameValid = true ∧ s.status.scanDone = false ∧ s.status.markerSeen = false) ∧
  (s.status.err = false → s.error = { code := 0#8, sub := 0#8, info := 0#8 }) ∧
  (s.status.err = true → s.error.code ≠ 0#8)

/-- The sum of the 16 counts, cnt[1] + ... + cnt[16] (41_tables R139). -/
def countSum (cnt : Vector Byte 16) : Nat := ((List.finRange 16).map fun i => cnt[i.val].toNat).sum

/-- The code value that R141 has reached when it comes to length i + 1: every code of a shorter length, shifted to this
length. -/
def codesShorter (cnt : Vector Byte 16) (i : Fin 16) : Nat :=
  ((List.finRange 16).map fun j => if j < i then cnt[j.val].toNat * 2 ^ (i.val - j.val) else 0).sum

/-- The counts are valid but for their sum: for every length L = i + 1 the running code value after adding cnt[L] is at most
2^L (41_tables R141, R142). -/
abbrev CodesFit (cnt : Vector Byte 16) : Prop :=
  ∀ i : Fin 16, codesShorter cnt i + cnt[i.val].toNat ≤ 2 ^ (i.val + 1)

/-- A Huffman table as LOAD_DHT stores it (41_tables R139, R141, R142). -/
abbrev HuffSound (t : HuffTable) : Prop :=
  CodesFit t.count ∧ countSum t.count ≤ 256 ∧ t.huffval.length = countSum t.count ∧ t = buildTable t.count t.huffval

/-- Huffman table `t` of class `c` is defined, and is `h` (10_state R44, R49). -/
def State.Defines (s : State) (c : HuffClass) (t : Fin 4) (h : HuffTable) : Prop :=
  match c with
  | .dc => s.tableValid.dv.getLsbD t.val = true ∧ s.dcTable[t.val] = h
  | .ac => s.tableValid.av.getLsbD t.val = true ∧ s.acTable[t.val] = h

/-- The components of the frame, 0 to FRAME_NCOMP - 1 (10_state R30, R31). -/
def State.components (s : State) : List (Fin 3) :=
  (List.finRange 3).filter fun i => decide (i.val < s.frameNcomp.toNat)

/-- Every defined Huffman table is sound. -/
abbrev State.TablesOk (s : State) : Prop :=
  ∀ t : Fin 4, (s.tableValid.dv.getLsbD t.val = true → HuffSound s.dcTable[t.val]) ∧
    (s.tableValid.av.getLsbD t.val = true → HuffSound s.acTable[t.val])

/-- What BEGIN_SCAN checked stays true while the scan is active (42_control R166), and MCU_INDEX is below MCU_TOTAL. -/
abbrev State.ScanOk (s : State) : Prop :=
  s.status.scanActive = true →
    s.frameType.sof = 0xC0#8 ∧ s.frameType.p = 8#8 ∧ (s.frameNcomp = 1#8 ∨ s.frameNcomp = 3#8) ∧
    (∀ i ∈ s.frameComps, s.samplingOk i = true ∧ s.tableError i = none) ∧
    s.frameSize.x ≠ 0#16 ∧ s.frameSize.y ≠ 0#16 ∧
    s.inBase.toNat + s.inLen.toNat ≤ s.params.ibufBytes ∧
    s.gridBase + s.gridBytes ≤ s.params.obufBytes ∧
    s.mcuTotal.toNat = s.mcuCount ∧ s.mcuIndex.toNat < s.mcuTotal.toNat

/-- CNT is at most 8 (10_state R40), and in a scan BR_POS does not pass IN_LEN (40_bit_reader R130). -/
abbrev State.ReaderOk (s : State) : Prop :=
  s.brBits.cnt.toNat ≤ 8 ∧ (s.status.scanActive = true → s.brPos.toNat ≤ s.inLen.toNat)

/-- The invariant of the block. -/
abbrev State.Inv (s : State) : Prop :=
  s.MemoryOk ∧ s.StatusOk ∧ s.TablesOk ∧ s.ScanOk ∧ s.ReaderOk

/-! ## The bit stream (30_encoding R95, R96) -/

/-- The data bytes of a stuffed payload up to its first marker or its end (R95). -/
def destuff : List Byte → List Byte
  | [] => []
  | [b] => if b = 0xFF#8 then [] else [b]
  | b :: m :: rest =>
    if b = 0xFF#8 then (if m = 0x00#8 then 0xFF#8 :: destuff rest else [])
    else b :: destuff (m :: rest)

/-- The payload bytes not yet consumed (10_state R36, R37, R39). -/
def State.payloadLeft (s : State) : List Byte :=
  (List.range (s.inLen.toNat - s.brPos.toNat)).map fun j => s.ibufByte (s.inBase.toNat + s.brPos.toNat + j)

/-- The low `n` bits of a number, the most significant first (20_memory R78). -/
def bitsOf (n v : Nat) : List Bool := (List.range n).map fun j => v.testBit (n - 1 - j)

/-- The number whose bits are given, the most significant first (40_bit_reader R123). -/
def bitsValue (l : List Bool) : Nat := l.foldl (fun v b => 2 * v + b.toNat) 0

/-- The bits not yet read: those pending in BR_BITS, then those of the data bytes left (R96). -/
def State.streamBits (s : State) : List Bool :=
  bitsOf s.brBits.cnt.toNat s.brBits.byte.toNat ++ (destuff s.payloadLeft).flatMap fun b => bitsOf 8 b.toNat

/-- Data bytes as a payload holds them: a 0xFF with a 0x00 stuffed behind it (R95). -/
def stuff (data : List Byte) : List Byte := data.flatMap fun b => if b = 0xFF#8 then [0xFF#8, 0x00#8] else [b]

/-- The bit reader goes from `s` to `u` by fetching some data bytes, and nothing more is consumed: what is left at `s` is
those bytes as the payload holds them, then what is left at `u`; BR_POS moves past exactly those (10_state R39), and BYTE is
the last of them (10_state R40; 40_bit_reader R121). -/
def State.Fetched (s u : State) : Prop :=
  ∃ data, s.payloadLeft = stuff data ++ u.payloadLeft ∧ u.brPos.toNat = s.brPos.toNat + (stuff data).length ∧
    u.brBits.byte = data.getLastD s.brBits.byte

/-! ## Codes of a table (41_tables R139, R141, R142) -/

/-- List position `k` is a symbol whose code has length `len`. -/
abbrev HasCode (cnt : Vector Byte 16) (len k : Nat) : Prop :=
  1 ≤ len ∧ len ≤ 16 ∧ symbolsBefore cnt len ≤ k ∧ k < symbolsBefore cnt len + countAt cnt len

/-- The code of list position `k`, of length `len`, as bits in stream order. -/
def codeBits (cnt : Vector Byte 16) (len k : Nat) : List Bool :=
  bitsOf len (codeBefore cnt len + (k - symbolsBefore cnt len))

/-- `bits` are the code word of a list position of `t` that holds `v` (30_encoding R99). -/
def IsCode (t : HuffTable) (v : Byte) (bits : List Bool) : Prop :=
  ∃ len k, HasCode t.count len k ∧ t.huffval[k]? = some v ∧ bits = codeBits t.count len k

/-- The operand A that names a class of table (30_encoding R91). -/
def classByte : HuffClass → Byte
  | .dc => 0#8
  | .ac => 1#8

/-! ## Coded blocks (30_encoding R100, R101) -/

/-- `bits` are the AC part of a block from zig-zag index `k` on, and it turns the coefficients `f` into `g`: nothing
once index 63 has been passed; an EOB code; a ZRL code, which skips 16 coefficients; or a code for run `r` and category
`sz`, then `sz` magnitude bits, whose extended value times the quantization element of the same place is the coefficient at
zig-zag index `k + r` (43_block_decoder R187). -/
inductive AcCoded (ac : HuffTable) (q : QuantTable) : Nat → Coefs → List Bool → Coefs → Prop where
  | passed (f : Coefs) : AcCoded ac q 64 f [] f
  | eob {k : Nat} {f : Coefs} {code : List Bool} (hk : k ≤ 63) (hc : IsCode ac 0x00#8 code) : AcCoded ac q k f code f
  | zrl {k : Nat} {f g : Coefs} {code rest : List Bool} (hk : k + 16 ≤ 64) (hc : IsCode ac 0xF0#8 code)
      (h : AcCoded ac q (k + 16) f rest g) : AcCoded ac q k f (code ++ rest) g
  | coefficient {k r sz : Nat} {f g : Coefs} {code mag rest : List Bool} (hk : k + r < 64) (hr : r ≤ 15)
      (hs : 1 ≤ sz ∧ sz ≤ 15) (hc : IsCode ac (BitVec.ofNat 8 (16 * r + sz)) code) (hm : mag.length = sz)
      (h : AcCoded ac q (k + r + 1)
        (f.set (zz ⟨k + r, hk⟩).val
          (BitVec.ofInt 32 (extend (bitsValue mag) sz * (q[(zz ⟨k + r, hk⟩).val].toNat : Int)))) rest g) :
      AcCoded ac q k f (code ++ mag ++ rest) g

/-- `bits` are one block: a DC code for a category `t` of at most 16, `t` magnitude bits, and the AC part. The block's
coefficients are `f`: all 0, then F[0] the new predictor times the quantization element 0, modulo 2^32 (43_block_decoder
R184), then the AC part's. The predictor goes from `p` to `p'`, the sum with the extended magnitude modulo 2^32 (R182). -/
def BlockCoded (dc ac : HuffTable) (q : QuantTable) (p : Word) (bits : List Bool) (f : Coefs) (p' : Word) : Prop :=
  ∃ (t : Nat) (code mag acBits : List Bool), t ≤ 16 ∧ IsCode dc (BitVec.ofNat 8 t) code ∧ mag.length = t ∧
    p' = p + BitVec.ofInt 32 (extend (bitsValue mag) t) ∧
    AcCoded ac q 1 ((Vector.replicate 64 0#32).set 0 (BitVec.ofInt 32 (p'.toInt * (q[0].toNat : Int)))) acBits f ∧
    bits = code ++ mag ++ acBits

/-- `bits` are one block of each listed component in order, with the tables its COMPi selects and its own predictor
(42_control R169). -/
inductive McuCoded (s : State) : List (Fin 3) → Vector Word 3 → List Bool → List Coefs → Vector Word 3 → Prop where
  | done (p : Vector Word 3) : McuCoded s [] p [] [] p
  | block {i : Fin 3} {l : List (Fin 3)} {p p' : Vector Word 3} {w : Word} {tq td ta : Fin 4} {bits rest : List Bool}
      {f : Coefs} {fs : List Coefs} (hq : s.comp[i.val].tq.toNat = tq.val) (hd : s.comp[i.val].td.toNat = td.val)
      (ha : s.comp[i.val].ta.toNat = ta.val)
      (hb : BlockCoded s.dcTable[td.val] s.acTable[ta.val] s.quant[tq.val] p[i.val] bits f w)
      (h : McuCoded s l (p.set i.val w) rest fs p') : McuCoded s (i :: l) p (bits ++ rest) (f :: fs) p'

/-- `bits` are MCUs of the frame one after another (30_encoding R96): `mcus` lists the blocks of each. -/
inductive ScanCoded (s : State) : Vector Word 3 → List Bool → List (List Coefs) → Vector Word 3 → Prop where
  | done (p : Vector Word 3) : ScanCoded s p [] [] p
  | mcu {p p' p'' : Vector Word 3} {bits rest : List Bool} {fs : List Coefs} {mcus : List (List Coefs)}
      (h : McuCoded s s.components p bits fs p') (hs : ScanCoded s p' rest mcus p'') :
      ScanCoded s p (bits ++ rest) (fs :: mcus) p''

/-! ## Blocks that fail (43_block_decoder R181, R185, R186, R188) -/

/-- No beginning of `bits` is a code word of `t`. -/
def NoCode (t : HuffTable) (bits : List Bool) : Prop := ∀ v code, IsCode t v code → ¬code <+: bits

/-- `bits` are a beginning of an AC part that leads from zig-zag index `k` to index `k'`: ZRL codes and coded coefficients,
no EOB (R185). -/
inductive AcReaches (ac : HuffTable) : Nat → List Bool → Nat → Prop where
  | here (k : Nat) : AcReaches ac k [] k
  | zrl {k k' : Nat} {code rest : List Bool} (hk : k + 16 ≤ 64) (hc : IsCode ac 0xF0#8 code)
      (h : AcReaches ac (k + 16) rest k') : AcReaches ac k (code ++ rest) k'
  | coefficient {k k' r sz : Nat} {code mag rest : List Bool} (hk : k + r < 64) (hr : r ≤ 15) (hs : 1 ≤ sz ∧ sz ≤ 15)
      (hc : IsCode ac (BitVec.ofNat 8 (16 * r + sz)) code) (hm : mag.length = sz)
      (h : AcReaches ac (k + r + 1) rest k') : AcReaches ac k (code ++ mag ++ rest) k'

/-- At zig-zag index `k` the AC part cannot go on with `bits`, and the error's code and sub-code are those given: 16 bits
that begin with no code; the code of a symbol with S = 0 and R in 1 to 14; of a coefficient past index 63, whose magnitude
is not read; of a ZRL with fewer than 16 positions left (R185, R186). -/
inductive AcFails (ac : HuffTable) (k : Nat) : List Bool → Byte → Byte → Prop where
  | noCode {bits : List Bool} (hl : bits.length = 16) (h : NoCode ac bits) : AcFails ac k bits 0x04#8 3#8
  | noMeaning {r : Nat} {code : List Bool} (hr : 1 ≤ r ∧ r ≤ 14) (hc : IsCode ac (BitVec.ofNat 8 (16 * r)) code) :
      AcFails ac k code 0x08#8 2#8
  | pastEnd {r sz : Nat} {code : List Bool} (hk : 63 < k + r) (hr : r ≤ 15) (hs : 1 ≤ sz ∧ sz ≤ 15)
      (hc : IsCode ac (BitVec.ofNat 8 (16 * r + sz)) code) : AcFails ac k code 0x08#8 3#8
  | zrlPastEnd {code : List Bool} (hk : 64 < k + 16) (hc : IsCode ac 0xF0#8 code) : AcFails ac k code 0x08#8 4#8

/-- A block that begins with `bits` cannot go on behind them: the error's code and sub-code, and the predictor, which goes
from `p` to `p'`. In the DC part (R181): 16 bits that begin with no code, or a category above 16. -/
inductive BlockFails (dc ac : HuffTable) (p : Word) : List Bool → Byte → Byte → Word → Prop where
  | dcNoCode {bits : List Bool} (hl : bits.length = 16) (h : NoCode dc bits) : BlockFails dc ac p bits 0x04#8 2#8 p
  | dcCategory {v : Byte} {code : List Bool} (hv : 16 < v.toNat) (hc : IsCode dc v code) :
      BlockFails dc ac p code 0x08#8 1#8 p
  | acPart {t k : Nat} {code mag acBits bits : List Bool} {err sub : Byte} (ht : t ≤ 16)
      (hc : IsCode dc (BitVec.ofNat 8 t) code) (hm : mag.length = t) (ha : AcReaches ac 1 acBits k) (hk : k ≤ 63)
      (h : AcFails ac k bits err sub) :
      BlockFails dc ac p (code ++ mag ++ acBits ++ bits) err sub (p + BitVec.ofInt 32 (extend (bitsValue mag) t))

/-- `bits` begin a block and end within it, in a code or in a magnitude; the predictor goes from `p` to `p'` (R188). -/
inductive BlockTruncated (dc ac : HuffTable) (p : Word) : List Bool → Word → Prop where
  | dcCode {bits : List Bool} (hl : bits.length < 16) (h : NoCode dc bits) : BlockTruncated dc ac p bits p
  | dcMagnitude {t : Nat} {code mag : List Bool} (ht : t ≤ 16) (hc : IsCode dc (BitVec.ofNat 8 t) code)
      (hm : mag.length < t) : BlockTruncated dc ac p (code ++ mag) p
  | acCode {t k : Nat} {code mag acBits bits : List Bool} (ht : t ≤ 16) (hc : IsCode dc (BitVec.ofNat 8 t) code)
      (hm : mag.length = t) (ha : AcReaches ac 1 acBits k) (hk : k ≤ 63) (hl : bits.length < 16) (h : NoCode ac bits) :
      BlockTruncated dc ac p (code ++ mag ++ acBits ++ bits) (p + BitVec.ofInt 32 (extend (bitsValue mag) t))
  | acMagnitude {t k r sz : Nat} {code mag acBits code' mag' : List Bool} (ht : t ≤ 16)
      (hc : IsCode dc (BitVec.ofNat 8 t) code) (hm : mag.length = t) (ha : AcReaches ac 1 acBits k) (hk : k + r < 64)
      (hr : r ≤ 15) (hs : 1 ≤ sz ∧ sz ≤ 15) (hc' : IsCode ac (BitVec.ofNat 8 (16 * r + sz)) code')
      (hm' : mag'.length < sz) :
      BlockTruncated dc ac p (code ++ mag ++ acBits ++ (code' ++ mag')) (p + BitVec.ofInt 32 (extend (bitsValue mag) t))

/-! ## Pixels (44_reconstruction R211) -/

/-- The number of the MCU that holds pixel (x, y) (42_control R165). -/
def State.mcuOf (s : State) (x y : Nat) : Nat := y / 8 * ((s.frameSize.x.toNat + 7) / 8) + x / 8

/-- The colour of pixel (x, y) of the MCU whose blocks are `coefs`: one block is Y with Cb = Cr = 128, three are Y, Cb
and Cr (44_reconstruction R209). -/
def mcuColour (coefs : List Coefs) (x y : Nat) : Option (Byte × Byte × Byte) :=
  match coefs with
  | [f] => some (yccToRgb ((reconstruct f)[8 * (y % 8) + x % 8]'(by omega)) 128#8 128#8)
  | [f, g, h] =>
    some (yccToRgb ((reconstruct f)[8 * (y % 8) + x % 8]'(by omega)) ((reconstruct g)[8 * (y % 8) + x % 8]'(by omega))
      ((reconstruct h)[8 * (y % 8) + x % 8]'(by omega)))
  | _ => none

/-- The three bytes of pixel (x, y), R, G and B at rising offsets (20_memory R80, 10_state R38). -/
def State.pixel (s : State) (x y : Nat) : Byte × Byte × Byte :=
  (s.obufByte (s.outBase.toNat + 3 * (y * s.frameSize.x.toNat + x)),
   s.obufByte (s.outBase.toNat + 3 * (y * s.frameSize.x.toNat + x) + 1),
   s.obufByte (s.outBase.toNat + 3 * (y * s.frameSize.x.toNat + x) + 2))

/-- Offset `a` lies outside the sample grid (60_exceptions R220). -/
abbrev State.OutsideGrid (s : State) (a : Nat) : Prop :=
  a < s.outBase.toNat ∨ s.outBase.toNat + 3 * s.frameSize.x.toNat * s.frameSize.y.toNat ≤ a

/-! ## Host accesses -/

/-- An access of `n` bytes at window offset `off` is malformed: the list of 20_memory R75. -/
abbrev State.Malformed (s : State) (off n : Nat) : Prop :=
  (n ≠ 1 ∧ n ≠ 2 ∧ n ≠ 4) ∨
  (off < 0x1000 ∧ (n ≠ 4 ∨ off % 4 ≠ 0 ∨ 0x68 ≤ off)) ∨
  (0x1000 ≤ off ∧ off < 0x1000000) ∨
  (0x1000000 ≤ off ∧ off < 0x2000000 ∧ ((off - 0x1000000) % n ≠ 0 ∨ s.params.ibufBytes < off - 0x1000000 + n)) ∨
  (0x2000000 ≤ off ∧ ((off - 0x2000000) % n ≠ 0 ∨ s.params.obufBytes < off - 0x2000000 + n))

/-- What a host read of the register at offset `o` returns. -/
def State.readReg (s : State) (o : Nat) : Word := (s.hostRead (s.params.base + o) 4).readData

/-- A host write of `w` to the register at offset `o`. -/
def State.writeReg (s : State) (o : Nat) (w : Word) : State := s.hostWrite (s.params.base + o) 4 w

/-! ## How a command ends -/

/-- `s` after a command that did not raise: DONE set, BUSY cleared (42_control R161). -/
def State.afterSuccess (s : State) : State := { s with status := { s.status with done := true, busy := false } }

/-- `s` after error entry (60_exceptions R218): ERR and ERROR written, SCAN_ACTIVE and BUSY cleared. -/
def State.afterError (s : State) (code sub info : Byte) : State :=
  { s with status := { s.status with err := true, scanActive := false, busy := false }
           error := { code := code, sub := sub, info := info } }

/-- `u` is `s` after a read that met the end of the stream (40_bit_reader R121, R124; 60_exceptions R216, R217): the data
bytes left are fetched, every bit is consumed, and UnexpectedEndOfData is raised, (1) at the end of the payload, (3) at a
0xFF that is its last byte, (2) at a marker, which is recorded with BR_POS at its 0xFF. -/
def State.RunsOut (s u : State) (info : Byte) : Prop :=
  s.Fetched u ∧ u.streamBits = [] ∧ u.brBits.cnt = 0#4 ∧
  (u.payloadLeft = [] ∧ u = { s.afterError 0x06 1 info with brPos := u.brPos, brBits := u.brBits } ∨
   u.payloadLeft = [0xFF#8] ∧ u = { s.afterError 0x06 3 info with brPos := u.brPos, brBits := u.brBits } ∨
   ∃ m rest, u.payloadLeft = 0xFF#8 :: m :: rest ∧ m ≠ 0#8 ∧
     u = { s.afterError 0x06 2 info with
           brPos := u.brPos, brBits := u.brBits
           status := { (s.afterError 0x06 2 info).status with markerSeen := true, markerCode := m } })

/-- The scan's stream can be read: a scan is active, no marker was met, CNT is at most 8, BR_POS does not pass IN_LEN,
and the payload lies in IBUF. State.Inv gives the last four in every active scan. -/
abbrev State.StreamReady (s : State) : Prop :=
  s.status.scanActive = true ∧ s.status.markerSeen = false ∧ s.brBits.cnt.toNat ≤ 8 ∧ s.brPos.toNat ≤ s.inLen.toNat ∧
  s.inBase.toNat + s.inLen.toNat ≤ s.params.ibufBytes

/-- The engine's turn is next and it executes command `i`. -/
abbrev State.Executes (s : State) (i : Instr) : Prop :=
  (s.schedule = [] ∨ s.schedule.head? = some .engine) ∧ s.status.busy = true ∧ decodeWord s.pend = .ok i

/-- The next step resets the block: it executes SOFT_RESET, or it is the reset input, at a platform reset or at power-on. -/
abbrev State.Resets (s : State) : Prop :=
  (∃ x, s.Executes (.softReset x)) ∨ s.schedule.head? = some .platformReset ∨ s.schedule.head? = some .powerOn

/-- The checks of BEGIN_SCAN line by line (42_control R166): whether the line raises, and the code, sub-code and INFO it
raises (60_exceptions R215, R216). -/
def State.beginScanChecks (s : State) : List (Bool × Byte × Byte × Byte) :=
  let comps := s.components
  [(s.status.scanActive, 0x09#8, 3#8, 0x05#8),
   (!s.status.frameValid, 0x05#8, 0#8, 0#8),
   (decide (s.frameType.sof ≠ 0xC0#8), 0x02#8, 1#8, s.frameType.sof),
   (decide (s.frameType.p ≠ 8#8), 0x02#8, 2#8, s.frameType.p),
   (decide (s.frameNcomp ≠ 1#8 ∧ s.frameNcomp ≠ 3#8), 0x02#8, 3#8, s.frameNcomp)]
  ++ (comps.map fun i =>
    (decide (s.comp[i.val].h ≠ 1#4 ∨ s.comp[i.val].v ≠ 1#4), 0x02#8, 4#8, BitVec.ofNat 8 i.val))
  ++ [(decide (s.frameSize.x = 0#16 ∨ s.frameSize.y = 0#16), 0x02#8, 5#8, 0#8)]
  ++ (comps.flatMap fun i =>
    [(decide (3 < s.comp[i.val].tq.toNat ∨ s.tableValid.qv.getLsbD s.comp[i.val].tq.toNat = false),
      0x03#8, 1#8, BitVec.ofNat 8 i.val),
     (decide (3 < s.comp[i.val].td.toNat ∨ s.tableValid.dv.getLsbD s.comp[i.val].td.toNat = false),
      0x03#8, 2#8, BitVec.ofNat 8 i.val),
     (decide (3 < s.comp[i.val].ta.toNat ∨ s.tableValid.av.getLsbD s.comp[i.val].ta.toNat = false),
      0x03#8, 3#8, BitVec.ofNat 8 i.val)])
  ++ [(decide (s.params.ibufBytes < s.inBase.toNat + s.inLen.toNat), 0x0A#8, 2#8, 0#8),
      (decide (s.params.obufBytes < s.outBase.toNat + 3 * s.frameSize.x.toNat * s.frameSize.y.toNat), 0x0A#8, 3#8, 0#8)]

/-! ## What a command may change -/

/-- `t` is `s` but for what the bit reader writes: BR_POS, BR_BITS, MARKER_SEEN, MARKER_CODE (40_bit_reader R120). -/
def ReaderFrame (s t : State) : Prop :=
  ∃ (pos : Word) (bits : BrBits) (seen : Bool) (code : Byte),
    t = { s with brPos := pos, brBits := bits, status := { s.status with markerSeen := seen, markerCode := code } }

/-- `t` is `s` but for what the block decoder writes: the bit reader's state and the predictors (43_block_decoder
R188). -/
def BlockFrame (s t : State) : Prop :=
  ∃ (pos : Word) (bits : BrBits) (seen : Bool) (code : Byte) (pred : Vector Word 3),
    t = { s with brPos := pos, brBits := bits, pred := pred,
                 status := { s.status with markerSeen := seen, markerCode := code } }

end Sys2Proof.Machine
end

