-- ==== Sys2Proof/Certificates/Slice0/Obligations.lean ====
section
/-! DEFINITION. The statements for the provers. Each docstring names what of the spec it formalises; a clause that is the
model's own choice says so and names the log entry. `afterSuccess`, `afterError`, `streamBits`, `IsCode`, `McuCoded` and
the other terms are those of Safety.lean. -/

section

open Sys2Proof Sys2Proof.Machine

/-! ## Encoding -/

/-- Decoding the bytes of a command gives the command with every operand, and leaves what follows. 30_encoding R90 to
R92, 20_memory R74. -/
def Obligations.DecodeEncodeRoundTrip : Prop :=
  ∀ (i : Instr) (rest : List Byte), decodeBytes (encodeBytes i ++ rest) = .ok (i, rest)

/-- Every word that decodes is the word of the command it decodes to. 30_encoding R90 to R94. -/
def Obligations.DecodedWordIsEncoding : Prop :=
  ∀ (w : Word) (i : Instr), decodeWord w = .ok i → encode i = w

/-- The words of the opcode map decode to their rows, the fields OP, A, B and the reserved bits stand where R90 puts them, and
the bytes of a word are little-endian. 30_encoding R90, R92, 20_memory R74. -/
def Obligations.OpcodeMapDecodes : Prop :=
  decodeWord 0x00000000#32 = .ok .nop ∧ decodeWord 0x00000001#32 = .ok (.softReset 0) ∧
  decodeWord 0x00000002#32 = .ok .loadDqt ∧ decodeWord 0x00000003#32 = .ok .loadDht ∧
  decodeWord 0x00000004#32 = .ok .setFrame ∧ decodeWord 0x00000005#32 = .ok .beginScan ∧
  decodeWord 0x00000006#32 = .ok .decodeMcu ∧ decodeWord 0x00000007#32 = .ok .decodeScan ∧
  decodeWord 0x00000008#32 = .ok .endScan ∧ decodeWord 0x00001009#32 = .ok (.readBits 16) ∧
  decodeWord 0x0003010A#32 = .ok (.huffDecode 1 3) ∧
  decodeBytes [0x0A#8, 0x01#8, 0x03#8, 0x00#8] = .ok (.huffDecode 1 3, []) ∧
  ∀ w : Word, opField w = w.extractLsb' 0 8 ∧ aField w = w.extractLsb' 8 8 ∧ bField w = w.extractLsb' 16 8 ∧
    reservedField w = w.extractLsb' 24 8

/-- A pending word with a reserved opcode raises InvalidCommand(1), INFO the opcode, and changes nothing else.
30_encoding R93, 60_exceptions R216, R218. -/
def Obligations.ReservedOpcodeRaises : Prop :=
  ∀ s : State, s.status.busy = true → 0x0B ≤ (opField s.pend).toNat →
    engineStep s = .next (s.afterError 0x09 1 (opField s.pend))

/-- The field check of 30_encoding R94: a bit that must be 0, or a class above 1, raises InvalidCommand(2), INFO the
opcode; READ_BITS with every other field legal and n above 16 raises InvalidCommand(4), INFO n; nothing else changes. For
the two MCU commands the sample grid is any value afterwards (60_exceptions R220): that it is so for this error too is the
model's reading, log 5. -/
def Obligations.IllegalFieldRaises : Prop :=
  ∀ s : State, s.status.busy = true →
    ((opField s.pend = 0x0A#8 ∧ (reservedField s.pend ≠ 0 ∨ 1 < (aField s.pend).toNat) ∨
      opField s.pend = 0x09#8 ∧ (reservedField s.pend ≠ 0 ∨ bField s.pend ≠ 0) ∨
      (opField s.pend = 0x00#8 ∨ opField s.pend = 0x02#8 ∨ opField s.pend = 0x03#8 ∨ opField s.pend = 0x04#8 ∨
        opField s.pend = 0x05#8 ∨ opField s.pend = 0x08#8) ∧
        (reservedField s.pend ≠ 0 ∨ bField s.pend ≠ 0 ∨ aField s.pend ≠ 0)) →
      engineStep s = .next (s.afterError 0x09 2 (opField s.pend))) ∧
    (opField s.pend = 0x09#8 ∧ reservedField s.pend = 0 ∧ bField s.pend = 0 ∧ 16 < (aField s.pend).toNat →
      engineStep s = .next (s.afterError 0x09 4 (aField s.pend))) ∧
    ((opField s.pend = 0x06#8 ∨ opField s.pend = 0x07#8) ∧
        (reservedField s.pend ≠ 0 ∨ bField s.pend ≠ 0 ∨ aField s.pend ≠ 0) →
      ∃ m, engineStep s = .next { s.afterError 0x09 2 (opField s.pend) with obuf := m } ∧
        ∀ a, s.OutsideGrid a → m.read .obuf a = s.obufByte a)

/-! ## Steps and the handshake -/

/-- Whose step it is, and what it does (00_scope R9, 42_control R161): with no turn listed, or the engine's, a pending word
that decodes runs as the command it decodes to and an idle engine changes nothing; a listed host access, platform reset or
power-on is made. The schedule is the model's, log 1. -/
def Obligations.StepRunsDecodedCommand : Prop :=
  (∀ (s : State) (i : Instr), s.status.busy = true → decodeWord s.pend = .ok i →
    (s.schedule = [] → step s = exec i s) ∧
    ∀ rest, s.schedule = .engine :: rest → step s = exec i { s with schedule := rest }) ∧
  (∀ s : State, s.status.busy = false →
    (s.schedule = [] → step s = .next s) ∧
    ∀ rest, s.schedule = .engine :: rest → step s = .next { s with schedule := rest }) ∧
  ∀ (s : State) (rest : List Turn),
    (∀ a n, s.schedule = .hostRead a n :: rest → step s = .next ({ s with schedule := rest }.hostRead a n)) ∧
    (∀ a n v, s.schedule = .hostWrite a n v :: rest → step s = .next ({ s with schedule := rest }.hostWrite a n v)) ∧
    (s.schedule = .platformReset :: rest → step s = .next { s with schedule := rest }.platformReset) ∧
    (s.schedule = .powerOn :: rest → step s = .next { s with schedule := rest }.powerOn)

/-- A table word placed by `withFetchWord` runs at the very next step, on a state that differs only in CMD, PEND, DONE and
BUSY, which an accepted write sets (42_control R160). How a word comes to be placed is log 2. -/
def Obligations.PlacedWordRunsNext : Prop :=
  ∀ (s : State) (nbits w : Nat) (i : Instr), decodeTableWord nbits w = some i →
    step (s.withFetchWord nbits w) =
      exec i { s with cmd := BitVec.ofNat 32 (w % 2 ^ nbits), pend := BitVec.ofNat 32 (w % 2 ^ nbits)
                      status := { s.status with done := false, busy := true } }

/-- 42_control R160, whole: a host write to CMD while BUSY = 0. -/
def Obligations.CommandAcceptance : Prop :=
  ∀ (s : State) (w : Word), s.status.busy = false →
    (s.status.err = true ∧ opField w ≠ 0x01#8 → s.writeReg 4 w = { s with cmd := w }) ∧
    (s.status.err = false ∨ opField w = 0x01#8 →
      s.writeReg 4 w = { s with cmd := w, pend := w, status := { s.status with done := false, busy := true } })

/-- 42_control R161: from every state of the invariant with BUSY = 1 the engine's one step executes PEND, ends with
BUSY = 0, and sets DONE unless the command raised (ERR, an error code, no scan) or is SOFT_RESET. -/
def Obligations.PendingCommandEndsInOneStep : Prop :=
  ∀ s : State, s.Inv → s.status.busy = true →
    (∀ i, decodeWord s.pend = .ok i → engineStep s = exec i s) ∧
    ∃ u, engineStep s = .next u ∧ u.status.busy = false ∧
      (opField s.pend = 0x01#8 → u.status.done = false ∧ u.status.err = false) ∧
      (opField s.pend ≠ 0x01#8 →
        u.status.done = true ∧ u.status.err = false ∨
        u.status.done = false ∧ u.status.err = true ∧ u.error.code ≠ 0 ∧ u.status.scanActive = false)

/-! ## NOP, SET_FRAME, END_SCAN, SOFT_RESET -/

/-- NOP does nothing beyond the handshake, SET_FRAME with no active scan sets FRAME_VALID, END_SCAN clears SCAN_ACTIVE
whether or not a scan is active; each completes and changes nothing else. 42_control R162, R164, R168. -/
def Obligations.StatusCommandsComplete : Prop :=
  (∀ s : State, exec .nop s = .next s.afterSuccess) ∧
  (∀ s : State, s.status.scanActive = false →
    exec .setFrame s = .next { s with status := { s.status with frameValid := true, done := true, busy := false } }) ∧
  ∀ s : State,
    exec .endScan s = .next { s with status := { s.status with scanActive := false, done := true, busy := false } }

/-- SOFT_RESET gives every register its reset value but CMD, whatever its bits [31:8] are, and keeps the buffers and the
tables' contents; PEND is unspecified. 42_control R163, 70_reset R241. The last four fields are the model's own, log 1,
log 6, log 7 and log 10. -/
def Obligations.SoftResetCompletes : Prop :=
  ∀ (s : State) (ignored : BitVec 24), ∃ (pend : Word) (resets : Nat),
    exec (.softReset ignored) s = .next
      { params := s.params
        cmd := s.cmd
        status := { busy := false, done := false, err := false, frameValid := false, scanActive := false
                    scanDone := false, markerSeen := false, haz := false, accerr := false, markerCode := 0#8 }
        error := { code := 0#8, sub := 0#8, info := 0#8 }
        irqEn := { doneIe := false, errIe := false }
        frameType := { sof := 0#8, p := 0#8 }
        frameSize := { x := 0#16, y := 0#16 }
        frameNcomp := 0#8
        comp := Vector.replicate 3 { h := 0#4, v := 0#4, tq := 0#4, td := 0#4, ta := 0#4 }
        restartInterval := 0#16
        srcPtr := 0#32, srcEnd := 0#32, inBase := 0#32, inLen := 0#32, outBase := 0#32
        brPos := 0#32
        brBits := { byte := 0#8, cnt := 0#4 }
        mcuIndex := 0#32, mcuTotal := 0#32, result := 0#32
        tableValid := { qv := 0#4, dv := 0#4, av := 0#4 }
        pred := Vector.replicate 3 0#32
        pend := pend
        quant := s.quant, dcTable := s.dcTable, acTable := s.acTable, ibuf := s.ibuf, obuf := s.obuf
        schedule := s.schedule, readData := s.readData, draws := s.draws, resets := resets }

/-- LOAD_DQT, LOAD_DHT, SET_FRAME and BEGIN_SCAN during a scan raise InvalidCommand(3), INFO the opcode, which ends the
scan; nothing else changes. 41_tables R135, R138, 42_control R164, R166, 70_reset R245 H4. -/
def Obligations.SetupRefusedDuringScan : Prop :=
  ∀ s : State, s.status.scanActive = true →
    exec .loadDqt s = .next (s.afterError 0x09 3 0x02) ∧ exec .loadDht s = .next (s.afterError 0x09 3 0x03) ∧
    exec .setFrame s = .next (s.afterError 0x09 3 0x04) ∧ exec .beginScan s = .next (s.afterError 0x09 3 0x05)

/-- READ_BITS, HUFF_DECODE, DECODE_MCU and DECODE_SCAN with legal operands and no scan raise InvalidCommand(3), INFO the
opcode. 40_bit_reader R125, 41_tables R147, 42_control R170, R172. After the two MCU commands the sample grid is any value:
that it is so for this error too is the model's reading of 60_exceptions R220, log 5. -/
def Obligations.StreamCommandsNeedScan : Prop :=
  ∀ s : State, s.status.scanActive = false →
    (∀ n : Byte, n.toNat ≤ 16 → exec (.readBits n) s = .next (s.afterError 0x09 3 0x09)) ∧
    (∀ c t : Byte, c.toNat ≤ 1 → exec (.huffDecode c t) s = .next (s.afterError 0x09 3 0x0A)) ∧
    (∃ m, exec .decodeMcu s = .next { s.afterError 0x09 3 0x06 with obuf := m } ∧
      ∀ a, s.OutsideGrid a → m.read .obuf a = s.obufByte a) ∧
    ∃ m, exec .decodeScan s = .next { s.afterError 0x09 3 0x07 with obuf := m } ∧
      ∀ a, s.OutsideGrid a → m.read .obuf a = s.obufByte a

/-! ## BEGIN_SCAN -/

/-- BEGIN_SCAN on a frame that meets every check starts the scan. 42_control R165, R166. -/
def Obligations.BeginScanCompletes : Prop :=
  ∀ s : State, s.status.scanActive = false → s.status.frameValid = true →
    s.frameType.sof = 0xC0#8 → s.frameType.p = 8#8 → (s.frameNcomp = 1#8 ∨ s.frameNcomp = 3#8) →
    (∀ i : Fin 3, i.val < s.frameNcomp.toNat →
      s.comp[i.val].h = 1#4 ∧ s.comp[i.val].v = 1#4 ∧
      s.comp[i.val].tq.toNat ≤ 3 ∧ s.tableValid.qv.getLsbD s.comp[i.val].tq.toNat = true ∧
      s.comp[i.val].td.toNat ≤ 3 ∧ s.tableValid.dv.getLsbD s.comp[i.val].td.toNat = true ∧
      s.comp[i.val].ta.toNat ≤ 3 ∧ s.tableValid.av.getLsbD s.comp[i.val].ta.toNat = true) →
    s.frameSize.x ≠ 0#16 → s.frameSize.y ≠ 0#16 →
    s.inBase.toNat + s.inLen.toNat ≤ s.params.ibufBytes →
    s.outBase.toNat + 3 * s.frameSize.x.toNat * s.frameSize.y.toNat ≤ s.params.obufBytes →
    exec .beginScan s = .next
      { s with
        pred := #v[0#32, 0#32, 0#32]
        brPos := 0#32
        brBits := { byte := 0#8, cnt := 0#4 }
        mcuIndex := 0#32
        mcuTotal := BitVec.ofNat 32 ((s.frameSize.y.toNat + 7) / 8 * ((s.frameSize.x.toNat + 7) / 8))
        status := { s.status with markerSeen := false, markerCode := 0#8, scanDone := false, scanActive := true
                                  done := true, busy := false } }

/-- BEGIN_SCAN reports the first check that fails, in the order of its lines, and writes nothing else. 42_control R166,
60_exceptions R216, R221. -/
def Obligations.BeginScanReportsFirstFailure : Prop :=
  ∀ (s : State) (before after : List (Bool × Byte × Byte × Byte)) (code sub info : Byte),
    s.beginScanChecks = before ++ (true, code, sub, info) :: after → (∀ c ∈ before, c.1 = false) →
    exec .beginScan s = .next (s.afterError code sub info)

/-! ## The bit reader -/

/-- READ_BITS n takes the first n bits of the stream: RESULT is their value, the first bit the most significant, and the
stream goes on behind them; only BR_POS, BR_BITS, RESULT and the handshake change. The bytes fetched are the payload's next
data bytes, BR_POS moves past exactly those, and none is fetched ahead: once a bit has been read fewer than 8 are pending.
READ_BITS 0 in a scan writes RESULT 0 and touches no reader state, even where the stream is exhausted. 40_bit_reader R121 to
R125, 10_state R39, R40, 30_encoding R95, R96. -/
def Obligations.ReadBitsTakesStream : Prop :=
  (∀ (s : State) (n : Byte) (bits rest : List Bool), s.StreamReady → n.toNat ≤ 16 →
    bits.length = n.toNat → s.streamBits = bits ++ rest →
    ∃ u, exec (.readBits n) s = .next u ∧ u.streamBits = rest ∧ s.Fetched u ∧ (n ≠ 0#8 → u.brBits.cnt.toNat < 8) ∧
      u = { s with result := BitVec.ofNat 32 (bitsValue bits), brPos := u.brPos, brBits := u.brBits
                   status := { s.status with done := true, busy := false } }) ∧
  ∀ s : State, s.status.scanActive = true →
    exec (.readBits 0) s = .next { s with result := 0#32, status := { s.status with done := true, busy := false } }

/-- READ_BITS n with fewer bits left consumes every bit and raises UnexpectedEndOfData, INFO 0, as `RunsOut` says for each
end of the stream; RESULT keeps its value. 40_bit_reader R121, R124, R125, 60_exceptions R216. -/
def Obligations.ReadBitsRunsOut : Prop :=
  ∀ (s : State) (n : Byte), s.StreamReady → n.toNat ≤ 16 → s.streamBits.length < n.toNat →
    ∃ u, exec (.readBits n) s = .next u ∧ s.RunsOut u 0#8

/-! ## Huffman decode -/

/-- HUFF_DECODE on a stream that begins with the code of a list position of the defined table puts that position's symbol
in RESULT and consumes exactly the code, with no byte fetched ahead. 41_tables R141, R145, R147, 40_bit_reader R121, R122,
10_state R39, R40, R49. -/
def Obligations.HuffDecodeReadsSymbol : Prop :=
  ∀ (s : State) (c : HuffClass) (t : Fin 4) (h : HuffTable) (v : Byte) (code rest : List Bool), s.StreamReady →
    s.Defines c t h → HuffSound h → IsCode h v code → s.streamBits = code ++ rest →
    ∃ u, exec (.huffDecode (classByte c) (BitVec.ofNat 8 t.val)) s = .next u ∧
      u.streamBits = rest ∧ s.Fetched u ∧ u.brBits.cnt.toNat < 8 ∧
      u = { s with result := v.setWidth 32, brPos := u.brPos, brBits := u.brBits
                   status := { s.status with done := true, busy := false } }

/-- HUFF_DECODE on a stream that begins with no code of the table: with 16 bits left or more it consumes 16 and raises
NoMatchingHuffmanCode(1), INFO t; with fewer it consumes every bit and raises UnexpectedEndOfData, INFO t, as `RunsOut`
says for each end of the stream. RESULT keeps its value. BR_POS moves past exactly the bytes fetched. 41_tables R145,
R146, R147, 40_bit_reader R124, 60_exceptions R216, R221. -/
def Obligations.HuffDecodeFindsNoCode : Prop :=
  ∀ (s : State) (c : HuffClass) (t : Fin 4) (h : HuffTable), s.StreamReady → s.Defines c t h → HuffSound h →
    (∀ bits rest : List Bool, bits.length = 16 → NoCode h bits → s.streamBits = bits ++ rest →
      ∃ u, exec (.huffDecode (classByte c) (BitVec.ofNat 8 t.val)) s = .next u ∧
        u.streamBits = rest ∧ s.Fetched u ∧ u.brBits.cnt.toNat < 8 ∧
        u = { s.afterError 0x04 1 (BitVec.ofNat 8 t.val) with brPos := u.brPos, brBits := u.brBits }) ∧
    (s.streamBits.length < 16 → NoCode h s.streamBits →
      ∃ u, exec (.huffDecode (classByte c) (BitVec.ofNat 8 t.val)) s = .next u ∧
        s.RunsOut u (BitVec.ofNat 8 t.val))

/-- HUFF_DECODE of a table id above 3 or of a table not defined raises UndefinedTableReference(2) for a DC and (3) for an
AC table, INFO t, and reads no bit. 41_tables R147. -/
def Obligations.HuffDecodeUndefinedTable : Prop :=
  ∀ (s : State) (t : Byte), s.status.scanActive = true →
    (3 < t.toNat ∨ s.tableValid.dv.getLsbD t.toNat = false →
      exec (.huffDecode 0 t) s = .next (s.afterError 0x03 2 t)) ∧
    (3 < t.toNat ∨ s.tableValid.av.getLsbD t.toNat = false →
      exec (.huffDecode 1 t) s = .next (s.afterError 0x03 3 t))

/-- In a set of counts whose codes fit, two list positions of which one's code begins the other's are the same position: no
code is shared and none is a proper beginning of another. 41_tables R141 to R143. -/
def Obligations.CodesPrefixFree : Prop :=
  ∀ (cnt : Vector Byte 16) (len len' k k' : Nat), CodesFit cnt → HasCode cnt len k → HasCode cnt len' k' →
    codeBits cnt len k <+: codeBits cnt len' k' → k = k' ∧ len = len'

/-! ## Table loads -/

/-- LOAD_DQT of one record (30_encoding R97): element i of the record, one byte or two with the high byte first, stands at
natural index ZZ[i] of the table it names, which becomes defined; SRC_PTR passes the record; no other table changes.
41_tables R136, R137. The header's nibbles, the byte order and ZZ are PRESUMED by the spec, log 14. -/
def Obligations.LoadDqtStoresTable : Prop :=
  ∀ (s : State) (pq : Nat) (tq : Fin 4), s.status.scanActive = false → pq ≤ 1 →
    s.ibufByte s.srcPtr.toNat = BitVec.ofNat 8 (16 * pq + tq.val) →
    s.srcEnd.toNat = s.srcPtr.toNat + (1 + 64 * (pq + 1)) → s.srcEnd.toNat ≤ s.params.ibufBytes →
    ∃ u, exec .loadDqt s = .next u ∧
      (∀ i : Fin 64, u.quant[tq.val][(zz i).val] =
        if pq = 0 then (s.ibufByte (s.srcPtr.toNat + 1 + i.val)).setWidth 16
        else s.ibufByte (s.srcPtr.toNat + 1 + 2 * i.val) ++ s.ibufByte (s.srcPtr.toNat + 2 + 2 * i.val)) ∧
      (∀ k : Fin 4, k ≠ tq → u.quant[k.val] = s.quant[k.val]) ∧
      u = { s with quant := u.quant, srcPtr := s.srcEnd
                   tableValid := { s.tableValid with qv := s.tableValid.qv ||| BitVec.twoPow 4 tq.val }
                   status := { s.status with done := true, busy := false } }

/-- LOAD_DQT of a payload that begins with a whole record is LOAD_DQT of what follows it, with the record's table stored.
41_tables R136. The header's nibbles, the byte order and ZZ are PRESUMED by the spec, log 14. -/
def Obligations.LoadDqtTakesRecordsInOrder : Prop :=
  ∀ (s : State) (pq : Nat) (tq : Fin 4), s.status.scanActive = false → pq ≤ 1 →
    s.ibufByte s.srcPtr.toNat = BitVec.ofNat 8 (16 * pq + tq.val) →
    s.srcPtr.toNat + (1 + 64 * (pq + 1)) ≤ s.srcEnd.toNat → s.srcEnd.toNat ≤ s.params.ibufBytes →
    ∃ q : QuantTable,
      (∀ i : Fin 64, q[(zz i).val] =
        if pq = 0 then (s.ibufByte (s.srcPtr.toNat + 1 + i.val)).setWidth 16
        else s.ibufByte (s.srcPtr.toNat + 1 + 2 * i.val) ++ s.ibufByte (s.srcPtr.toNat + 2 + 2 * i.val)) ∧
      exec .loadDqt s =
        exec .loadDqt { s with
          quant := s.quant.set tq.val q
          tableValid := { s.tableValid with qv := s.tableValid.qv ||| BitVec.twoPow 4 tq.val }
          srcPtr := BitVec.ofNat 32 (s.srcPtr.toNat + (1 + 64 * (pq + 1))) }

/-- LOAD_DQT's other ends, in the order of its checks: a range beyond IBUF, an empty range, Pq above 1, Tq above 3, a record
that passes SRC_END; INFO is the record's first byte, and nothing else changes. 41_tables R135, R136. -/
def Obligations.LoadDqtChecksRange : Prop :=
  ∀ s : State, s.status.scanActive = false →
    (s.params.ibufBytes < s.srcEnd.toNat ∨ s.srcEnd.toNat < s.srcPtr.toNat →
      exec .loadDqt s = .next (s.afterError 0x0A 1 0)) ∧
    (s.srcEnd.toNat ≤ s.params.ibufBytes → s.srcPtr = s.srcEnd → exec .loadDqt s = .next s.afterSuccess) ∧
    (s.srcEnd.toNat ≤ s.params.ibufBytes → s.srcPtr.toNat < s.srcEnd.toNat →
      ∀ h, s.ibufByte s.srcPtr.toNat = h →
        (1 < h.toNat / 16 → exec .loadDqt s = .next (s.afterError 0x07 1 h)) ∧
        (h.toNat / 16 ≤ 1 ∧ 3 < h.toNat % 16 → exec .loadDqt s = .next (s.afterError 0x07 2 h)) ∧
        (h.toNat / 16 ≤ 1 ∧ h.toNat % 16 ≤ 3 ∧ s.srcEnd.toNat < s.srcPtr.toNat + (1 + 64 * (h.toNat / 16 + 1)) →
          exec .loadDqt s = .next (s.afterError 0x07 5 h)))

/-- LOAD_DHT of one record (30_encoding R98) with valid counts, whose sum is at most 256 and whose codes fit (`CodesFit`,
R142's bound for each length, which the all-ones code meets): the table of the class and id it names holds the counts,
their sum, the symbols in order, and FIRSTCODE and VALPTR as the canonical construction gives them, and becomes defined;
SRC_PTR passes the record; the table of the other class and every other id keep theirs. 41_tables R139 to R142. The
header's nibbles are PRESUMED by the spec, log 14. -/
def Obligations.LoadDhtStoresTable : Prop :=
  ∀ (s : State) (tc : Nat) (th : Fin 4) (cnt : Vector Byte 16), s.status.scanActive = false → tc ≤ 1 →
    s.ibufByte s.srcPtr.toNat = BitVec.ofNat 8 (16 * tc + th.val) →
    (∀ i : Fin 16, cnt[i.val] = s.ibufByte (s.srcPtr.toNat + 1 + i.val)) →
    countSum cnt ≤ 256 → CodesFit cnt →
    s.srcEnd.toNat = s.srcPtr.toNat + 17 + countSum cnt → s.srcEnd.toNat ≤ s.params.ibufBytes →
    ∃ t : HuffTable,
      t.count = cnt ∧ t.nsym.toNat = countSum cnt ∧ t.huffval.length = countSum cnt ∧
      (∀ k, k < countSum cnt → t.huffval[k]? = some (s.ibufByte (s.srcPtr.toNat + 17 + k))) ∧
      t.firstCode[0].toNat = 0 ∧ t.valPtr[0].toNat = 0 ∧
      (∀ i : Fin 15, t.firstCode[i.val + 1].toNat = 2 * (t.firstCode[i.val].toNat + cnt[i.val].toNat) ∧
        t.valPtr[i.val + 1].toNat = t.valPtr[i.val].toNat + cnt[i.val].toNat) ∧
      (tc = 0 → exec .loadDht s = .next
        { s with dcTable := s.dcTable.set th.val t, srcPtr := s.srcEnd
                 tableValid := { s.tableValid with dv := s.tableValid.dv ||| BitVec.twoPow 4 th.val }
                 status := { s.status with done := true, busy := false } }) ∧
      (tc = 1 → exec .loadDht s = .next
        { s with acTable := s.acTable.set th.val t, srcPtr := s.srcEnd
                 tableValid := { s.tableValid with av := s.tableValid.av ||| BitVec.twoPow 4 th.val }
                 status := { s.status with done := true, busy := false } })

/-- LOAD_DHT of a payload that begins with a whole valid record is LOAD_DHT of what follows it, with the record's table
stored: the counts, their sum, the symbols, FIRSTCODE and VALPTR as in LoadDhtStoresTable. 41_tables R139 to R142. The
header's nibbles are PRESUMED by the spec, log 14. -/
def Obligations.LoadDhtTakesRecordsInOrder : Prop :=
  ∀ (s : State) (tc : Nat) (th : Fin 4) (cnt : Vector Byte 16), s.status.scanActive = false → tc ≤ 1 →
    s.ibufByte s.srcPtr.toNat = BitVec.ofNat 8 (16 * tc + th.val) →
    (∀ i : Fin 16, cnt[i.val] = s.ibufByte (s.srcPtr.toNat + 1 + i.val)) →
    countSum cnt ≤ 256 → CodesFit cnt →
    s.srcPtr.toNat + 17 + countSum cnt ≤ s.srcEnd.toNat → s.srcEnd.toNat ≤ s.params.ibufBytes →
    ∃ t : HuffTable,
      t.count = cnt ∧ t.nsym.toNat = countSum cnt ∧ t.huffval.length = countSum cnt ∧
      (∀ k, k < countSum cnt → t.huffval[k]? = some (s.ibufByte (s.srcPtr.toNat + 17 + k))) ∧
      t.firstCode[0].toNat = 0 ∧ t.valPtr[0].toNat = 0 ∧
      (∀ i : Fin 15, t.firstCode[i.val + 1].toNat = 2 * (t.firstCode[i.val].toNat + cnt[i.val].toNat) ∧
        t.valPtr[i.val + 1].toNat = t.valPtr[i.val].toNat + cnt[i.val].toNat) ∧
      (tc = 0 → exec .loadDht s = exec .loadDht
        { s with dcTable := s.dcTable.set th.val t, srcPtr := BitVec.ofNat 32 (s.srcPtr.toNat + 17 + countSum cnt)
                 tableValid := { s.tableValid with dv := s.tableValid.dv ||| BitVec.twoPow 4 th.val } }) ∧
      (tc = 1 → exec .loadDht s = exec .loadDht
        { s with acTable := s.acTable.set th.val t, srcPtr := BitVec.ofNat 32 (s.srcPtr.toNat + 17 + countSum cnt)
                 tableValid := { s.tableValid with av := s.tableValid.av ||| BitVec.twoPow 4 th.val } })

/-- LOAD_DHT's other ends, in the order of its checks: a range beyond IBUF, an empty range, Tc above 1, Th above 3, a record
that passes SRC_END before its counts, more than 256 symbols, symbols that pass SRC_END, counts that overflow the code
space (for some length L the running value passes 2^L); INFO is the record's first byte, and nothing else changes.
41_tables R138, R139, R141, R142. -/
def Obligations.LoadDhtChecksRecord : Prop :=
  ∀ s : State, s.status.scanActive = false →
    (s.params.ibufBytes < s.srcEnd.toNat ∨ s.srcEnd.toNat < s.srcPtr.toNat →
      exec .loadDht s = .next (s.afterError 0x0A 1 0)) ∧
    (s.srcEnd.toNat ≤ s.params.ibufBytes → s.srcPtr = s.srcEnd → exec .loadDht s = .next s.afterSuccess) ∧
    (s.srcEnd.toNat ≤ s.params.ibufBytes → s.srcPtr.toNat < s.srcEnd.toNat →
      ∀ (h : Byte) (cnt : Vector Byte 16), s.ibufByte s.srcPtr.toNat = h →
        (∀ i : Fin 16, cnt[i.val] = s.ibufByte (s.srcPtr.toNat + 1 + i.val)) →
        (1 < h.toNat / 16 → exec .loadDht s = .next (s.afterError 0x07 3 h)) ∧
        (h.toNat / 16 ≤ 1 ∧ 3 < h.toNat % 16 → exec .loadDht s = .next (s.afterError 0x07 4 h)) ∧
        (h.toNat / 16 ≤ 1 ∧ h.toNat % 16 ≤ 3 →
          (s.srcEnd.toNat < s.srcPtr.toNat + 17 → exec .loadDht s = .next (s.afterError 0x07 5 h)) ∧
          (s.srcPtr.toNat + 17 ≤ s.srcEnd.toNat →
            (256 < countSum cnt → exec .loadDht s = .next (s.afterError 0x07 6 h)) ∧
            (countSum cnt ≤ 256 ∧ s.srcEnd.toNat < s.srcPtr.toNat + 17 + countSum cnt →
              exec .loadDht s = .next (s.afterError 0x07 5 h)) ∧
            (countSum cnt ≤ 256 ∧ s.srcPtr.toNat + 17 + countSum cnt ≤ s.srcEnd.toNat ∧ ¬CodesFit cnt →
              exec .loadDht s = .next (s.afterError 0x07 7 h)))))

/-! ## Frames -/

/-- What READ_BITS and HUFF_DECODE may change. When they complete: BR_POS, BR_BITS, RESULT, DONE, BUSY. When they raise:
BR_POS, BR_BITS, MARKER_SEEN, MARKER_CODE, ERROR, ERR, SCAN_ACTIVE, BUSY, and RESULT keeps its value. No byte of a buffer
changes. 40_bit_reader R125, 41_tables R147. -/
def Obligations.ReaderCommandsFrame : Prop :=
  ∀ (s u : State) (i : Instr), (∃ n, i = .readBits n) ∨ (∃ c t, i = .huffDecode c t) → exec i s = .next u →
    (u = { s with brPos := u.brPos, brBits := u.brBits, result := u.result
                  status := { s.status with done := true, busy := false } } ∨
     u = { s with brPos := u.brPos, brBits := u.brBits, error := u.error
                  status := { s.status with markerSeen := u.status.markerSeen, markerCode := u.status.markerCode
                                            err := true, scanActive := false, busy := false } }) ∧
    ∀ a, u.ibufByte a = s.ibufByte a ∧ u.obufByte a = s.obufByte a

/-- What LOAD_DQT and LOAD_DHT may change: SRC_PTR, the tables of their own kind and their valid bits, which only rise, DONE
and BUSY; when they raise, ERROR, ERR and SCAN_ACTIVE too, and not DONE. No byte of a buffer changes. 41_tables R136, R139,
R140. -/
def Obligations.LoadsFrame : Prop :=
  ∀ s u : State,
    (exec .loadDqt s = .next u →
      (u = { s with quant := u.quant, srcPtr := u.srcPtr, tableValid := { s.tableValid with qv := u.tableValid.qv }
                    status := { s.status with done := true, busy := false } } ∨
       u = { s with quant := u.quant, srcPtr := u.srcPtr, tableValid := { s.tableValid with qv := u.tableValid.qv }
                    error := u.error
                    status := { s.status with err := true, scanActive := false, busy := false } }) ∧
      ∀ k, s.tableValid.qv.getLsbD k = true → u.tableValid.qv.getLsbD k = true) ∧
    (exec .loadDht s = .next u →
      (u = { s with dcTable := u.dcTable, acTable := u.acTable, srcPtr := u.srcPtr
                    tableValid := { s.tableValid with dv := u.tableValid.dv, av := u.tableValid.av }
                    status := { s.status with done := true, busy := false } } ∨
       u = { s with dcTable := u.dcTable, acTable := u.acTable, srcPtr := u.srcPtr
                    tableValid := { s.tableValid with dv := u.tableValid.dv, av := u.tableValid.av }
                    error := u.error
                    status := { s.status with err := true, scanActive := false, busy := false } }) ∧
      ∀ k, (s.tableValid.dv.getLsbD k = true → u.tableValid.dv.getLsbD k = true) ∧
        (s.tableValid.av.getLsbD k = true → u.tableValid.av.getLsbD k = true)) ∧
    (exec .loadDqt s = .next u ∨ exec .loadDht s = .next u →
      ∀ a, u.ibufByte a = s.ibufByte a ∧ u.obufByte a = s.obufByte a)

/-- What DECODE_MCU and DECODE_SCAN may change. When they complete: the bit reader's state, the predictors, OBUF, MCU_INDEX,
SCAN_ACTIVE, SCAN_DONE, MARKER_SEEN, MARKER_CODE, DONE, BUSY. When they raise: ERROR and ERR too, not DONE and SCAN_DONE,
and SCAN_ACTIVE ends. IBUF keeps every byte, and OBUF every byte outside the sample grid. 42_control R170, R172,
44_reconstruction R212, 60_exceptions R218. -/
def Obligations.DecodeCommandsFrame : Prop :=
  ∀ s u : State, exec .decodeMcu s = .next u ∨ exec .decodeScan s = .next u →
    (u = { s with brPos := u.brPos, brBits := u.brBits, pred := u.pred, obuf := u.obuf, mcuIndex := u.mcuIndex
                  status := { s.status with scanActive := u.status.scanActive, scanDone := u.status.scanDone
                                            markerSeen := u.status.markerSeen, markerCode := u.status.markerCode
                                            done := true, busy := false } } ∨
     u = { s with brPos := u.brPos, brBits := u.brBits, pred := u.pred, obuf := u.obuf, mcuIndex := u.mcuIndex
                  error := u.error
                  status := { s.status with markerSeen := u.status.markerSeen, markerCode := u.status.markerCode
                                            err := true, scanActive := false, busy := false } }) ∧
    ∀ a, u.ibufByte a = s.ibufByte a ∧ (s.OutsideGrid a → u.obufByte a = s.obufByte a)

/-- DECODE_MCU stores to the addresses that `currentMcuCells` computes from the blocks it decoded and to no other; when a
block raises, OBUF keeps every byte outside the sample grid, and MCU_INDEX and the tables are as before. 42_control R170,
44_reconstruction R211, 60_exceptions R219, R220. -/
def Obligations.DecodeMcuStoresItsPixels : Prop :=
  ∀ s u : State, s.status.scanActive = true → exec .decodeMcu s = .next u →
    (∀ coefs t, (decodeBlocks s.frameComps).run s = .ok coefs t →
      ∀ a, (∀ c ∈ s.currentMcuCells coefs, c.1 ≠ a) → u.obufByte a = s.obufByte a) ∧
    (∀ e t, (decodeBlocks s.frameComps).run s = .error e t →
      u.mcuIndex = s.mcuIndex ∧ u.status.err = true ∧ ∀ a, s.OutsideGrid a → u.obufByte a = s.obufByte a)

/-- What DECODE_MCU raises when the stream goes wrong in component `i` after the coded blocks of the components before
it (`pre`). Where the block goes on with bits that `BlockFails` lists it consumes exactly those and raises
CorruptEntropyData (1) to (4) or NoMatchingHuffmanCode (2) or (3); where the stream ends within the block it consumes
every bit and raises UnexpectedEndOfData, as `RunsOut` says. BR_POS moves past exactly the bytes fetched. INFO is the
component; the predictors of blocks whose DC part was read keep their new values; MCU_INDEX does not move, and OBUF
keeps every byte outside the sample grid, whose bytes are any value (log 5). 42_control R170, 43_block_decoder R181,
R185, R186, R188, 60_exceptions R216, R219, R220. -/
def Obligations.DecodeMcuReportsBlockErrors : Prop :=
  ∀ (s : State) (pre post : List (Fin 3)) (i : Fin 3) (td ta : Fin 4) (coded bits rest : List Bool) (fs : List Coefs)
    (p : Vector Word 3) (w : Word),
    s.Inv → s.status.scanActive = true → s.components = pre ++ i :: post → McuCoded s pre s.pred coded fs p →
    s.comp[i.val].td.toNat = td.val → s.comp[i.val].ta.toNat = ta.val →
    (∀ err sub : Byte, BlockFails s.dcTable[td.val] s.acTable[ta.val] p[i.val] bits err sub w →
      s.streamBits = coded ++ bits ++ rest →
      ∃ u, exec .decodeMcu s = .next u ∧ u.streamBits = rest ∧ s.Fetched u ∧ u.brBits.cnt.toNat < 8 ∧
        u = { s.afterError err sub (BitVec.ofNat 8 i.val) with
              brPos := u.brPos, brBits := u.brBits, pred := p.set i.val w, obuf := u.obuf } ∧
        ∀ a, s.OutsideGrid a → u.obufByte a = s.obufByte a) ∧
    (BlockTruncated s.dcTable[td.val] s.acTable[ta.val] p[i.val] bits w → s.streamBits = coded ++ bits →
      ∃ u, exec .decodeMcu s = .next u ∧
        State.RunsOut { s with pred := p.set i.val w, obuf := u.obuf } u (BitVec.ofNat 8 i.val) ∧
        ∀ a, s.OutsideGrid a → u.obufByte a = s.obufByte a)

/-! ## Blocks and reconstruction -/

/-- The zig-zag order walks the anti-diagonals row + column = 0 to 14, the row falling on even ones and rising on odd ones,
from index 0 to index 63, and it is a permutation. 30_encoding R103, R104 (PRESUMED by the spec, log 14). -/
def Obligations.ZigZagWalksDiagonals : Prop :=
  (zz 0).val = 0 ∧ (zz 63).val = 63 ∧ (∀ i j : Fin 64, zz i = zz j → i = j) ∧
  ∀ i : Fin 63,
    let m := (zz i.castSucc).val
    let n := (zz i.succ).val
    (n / 8 + n % 8 = m / 8 + m % 8 ∧
      (if (m / 8 + m % 8) % 2 = 0 then n / 8 + 1 = m / 8 else n / 8 = m / 8 + 1)) ∨
    (n / 8 + n % 8 = m / 8 + m % 8 + 1 ∧
      (if (m / 8 + m % 8) % 2 = 0 then m / 8 = 0 ∨ m % 8 = 7 else m % 8 = 0 ∨ m / 8 = 7))

/-- Magnitude extension, 43_block_decoder R183, whole: both halves, the category 0, the magnitude's range, and the
document's two examples. -/
def Obligations.ExtendRange : Prop :=
  (∀ v, extend v 0 = 0) ∧ extend 3 3 = -4 ∧ extend 4 3 = 4 ∧
  ∀ v t : Nat, 1 ≤ t → t ≤ 16 → v < 2 ^ t →
    (v < 2 ^ (t - 1) → extend v t = (v : Int) - (2 ^ t - 1)) ∧ (2 ^ (t - 1) ≤ v → extend v t = (v : Int)) ∧
    extend v t ≠ 0 ∧ 2 ^ (t - 1) ≤ (extend v t).natAbs ∧ (extend v t).natAbs ≤ 2 ^ t - 1

/-- The separable inverse DCT in two exact passes is the exact double sum, rounded once; K is the table of R201: the rows
0 to 3 as written, and the rows 4 to 7 their mirror images, with the sign of odd frequencies turned; and each sample is the
sum's value plus 128, clamped to 0 to 255. 44_reconstruction R201, R202, R204, R205. -/
def Obligations.IdctIsRoundedDoubleSum : Prop :=
  (∀ (f : Coefs) (y x : Fin 8),
    (idct f)[8 * y.val + x.val]'(by omega) =
      (((List.finRange 8).map fun v => ((List.finRange 8).map fun u =>
          kc y v * kc x u * (f[8 * v.val + u.val]'(by omega)).toInt).sum).sum + 2 ^ 25) / 2 ^ 26) ∧
  ((List.finRange 8).map (kc 0) = [2896, 4017, 3784, 3406, 2896, 2276, 1567, 799] ∧
    (List.finRange 8).map (kc 1) = [2896, 3406, 1567, -799, -2896, -4017, -3784, -2276] ∧
    (List.finRange 8).map (kc 2) = [2896, 2276, -1567, -4017, -2896, 799, 3784, 3406] ∧
    (List.finRange 8).map (kc 3) = [2896, 799, -3784, -2276, 2896, 3406, -1567, -4017]) ∧
  (∀ p f : Fin 8, kc p.rev f = (-1) ^ f.val * kc p f) ∧
  ∀ (f : Coefs) (n : Fin 64), ((reconstruct f)[n.val]).toNat = (min 255 (max 0 ((idct f)[n.val] + 128))).toNat

/-- 44_reconstruction R214, whole: a block with only F[0] = d gives 64 equal samples in closed form, since K[p][0] = 2896
for every p; for d = 0 each is 128. -/
def Obligations.DcOnlyBlockIsFlat : Prop :=
  (∀ (d : Word) (n : Fin 64),
    ((reconstruct (zeroCoefs.set 0 d))[n.val]).toNat =
      (min 255 (max 0 ((8386816 * d.toInt + 2 ^ 25) / 2 ^ 26 + 128))).toNat) ∧
  (∀ p : Fin 8, kc p 0 = 2896) ∧ (2896 : Int) ^ 2 = 8386816 ∧
  ∀ n : Fin 64, (reconstruct (zeroCoefs.set 0 0#32))[n.val] = 128#8

/-- Colour conversion: each output is the exact formula of R207 in millionths, rounded to the nearest integer with ties
upward and clamped to 0 to 255; Cb = Cr = 128 gives grey; and the four ties of R208 round as it lists them.
44_reconstruction R207, R208, R209. -/
def Obligations.ColourConversionRoundsToNearest : Prop :=
  (∀ y cb cr : Byte, ∃ r g b : Int,
    (yccToRgb y cb cr).1.toNat = (min 255 (max 0 r)).toNat ∧
    (yccToRgb y cb cr).2.1.toNat = (min 255 (max 0 g)).toNat ∧
    (yccToRgb y cb cr).2.2.toNat = (min 255 (max 0 b)).toNat ∧
    (let r6 : Int := 1000000 * (y.toNat : Int) + 1402000 * ((cr.toNat : Int) - 128)
     2 * r6 - 1000000 < 2000000 * r ∧ 2000000 * r ≤ 2 * r6 + 1000000) ∧
    (let g6 : Int := 1000000 * (y.toNat : Int) - 344136 * ((cb.toNat : Int) - 128) - 714136 * ((cr.toNat : Int) - 128)
     2 * g6 - 1000000 < 2000000 * g ∧ 2000000 * g ≤ 2 * g6 + 1000000) ∧
    (let b6 : Int := 1000000 * (y.toNat : Int) + 1772000 * ((cb.toNat : Int) - 128)
     2 * b6 - 1000000 < 2000000 * b ∧ 2000000 * b ≤ 2 * b6 + 1000000)) ∧
  (∀ y : Byte, yccToRgb y 128#8 128#8 = (y, y, y)) ∧
  ∀ y cr : Byte,
    (yccToRgb y 3#8 cr).2.2.toNat = (max 0 ((y.toNat : Int) - 221)).toNat ∧
    (yccToRgb y 253#8 cr).2.2.toNat = min 255 (y.toNat + 222) ∧
    (yccToRgb y 78#8 178#8).2.1.toNat = (max 0 ((y.toNat : Int) - 18)).toNat ∧
    (yccToRgb y 178#8 78#8).2.1.toNat = min 255 (y.toNat + 19)

/-- Components share only the bit stream: decoding a block of component i keeps every other predictor, and neither reads
another component's predictor nor its COMP register. 43_block_decoder R191. -/
def Obligations.ComponentsAreIsolated : Prop :=
  ∀ (i j : Fin 3) (s : State) (w : Word) (c : Comp), j ≠ i →
    (∀ f t, (decodeBlock i).run s = .ok f t →
      t.pred[j.val] = s.pred[j.val] ∧
      (decodeBlock i).run { s with pred := s.pred.set j.val w, comp := s.comp.set j.val c } =
        .ok f { t with pred := t.pred.set j.val w, comp := t.comp.set j.val c }) ∧
    ∀ e t, (decodeBlock i).run s = .error e t →
      t.pred[j.val] = s.pred[j.val] ∧
      (decodeBlock i).run { s with pred := s.pred.set j.val w, comp := s.comp.set j.val c } =
        .error e { t with pred := t.pred.set j.val w, comp := t.comp.set j.val c }

/-! ## DECODE_MCU and DECODE_SCAN -/

/-- DECODE_MCU on a stream that begins with the coded blocks of one MCU: it consumes exactly those bits, with BR_POS
behind the last byte they take, moves the predictors as coded, writes the MCU's pixels inside the image and no other
byte of OBUF, advances MCU_INDEX, and at the last MCU ends the scan and reports a marker that comes next. 42_control
R165, R169, R170, 43_block_decoder R181 to R190, 44_reconstruction R211, 40_bit_reader R127. The decoded image rests on
what the spec itself presumes, the zig-zag order and natural order among it, log 14. -/
def Obligations.DecodeMcuDecodesStream : Prop :=
  ∀ (s : State) (bits rest : List Bool) (coefs : List Coefs) (pred : Vector Word 3),
    s.Inv → s.status.scanActive = true → McuCoded s s.components s.pred bits coefs pred →
    s.streamBits = bits ++ rest →
    ∃ u, exec .decodeMcu s = .next u ∧ u.streamBits = rest ∧ s.Fetched u ∧
      u = { s with brPos := u.brPos, brBits := u.brBits, pred := pred, obuf := u.obuf, mcuIndex := s.mcuIndex + 1#32
                   status := { s.status with scanActive := decide (s.mcuIndex + 1#32 ≠ s.mcuTotal)
                                             scanDone := decide (s.mcuIndex + 1#32 = s.mcuTotal)
                                             markerSeen := u.status.markerSeen, markerCode := u.status.markerCode
                                             done := true, busy := false } } ∧
      u.brBits.cnt.toNat < 8 ∧ (s.mcuIndex + 1#32 ≠ s.mcuTotal → u.status.markerSeen = false) ∧
      (u.status.markerSeen = false → u.status.markerCode = 0#8) ∧
      (s.mcuIndex + 1#32 = s.mcuTotal →
        (u.status.markerSeen = true ↔ ∃ m more, u.payloadLeft = 0xFF#8 :: m :: more ∧ m ≠ 0#8 ∧
          u.status.markerCode = m)) ∧
      (∀ x y, x < s.frameSize.x.toNat → y < s.frameSize.y.toNat →
        if s.mcuOf x y = s.mcuIndex.toNat then some (u.pixel x y) = mcuColour coefs x y
        else u.pixel x y = s.pixel x y) ∧
      ∀ a, s.OutsideGrid a → u.obufByte a = s.obufByte a

/-- DECODE_SCAN on a stream that begins with the coded MCUs that remain: it consumes exactly those bits, with BR_POS
behind the last byte they take, ends the scan and reports a marker that comes next; every pixel of those MCUs ends with
the colour its own MCU gives it, and every other byte of OBUF with the value it had. 42_control R171, R172,
44_reconstruction R211, 40_bit_reader R127. The decoded image rests on what the spec itself presumes, the zig-zag order
and natural order among it, log 14. -/
def Obligations.DecodeScanDecodesStream : Prop :=
  ∀ (s : State) (bits rest : List Bool) (mcus : List (List Coefs)) (pred : Vector Word 3),
    s.Inv → s.status.scanActive = true → ScanCoded s s.pred bits mcus pred →
    s.mcuIndex.toNat + mcus.length = s.mcuTotal.toNat → s.streamBits = bits ++ rest →
    ∃ u, exec .decodeScan s = .next u ∧ u.streamBits = rest ∧ s.Fetched u ∧
      u = { s with brPos := u.brPos, brBits := u.brBits, pred := pred, obuf := u.obuf, mcuIndex := s.mcuTotal
                   status := { s.status with scanActive := false, scanDone := true
                                             markerSeen := u.status.markerSeen, markerCode := u.status.markerCode
                                             done := true, busy := false } } ∧
      u.brBits.cnt.toNat < 8 ∧ (u.status.markerSeen = false → u.status.markerCode = 0#8) ∧
      (u.status.markerSeen = true ↔ ∃ m more, u.payloadLeft = 0xFF#8 :: m :: more ∧ m ≠ 0#8 ∧ u.status.markerCode = m) ∧
      (∀ x y, x < s.frameSize.x.toNat → y < s.frameSize.y.toNat →
        if s.mcuIndex.toNat ≤ s.mcuOf x y then
          ∃ coefs, mcus[s.mcuOf x y - s.mcuIndex.toNat]? = some coefs ∧ some (u.pixel x y) = mcuColour coefs x y
        else u.pixel x y = s.pixel x y) ∧
      ∀ a, s.OutsideGrid a → u.obufByte a = s.obufByte a

/-- DECODE_SCAN is DECODE_MCU repeated: where DECODE_MCU raises or ends the scan, DECODE_SCAN ends in the same state;
otherwise it goes on from there, within the same command. 42_control R172. -/
def Obligations.DecodeScanRepeatsDecodeMcu : Prop :=
  ∀ s u : State, s.status.scanActive = true → exec .decodeMcu s = .next u →
    (u.status.scanActive = false → exec .decodeScan s = .next u) ∧
    (u.status.scanActive = true →
      exec .decodeScan s =
        exec .decodeScan { u with status := { u.status with done := s.status.done, busy := s.status.busy } })

/-! ## Invariants and whole-machine rules -/

/-- Every step keeps the invariant: memory's form, the flags of STATUS (60_exceptions R222, R227), sound tables (41_tables
R142), the checks of BEGIN_SCAN during the scan (42_control R166), the reader's bounds (40_bit_reader R130). -/
def Obligations.StepKeepsInv : Prop := ∀ s u : State, s.Inv → step s = .next u → u.Inv

/-- The reset state meets the invariant. 70_reset R240. -/
def Obligations.ResetMeetsInv : Prop := State.reset.Inv

/-- From every state of the invariant a step answers a next state: the engine never leaves IBUF or OBUF and never selects a
table that does not exist. 20_memory R88, 44_reconstruction R211. -/
def Obligations.InvNeverFaults : Prop := ∀ s : State, s.Inv → ∃ u, step s = .next u

/-- While ERR = 1 a step keeps ERR and ERROR unless it resets the block. 60_exceptions R222, R223. -/
def Obligations.ErrorHeldUntilReset : Prop :=
  ∀ s u : State, s.Inv → s.status.err = true → step s = .next u → ¬s.Resets →
    u.status.err = true ∧ u.error = s.error

/-- The engine writes no byte of IBUF and none of what only the host or the platform sets. 10_state R51, 20_memory R70,
42_control R161. -/
def Obligations.EngineKeepsHostState : Prop :=
  ∀ s u : State, engineStep s = .next u →
    (∀ a, u.ibufByte a = s.ibufByte a) ∧ u.cmd = s.cmd ∧ u.params = s.params ∧
    ((∀ x, decodeWord s.pend ≠ .ok (.softReset x)) →
      u.irqEn = s.irqEn ∧ u.frameType = s.frameType ∧ u.frameSize = s.frameSize ∧ u.frameNcomp = s.frameNcomp ∧
      u.comp = s.comp ∧ u.restartInterval = s.restartInterval ∧ u.srcEnd = s.srcEnd ∧ u.inBase = s.inBase ∧
      u.inLen = s.inLen ∧ u.outBase = s.outBase ∧ u.status.haz = s.status.haz ∧ u.status.accerr = s.status.accerr)

/-- 20_memory R87: the table maps do not change while a scan is active, and the two loads are refused. -/
def Obligations.TablesFixedDuringScan : Prop :=
  (∀ s u : State, s.status.scanActive = true → step s = .next u → u.status.scanActive = true →
    u.quant = s.quant ∧ u.dcTable = s.dcTable ∧ u.acTable = s.acTable ∧ u.tableValid = s.tableValid) ∧
  ∀ s : State, s.status.scanActive = true →
    exec .loadDqt s = .next (s.afterError 0x09 3 0x02) ∧ exec .loadDht s = .next (s.afterError 0x09 3 0x03)

/-- SCAN_ACTIVE rises only by a BEGIN_SCAN that completes, FRAME_VALID only by a SET_FRAME that completes, and FRAME_VALID
and the bits of TABLE_VALID fall only by a reset. 10_state R24, R44. -/
def Obligations.StatusBitsChangeOnlyBy : Prop :=
  ∀ s u : State, step s = .next u →
    (s.status.scanActive = false → u.status.scanActive = true → s.Executes .beginScan ∧ u.status.done = true) ∧
    (s.status.frameValid = false → u.status.frameValid = true → s.Executes .setFrame ∧ u.status.done = true) ∧
    (¬s.Resets → (s.status.frameValid = true → u.status.frameValid = true) ∧
      ∀ k, (s.tableValid.qv.getLsbD k = true → u.tableValid.qv.getLsbD k = true) ∧
        (s.tableValid.dv.getLsbD k = true → u.tableValid.dv.getLsbD k = true) ∧
        (s.tableValid.av.getLsbD k = true → u.tableValid.av.getLsbD k = true))

/-- Within a scan BR_POS and MCU_INDEX only grow, BR_POS does not pass IN_LEN, and MCU_TOTAL stays. 40_bit_reader R130,
42_control R171. -/
def Obligations.ScanProgressOnlyGrows : Prop :=
  ∀ s u : State, s.Inv → s.status.scanActive = true → step s = .next u → u.status.scanActive = true →
    s.brPos.toNat ≤ u.brPos.toNat ∧ u.brPos.toNat ≤ u.inLen.toNat ∧ s.mcuIndex.toNat ≤ u.mcuIndex.toNat ∧
    u.mcuIndex.toNat < u.mcuTotal.toNat ∧ u.mcuTotal = s.mcuTotal

/-- No command reads RESTART_INTERVAL: a command other than SOFT_RESET does the same whatever it holds, and keeps it.
10_state R33. -/
def Obligations.RestartIntervalHasNoEffect : Prop :=
  ∀ (i : Instr) (s : State) (r : BitVec 16), (∀ x, i ≠ .softReset x) →
    exec i { s with restartInterval := r } =
      match exec i s with
      | .next u => .next { u with restartInterval := r }
      | .fault f => .fault f
      | .refused e => .refused e

/-! ## Host accesses -/

/-- 20_memory R75 and 10_state R46: a malformed access within the window reads 0, writes nothing and sets ACCERR, with no
other effect (a write while BUSY = 1 sets HAZ too, 20_memory R76), and a well-formed one does not set ACCERR. -/
def Obligations.MalformedAccess : Prop :=
  ∀ (s : State) (off n : Nat), off < 0x4000000 →
    (s.Malformed off n →
      s.hostRead (s.params.base + off) n = { s with readData := 0#32, status := { s.status with accerr := true } } ∧
      ∀ v, s.hostWrite (s.params.base + off) n v =
        { s with status := { s.status with accerr := true, haz := s.status.haz || s.status.busy } }) ∧
    (¬s.Malformed off n →
      (s.hostRead (s.params.base + off) n).status.accerr = s.status.accerr ∧
      ∀ v, off ≠ 8 → (s.hostWrite (s.params.base + off) n v).status.accerr = s.status.accerr)

/-- 20_memory R76: a write within the window while BUSY = 1 is dropped and sets HAZ, and ACCERR too when it is malformed. -/
def Obligations.WriteWhileBusyDropped : Prop :=
  ∀ (s : State) (off n : Nat) (v : Word), off < 0x4000000 → s.status.busy = true →
    (¬s.Malformed off n → s.hostWrite (s.params.base + off) n v = { s with status := { s.status with haz := true } }) ∧
    (s.Malformed off n →
      s.hostWrite (s.params.base + off) n v = { s with status := { s.status with haz := true, accerr := true } })

/-- What a host read of each register returns while BUSY = 0: its fields at their bits, the leftmost written the highest, and
0 in reserved bits (20_memory R82). 10_state R22 to R31, R33 to R45. -/
def Obligations.RegisterReads : Prop :=
  ∀ s : State, s.status.busy = false →
    s.readReg 0x00 = 0x42470001#32 ∧
    s.readReg 0x04 = s.cmd ∧
    s.readReg 0x08 = 0#8 ++ s.status.markerCode ++ 0#6 ++ BitVec.ofBool s.irq ++ BitVec.ofBool s.status.accerr ++
      BitVec.ofBool s.status.haz ++ BitVec.ofBool s.status.markerSeen ++ BitVec.ofBool s.status.scanDone ++
      BitVec.ofBool s.status.scanActive ++ BitVec.ofBool s.status.frameValid ++ BitVec.ofBool s.status.err ++
      BitVec.ofBool s.status.done ++ 0#1 ∧
    s.readReg 0x0C = 0#8 ++ s.error.info ++ s.error.sub ++ s.error.code ∧
    s.readReg 0x10 = 0#30 ++ BitVec.ofBool s.irqEn.errIe ++ BitVec.ofBool s.irqEn.doneIe ∧
    s.readReg 0x14 = 0#16 ++ s.frameType.p ++ s.frameType.sof ∧
    s.readReg 0x18 = s.frameSize.y ++ s.frameSize.x ∧
    s.readReg 0x1C = 0#24 ++ s.frameNcomp ∧
    (∀ i : Fin 3, s.readReg (0x20 + 4 * i.val) =
      0#12 ++ s.comp[i.val].ta ++ s.comp[i.val].td ++ s.comp[i.val].tq ++ s.comp[i.val].v ++ s.comp[i.val].h) ∧
    s.readReg 0x2C = 0#16 ++ s.restartInterval ∧
    s.readReg 0x30 = s.srcPtr ∧
    s.readReg 0x34 = s.srcEnd ∧
    s.readReg 0x38 = s.inBase ∧
    s.readReg 0x3C = s.inLen ∧
    s.readReg 0x40 = s.outBase ∧
    s.readReg 0x44 = s.brPos ∧
    s.readReg 0x48 = 0#20 ++ s.brBits.cnt ++ s.brBits.byte ∧
    s.readReg 0x4C = s.mcuIndex ∧
    s.readReg 0x50 = s.mcuTotal ∧
    s.readReg 0x54 = s.result ∧
    s.readReg 0x58 = 0#20 ++ s.tableValid.av ++ s.tableValid.dv ++ s.tableValid.qv ∧
    ∀ i : Fin 3, s.readReg (0x5C + 4 * i.val) = s.pred[i.val]

/-- 10_state R21 and R22: a register that may be written holds what was written in its fields and 0 in its reserved
bits; a read-only one ignores writes; one locked in scan drops a write during a scan and sets HAZ; reserved bits read 0
at all times, those of STATUS, ERROR, BR_BITS and TABLE_VALID while BUSY = 1 too, which is the model's reading of
20_memory R77, log 6; ID is a constant. A write that is not dropped sets the register's own fields from its bits and
nothing else (20_memory R82; 10_state R27 to R38). (Writes to CMD are CommandAcceptance, writes while BUSY = 1 are
WriteWhileBusyDropped, the bits of STATUS are StatusWriteClears.) -/
def Obligations.RegisterAccess : Prop :=
  ∀ (s : State) (w : Word),
    (s.status.busy = false →
      (∀ r ∈ [(0x04, 0xFFFFFFFF#32), (0x10, 0x3#32), (0x2C, 0xFFFF#32), (0x30, 0xFFFFFFFF#32), (0x34, 0xFFFFFFFF#32)],
        (s.writeReg r.1 w).readReg r.1 = w &&& r.2) ∧
      (∀ r ∈ [(0x14, 0xFFFF#32), (0x18, 0xFFFFFFFF#32), (0x1C, 0xFF#32), (0x20, 0xFFFFF#32), (0x24, 0xFFFFF#32),
          (0x28, 0xFFFFF#32), (0x38, 0xFFFFFFFF#32), (0x3C, 0xFFFFFFFF#32), (0x40, 0xFFFFFFFF#32)],
        (s.status.scanActive = false → (s.writeReg r.1 w).readReg r.1 = w &&& r.2) ∧
        (s.status.scanActive = true → s.writeReg r.1 w = { s with status := { s.status with haz := true } })) ∧
      ∀ o ∈ [0x00, 0x0C, 0x44, 0x48, 0x4C, 0x50, 0x54, 0x58, 0x5C, 0x60, 0x64], s.writeReg o w = s) ∧
    (∀ r ∈ [(0x08, 0xFF00FC00#32), (0x0C, 0xFF000000#32), (0x10, 0xFFFFFFFC#32), (0x14, 0xFFFF0000#32),
        (0x1C, 0xFFFFFF00#32), (0x20, 0xFFF00000#32), (0x24, 0xFFF00000#32), (0x28, 0xFFF00000#32),
        (0x2C, 0xFFFF0000#32), (0x48, 0xFFFFF000#32), (0x58, 0xFFFFF000#32)],
      s.readReg r.1 &&& r.2 = 0#32) ∧
    s.readReg 0 = 0x42470001#32 ∧
    (s.status.busy = false →
      s.writeReg 0x10 w = { s with irqEn := { doneIe := w.getLsbD 0, errIe := w.getLsbD 1 } } ∧
      s.writeReg 0x2C w = { s with restartInterval := w.extractLsb' 0 16 } ∧
      s.writeReg 0x30 w = { s with srcPtr := w } ∧
      s.writeReg 0x34 w = { s with srcEnd := w } ∧
      (s.status.scanActive = false →
        s.writeReg 0x14 w = { s with frameType := { sof := w.extractLsb' 0 8, p := w.extractLsb' 8 8 } } ∧
        s.writeReg 0x18 w = { s with frameSize := { x := w.extractLsb' 0 16, y := w.extractLsb' 16 16 } } ∧
        s.writeReg 0x1C w = { s with frameNcomp := w.extractLsb' 0 8 } ∧
        (∀ i : Fin 3, s.writeReg (0x20 + 4 * i.val) w =
          { s with comp := s.comp.set i.val { h := w.extractLsb' 0 4, v := w.extractLsb' 4 4, tq := w.extractLsb' 8 4
                                              td := w.extractLsb' 12 4, ta := w.extractLsb' 16 4 } }) ∧
        s.writeReg 0x38 w = { s with inBase := w } ∧
        s.writeReg 0x3C w = { s with inLen := w } ∧
        s.writeReg 0x40 w = { s with outBase := w }))

/-- A well-formed write to a buffer stores its bytes at rising offsets, bits [7:0] first, and changes no other byte; a
well-formed read assembles them the same way. 20_memory R72 to R74, R80. -/
def Obligations.BufferBytesLittleEndian : Prop :=
  ∀ (s : State) (a n : Nat) (v : Word), s.params.Legal → (n = 1 ∨ n = 2 ∨ n = 4) → a % n = 0 →
    (a + n ≤ s.params.ibufBytes →
      (∀ k, k < 4 → ((s.hostRead (s.params.base + 0x1000000 + a) n).readData).extractLsb' (8 * k) 8 =
        if k < n then s.ibufByte (a + k) else 0#8) ∧
      (s.status.busy = false → ∃ m, s.hostWrite (s.params.base + 0x1000000 + a) n v = { s with ibuf := m } ∧
        (∀ k, k < n → m.read .ibuf (a + k) = v.extractLsb' (8 * k) 8) ∧
        ∀ b, b < a ∨ a + n ≤ b → m.read .ibuf b = s.ibufByte b)) ∧
    (a + n ≤ s.params.obufBytes → s.status.busy = false →
      (∀ k, k < 4 → ((s.hostRead (s.params.base + 0x2000000 + a) n).readData).extractLsb' (8 * k) 8 =
        if k < n then s.obufByte (a + k) else 0#8) ∧
      ∃ m, s.hostWrite (s.params.base + 0x2000000 + a) n v = { s with obuf := m } ∧
        (∀ k, k < n → m.read .obuf (a + k) = v.extractLsb' (8 * k) 8) ∧
        ∀ b, b < a ∨ a + n ≤ b → m.read .obuf b = s.obufByte b)

/-- While BUSY = 1 the registers no command writes and IBUF read as they are, STATUS.BUSY reads 1, and what a command may
write, the other bits of STATUS and OBUF among it, reads as the next free value cut to the bits it has, a new one at each
read. 20_memory R77; the free values, and that reserved bits read 0 here too, are log 6. -/
def Obligations.ReadsWhileBusy : Prop :=
  ∀ s : State, s.status.busy = true →
    (∀ o ∈ [0x00, 0x04, 0x10, 0x14, 0x18, 0x1C, 0x20, 0x24, 0x28, 0x2C, 0x34, 0x38, 0x3C, 0x40],
      s.readReg o = { s with status := { s.status with busy := false } }.readReg o) ∧
    (∀ a n, a < 0x1000000 → (s.hostRead (s.params.base + 0x1000000 + a) n).readData =
        ({ s with status := { s.status with busy := false } }.hostRead (s.params.base + 0x1000000 + a) n).readData) ∧
    (s.readReg 8 = (Config.draw s.draws &&& 0x00FF03FE#32) ||| 1#32 ∧
      (s.hostRead (s.params.base + 8) 4).draws = s.draws + 1) ∧
    (∀ r ∈ [(0x0C, 0x00FFFFFF#32), (0x30, 0xFFFFFFFF#32), (0x44, 0xFFFFFFFF#32), (0x48, 0x00000FFF#32),
        (0x4C, 0xFFFFFFFF#32), (0x50, 0xFFFFFFFF#32), (0x54, 0xFFFFFFFF#32), (0x58, 0x00000FFF#32),
        (0x5C, 0xFFFFFFFF#32), (0x60, 0xFFFFFFFF#32), (0x64, 0xFFFFFFFF#32)],
      s.readReg r.1 = Config.draw s.draws &&& r.2 ∧ (s.hostRead (s.params.base + r.1) 4).draws = s.draws + 1) ∧
    ∀ a n, (n = 1 ∨ n = 2 ∨ n = 4) → a % n = 0 → a + n ≤ s.params.obufBytes → a < 0x2000000 →
      (∀ k, k < 4 → ((s.hostRead (s.params.base + 0x2000000 + a) n).readData).extractLsb' (8 * k) 8 =
        if k < n then (Config.draw s.draws).extractLsb' (8 * k) 8 else 0#8) ∧
      (s.hostRead (s.params.base + 0x2000000 + a) n).draws = s.draws + 1

/-- A host read changes no register, no table and no byte: only the value returned, ACCERR, and the model's count of draws;
and while BUSY = 0 repeating it returns the same value. 20_memory R75, R82; the two model fields are log 6 and log 10. -/
def Obligations.HostReadsHaveNoSideEffect : Prop :=
  ∀ (s : State) (addr n : Nat),
    s.hostRead addr n = { s with readData := (s.hostRead addr n).readData, draws := (s.hostRead addr n).draws
                                 status := { s.status with accerr := (s.hostRead addr n).status.accerr } } ∧
    (s.status.busy = false →
      (s.hostRead addr n).draws = s.draws ∧
      ((s.hostRead addr n).hostRead addr n).readData = (s.hostRead addr n).readData)

/-- 10_state R25, whole: a write to STATUS clears DONE, HAZ and ACCERR where its bits 1, 7 and 8 are 1, and nothing else;
while BUSY = 1 it is dropped and sets HAZ. -/
def Obligations.StatusWriteClears : Prop :=
  ∀ (s : State) (w : Word),
    (s.status.busy = false → s.writeReg 8 w =
      { s with status := { s.status with done := s.status.done && !w.getLsbD 1, haz := s.status.haz && !w.getLsbD 7
                                         accerr := s.status.accerr && !w.getLsbD 8 } }) ∧
    (s.status.busy = true → s.writeReg 8 w = { s with status := { s.status with haz := true } })

/-- 10_state R53: the irq level in every state, its mirror in STATUS.IRQ, and its value at reset. -/
def Obligations.IrqLevel : Prop :=
  (∀ s : State, s.irq = ((s.status.done && s.irqEn.doneIe) || (s.status.err && s.irqEn.errIe)) ∧
    (s.status.busy = false → (s.readReg 8).getLsbD 9 = s.irq)) ∧
  State.reset.irq = false

/-- In the reset state, and after a platform reset or power-on from any state, every register of the table of 70_reset R240
reads 0 and ID its constant, no command is pending, whatever was pending before, and irq is low; a platform reset keeps
every byte of IBUF and OBUF (10_state R51, R52), and at power-on no byte of them keeps a stored value: they are free values,
log 4. That 70_reset R241 speaks of power-on alone for the buffers is the model's reading, log 12. 70_reset R240, R242. -/
def Obligations.ResetValues : Prop :=
  (∀ r : State, (r = State.reset ∨ ∃ s : State, r = s.platformReset ∨ r = s.powerOn) →
    r.readReg 0 = 0x42470001#32 ∧ (∀ k, 1 ≤ k → k ≤ 25 → r.readReg (4 * k) = 0#32) ∧
    r.status.busy = false ∧ r.irq = false) ∧
  (State.reset.ibuf.cells = [] ∧ State.reset.obuf.cells = []) ∧
  ∀ s : State,
    (∀ a, s.platformReset.ibufByte a = s.ibufByte a ∧ s.platformReset.obufByte a = s.obufByte a) ∧
    (s.ibuf.within s.params.ibufBytes → s.powerOn.ibuf.cells = []) ∧
    (s.obuf.within s.params.obufBytes → s.powerOn.obuf.cells = [])

end
end

