-- ==== Sys2Proof/Laws/State.lean ====
section
/-! SUPPORT. One lemma per field per named update of State (Machine/Ops.lean), each true by unfolding the update once,
so that no later proof unfolds a record update. -/

namespace Sys2Proof.Machine

/-! ### setBusy -/

@[simp] theorem setBusy_params (s : State) (b : Bool) : (s.setBusy b).params = s.params := rfl
@[simp] theorem setBusy_cmd (s : State) (b : Bool) : (s.setBusy b).cmd = s.cmd := rfl
@[simp] theorem setBusy_status (s : State) (b : Bool) : (s.setBusy b).status = { s.status with busy := b } := rfl
@[simp] theorem setBusy_error (s : State) (b : Bool) : (s.setBusy b).error = s.error := rfl
@[simp] theorem setBusy_irqEn (s : State) (b : Bool) : (s.setBusy b).irqEn = s.irqEn := rfl
@[simp] theorem setBusy_frameType (s : State) (b : Bool) : (s.setBusy b).frameType = s.frameType := rfl
@[simp] theorem setBusy_frameSize (s : State) (b : Bool) : (s.setBusy b).frameSize = s.frameSize := rfl
@[simp] theorem setBusy_frameNcomp (s : State) (b : Bool) : (s.setBusy b).frameNcomp = s.frameNcomp := rfl
@[simp] theorem setBusy_comp (s : State) (b : Bool) : (s.setBusy b).comp = s.comp := rfl
@[simp] theorem setBusy_restartInterval (s : State) (b : Bool) : (s.setBusy b).restartInterval = s.restartInterval := rfl
@[simp] theorem setBusy_srcPtr (s : State) (b : Bool) : (s.setBusy b).srcPtr = s.srcPtr := rfl
@[simp] theorem setBusy_srcEnd (s : State) (b : Bool) : (s.setBusy b).srcEnd = s.srcEnd := rfl
@[simp] theorem setBusy_inBase (s : State) (b : Bool) : (s.setBusy b).inBase = s.inBase := rfl
@[simp] theorem setBusy_inLen (s : State) (b : Bool) : (s.setBusy b).inLen = s.inLen := rfl
@[simp] theorem setBusy_outBase (s : State) (b : Bool) : (s.setBusy b).outBase = s.outBase := rfl
@[simp] theorem setBusy_brPos (s : State) (b : Bool) : (s.setBusy b).brPos = s.brPos := rfl
@[simp] theorem setBusy_brBits (s : State) (b : Bool) : (s.setBusy b).brBits = s.brBits := rfl
@[simp] theorem setBusy_mcuIndex (s : State) (b : Bool) : (s.setBusy b).mcuIndex = s.mcuIndex := rfl
@[simp] theorem setBusy_mcuTotal (s : State) (b : Bool) : (s.setBusy b).mcuTotal = s.mcuTotal := rfl
@[simp] theorem setBusy_result (s : State) (b : Bool) : (s.setBusy b).result = s.result := rfl
@[simp] theorem setBusy_tableValid (s : State) (b : Bool) : (s.setBusy b).tableValid = s.tableValid := rfl
@[simp] theorem setBusy_pred (s : State) (b : Bool) : (s.setBusy b).pred = s.pred := rfl
@[simp] theorem setBusy_pend (s : State) (b : Bool) : (s.setBusy b).pend = s.pend := rfl
@[simp] theorem setBusy_quant (s : State) (b : Bool) : (s.setBusy b).quant = s.quant := rfl
@[simp] theorem setBusy_dcTable (s : State) (b : Bool) : (s.setBusy b).dcTable = s.dcTable := rfl
@[simp] theorem setBusy_acTable (s : State) (b : Bool) : (s.setBusy b).acTable = s.acTable := rfl
@[simp] theorem setBusy_ibuf (s : State) (b : Bool) : (s.setBusy b).ibuf = s.ibuf := rfl
@[simp] theorem setBusy_obuf (s : State) (b : Bool) : (s.setBusy b).obuf = s.obuf := rfl
@[simp] theorem setBusy_schedule (s : State) (b : Bool) : (s.setBusy b).schedule = s.schedule := rfl
@[simp] theorem setBusy_readData (s : State) (b : Bool) : (s.setBusy b).readData = s.readData := rfl
@[simp] theorem setBusy_draws (s : State) (b : Bool) : (s.setBusy b).draws = s.draws := rfl
@[simp] theorem setBusy_resets (s : State) (b : Bool) : (s.setBusy b).resets = s.resets := rfl

/-! ### setDone -/

@[simp] theorem setDone_params (s : State) (b : Bool) : (s.setDone b).params = s.params := rfl
@[simp] theorem setDone_cmd (s : State) (b : Bool) : (s.setDone b).cmd = s.cmd := rfl
@[simp] theorem setDone_status (s : State) (b : Bool) : (s.setDone b).status = { s.status with done := b } := rfl
@[simp] theorem setDone_error (s : State) (b : Bool) : (s.setDone b).error = s.error := rfl
@[simp] theorem setDone_irqEn (s : State) (b : Bool) : (s.setDone b).irqEn = s.irqEn := rfl
@[simp] theorem setDone_frameType (s : State) (b : Bool) : (s.setDone b).frameType = s.frameType := rfl
@[simp] theorem setDone_frameSize (s : State) (b : Bool) : (s.setDone b).frameSize = s.frameSize := rfl
@[simp] theorem setDone_frameNcomp (s : State) (b : Bool) : (s.setDone b).frameNcomp = s.frameNcomp := rfl
@[simp] theorem setDone_comp (s : State) (b : Bool) : (s.setDone b).comp = s.comp := rfl
@[simp] theorem setDone_restartInterval (s : State) (b : Bool) : (s.setDone b).restartInterval = s.restartInterval := rfl
@[simp] theorem setDone_srcPtr (s : State) (b : Bool) : (s.setDone b).srcPtr = s.srcPtr := rfl
@[simp] theorem setDone_srcEnd (s : State) (b : Bool) : (s.setDone b).srcEnd = s.srcEnd := rfl
@[simp] theorem setDone_inBase (s : State) (b : Bool) : (s.setDone b).inBase = s.inBase := rfl
@[simp] theorem setDone_inLen (s : State) (b : Bool) : (s.setDone b).inLen = s.inLen := rfl
@[simp] theorem setDone_outBase (s : State) (b : Bool) : (s.setDone b).outBase = s.outBase := rfl
@[simp] theorem setDone_brPos (s : State) (b : Bool) : (s.setDone b).brPos = s.brPos := rfl
@[simp] theorem setDone_brBits (s : State) (b : Bool) : (s.setDone b).brBits = s.brBits := rfl
@[simp] theorem setDone_mcuIndex (s : State) (b : Bool) : (s.setDone b).mcuIndex = s.mcuIndex := rfl
@[simp] theorem setDone_mcuTotal (s : State) (b : Bool) : (s.setDone b).mcuTotal = s.mcuTotal := rfl
@[simp] theorem setDone_result (s : State) (b : Bool) : (s.setDone b).result = s.result := rfl
@[simp] theorem setDone_tableValid (s : State) (b : Bool) : (s.setDone b).tableValid = s.tableValid := rfl
@[simp] theorem setDone_pred (s : State) (b : Bool) : (s.setDone b).pred = s.pred := rfl
@[simp] theorem setDone_pend (s : State) (b : Bool) : (s.setDone b).pend = s.pend := rfl
@[simp] theorem setDone_quant (s : State) (b : Bool) : (s.setDone b).quant = s.quant := rfl
@[simp] theorem setDone_dcTable (s : State) (b : Bool) : (s.setDone b).dcTable = s.dcTable := rfl
@[simp] theorem setDone_acTable (s : State) (b : Bool) : (s.setDone b).acTable = s.acTable := rfl
@[simp] theorem setDone_ibuf (s : State) (b : Bool) : (s.setDone b).ibuf = s.ibuf := rfl
@[simp] theorem setDone_obuf (s : State) (b : Bool) : (s.setDone b).obuf = s.obuf := rfl
@[simp] theorem setDone_schedule (s : State) (b : Bool) : (s.setDone b).schedule = s.schedule := rfl
@[simp] theorem setDone_readData (s : State) (b : Bool) : (s.setDone b).readData = s.readData := rfl
@[simp] theorem setDone_draws (s : State) (b : Bool) : (s.setDone b).draws = s.draws := rfl
@[simp] theorem setDone_resets (s : State) (b : Bool) : (s.setDone b).resets = s.resets := rfl

/-! ### setHaz -/

@[simp] theorem setHaz_params (s : State) : (s.setHaz).params = s.params := rfl
@[simp] theorem setHaz_cmd (s : State) : (s.setHaz).cmd = s.cmd := rfl
@[simp] theorem setHaz_status (s : State) : (s.setHaz).status = { s.status with haz := true } := rfl
@[simp] theorem setHaz_error (s : State) : (s.setHaz).error = s.error := rfl
@[simp] theorem setHaz_irqEn (s : State) : (s.setHaz).irqEn = s.irqEn := rfl
@[simp] theorem setHaz_frameType (s : State) : (s.setHaz).frameType = s.frameType := rfl
@[simp] theorem setHaz_frameSize (s : State) : (s.setHaz).frameSize = s.frameSize := rfl
@[simp] theorem setHaz_frameNcomp (s : State) : (s.setHaz).frameNcomp = s.frameNcomp := rfl
@[simp] theorem setHaz_comp (s : State) : (s.setHaz).comp = s.comp := rfl
@[simp] theorem setHaz_restartInterval (s : State) : (s.setHaz).restartInterval = s.restartInterval := rfl
@[simp] theorem setHaz_srcPtr (s : State) : (s.setHaz).srcPtr = s.srcPtr := rfl
@[simp] theorem setHaz_srcEnd (s : State) : (s.setHaz).srcEnd = s.srcEnd := rfl
@[simp] theorem setHaz_inBase (s : State) : (s.setHaz).inBase = s.inBase := rfl
@[simp] theorem setHaz_inLen (s : State) : (s.setHaz).inLen = s.inLen := rfl
@[simp] theorem setHaz_outBase (s : State) : (s.setHaz).outBase = s.outBase := rfl
@[simp] theorem setHaz_brPos (s : State) : (s.setHaz).brPos = s.brPos := rfl
@[simp] theorem setHaz_brBits (s : State) : (s.setHaz).brBits = s.brBits := rfl
@[simp] theorem setHaz_mcuIndex (s : State) : (s.setHaz).mcuIndex = s.mcuIndex := rfl
@[simp] theorem setHaz_mcuTotal (s : State) : (s.setHaz).mcuTotal = s.mcuTotal := rfl
@[simp] theorem setHaz_result (s : State) : (s.setHaz).result = s.result := rfl
@[simp] theorem setHaz_tableValid (s : State) : (s.setHaz).tableValid = s.tableValid := rfl
@[simp] theorem setHaz_pred (s : State) : (s.setHaz).pred = s.pred := rfl
@[simp] theorem setHaz_pend (s : State) : (s.setHaz).pend = s.pend := rfl
@[simp] theorem setHaz_quant (s : State) : (s.setHaz).quant = s.quant := rfl
@[simp] theorem setHaz_dcTable (s : State) : (s.setHaz).dcTable = s.dcTable := rfl
@[simp] theorem setHaz_acTable (s : State) : (s.setHaz).acTable = s.acTable := rfl
@[simp] theorem setHaz_ibuf (s : State) : (s.setHaz).ibuf = s.ibuf := rfl
@[simp] theorem setHaz_obuf (s : State) : (s.setHaz).obuf = s.obuf := rfl
@[simp] theorem setHaz_schedule (s : State) : (s.setHaz).schedule = s.schedule := rfl
@[simp] theorem setHaz_readData (s : State) : (s.setHaz).readData = s.readData := rfl
@[simp] theorem setHaz_draws (s : State) : (s.setHaz).draws = s.draws := rfl
@[simp] theorem setHaz_resets (s : State) : (s.setHaz).resets = s.resets := rfl

/-! ### setAccErr -/

@[simp] theorem setAccErr_params (s : State) : (s.setAccErr).params = s.params := rfl
@[simp] theorem setAccErr_cmd (s : State) : (s.setAccErr).cmd = s.cmd := rfl
@[simp] theorem setAccErr_status (s : State) : (s.setAccErr).status = { s.status with accerr := true } := rfl
@[simp] theorem setAccErr_error (s : State) : (s.setAccErr).error = s.error := rfl
@[simp] theorem setAccErr_irqEn (s : State) : (s.setAccErr).irqEn = s.irqEn := rfl
@[simp] theorem setAccErr_frameType (s : State) : (s.setAccErr).frameType = s.frameType := rfl
@[simp] theorem setAccErr_frameSize (s : State) : (s.setAccErr).frameSize = s.frameSize := rfl
@[simp] theorem setAccErr_frameNcomp (s : State) : (s.setAccErr).frameNcomp = s.frameNcomp := rfl
@[simp] theorem setAccErr_comp (s : State) : (s.setAccErr).comp = s.comp := rfl
@[simp] theorem setAccErr_restartInterval (s : State) : (s.setAccErr).restartInterval = s.restartInterval := rfl
@[simp] theorem setAccErr_srcPtr (s : State) : (s.setAccErr).srcPtr = s.srcPtr := rfl
@[simp] theorem setAccErr_srcEnd (s : State) : (s.setAccErr).srcEnd = s.srcEnd := rfl
@[simp] theorem setAccErr_inBase (s : State) : (s.setAccErr).inBase = s.inBase := rfl
@[simp] theorem setAccErr_inLen (s : State) : (s.setAccErr).inLen = s.inLen := rfl
@[simp] theorem setAccErr_outBase (s : State) : (s.setAccErr).outBase = s.outBase := rfl
@[simp] theorem setAccErr_brPos (s : State) : (s.setAccErr).brPos = s.brPos := rfl
@[simp] theorem setAccErr_brBits (s : State) : (s.setAccErr).brBits = s.brBits := rfl
@[simp] theorem setAccErr_mcuIndex (s : State) : (s.setAccErr).mcuIndex = s.mcuIndex := rfl
@[simp] theorem setAccErr_mcuTotal (s : State) : (s.setAccErr).mcuTotal = s.mcuTotal := rfl
@[simp] theorem setAccErr_result (s : State) : (s.setAccErr).result = s.result := rfl
@[simp] theorem setAccErr_tableValid (s : State) : (s.setAccErr).tableValid = s.tableValid := rfl
@[simp] theorem setAccErr_pred (s : State) : (s.setAccErr).pred = s.pred := rfl
@[simp] theorem setAccErr_pend (s : State) : (s.setAccErr).pend = s.pend := rfl
@[simp] theorem setAccErr_quant (s : State) : (s.setAccErr).quant = s.quant := rfl
@[simp] theorem setAccErr_dcTable (s : State) : (s.setAccErr).dcTable = s.dcTable := rfl
@[simp] theorem setAccErr_acTable (s : State) : (s.setAccErr).acTable = s.acTable := rfl
@[simp] theorem setAccErr_ibuf (s : State) : (s.setAccErr).ibuf = s.ibuf := rfl
@[simp] theorem setAccErr_obuf (s : State) : (s.setAccErr).obuf = s.obuf := rfl
@[simp] theorem setAccErr_schedule (s : State) : (s.setAccErr).schedule = s.schedule := rfl
@[simp] theorem setAccErr_readData (s : State) : (s.setAccErr).readData = s.readData := rfl
@[simp] theorem setAccErr_draws (s : State) : (s.setAccErr).draws = s.draws := rfl
@[simp] theorem setAccErr_resets (s : State) : (s.setAccErr).resets = s.resets := rfl

/-! ### setFrameValid -/

@[simp] theorem setFrameValid_params (s : State) : (s.setFrameValid).params = s.params := rfl
@[simp] theorem setFrameValid_cmd (s : State) : (s.setFrameValid).cmd = s.cmd := rfl
@[simp] theorem setFrameValid_status (s : State) : (s.setFrameValid).status = { s.status with frameValid := true } := rfl
@[simp] theorem setFrameValid_error (s : State) : (s.setFrameValid).error = s.error := rfl
@[simp] theorem setFrameValid_irqEn (s : State) : (s.setFrameValid).irqEn = s.irqEn := rfl
@[simp] theorem setFrameValid_frameType (s : State) : (s.setFrameValid).frameType = s.frameType := rfl
@[simp] theorem setFrameValid_frameSize (s : State) : (s.setFrameValid).frameSize = s.frameSize := rfl
@[simp] theorem setFrameValid_frameNcomp (s : State) : (s.setFrameValid).frameNcomp = s.frameNcomp := rfl
@[simp] theorem setFrameValid_comp (s : State) : (s.setFrameValid).comp = s.comp := rfl
@[simp] theorem setFrameValid_restartInterval (s : State) : (s.setFrameValid).restartInterval = s.restartInterval := rfl
@[simp] theorem setFrameValid_srcPtr (s : State) : (s.setFrameValid).srcPtr = s.srcPtr := rfl
@[simp] theorem setFrameValid_srcEnd (s : State) : (s.setFrameValid).srcEnd = s.srcEnd := rfl
@[simp] theorem setFrameValid_inBase (s : State) : (s.setFrameValid).inBase = s.inBase := rfl
@[simp] theorem setFrameValid_inLen (s : State) : (s.setFrameValid).inLen = s.inLen := rfl
@[simp] theorem setFrameValid_outBase (s : State) : (s.setFrameValid).outBase = s.outBase := rfl
@[simp] theorem setFrameValid_brPos (s : State) : (s.setFrameValid).brPos = s.brPos := rfl
@[simp] theorem setFrameValid_brBits (s : State) : (s.setFrameValid).brBits = s.brBits := rfl
@[simp] theorem setFrameValid_mcuIndex (s : State) : (s.setFrameValid).mcuIndex = s.mcuIndex := rfl
@[simp] theorem setFrameValid_mcuTotal (s : State) : (s.setFrameValid).mcuTotal = s.mcuTotal := rfl
@[simp] theorem setFrameValid_result (s : State) : (s.setFrameValid).result = s.result := rfl
@[simp] theorem setFrameValid_tableValid (s : State) : (s.setFrameValid).tableValid = s.tableValid := rfl
@[simp] theorem setFrameValid_pred (s : State) : (s.setFrameValid).pred = s.pred := rfl
@[simp] theorem setFrameValid_pend (s : State) : (s.setFrameValid).pend = s.pend := rfl
@[simp] theorem setFrameValid_quant (s : State) : (s.setFrameValid).quant = s.quant := rfl
@[simp] theorem setFrameValid_dcTable (s : State) : (s.setFrameValid).dcTable = s.dcTable := rfl
@[simp] theorem setFrameValid_acTable (s : State) : (s.setFrameValid).acTable = s.acTable := rfl
@[simp] theorem setFrameValid_ibuf (s : State) : (s.setFrameValid).ibuf = s.ibuf := rfl
@[simp] theorem setFrameValid_obuf (s : State) : (s.setFrameValid).obuf = s.obuf := rfl
@[simp] theorem setFrameValid_schedule (s : State) : (s.setFrameValid).schedule = s.schedule := rfl
@[simp] theorem setFrameValid_readData (s : State) : (s.setFrameValid).readData = s.readData := rfl
@[simp] theorem setFrameValid_draws (s : State) : (s.setFrameValid).draws = s.draws := rfl
@[simp] theorem setFrameValid_resets (s : State) : (s.setFrameValid).resets = s.resets := rfl

/-! ### setScanActive -/

@[simp] theorem setScanActive_params (s : State) (b : Bool) : (s.setScanActive b).params = s.params := rfl
@[simp] theorem setScanActive_cmd (s : State) (b : Bool) : (s.setScanActive b).cmd = s.cmd := rfl
@[simp] theorem setScanActive_status (s : State) (b : Bool) : (s.setScanActive b).status = { s.status with scanActive := b } := rfl
@[simp] theorem setScanActive_error (s : State) (b : Bool) : (s.setScanActive b).error = s.error := rfl
@[simp] theorem setScanActive_irqEn (s : State) (b : Bool) : (s.setScanActive b).irqEn = s.irqEn := rfl
@[simp] theorem setScanActive_frameType (s : State) (b : Bool) : (s.setScanActive b).frameType = s.frameType := rfl
@[simp] theorem setScanActive_frameSize (s : State) (b : Bool) : (s.setScanActive b).frameSize = s.frameSize := rfl
@[simp] theorem setScanActive_frameNcomp (s : State) (b : Bool) : (s.setScanActive b).frameNcomp = s.frameNcomp := rfl
@[simp] theorem setScanActive_comp (s : State) (b : Bool) : (s.setScanActive b).comp = s.comp := rfl
@[simp] theorem setScanActive_restartInterval (s : State) (b : Bool) : (s.setScanActive b).restartInterval = s.restartInterval := rfl
@[simp] theorem setScanActive_srcPtr (s : State) (b : Bool) : (s.setScanActive b).srcPtr = s.srcPtr := rfl
@[simp] theorem setScanActive_srcEnd (s : State) (b : Bool) : (s.setScanActive b).srcEnd = s.srcEnd := rfl
@[simp] theorem setScanActive_inBase (s : State) (b : Bool) : (s.setScanActive b).inBase = s.inBase := rfl
@[simp] theorem setScanActive_inLen (s : State) (b : Bool) : (s.setScanActive b).inLen = s.inLen := rfl
@[simp] theorem setScanActive_outBase (s : State) (b : Bool) : (s.setScanActive b).outBase = s.outBase := rfl
@[simp] theorem setScanActive_brPos (s : State) (b : Bool) : (s.setScanActive b).brPos = s.brPos := rfl
@[simp] theorem setScanActive_brBits (s : State) (b : Bool) : (s.setScanActive b).brBits = s.brBits := rfl
@[simp] theorem setScanActive_mcuIndex (s : State) (b : Bool) : (s.setScanActive b).mcuIndex = s.mcuIndex := rfl
@[simp] theorem setScanActive_mcuTotal (s : State) (b : Bool) : (s.setScanActive b).mcuTotal = s.mcuTotal := rfl
@[simp] theorem setScanActive_result (s : State) (b : Bool) : (s.setScanActive b).result = s.result := rfl
@[simp] theorem setScanActive_tableValid (s : State) (b : Bool) : (s.setScanActive b).tableValid = s.tableValid := rfl
@[simp] theorem setScanActive_pred (s : State) (b : Bool) : (s.setScanActive b).pred = s.pred := rfl
@[simp] theorem setScanActive_pend (s : State) (b : Bool) : (s.setScanActive b).pend = s.pend := rfl
@[simp] theorem setScanActive_quant (s : State) (b : Bool) : (s.setScanActive b).quant = s.quant := rfl
@[simp] theorem setScanActive_dcTable (s : State) (b : Bool) : (s.setScanActive b).dcTable = s.dcTable := rfl
@[simp] theorem setScanActive_acTable (s : State) (b : Bool) : (s.setScanActive b).acTable = s.acTable := rfl
@[simp] theorem setScanActive_ibuf (s : State) (b : Bool) : (s.setScanActive b).ibuf = s.ibuf := rfl
@[simp] theorem setScanActive_obuf (s : State) (b : Bool) : (s.setScanActive b).obuf = s.obuf := rfl
@[simp] theorem setScanActive_schedule (s : State) (b : Bool) : (s.setScanActive b).schedule = s.schedule := rfl
@[simp] theorem setScanActive_readData (s : State) (b : Bool) : (s.setScanActive b).readData = s.readData := rfl
@[simp] theorem setScanActive_draws (s : State) (b : Bool) : (s.setScanActive b).draws = s.draws := rfl
@[simp] theorem setScanActive_resets (s : State) (b : Bool) : (s.setScanActive b).resets = s.resets := rfl

/-! ### setScanDone -/

@[simp] theorem setScanDone_params (s : State) (b : Bool) : (s.setScanDone b).params = s.params := rfl
@[simp] theorem setScanDone_cmd (s : State) (b : Bool) : (s.setScanDone b).cmd = s.cmd := rfl
@[simp] theorem setScanDone_status (s : State) (b : Bool) : (s.setScanDone b).status = { s.status with scanDone := b } := rfl
@[simp] theorem setScanDone_error (s : State) (b : Bool) : (s.setScanDone b).error = s.error := rfl
@[simp] theorem setScanDone_irqEn (s : State) (b : Bool) : (s.setScanDone b).irqEn = s.irqEn := rfl
@[simp] theorem setScanDone_frameType (s : State) (b : Bool) : (s.setScanDone b).frameType = s.frameType := rfl
@[simp] theorem setScanDone_frameSize (s : State) (b : Bool) : (s.setScanDone b).frameSize = s.frameSize := rfl
@[simp] theorem setScanDone_frameNcomp (s : State) (b : Bool) : (s.setScanDone b).frameNcomp = s.frameNcomp := rfl
@[simp] theorem setScanDone_comp (s : State) (b : Bool) : (s.setScanDone b).comp = s.comp := rfl
@[simp] theorem setScanDone_restartInterval (s : State) (b : Bool) : (s.setScanDone b).restartInterval = s.restartInterval := rfl
@[simp] theorem setScanDone_srcPtr (s : State) (b : Bool) : (s.setScanDone b).srcPtr = s.srcPtr := rfl
@[simp] theorem setScanDone_srcEnd (s : State) (b : Bool) : (s.setScanDone b).srcEnd = s.srcEnd := rfl
@[simp] theorem setScanDone_inBase (s : State) (b : Bool) : (s.setScanDone b).inBase = s.inBase := rfl
@[simp] theorem setScanDone_inLen (s : State) (b : Bool) : (s.setScanDone b).inLen = s.inLen := rfl
@[simp] theorem setScanDone_outBase (s : State) (b : Bool) : (s.setScanDone b).outBase = s.outBase := rfl
@[simp] theorem setScanDone_brPos (s : State) (b : Bool) : (s.setScanDone b).brPos = s.brPos := rfl
@[simp] theorem setScanDone_brBits (s : State) (b : Bool) : (s.setScanDone b).brBits = s.brBits := rfl
@[simp] theorem setScanDone_mcuIndex (s : State) (b : Bool) : (s.setScanDone b).mcuIndex = s.mcuIndex := rfl
@[simp] theorem setScanDone_mcuTotal (s : State) (b : Bool) : (s.setScanDone b).mcuTotal = s.mcuTotal := rfl
@[simp] theorem setScanDone_result (s : State) (b : Bool) : (s.setScanDone b).result = s.result := rfl
@[simp] theorem setScanDone_tableValid (s : State) (b : Bool) : (s.setScanDone b).tableValid = s.tableValid := rfl
@[simp] theorem setScanDone_pred (s : State) (b : Bool) : (s.setScanDone b).pred = s.pred := rfl
@[simp] theorem setScanDone_pend (s : State) (b : Bool) : (s.setScanDone b).pend = s.pend := rfl
@[simp] theorem setScanDone_quant (s : State) (b : Bool) : (s.setScanDone b).quant = s.quant := rfl
@[simp] theorem setScanDone_dcTable (s : State) (b : Bool) : (s.setScanDone b).dcTable = s.dcTable := rfl
@[simp] theorem setScanDone_acTable (s : State) (b : Bool) : (s.setScanDone b).acTable = s.acTable := rfl
@[simp] theorem setScanDone_ibuf (s : State) (b : Bool) : (s.setScanDone b).ibuf = s.ibuf := rfl
@[simp] theorem setScanDone_obuf (s : State) (b : Bool) : (s.setScanDone b).obuf = s.obuf := rfl
@[simp] theorem setScanDone_schedule (s : State) (b : Bool) : (s.setScanDone b).schedule = s.schedule := rfl
@[simp] theorem setScanDone_readData (s : State) (b : Bool) : (s.setScanDone b).readData = s.readData := rfl
@[simp] theorem setScanDone_draws (s : State) (b : Bool) : (s.setScanDone b).draws = s.draws := rfl
@[simp] theorem setScanDone_resets (s : State) (b : Bool) : (s.setScanDone b).resets = s.resets := rfl

/-! ### setMarker -/

@[simp] theorem setMarker_params (s : State) (m : Byte) : (s.setMarker m).params = s.params := rfl
@[simp] theorem setMarker_cmd (s : State) (m : Byte) : (s.setMarker m).cmd = s.cmd := rfl
@[simp] theorem setMarker_status (s : State) (m : Byte) : (s.setMarker m).status = { s.status with markerSeen := true, markerCode := m } := rfl
@[simp] theorem setMarker_error (s : State) (m : Byte) : (s.setMarker m).error = s.error := rfl
@[simp] theorem setMarker_irqEn (s : State) (m : Byte) : (s.setMarker m).irqEn = s.irqEn := rfl
@[simp] theorem setMarker_frameType (s : State) (m : Byte) : (s.setMarker m).frameType = s.frameType := rfl
@[simp] theorem setMarker_frameSize (s : State) (m : Byte) : (s.setMarker m).frameSize = s.frameSize := rfl
@[simp] theorem setMarker_frameNcomp (s : State) (m : Byte) : (s.setMarker m).frameNcomp = s.frameNcomp := rfl
@[simp] theorem setMarker_comp (s : State) (m : Byte) : (s.setMarker m).comp = s.comp := rfl
@[simp] theorem setMarker_restartInterval (s : State) (m : Byte) : (s.setMarker m).restartInterval = s.restartInterval := rfl
@[simp] theorem setMarker_srcPtr (s : State) (m : Byte) : (s.setMarker m).srcPtr = s.srcPtr := rfl
@[simp] theorem setMarker_srcEnd (s : State) (m : Byte) : (s.setMarker m).srcEnd = s.srcEnd := rfl
@[simp] theorem setMarker_inBase (s : State) (m : Byte) : (s.setMarker m).inBase = s.inBase := rfl
@[simp] theorem setMarker_inLen (s : State) (m : Byte) : (s.setMarker m).inLen = s.inLen := rfl
@[simp] theorem setMarker_outBase (s : State) (m : Byte) : (s.setMarker m).outBase = s.outBase := rfl
@[simp] theorem setMarker_brPos (s : State) (m : Byte) : (s.setMarker m).brPos = s.brPos := rfl
@[simp] theorem setMarker_brBits (s : State) (m : Byte) : (s.setMarker m).brBits = s.brBits := rfl
@[simp] theorem setMarker_mcuIndex (s : State) (m : Byte) : (s.setMarker m).mcuIndex = s.mcuIndex := rfl
@[simp] theorem setMarker_mcuTotal (s : State) (m : Byte) : (s.setMarker m).mcuTotal = s.mcuTotal := rfl
@[simp] theorem setMarker_result (s : State) (m : Byte) : (s.setMarker m).result = s.result := rfl
@[simp] theorem setMarker_tableValid (s : State) (m : Byte) : (s.setMarker m).tableValid = s.tableValid := rfl
@[simp] theorem setMarker_pred (s : State) (m : Byte) : (s.setMarker m).pred = s.pred := rfl
@[simp] theorem setMarker_pend (s : State) (m : Byte) : (s.setMarker m).pend = s.pend := rfl
@[simp] theorem setMarker_quant (s : State) (m : Byte) : (s.setMarker m).quant = s.quant := rfl
@[simp] theorem setMarker_dcTable (s : State) (m : Byte) : (s.setMarker m).dcTable = s.dcTable := rfl
@[simp] theorem setMarker_acTable (s : State) (m : Byte) : (s.setMarker m).acTable = s.acTable := rfl
@[simp] theorem setMarker_ibuf (s : State) (m : Byte) : (s.setMarker m).ibuf = s.ibuf := rfl
@[simp] theorem setMarker_obuf (s : State) (m : Byte) : (s.setMarker m).obuf = s.obuf := rfl
@[simp] theorem setMarker_schedule (s : State) (m : Byte) : (s.setMarker m).schedule = s.schedule := rfl
@[simp] theorem setMarker_readData (s : State) (m : Byte) : (s.setMarker m).readData = s.readData := rfl
@[simp] theorem setMarker_draws (s : State) (m : Byte) : (s.setMarker m).draws = s.draws := rfl
@[simp] theorem setMarker_resets (s : State) (m : Byte) : (s.setMarker m).resets = s.resets := rfl

/-! ### setBrPos -/

@[simp] theorem setBrPos_params (s : State) (v : Word) : (s.setBrPos v).params = s.params := rfl
@[simp] theorem setBrPos_cmd (s : State) (v : Word) : (s.setBrPos v).cmd = s.cmd := rfl
@[simp] theorem setBrPos_status (s : State) (v : Word) : (s.setBrPos v).status = s.status := rfl
@[simp] theorem setBrPos_error (s : State) (v : Word) : (s.setBrPos v).error = s.error := rfl
@[simp] theorem setBrPos_irqEn (s : State) (v : Word) : (s.setBrPos v).irqEn = s.irqEn := rfl
@[simp] theorem setBrPos_frameType (s : State) (v : Word) : (s.setBrPos v).frameType = s.frameType := rfl
@[simp] theorem setBrPos_frameSize (s : State) (v : Word) : (s.setBrPos v).frameSize = s.frameSize := rfl
@[simp] theorem setBrPos_frameNcomp (s : State) (v : Word) : (s.setBrPos v).frameNcomp = s.frameNcomp := rfl
@[simp] theorem setBrPos_comp (s : State) (v : Word) : (s.setBrPos v).comp = s.comp := rfl
@[simp] theorem setBrPos_restartInterval (s : State) (v : Word) : (s.setBrPos v).restartInterval = s.restartInterval := rfl
@[simp] theorem setBrPos_srcPtr (s : State) (v : Word) : (s.setBrPos v).srcPtr = s.srcPtr := rfl
@[simp] theorem setBrPos_srcEnd (s : State) (v : Word) : (s.setBrPos v).srcEnd = s.srcEnd := rfl
@[simp] theorem setBrPos_inBase (s : State) (v : Word) : (s.setBrPos v).inBase = s.inBase := rfl
@[simp] theorem setBrPos_inLen (s : State) (v : Word) : (s.setBrPos v).inLen = s.inLen := rfl
@[simp] theorem setBrPos_outBase (s : State) (v : Word) : (s.setBrPos v).outBase = s.outBase := rfl
@[simp] theorem setBrPos_brPos (s : State) (v : Word) : (s.setBrPos v).brPos = v := rfl
@[simp] theorem setBrPos_brBits (s : State) (v : Word) : (s.setBrPos v).brBits = s.brBits := rfl
@[simp] theorem setBrPos_mcuIndex (s : State) (v : Word) : (s.setBrPos v).mcuIndex = s.mcuIndex := rfl
@[simp] theorem setBrPos_mcuTotal (s : State) (v : Word) : (s.setBrPos v).mcuTotal = s.mcuTotal := rfl
@[simp] theorem setBrPos_result (s : State) (v : Word) : (s.setBrPos v).result = s.result := rfl
@[simp] theorem setBrPos_tableValid (s : State) (v : Word) : (s.setBrPos v).tableValid = s.tableValid := rfl
@[simp] theorem setBrPos_pred (s : State) (v : Word) : (s.setBrPos v).pred = s.pred := rfl
@[simp] theorem setBrPos_pend (s : State) (v : Word) : (s.setBrPos v).pend = s.pend := rfl
@[simp] theorem setBrPos_quant (s : State) (v : Word) : (s.setBrPos v).quant = s.quant := rfl
@[simp] theorem setBrPos_dcTable (s : State) (v : Word) : (s.setBrPos v).dcTable = s.dcTable := rfl
@[simp] theorem setBrPos_acTable (s : State) (v : Word) : (s.setBrPos v).acTable = s.acTable := rfl
@[simp] theorem setBrPos_ibuf (s : State) (v : Word) : (s.setBrPos v).ibuf = s.ibuf := rfl
@[simp] theorem setBrPos_obuf (s : State) (v : Word) : (s.setBrPos v).obuf = s.obuf := rfl
@[simp] theorem setBrPos_schedule (s : State) (v : Word) : (s.setBrPos v).schedule = s.schedule := rfl
@[simp] theorem setBrPos_readData (s : State) (v : Word) : (s.setBrPos v).readData = s.readData := rfl
@[simp] theorem setBrPos_draws (s : State) (v : Word) : (s.setBrPos v).draws = s.draws := rfl
@[simp] theorem setBrPos_resets (s : State) (v : Word) : (s.setBrPos v).resets = s.resets := rfl

/-! ### setBrBits -/

@[simp] theorem setBrBits_params (s : State) (v : BrBits) : (s.setBrBits v).params = s.params := rfl
@[simp] theorem setBrBits_cmd (s : State) (v : BrBits) : (s.setBrBits v).cmd = s.cmd := rfl
@[simp] theorem setBrBits_status (s : State) (v : BrBits) : (s.setBrBits v).status = s.status := rfl
@[simp] theorem setBrBits_error (s : State) (v : BrBits) : (s.setBrBits v).error = s.error := rfl
@[simp] theorem setBrBits_irqEn (s : State) (v : BrBits) : (s.setBrBits v).irqEn = s.irqEn := rfl
@[simp] theorem setBrBits_frameType (s : State) (v : BrBits) : (s.setBrBits v).frameType = s.frameType := rfl
@[simp] theorem setBrBits_frameSize (s : State) (v : BrBits) : (s.setBrBits v).frameSize = s.frameSize := rfl
@[simp] theorem setBrBits_frameNcomp (s : State) (v : BrBits) : (s.setBrBits v).frameNcomp = s.frameNcomp := rfl
@[simp] theorem setBrBits_comp (s : State) (v : BrBits) : (s.setBrBits v).comp = s.comp := rfl
@[simp] theorem setBrBits_restartInterval (s : State) (v : BrBits) : (s.setBrBits v).restartInterval = s.restartInterval := rfl
@[simp] theorem setBrBits_srcPtr (s : State) (v : BrBits) : (s.setBrBits v).srcPtr = s.srcPtr := rfl
@[simp] theorem setBrBits_srcEnd (s : State) (v : BrBits) : (s.setBrBits v).srcEnd = s.srcEnd := rfl
@[simp] theorem setBrBits_inBase (s : State) (v : BrBits) : (s.setBrBits v).inBase = s.inBase := rfl
@[simp] theorem setBrBits_inLen (s : State) (v : BrBits) : (s.setBrBits v).inLen = s.inLen := rfl
@[simp] theorem setBrBits_outBase (s : State) (v : BrBits) : (s.setBrBits v).outBase = s.outBase := rfl
@[simp] theorem setBrBits_brPos (s : State) (v : BrBits) : (s.setBrBits v).brPos = s.brPos := rfl
@[simp] theorem setBrBits_brBits (s : State) (v : BrBits) : (s.setBrBits v).brBits = v := rfl
@[simp] theorem setBrBits_mcuIndex (s : State) (v : BrBits) : (s.setBrBits v).mcuIndex = s.mcuIndex := rfl
@[simp] theorem setBrBits_mcuTotal (s : State) (v : BrBits) : (s.setBrBits v).mcuTotal = s.mcuTotal := rfl
@[simp] theorem setBrBits_result (s : State) (v : BrBits) : (s.setBrBits v).result = s.result := rfl
@[simp] theorem setBrBits_tableValid (s : State) (v : BrBits) : (s.setBrBits v).tableValid = s.tableValid := rfl
@[simp] theorem setBrBits_pred (s : State) (v : BrBits) : (s.setBrBits v).pred = s.pred := rfl
@[simp] theorem setBrBits_pend (s : State) (v : BrBits) : (s.setBrBits v).pend = s.pend := rfl
@[simp] theorem setBrBits_quant (s : State) (v : BrBits) : (s.setBrBits v).quant = s.quant := rfl
@[simp] theorem setBrBits_dcTable (s : State) (v : BrBits) : (s.setBrBits v).dcTable = s.dcTable := rfl
@[simp] theorem setBrBits_acTable (s : State) (v : BrBits) : (s.setBrBits v).acTable = s.acTable := rfl
@[simp] theorem setBrBits_ibuf (s : State) (v : BrBits) : (s.setBrBits v).ibuf = s.ibuf := rfl
@[simp] theorem setBrBits_obuf (s : State) (v : BrBits) : (s.setBrBits v).obuf = s.obuf := rfl
@[simp] theorem setBrBits_schedule (s : State) (v : BrBits) : (s.setBrBits v).schedule = s.schedule := rfl
@[simp] theorem setBrBits_readData (s : State) (v : BrBits) : (s.setBrBits v).readData = s.readData := rfl
@[simp] theorem setBrBits_draws (s : State) (v : BrBits) : (s.setBrBits v).draws = s.draws := rfl
@[simp] theorem setBrBits_resets (s : State) (v : BrBits) : (s.setBrBits v).resets = s.resets := rfl

/-! ### setResult -/

@[simp] theorem setResult_params (s : State) (v : Word) : (s.setResult v).params = s.params := rfl
@[simp] theorem setResult_cmd (s : State) (v : Word) : (s.setResult v).cmd = s.cmd := rfl
@[simp] theorem setResult_status (s : State) (v : Word) : (s.setResult v).status = s.status := rfl
@[simp] theorem setResult_error (s : State) (v : Word) : (s.setResult v).error = s.error := rfl
@[simp] theorem setResult_irqEn (s : State) (v : Word) : (s.setResult v).irqEn = s.irqEn := rfl
@[simp] theorem setResult_frameType (s : State) (v : Word) : (s.setResult v).frameType = s.frameType := rfl
@[simp] theorem setResult_frameSize (s : State) (v : Word) : (s.setResult v).frameSize = s.frameSize := rfl
@[simp] theorem setResult_frameNcomp (s : State) (v : Word) : (s.setResult v).frameNcomp = s.frameNcomp := rfl
@[simp] theorem setResult_comp (s : State) (v : Word) : (s.setResult v).comp = s.comp := rfl
@[simp] theorem setResult_restartInterval (s : State) (v : Word) : (s.setResult v).restartInterval = s.restartInterval := rfl
@[simp] theorem setResult_srcPtr (s : State) (v : Word) : (s.setResult v).srcPtr = s.srcPtr := rfl
@[simp] theorem setResult_srcEnd (s : State) (v : Word) : (s.setResult v).srcEnd = s.srcEnd := rfl
@[simp] theorem setResult_inBase (s : State) (v : Word) : (s.setResult v).inBase = s.inBase := rfl
@[simp] theorem setResult_inLen (s : State) (v : Word) : (s.setResult v).inLen = s.inLen := rfl
@[simp] theorem setResult_outBase (s : State) (v : Word) : (s.setResult v).outBase = s.outBase := rfl
@[simp] theorem setResult_brPos (s : State) (v : Word) : (s.setResult v).brPos = s.brPos := rfl
@[simp] theorem setResult_brBits (s : State) (v : Word) : (s.setResult v).brBits = s.brBits := rfl
@[simp] theorem setResult_mcuIndex (s : State) (v : Word) : (s.setResult v).mcuIndex = s.mcuIndex := rfl
@[simp] theorem setResult_mcuTotal (s : State) (v : Word) : (s.setResult v).mcuTotal = s.mcuTotal := rfl
@[simp] theorem setResult_result (s : State) (v : Word) : (s.setResult v).result = v := rfl
@[simp] theorem setResult_tableValid (s : State) (v : Word) : (s.setResult v).tableValid = s.tableValid := rfl
@[simp] theorem setResult_pred (s : State) (v : Word) : (s.setResult v).pred = s.pred := rfl
@[simp] theorem setResult_pend (s : State) (v : Word) : (s.setResult v).pend = s.pend := rfl
@[simp] theorem setResult_quant (s : State) (v : Word) : (s.setResult v).quant = s.quant := rfl
@[simp] theorem setResult_dcTable (s : State) (v : Word) : (s.setResult v).dcTable = s.dcTable := rfl
@[simp] theorem setResult_acTable (s : State) (v : Word) : (s.setResult v).acTable = s.acTable := rfl
@[simp] theorem setResult_ibuf (s : State) (v : Word) : (s.setResult v).ibuf = s.ibuf := rfl
@[simp] theorem setResult_obuf (s : State) (v : Word) : (s.setResult v).obuf = s.obuf := rfl
@[simp] theorem setResult_schedule (s : State) (v : Word) : (s.setResult v).schedule = s.schedule := rfl
@[simp] theorem setResult_readData (s : State) (v : Word) : (s.setResult v).readData = s.readData := rfl
@[simp] theorem setResult_draws (s : State) (v : Word) : (s.setResult v).draws = s.draws := rfl
@[simp] theorem setResult_resets (s : State) (v : Word) : (s.setResult v).resets = s.resets := rfl

/-! ### setSrcPtr -/

@[simp] theorem setSrcPtr_params (s : State) (v : Word) : (s.setSrcPtr v).params = s.params := rfl
@[simp] theorem setSrcPtr_cmd (s : State) (v : Word) : (s.setSrcPtr v).cmd = s.cmd := rfl
@[simp] theorem setSrcPtr_status (s : State) (v : Word) : (s.setSrcPtr v).status = s.status := rfl
@[simp] theorem setSrcPtr_error (s : State) (v : Word) : (s.setSrcPtr v).error = s.error := rfl
@[simp] theorem setSrcPtr_irqEn (s : State) (v : Word) : (s.setSrcPtr v).irqEn = s.irqEn := rfl
@[simp] theorem setSrcPtr_frameType (s : State) (v : Word) : (s.setSrcPtr v).frameType = s.frameType := rfl
@[simp] theorem setSrcPtr_frameSize (s : State) (v : Word) : (s.setSrcPtr v).frameSize = s.frameSize := rfl
@[simp] theorem setSrcPtr_frameNcomp (s : State) (v : Word) : (s.setSrcPtr v).frameNcomp = s.frameNcomp := rfl
@[simp] theorem setSrcPtr_comp (s : State) (v : Word) : (s.setSrcPtr v).comp = s.comp := rfl
@[simp] theorem setSrcPtr_restartInterval (s : State) (v : Word) : (s.setSrcPtr v).restartInterval = s.restartInterval := rfl
@[simp] theorem setSrcPtr_srcPtr (s : State) (v : Word) : (s.setSrcPtr v).srcPtr = v := rfl
@[simp] theorem setSrcPtr_srcEnd (s : State) (v : Word) : (s.setSrcPtr v).srcEnd = s.srcEnd := rfl
@[simp] theorem setSrcPtr_inBase (s : State) (v : Word) : (s.setSrcPtr v).inBase = s.inBase := rfl
@[simp] theorem setSrcPtr_inLen (s : State) (v : Word) : (s.setSrcPtr v).inLen = s.inLen := rfl
@[simp] theorem setSrcPtr_outBase (s : State) (v : Word) : (s.setSrcPtr v).outBase = s.outBase := rfl
@[simp] theorem setSrcPtr_brPos (s : State) (v : Word) : (s.setSrcPtr v).brPos = s.brPos := rfl
@[simp] theorem setSrcPtr_brBits (s : State) (v : Word) : (s.setSrcPtr v).brBits = s.brBits := rfl
@[simp] theorem setSrcPtr_mcuIndex (s : State) (v : Word) : (s.setSrcPtr v).mcuIndex = s.mcuIndex := rfl
@[simp] theorem setSrcPtr_mcuTotal (s : State) (v : Word) : (s.setSrcPtr v).mcuTotal = s.mcuTotal := rfl
@[simp] theorem setSrcPtr_result (s : State) (v : Word) : (s.setSrcPtr v).result = s.result := rfl
@[simp] theorem setSrcPtr_tableValid (s : State) (v : Word) : (s.setSrcPtr v).tableValid = s.tableValid := rfl
@[simp] theorem setSrcPtr_pred (s : State) (v : Word) : (s.setSrcPtr v).pred = s.pred := rfl
@[simp] theorem setSrcPtr_pend (s : State) (v : Word) : (s.setSrcPtr v).pend = s.pend := rfl
@[simp] theorem setSrcPtr_quant (s : State) (v : Word) : (s.setSrcPtr v).quant = s.quant := rfl
@[simp] theorem setSrcPtr_dcTable (s : State) (v : Word) : (s.setSrcPtr v).dcTable = s.dcTable := rfl
@[simp] theorem setSrcPtr_acTable (s : State) (v : Word) : (s.setSrcPtr v).acTable = s.acTable := rfl
@[simp] theorem setSrcPtr_ibuf (s : State) (v : Word) : (s.setSrcPtr v).ibuf = s.ibuf := rfl
@[simp] theorem setSrcPtr_obuf (s : State) (v : Word) : (s.setSrcPtr v).obuf = s.obuf := rfl
@[simp] theorem setSrcPtr_schedule (s : State) (v : Word) : (s.setSrcPtr v).schedule = s.schedule := rfl
@[simp] theorem setSrcPtr_readData (s : State) (v : Word) : (s.setSrcPtr v).readData = s.readData := rfl
@[simp] theorem setSrcPtr_draws (s : State) (v : Word) : (s.setSrcPtr v).draws = s.draws := rfl
@[simp] theorem setSrcPtr_resets (s : State) (v : Word) : (s.setSrcPtr v).resets = s.resets := rfl

/-! ### setMcuIndex -/

@[simp] theorem setMcuIndex_params (s : State) (v : Word) : (s.setMcuIndex v).params = s.params := rfl
@[simp] theorem setMcuIndex_cmd (s : State) (v : Word) : (s.setMcuIndex v).cmd = s.cmd := rfl
@[simp] theorem setMcuIndex_status (s : State) (v : Word) : (s.setMcuIndex v).status = s.status := rfl
@[simp] theorem setMcuIndex_error (s : State) (v : Word) : (s.setMcuIndex v).error = s.error := rfl
@[simp] theorem setMcuIndex_irqEn (s : State) (v : Word) : (s.setMcuIndex v).irqEn = s.irqEn := rfl
@[simp] theorem setMcuIndex_frameType (s : State) (v : Word) : (s.setMcuIndex v).frameType = s.frameType := rfl
@[simp] theorem setMcuIndex_frameSize (s : State) (v : Word) : (s.setMcuIndex v).frameSize = s.frameSize := rfl
@[simp] theorem setMcuIndex_frameNcomp (s : State) (v : Word) : (s.setMcuIndex v).frameNcomp = s.frameNcomp := rfl
@[simp] theorem setMcuIndex_comp (s : State) (v : Word) : (s.setMcuIndex v).comp = s.comp := rfl
@[simp] theorem setMcuIndex_restartInterval (s : State) (v : Word) : (s.setMcuIndex v).restartInterval = s.restartInterval := rfl
@[simp] theorem setMcuIndex_srcPtr (s : State) (v : Word) : (s.setMcuIndex v).srcPtr = s.srcPtr := rfl
@[simp] theorem setMcuIndex_srcEnd (s : State) (v : Word) : (s.setMcuIndex v).srcEnd = s.srcEnd := rfl
@[simp] theorem setMcuIndex_inBase (s : State) (v : Word) : (s.setMcuIndex v).inBase = s.inBase := rfl
@[simp] theorem setMcuIndex_inLen (s : State) (v : Word) : (s.setMcuIndex v).inLen = s.inLen := rfl
@[simp] theorem setMcuIndex_outBase (s : State) (v : Word) : (s.setMcuIndex v).outBase = s.outBase := rfl
@[simp] theorem setMcuIndex_brPos (s : State) (v : Word) : (s.setMcuIndex v).brPos = s.brPos := rfl
@[simp] theorem setMcuIndex_brBits (s : State) (v : Word) : (s.setMcuIndex v).brBits = s.brBits := rfl
@[simp] theorem setMcuIndex_mcuIndex (s : State) (v : Word) : (s.setMcuIndex v).mcuIndex = v := rfl
@[simp] theorem setMcuIndex_mcuTotal (s : State) (v : Word) : (s.setMcuIndex v).mcuTotal = s.mcuTotal := rfl
@[simp] theorem setMcuIndex_result (s : State) (v : Word) : (s.setMcuIndex v).result = s.result := rfl
@[simp] theorem setMcuIndex_tableValid (s : State) (v : Word) : (s.setMcuIndex v).tableValid = s.tableValid := rfl
@[simp] theorem setMcuIndex_pred (s : State) (v : Word) : (s.setMcuIndex v).pred = s.pred := rfl
@[simp] theorem setMcuIndex_pend (s : State) (v : Word) : (s.setMcuIndex v).pend = s.pend := rfl
@[simp] theorem setMcuIndex_quant (s : State) (v : Word) : (s.setMcuIndex v).quant = s.quant := rfl
@[simp] theorem setMcuIndex_dcTable (s : State) (v : Word) : (s.setMcuIndex v).dcTable = s.dcTable := rfl
@[simp] theorem setMcuIndex_acTable (s : State) (v : Word) : (s.setMcuIndex v).acTable = s.acTable := rfl
@[simp] theorem setMcuIndex_ibuf (s : State) (v : Word) : (s.setMcuIndex v).ibuf = s.ibuf := rfl
@[simp] theorem setMcuIndex_obuf (s : State) (v : Word) : (s.setMcuIndex v).obuf = s.obuf := rfl
@[simp] theorem setMcuIndex_schedule (s : State) (v : Word) : (s.setMcuIndex v).schedule = s.schedule := rfl
@[simp] theorem setMcuIndex_readData (s : State) (v : Word) : (s.setMcuIndex v).readData = s.readData := rfl
@[simp] theorem setMcuIndex_draws (s : State) (v : Word) : (s.setMcuIndex v).draws = s.draws := rfl
@[simp] theorem setMcuIndex_resets (s : State) (v : Word) : (s.setMcuIndex v).resets = s.resets := rfl

/-! ### setPred -/

@[simp] theorem setPred_params (s : State) (i : Fin 3) (v : Word) : (s.setPred i v).params = s.params := rfl
@[simp] theorem setPred_cmd (s : State) (i : Fin 3) (v : Word) : (s.setPred i v).cmd = s.cmd := rfl
@[simp] theorem setPred_status (s : State) (i : Fin 3) (v : Word) : (s.setPred i v).status = s.status := rfl
@[simp] theorem setPred_error (s : State) (i : Fin 3) (v : Word) : (s.setPred i v).error = s.error := rfl
@[simp] theorem setPred_irqEn (s : State) (i : Fin 3) (v : Word) : (s.setPred i v).irqEn = s.irqEn := rfl
@[simp] theorem setPred_frameType (s : State) (i : Fin 3) (v : Word) : (s.setPred i v).frameType = s.frameType := rfl
@[simp] theorem setPred_frameSize (s : State) (i : Fin 3) (v : Word) : (s.setPred i v).frameSize = s.frameSize := rfl
@[simp] theorem setPred_frameNcomp (s : State) (i : Fin 3) (v : Word) : (s.setPred i v).frameNcomp = s.frameNcomp := rfl
@[simp] theorem setPred_comp (s : State) (i : Fin 3) (v : Word) : (s.setPred i v).comp = s.comp := rfl
@[simp] theorem setPred_restartInterval (s : State) (i : Fin 3) (v : Word) : (s.setPred i v).restartInterval = s.restartInterval := rfl
@[simp] theorem setPred_srcPtr (s : State) (i : Fin 3) (v : Word) : (s.setPred i v).srcPtr = s.srcPtr := rfl
@[simp] theorem setPred_srcEnd (s : State) (i : Fin 3) (v : Word) : (s.setPred i v).srcEnd = s.srcEnd := rfl
@[simp] theorem setPred_inBase (s : State) (i : Fin 3) (v : Word) : (s.setPred i v).inBase = s.inBase := rfl
@[simp] theorem setPred_inLen (s : State) (i : Fin 3) (v : Word) : (s.setPred i v).inLen = s.inLen := rfl
@[simp] theorem setPred_outBase (s : State) (i : Fin 3) (v : Word) : (s.setPred i v).outBase = s.outBase := rfl
@[simp] theorem setPred_brPos (s : State) (i : Fin 3) (v : Word) : (s.setPred i v).brPos = s.brPos := rfl
@[simp] theorem setPred_brBits (s : State) (i : Fin 3) (v : Word) : (s.setPred i v).brBits = s.brBits := rfl
@[simp] theorem setPred_mcuIndex (s : State) (i : Fin 3) (v : Word) : (s.setPred i v).mcuIndex = s.mcuIndex := rfl
@[simp] theorem setPred_mcuTotal (s : State) (i : Fin 3) (v : Word) : (s.setPred i v).mcuTotal = s.mcuTotal := rfl
@[simp] theorem setPred_result (s : State) (i : Fin 3) (v : Word) : (s.setPred i v).result = s.result := rfl
@[simp] theorem setPred_tableValid (s : State) (i : Fin 3) (v : Word) : (s.setPred i v).tableValid = s.tableValid := rfl
@[simp] theorem setPred_pred (s : State) (i : Fin 3) (v : Word) : (s.setPred i v).pred = s.pred.set i.val v := rfl
@[simp] theorem setPred_pend (s : State) (i : Fin 3) (v : Word) : (s.setPred i v).pend = s.pend := rfl
@[simp] theorem setPred_quant (s : State) (i : Fin 3) (v : Word) : (s.setPred i v).quant = s.quant := rfl
@[simp] theorem setPred_dcTable (s : State) (i : Fin 3) (v : Word) : (s.setPred i v).dcTable = s.dcTable := rfl
@[simp] theorem setPred_acTable (s : State) (i : Fin 3) (v : Word) : (s.setPred i v).acTable = s.acTable := rfl
@[simp] theorem setPred_ibuf (s : State) (i : Fin 3) (v : Word) : (s.setPred i v).ibuf = s.ibuf := rfl
@[simp] theorem setPred_obuf (s : State) (i : Fin 3) (v : Word) : (s.setPred i v).obuf = s.obuf := rfl
@[simp] theorem setPred_schedule (s : State) (i : Fin 3) (v : Word) : (s.setPred i v).schedule = s.schedule := rfl
@[simp] theorem setPred_readData (s : State) (i : Fin 3) (v : Word) : (s.setPred i v).readData = s.readData := rfl
@[simp] theorem setPred_draws (s : State) (i : Fin 3) (v : Word) : (s.setPred i v).draws = s.draws := rfl
@[simp] theorem setPred_resets (s : State) (i : Fin 3) (v : Word) : (s.setPred i v).resets = s.resets := rfl

/-! ### setObuf -/

@[simp] theorem setObuf_params (s : State) (m : Memory) : (s.setObuf m).params = s.params := rfl
@[simp] theorem setObuf_cmd (s : State) (m : Memory) : (s.setObuf m).cmd = s.cmd := rfl
@[simp] theorem setObuf_status (s : State) (m : Memory) : (s.setObuf m).status = s.status := rfl
@[simp] theorem setObuf_error (s : State) (m : Memory) : (s.setObuf m).error = s.error := rfl
@[simp] theorem setObuf_irqEn (s : State) (m : Memory) : (s.setObuf m).irqEn = s.irqEn := rfl
@[simp] theorem setObuf_frameType (s : State) (m : Memory) : (s.setObuf m).frameType = s.frameType := rfl
@[simp] theorem setObuf_frameSize (s : State) (m : Memory) : (s.setObuf m).frameSize = s.frameSize := rfl
@[simp] theorem setObuf_frameNcomp (s : State) (m : Memory) : (s.setObuf m).frameNcomp = s.frameNcomp := rfl
@[simp] theorem setObuf_comp (s : State) (m : Memory) : (s.setObuf m).comp = s.comp := rfl
@[simp] theorem setObuf_restartInterval (s : State) (m : Memory) : (s.setObuf m).restartInterval = s.restartInterval := rfl
@[simp] theorem setObuf_srcPtr (s : State) (m : Memory) : (s.setObuf m).srcPtr = s.srcPtr := rfl
@[simp] theorem setObuf_srcEnd (s : State) (m : Memory) : (s.setObuf m).srcEnd = s.srcEnd := rfl
@[simp] theorem setObuf_inBase (s : State) (m : Memory) : (s.setObuf m).inBase = s.inBase := rfl
@[simp] theorem setObuf_inLen (s : State) (m : Memory) : (s.setObuf m).inLen = s.inLen := rfl
@[simp] theorem setObuf_outBase (s : State) (m : Memory) : (s.setObuf m).outBase = s.outBase := rfl
@[simp] theorem setObuf_brPos (s : State) (m : Memory) : (s.setObuf m).brPos = s.brPos := rfl
@[simp] theorem setObuf_brBits (s : State) (m : Memory) : (s.setObuf m).brBits = s.brBits := rfl
@[simp] theorem setObuf_mcuIndex (s : State) (m : Memory) : (s.setObuf m).mcuIndex = s.mcuIndex := rfl
@[simp] theorem setObuf_mcuTotal (s : State) (m : Memory) : (s.setObuf m).mcuTotal = s.mcuTotal := rfl
@[simp] theorem setObuf_result (s : State) (m : Memory) : (s.setObuf m).result = s.result := rfl
@[simp] theorem setObuf_tableValid (s : State) (m : Memory) : (s.setObuf m).tableValid = s.tableValid := rfl
@[simp] theorem setObuf_pred (s : State) (m : Memory) : (s.setObuf m).pred = s.pred := rfl
@[simp] theorem setObuf_pend (s : State) (m : Memory) : (s.setObuf m).pend = s.pend := rfl
@[simp] theorem setObuf_quant (s : State) (m : Memory) : (s.setObuf m).quant = s.quant := rfl
@[simp] theorem setObuf_dcTable (s : State) (m : Memory) : (s.setObuf m).dcTable = s.dcTable := rfl
@[simp] theorem setObuf_acTable (s : State) (m : Memory) : (s.setObuf m).acTable = s.acTable := rfl
@[simp] theorem setObuf_ibuf (s : State) (m : Memory) : (s.setObuf m).ibuf = s.ibuf := rfl
@[simp] theorem setObuf_obuf (s : State) (m : Memory) : (s.setObuf m).obuf = m := rfl
@[simp] theorem setObuf_schedule (s : State) (m : Memory) : (s.setObuf m).schedule = s.schedule := rfl
@[simp] theorem setObuf_readData (s : State) (m : Memory) : (s.setObuf m).readData = s.readData := rfl
@[simp] theorem setObuf_draws (s : State) (m : Memory) : (s.setObuf m).draws = s.draws := rfl
@[simp] theorem setObuf_resets (s : State) (m : Memory) : (s.setObuf m).resets = s.resets := rfl

/-! ### setIbuf -/

@[simp] theorem setIbuf_params (s : State) (m : Memory) : (s.setIbuf m).params = s.params := rfl
@[simp] theorem setIbuf_cmd (s : State) (m : Memory) : (s.setIbuf m).cmd = s.cmd := rfl
@[simp] theorem setIbuf_status (s : State) (m : Memory) : (s.setIbuf m).status = s.status := rfl
@[simp] theorem setIbuf_error (s : State) (m : Memory) : (s.setIbuf m).error = s.error := rfl
@[simp] theorem setIbuf_irqEn (s : State) (m : Memory) : (s.setIbuf m).irqEn = s.irqEn := rfl
@[simp] theorem setIbuf_frameType (s : State) (m : Memory) : (s.setIbuf m).frameType = s.frameType := rfl
@[simp] theorem setIbuf_frameSize (s : State) (m : Memory) : (s.setIbuf m).frameSize = s.frameSize := rfl
@[simp] theorem setIbuf_frameNcomp (s : State) (m : Memory) : (s.setIbuf m).frameNcomp = s.frameNcomp := rfl
@[simp] theorem setIbuf_comp (s : State) (m : Memory) : (s.setIbuf m).comp = s.comp := rfl
@[simp] theorem setIbuf_restartInterval (s : State) (m : Memory) : (s.setIbuf m).restartInterval = s.restartInterval := rfl
@[simp] theorem setIbuf_srcPtr (s : State) (m : Memory) : (s.setIbuf m).srcPtr = s.srcPtr := rfl
@[simp] theorem setIbuf_srcEnd (s : State) (m : Memory) : (s.setIbuf m).srcEnd = s.srcEnd := rfl
@[simp] theorem setIbuf_inBase (s : State) (m : Memory) : (s.setIbuf m).inBase = s.inBase := rfl
@[simp] theorem setIbuf_inLen (s : State) (m : Memory) : (s.setIbuf m).inLen = s.inLen := rfl
@[simp] theorem setIbuf_outBase (s : State) (m : Memory) : (s.setIbuf m).outBase = s.outBase := rfl
@[simp] theorem setIbuf_brPos (s : State) (m : Memory) : (s.setIbuf m).brPos = s.brPos := rfl
@[simp] theorem setIbuf_brBits (s : State) (m : Memory) : (s.setIbuf m).brBits = s.brBits := rfl
@[simp] theorem setIbuf_mcuIndex (s : State) (m : Memory) : (s.setIbuf m).mcuIndex = s.mcuIndex := rfl
@[simp] theorem setIbuf_mcuTotal (s : State) (m : Memory) : (s.setIbuf m).mcuTotal = s.mcuTotal := rfl
@[simp] theorem setIbuf_result (s : State) (m : Memory) : (s.setIbuf m).result = s.result := rfl
@[simp] theorem setIbuf_tableValid (s : State) (m : Memory) : (s.setIbuf m).tableValid = s.tableValid := rfl
@[simp] theorem setIbuf_pred (s : State) (m : Memory) : (s.setIbuf m).pred = s.pred := rfl
@[simp] theorem setIbuf_pend (s : State) (m : Memory) : (s.setIbuf m).pend = s.pend := rfl
@[simp] theorem setIbuf_quant (s : State) (m : Memory) : (s.setIbuf m).quant = s.quant := rfl
@[simp] theorem setIbuf_dcTable (s : State) (m : Memory) : (s.setIbuf m).dcTable = s.dcTable := rfl
@[simp] theorem setIbuf_acTable (s : State) (m : Memory) : (s.setIbuf m).acTable = s.acTable := rfl
@[simp] theorem setIbuf_ibuf (s : State) (m : Memory) : (s.setIbuf m).ibuf = m := rfl
@[simp] theorem setIbuf_obuf (s : State) (m : Memory) : (s.setIbuf m).obuf = s.obuf := rfl
@[simp] theorem setIbuf_schedule (s : State) (m : Memory) : (s.setIbuf m).schedule = s.schedule := rfl
@[simp] theorem setIbuf_readData (s : State) (m : Memory) : (s.setIbuf m).readData = s.readData := rfl
@[simp] theorem setIbuf_draws (s : State) (m : Memory) : (s.setIbuf m).draws = s.draws := rfl
@[simp] theorem setIbuf_resets (s : State) (m : Memory) : (s.setIbuf m).resets = s.resets := rfl

/-! ### setSchedule -/

@[simp] theorem setSchedule_params (s : State) (l : List Turn) : (s.setSchedule l).params = s.params := rfl
@[simp] theorem setSchedule_cmd (s : State) (l : List Turn) : (s.setSchedule l).cmd = s.cmd := rfl
@[simp] theorem setSchedule_status (s : State) (l : List Turn) : (s.setSchedule l).status = s.status := rfl
@[simp] theorem setSchedule_error (s : State) (l : List Turn) : (s.setSchedule l).error = s.error := rfl
@[simp] theorem setSchedule_irqEn (s : State) (l : List Turn) : (s.setSchedule l).irqEn = s.irqEn := rfl
@[simp] theorem setSchedule_frameType (s : State) (l : List Turn) : (s.setSchedule l).frameType = s.frameType := rfl
@[simp] theorem setSchedule_frameSize (s : State) (l : List Turn) : (s.setSchedule l).frameSize = s.frameSize := rfl
@[simp] theorem setSchedule_frameNcomp (s : State) (l : List Turn) : (s.setSchedule l).frameNcomp = s.frameNcomp := rfl
@[simp] theorem setSchedule_comp (s : State) (l : List Turn) : (s.setSchedule l).comp = s.comp := rfl
@[simp] theorem setSchedule_restartInterval (s : State) (l : List Turn) : (s.setSchedule l).restartInterval = s.restartInterval := rfl
@[simp] theorem setSchedule_srcPtr (s : State) (l : List Turn) : (s.setSchedule l).srcPtr = s.srcPtr := rfl
@[simp] theorem setSchedule_srcEnd (s : State) (l : List Turn) : (s.setSchedule l).srcEnd = s.srcEnd := rfl
@[simp] theorem setSchedule_inBase (s : State) (l : List Turn) : (s.setSchedule l).inBase = s.inBase := rfl
@[simp] theorem setSchedule_inLen (s : State) (l : List Turn) : (s.setSchedule l).inLen = s.inLen := rfl
@[simp] theorem setSchedule_outBase (s : State) (l : List Turn) : (s.setSchedule l).outBase = s.outBase := rfl
@[simp] theorem setSchedule_brPos (s : State) (l : List Turn) : (s.setSchedule l).brPos = s.brPos := rfl
@[simp] theorem setSchedule_brBits (s : State) (l : List Turn) : (s.setSchedule l).brBits = s.brBits := rfl
@[simp] theorem setSchedule_mcuIndex (s : State) (l : List Turn) : (s.setSchedule l).mcuIndex = s.mcuIndex := rfl
@[simp] theorem setSchedule_mcuTotal (s : State) (l : List Turn) : (s.setSchedule l).mcuTotal = s.mcuTotal := rfl
@[simp] theorem setSchedule_result (s : State) (l : List Turn) : (s.setSchedule l).result = s.result := rfl
@[simp] theorem setSchedule_tableValid (s : State) (l : List Turn) : (s.setSchedule l).tableValid = s.tableValid := rfl
@[simp] theorem setSchedule_pred (s : State) (l : List Turn) : (s.setSchedule l).pred = s.pred := rfl
@[simp] theorem setSchedule_pend (s : State) (l : List Turn) : (s.setSchedule l).pend = s.pend := rfl
@[simp] theorem setSchedule_quant (s : State) (l : List Turn) : (s.setSchedule l).quant = s.quant := rfl
@[simp] theorem setSchedule_dcTable (s : State) (l : List Turn) : (s.setSchedule l).dcTable = s.dcTable := rfl
@[simp] theorem setSchedule_acTable (s : State) (l : List Turn) : (s.setSchedule l).acTable = s.acTable := rfl
@[simp] theorem setSchedule_ibuf (s : State) (l : List Turn) : (s.setSchedule l).ibuf = s.ibuf := rfl
@[simp] theorem setSchedule_obuf (s : State) (l : List Turn) : (s.setSchedule l).obuf = s.obuf := rfl
@[simp] theorem setSchedule_schedule (s : State) (l : List Turn) : (s.setSchedule l).schedule = l := rfl
@[simp] theorem setSchedule_readData (s : State) (l : List Turn) : (s.setSchedule l).readData = s.readData := rfl
@[simp] theorem setSchedule_draws (s : State) (l : List Turn) : (s.setSchedule l).draws = s.draws := rfl
@[simp] theorem setSchedule_resets (s : State) (l : List Turn) : (s.setSchedule l).resets = s.resets := rfl

/-! ### setReadData -/

@[simp] theorem setReadData_params (s : State) (v : Word) : (s.setReadData v).params = s.params := rfl
@[simp] theorem setReadData_cmd (s : State) (v : Word) : (s.setReadData v).cmd = s.cmd := rfl
@[simp] theorem setReadData_status (s : State) (v : Word) : (s.setReadData v).status = s.status := rfl
@[simp] theorem setReadData_error (s : State) (v : Word) : (s.setReadData v).error = s.error := rfl
@[simp] theorem setReadData_irqEn (s : State) (v : Word) : (s.setReadData v).irqEn = s.irqEn := rfl
@[simp] theorem setReadData_frameType (s : State) (v : Word) : (s.setReadData v).frameType = s.frameType := rfl
@[simp] theorem setReadData_frameSize (s : State) (v : Word) : (s.setReadData v).frameSize = s.frameSize := rfl
@[simp] theorem setReadData_frameNcomp (s : State) (v : Word) : (s.setReadData v).frameNcomp = s.frameNcomp := rfl
@[simp] theorem setReadData_comp (s : State) (v : Word) : (s.setReadData v).comp = s.comp := rfl
@[simp] theorem setReadData_restartInterval (s : State) (v : Word) : (s.setReadData v).restartInterval = s.restartInterval := rfl
@[simp] theorem setReadData_srcPtr (s : State) (v : Word) : (s.setReadData v).srcPtr = s.srcPtr := rfl
@[simp] theorem setReadData_srcEnd (s : State) (v : Word) : (s.setReadData v).srcEnd = s.srcEnd := rfl
@[simp] theorem setReadData_inBase (s : State) (v : Word) : (s.setReadData v).inBase = s.inBase := rfl
@[simp] theorem setReadData_inLen (s : State) (v : Word) : (s.setReadData v).inLen = s.inLen := rfl
@[simp] theorem setReadData_outBase (s : State) (v : Word) : (s.setReadData v).outBase = s.outBase := rfl
@[simp] theorem setReadData_brPos (s : State) (v : Word) : (s.setReadData v).brPos = s.brPos := rfl
@[simp] theorem setReadData_brBits (s : State) (v : Word) : (s.setReadData v).brBits = s.brBits := rfl
@[simp] theorem setReadData_mcuIndex (s : State) (v : Word) : (s.setReadData v).mcuIndex = s.mcuIndex := rfl
@[simp] theorem setReadData_mcuTotal (s : State) (v : Word) : (s.setReadData v).mcuTotal = s.mcuTotal := rfl
@[simp] theorem setReadData_result (s : State) (v : Word) : (s.setReadData v).result = s.result := rfl
@[simp] theorem setReadData_tableValid (s : State) (v : Word) : (s.setReadData v).tableValid = s.tableValid := rfl
@[simp] theorem setReadData_pred (s : State) (v : Word) : (s.setReadData v).pred = s.pred := rfl
@[simp] theorem setReadData_pend (s : State) (v : Word) : (s.setReadData v).pend = s.pend := rfl
@[simp] theorem setReadData_quant (s : State) (v : Word) : (s.setReadData v).quant = s.quant := rfl
@[simp] theorem setReadData_dcTable (s : State) (v : Word) : (s.setReadData v).dcTable = s.dcTable := rfl
@[simp] theorem setReadData_acTable (s : State) (v : Word) : (s.setReadData v).acTable = s.acTable := rfl
@[simp] theorem setReadData_ibuf (s : State) (v : Word) : (s.setReadData v).ibuf = s.ibuf := rfl
@[simp] theorem setReadData_obuf (s : State) (v : Word) : (s.setReadData v).obuf = s.obuf := rfl
@[simp] theorem setReadData_schedule (s : State) (v : Word) : (s.setReadData v).schedule = s.schedule := rfl
@[simp] theorem setReadData_readData (s : State) (v : Word) : (s.setReadData v).readData = v := rfl
@[simp] theorem setReadData_draws (s : State) (v : Word) : (s.setReadData v).draws = s.draws := rfl
@[simp] theorem setReadData_resets (s : State) (v : Word) : (s.setReadData v).resets = s.resets := rfl

/-! ### countDraw -/

@[simp] theorem countDraw_params (s : State) : (s.countDraw).params = s.params := rfl
@[simp] theorem countDraw_cmd (s : State) : (s.countDraw).cmd = s.cmd := rfl
@[simp] theorem countDraw_status (s : State) : (s.countDraw).status = s.status := rfl
@[simp] theorem countDraw_error (s : State) : (s.countDraw).error = s.error := rfl
@[simp] theorem countDraw_irqEn (s : State) : (s.countDraw).irqEn = s.irqEn := rfl
@[simp] theorem countDraw_frameType (s : State) : (s.countDraw).frameType = s.frameType := rfl
@[simp] theorem countDraw_frameSize (s : State) : (s.countDraw).frameSize = s.frameSize := rfl
@[simp] theorem countDraw_frameNcomp (s : State) : (s.countDraw).frameNcomp = s.frameNcomp := rfl
@[simp] theorem countDraw_comp (s : State) : (s.countDraw).comp = s.comp := rfl
@[simp] theorem countDraw_restartInterval (s : State) : (s.countDraw).restartInterval = s.restartInterval := rfl
@[simp] theorem countDraw_srcPtr (s : State) : (s.countDraw).srcPtr = s.srcPtr := rfl
@[simp] theorem countDraw_srcEnd (s : State) : (s.countDraw).srcEnd = s.srcEnd := rfl
@[simp] theorem countDraw_inBase (s : State) : (s.countDraw).inBase = s.inBase := rfl
@[simp] theorem countDraw_inLen (s : State) : (s.countDraw).inLen = s.inLen := rfl
@[simp] theorem countDraw_outBase (s : State) : (s.countDraw).outBase = s.outBase := rfl
@[simp] theorem countDraw_brPos (s : State) : (s.countDraw).brPos = s.brPos := rfl
@[simp] theorem countDraw_brBits (s : State) : (s.countDraw).brBits = s.brBits := rfl
@[simp] theorem countDraw_mcuIndex (s : State) : (s.countDraw).mcuIndex = s.mcuIndex := rfl
@[simp] theorem countDraw_mcuTotal (s : State) : (s.countDraw).mcuTotal = s.mcuTotal := rfl
@[simp] theorem countDraw_result (s : State) : (s.countDraw).result = s.result := rfl
@[simp] theorem countDraw_tableValid (s : State) : (s.countDraw).tableValid = s.tableValid := rfl
@[simp] theorem countDraw_pred (s : State) : (s.countDraw).pred = s.pred := rfl
@[simp] theorem countDraw_pend (s : State) : (s.countDraw).pend = s.pend := rfl
@[simp] theorem countDraw_quant (s : State) : (s.countDraw).quant = s.quant := rfl
@[simp] theorem countDraw_dcTable (s : State) : (s.countDraw).dcTable = s.dcTable := rfl
@[simp] theorem countDraw_acTable (s : State) : (s.countDraw).acTable = s.acTable := rfl
@[simp] theorem countDraw_ibuf (s : State) : (s.countDraw).ibuf = s.ibuf := rfl
@[simp] theorem countDraw_obuf (s : State) : (s.countDraw).obuf = s.obuf := rfl
@[simp] theorem countDraw_schedule (s : State) : (s.countDraw).schedule = s.schedule := rfl
@[simp] theorem countDraw_readData (s : State) : (s.countDraw).readData = s.readData := rfl
@[simp] theorem countDraw_draws (s : State) : (s.countDraw).draws = s.draws + 1 := rfl
@[simp] theorem countDraw_resets (s : State) : (s.countDraw).resets = s.resets := rfl

/-! ### storeQuant -/

@[simp] theorem storeQuant_params (s : State) (t : Fin 4) (q : QuantTable) : (s.storeQuant t q).params = s.params := rfl
@[simp] theorem storeQuant_cmd (s : State) (t : Fin 4) (q : QuantTable) : (s.storeQuant t q).cmd = s.cmd := rfl
@[simp] theorem storeQuant_status (s : State) (t : Fin 4) (q : QuantTable) : (s.storeQuant t q).status = s.status := rfl
@[simp] theorem storeQuant_error (s : State) (t : Fin 4) (q : QuantTable) : (s.storeQuant t q).error = s.error := rfl
@[simp] theorem storeQuant_irqEn (s : State) (t : Fin 4) (q : QuantTable) : (s.storeQuant t q).irqEn = s.irqEn := rfl
@[simp] theorem storeQuant_frameType (s : State) (t : Fin 4) (q : QuantTable) : (s.storeQuant t q).frameType = s.frameType := rfl
@[simp] theorem storeQuant_frameSize (s : State) (t : Fin 4) (q : QuantTable) : (s.storeQuant t q).frameSize = s.frameSize := rfl
@[simp] theorem storeQuant_frameNcomp (s : State) (t : Fin 4) (q : QuantTable) : (s.storeQuant t q).frameNcomp = s.frameNcomp := rfl
@[simp] theorem storeQuant_comp (s : State) (t : Fin 4) (q : QuantTable) : (s.storeQuant t q).comp = s.comp := rfl
@[simp] theorem storeQuant_restartInterval (s : State) (t : Fin 4) (q : QuantTable) : (s.storeQuant t q).restartInterval = s.restartInterval := rfl
@[simp] theorem storeQuant_srcPtr (s : State) (t : Fin 4) (q : QuantTable) : (s.storeQuant t q).srcPtr = s.srcPtr := rfl
@[simp] theorem storeQuant_srcEnd (s : State) (t : Fin 4) (q : QuantTable) : (s.storeQuant t q).srcEnd = s.srcEnd := rfl
@[simp] theorem storeQuant_inBase (s : State) (t : Fin 4) (q : QuantTable) : (s.storeQuant t q).inBase = s.inBase := rfl
@[simp] theorem storeQuant_inLen (s : State) (t : Fin 4) (q : QuantTable) : (s.storeQuant t q).inLen = s.inLen := rfl
@[simp] theorem storeQuant_outBase (s : State) (t : Fin 4) (q : QuantTable) : (s.storeQuant t q).outBase = s.outBase := rfl
@[simp] theorem storeQuant_brPos (s : State) (t : Fin 4) (q : QuantTable) : (s.storeQuant t q).brPos = s.brPos := rfl
@[simp] theorem storeQuant_brBits (s : State) (t : Fin 4) (q : QuantTable) : (s.storeQuant t q).brBits = s.brBits := rfl
@[simp] theorem storeQuant_mcuIndex (s : State) (t : Fin 4) (q : QuantTable) : (s.storeQuant t q).mcuIndex = s.mcuIndex := rfl
@[simp] theorem storeQuant_mcuTotal (s : State) (t : Fin 4) (q : QuantTable) : (s.storeQuant t q).mcuTotal = s.mcuTotal := rfl
@[simp] theorem storeQuant_result (s : State) (t : Fin 4) (q : QuantTable) : (s.storeQuant t q).result = s.result := rfl
@[simp] theorem storeQuant_tableValid (s : State) (t : Fin 4) (q : QuantTable) : (s.storeQuant t q).tableValid = { s.tableValid with qv := defineTable s.tableValid.qv t } := rfl
@[simp] theorem storeQuant_pred (s : State) (t : Fin 4) (q : QuantTable) : (s.storeQuant t q).pred = s.pred := rfl
@[simp] theorem storeQuant_pend (s : State) (t : Fin 4) (q : QuantTable) : (s.storeQuant t q).pend = s.pend := rfl
@[simp] theorem storeQuant_quant (s : State) (t : Fin 4) (q : QuantTable) : (s.storeQuant t q).quant = s.quant.set t.val q := rfl
@[simp] theorem storeQuant_dcTable (s : State) (t : Fin 4) (q : QuantTable) : (s.storeQuant t q).dcTable = s.dcTable := rfl
@[simp] theorem storeQuant_acTable (s : State) (t : Fin 4) (q : QuantTable) : (s.storeQuant t q).acTable = s.acTable := rfl
@[simp] theorem storeQuant_ibuf (s : State) (t : Fin 4) (q : QuantTable) : (s.storeQuant t q).ibuf = s.ibuf := rfl
@[simp] theorem storeQuant_obuf (s : State) (t : Fin 4) (q : QuantTable) : (s.storeQuant t q).obuf = s.obuf := rfl
@[simp] theorem storeQuant_schedule (s : State) (t : Fin 4) (q : QuantTable) : (s.storeQuant t q).schedule = s.schedule := rfl
@[simp] theorem storeQuant_readData (s : State) (t : Fin 4) (q : QuantTable) : (s.storeQuant t q).readData = s.readData := rfl
@[simp] theorem storeQuant_draws (s : State) (t : Fin 4) (q : QuantTable) : (s.storeQuant t q).draws = s.draws := rfl
@[simp] theorem storeQuant_resets (s : State) (t : Fin 4) (q : QuantTable) : (s.storeQuant t q).resets = s.resets := rfl

/-! ### storeHuff -/

@[simp] theorem storeHuff_params (s : State) (c : HuffClass) (t : Fin 4) (h : HuffTable) : (s.storeHuff c t h).params = s.params := by cases c <;> rfl
@[simp] theorem storeHuff_cmd (s : State) (c : HuffClass) (t : Fin 4) (h : HuffTable) : (s.storeHuff c t h).cmd = s.cmd := by cases c <;> rfl
@[simp] theorem storeHuff_status (s : State) (c : HuffClass) (t : Fin 4) (h : HuffTable) : (s.storeHuff c t h).status = s.status := by cases c <;> rfl
@[simp] theorem storeHuff_error (s : State) (c : HuffClass) (t : Fin 4) (h : HuffTable) : (s.storeHuff c t h).error = s.error := by cases c <;> rfl
@[simp] theorem storeHuff_irqEn (s : State) (c : HuffClass) (t : Fin 4) (h : HuffTable) : (s.storeHuff c t h).irqEn = s.irqEn := by cases c <;> rfl
@[simp] theorem storeHuff_frameType (s : State) (c : HuffClass) (t : Fin 4) (h : HuffTable) : (s.storeHuff c t h).frameType = s.frameType := by cases c <;> rfl
@[simp] theorem storeHuff_frameSize (s : State) (c : HuffClass) (t : Fin 4) (h : HuffTable) : (s.storeHuff c t h).frameSize = s.frameSize := by cases c <;> rfl
@[simp] theorem storeHuff_frameNcomp (s : State) (c : HuffClass) (t : Fin 4) (h : HuffTable) : (s.storeHuff c t h).frameNcomp = s.frameNcomp := by cases c <;> rfl
@[simp] theorem storeHuff_comp (s : State) (c : HuffClass) (t : Fin 4) (h : HuffTable) : (s.storeHuff c t h).comp = s.comp := by cases c <;> rfl
@[simp] theorem storeHuff_restartInterval (s : State) (c : HuffClass) (t : Fin 4) (h : HuffTable) : (s.storeHuff c t h).restartInterval = s.restartInterval := by cases c <;> rfl
@[simp] theorem storeHuff_srcPtr (s : State) (c : HuffClass) (t : Fin 4) (h : HuffTable) : (s.storeHuff c t h).srcPtr = s.srcPtr := by cases c <;> rfl
@[simp] theorem storeHuff_srcEnd (s : State) (c : HuffClass) (t : Fin 4) (h : HuffTable) : (s.storeHuff c t h).srcEnd = s.srcEnd := by cases c <;> rfl
@[simp] theorem storeHuff_inBase (s : State) (c : HuffClass) (t : Fin 4) (h : HuffTable) : (s.storeHuff c t h).inBase = s.inBase := by cases c <;> rfl
@[simp] theorem storeHuff_inLen (s : State) (c : HuffClass) (t : Fin 4) (h : HuffTable) : (s.storeHuff c t h).inLen = s.inLen := by cases c <;> rfl
@[simp] theorem storeHuff_outBase (s : State) (c : HuffClass) (t : Fin 4) (h : HuffTable) : (s.storeHuff c t h).outBase = s.outBase := by cases c <;> rfl
@[simp] theorem storeHuff_brPos (s : State) (c : HuffClass) (t : Fin 4) (h : HuffTable) : (s.storeHuff c t h).brPos = s.brPos := by cases c <;> rfl
@[simp] theorem storeHuff_brBits (s : State) (c : HuffClass) (t : Fin 4) (h : HuffTable) : (s.storeHuff c t h).brBits = s.brBits := by cases c <;> rfl
@[simp] theorem storeHuff_mcuIndex (s : State) (c : HuffClass) (t : Fin 4) (h : HuffTable) : (s.storeHuff c t h).mcuIndex = s.mcuIndex := by cases c <;> rfl
@[simp] theorem storeHuff_mcuTotal (s : State) (c : HuffClass) (t : Fin 4) (h : HuffTable) : (s.storeHuff c t h).mcuTotal = s.mcuTotal := by cases c <;> rfl
@[simp] theorem storeHuff_result (s : State) (c : HuffClass) (t : Fin 4) (h : HuffTable) : (s.storeHuff c t h).result = s.result := by cases c <;> rfl
@[simp] theorem storeHuff_pred (s : State) (c : HuffClass) (t : Fin 4) (h : HuffTable) : (s.storeHuff c t h).pred = s.pred := by cases c <;> rfl
@[simp] theorem storeHuff_pend (s : State) (c : HuffClass) (t : Fin 4) (h : HuffTable) : (s.storeHuff c t h).pend = s.pend := by cases c <;> rfl
@[simp] theorem storeHuff_quant (s : State) (c : HuffClass) (t : Fin 4) (h : HuffTable) : (s.storeHuff c t h).quant = s.quant := by cases c <;> rfl
@[simp] theorem storeHuff_ibuf (s : State) (c : HuffClass) (t : Fin 4) (h : HuffTable) : (s.storeHuff c t h).ibuf = s.ibuf := by cases c <;> rfl
@[simp] theorem storeHuff_obuf (s : State) (c : HuffClass) (t : Fin 4) (h : HuffTable) : (s.storeHuff c t h).obuf = s.obuf := by cases c <;> rfl
@[simp] theorem storeHuff_schedule (s : State) (c : HuffClass) (t : Fin 4) (h : HuffTable) : (s.storeHuff c t h).schedule = s.schedule := by cases c <;> rfl
@[simp] theorem storeHuff_readData (s : State) (c : HuffClass) (t : Fin 4) (h : HuffTable) : (s.storeHuff c t h).readData = s.readData := by cases c <;> rfl
@[simp] theorem storeHuff_draws (s : State) (c : HuffClass) (t : Fin 4) (h : HuffTable) : (s.storeHuff c t h).draws = s.draws := by cases c <;> rfl
@[simp] theorem storeHuff_resets (s : State) (c : HuffClass) (t : Fin 4) (h : HuffTable) : (s.storeHuff c t h).resets = s.resets := by cases c <;> rfl
@[simp] theorem storeHuff_dc_tableValid (s : State) (t : Fin 4) (h : HuffTable) :
    (s.storeHuff .dc t h).tableValid = { s.tableValid with dv := defineTable s.tableValid.dv t } := rfl
@[simp] theorem storeHuff_ac_tableValid (s : State) (t : Fin 4) (h : HuffTable) :
    (s.storeHuff .ac t h).tableValid = { s.tableValid with av := defineTable s.tableValid.av t } := rfl
@[simp] theorem storeHuff_dc_dcTable (s : State) (t : Fin 4) (h : HuffTable) :
    (s.storeHuff .dc t h).dcTable = s.dcTable.set t.val h := rfl
@[simp] theorem storeHuff_ac_dcTable (s : State) (t : Fin 4) (h : HuffTable) :
    (s.storeHuff .ac t h).dcTable = s.dcTable := rfl
@[simp] theorem storeHuff_dc_acTable (s : State) (t : Fin 4) (h : HuffTable) :
    (s.storeHuff .dc t h).acTable = s.acTable := rfl
@[simp] theorem storeHuff_ac_acTable (s : State) (t : Fin 4) (h : HuffTable) :
    (s.storeHuff .ac t h).acTable = s.acTable.set t.val h := rfl
@[simp] theorem storeHuff_qv (s : State) (c : HuffClass) (t : Fin 4) (h : HuffTable) :
    (s.storeHuff c t h).tableValid.qv = s.tableValid.qv := by cases c <;> rfl

/-! ### enterError -/

@[simp] theorem enterError_params (s : State) (e : Raise) : (s.enterError e).params = s.params := rfl
@[simp] theorem enterError_cmd (s : State) (e : Raise) : (s.enterError e).cmd = s.cmd := rfl
@[simp] theorem enterError_status (s : State) (e : Raise) : (s.enterError e).status = { s.status with err := true, scanActive := false, busy := false } := rfl
@[simp] theorem enterError_error (s : State) (e : Raise) : (s.enterError e).error = { code := e.code.toByte, sub := e.sub, info := e.info } := rfl
@[simp] theorem enterError_irqEn (s : State) (e : Raise) : (s.enterError e).irqEn = s.irqEn := rfl
@[simp] theorem enterError_frameType (s : State) (e : Raise) : (s.enterError e).frameType = s.frameType := rfl
@[simp] theorem enterError_frameSize (s : State) (e : Raise) : (s.enterError e).frameSize = s.frameSize := rfl
@[simp] theorem enterError_frameNcomp (s : State) (e : Raise) : (s.enterError e).frameNcomp = s.frameNcomp := rfl
@[simp] theorem enterError_comp (s : State) (e : Raise) : (s.enterError e).comp = s.comp := rfl
@[simp] theorem enterError_restartInterval (s : State) (e : Raise) : (s.enterError e).restartInterval = s.restartInterval := rfl
@[simp] theorem enterError_srcPtr (s : State) (e : Raise) : (s.enterError e).srcPtr = s.srcPtr := rfl
@[simp] theorem enterError_srcEnd (s : State) (e : Raise) : (s.enterError e).srcEnd = s.srcEnd := rfl
@[simp] theorem enterError_inBase (s : State) (e : Raise) : (s.enterError e).inBase = s.inBase := rfl
@[simp] theorem enterError_inLen (s : State) (e : Raise) : (s.enterError e).inLen = s.inLen := rfl
@[simp] theorem enterError_outBase (s : State) (e : Raise) : (s.enterError e).outBase = s.outBase := rfl
@[simp] theorem enterError_brPos (s : State) (e : Raise) : (s.enterError e).brPos = s.brPos := rfl
@[simp] theorem enterError_brBits (s : State) (e : Raise) : (s.enterError e).brBits = s.brBits := rfl
@[simp] theorem enterError_mcuIndex (s : State) (e : Raise) : (s.enterError e).mcuIndex = s.mcuIndex := rfl
@[simp] theorem enterError_mcuTotal (s : State) (e : Raise) : (s.enterError e).mcuTotal = s.mcuTotal := rfl
@[simp] theorem enterError_result (s : State) (e : Raise) : (s.enterError e).result = s.result := rfl
@[simp] theorem enterError_tableValid (s : State) (e : Raise) : (s.enterError e).tableValid = s.tableValid := rfl
@[simp] theorem enterError_pred (s : State) (e : Raise) : (s.enterError e).pred = s.pred := rfl
@[simp] theorem enterError_pend (s : State) (e : Raise) : (s.enterError e).pend = s.pend := rfl
@[simp] theorem enterError_quant (s : State) (e : Raise) : (s.enterError e).quant = s.quant := rfl
@[simp] theorem enterError_dcTable (s : State) (e : Raise) : (s.enterError e).dcTable = s.dcTable := rfl
@[simp] theorem enterError_acTable (s : State) (e : Raise) : (s.enterError e).acTable = s.acTable := rfl
@[simp] theorem enterError_ibuf (s : State) (e : Raise) : (s.enterError e).ibuf = s.ibuf := rfl
@[simp] theorem enterError_obuf (s : State) (e : Raise) : (s.enterError e).obuf = s.obuf := rfl
@[simp] theorem enterError_schedule (s : State) (e : Raise) : (s.enterError e).schedule = s.schedule := rfl
@[simp] theorem enterError_readData (s : State) (e : Raise) : (s.enterError e).readData = s.readData := rfl
@[simp] theorem enterError_draws (s : State) (e : Raise) : (s.enterError e).draws = s.draws := rfl
@[simp] theorem enterError_resets (s : State) (e : Raise) : (s.enterError e).resets = s.resets := rfl

/-! ### complete -/

@[simp] theorem complete_params (s : State) : (s.complete).params = s.params := rfl
@[simp] theorem complete_cmd (s : State) : (s.complete).cmd = s.cmd := rfl
@[simp] theorem complete_status (s : State) : (s.complete).status = { s.status with done := true, busy := false } := rfl
@[simp] theorem complete_error (s : State) : (s.complete).error = s.error := rfl
@[simp] theorem complete_irqEn (s : State) : (s.complete).irqEn = s.irqEn := rfl
@[simp] theorem complete_frameType (s : State) : (s.complete).frameType = s.frameType := rfl
@[simp] theorem complete_frameSize (s : State) : (s.complete).frameSize = s.frameSize := rfl
@[simp] theorem complete_frameNcomp (s : State) : (s.complete).frameNcomp = s.frameNcomp := rfl
@[simp] theorem complete_comp (s : State) : (s.complete).comp = s.comp := rfl
@[simp] theorem complete_restartInterval (s : State) : (s.complete).restartInterval = s.restartInterval := rfl
@[simp] theorem complete_srcPtr (s : State) : (s.complete).srcPtr = s.srcPtr := rfl
@[simp] theorem complete_srcEnd (s : State) : (s.complete).srcEnd = s.srcEnd := rfl
@[simp] theorem complete_inBase (s : State) : (s.complete).inBase = s.inBase := rfl
@[simp] theorem complete_inLen (s : State) : (s.complete).inLen = s.inLen := rfl
@[simp] theorem complete_outBase (s : State) : (s.complete).outBase = s.outBase := rfl
@[simp] theorem complete_brPos (s : State) : (s.complete).brPos = s.brPos := rfl
@[simp] theorem complete_brBits (s : State) : (s.complete).brBits = s.brBits := rfl
@[simp] theorem complete_mcuIndex (s : State) : (s.complete).mcuIndex = s.mcuIndex := rfl
@[simp] theorem complete_mcuTotal (s : State) : (s.complete).mcuTotal = s.mcuTotal := rfl
@[simp] theorem complete_result (s : State) : (s.complete).result = s.result := rfl
@[simp] theorem complete_tableValid (s : State) : (s.complete).tableValid = s.tableValid := rfl
@[simp] theorem complete_pred (s : State) : (s.complete).pred = s.pred := rfl
@[simp] theorem complete_pend (s : State) : (s.complete).pend = s.pend := rfl
@[simp] theorem complete_quant (s : State) : (s.complete).quant = s.quant := rfl
@[simp] theorem complete_dcTable (s : State) : (s.complete).dcTable = s.dcTable := rfl
@[simp] theorem complete_acTable (s : State) : (s.complete).acTable = s.acTable := rfl
@[simp] theorem complete_ibuf (s : State) : (s.complete).ibuf = s.ibuf := rfl
@[simp] theorem complete_obuf (s : State) : (s.complete).obuf = s.obuf := rfl
@[simp] theorem complete_schedule (s : State) : (s.complete).schedule = s.schedule := rfl
@[simp] theorem complete_readData (s : State) : (s.complete).readData = s.readData := rfl
@[simp] theorem complete_draws (s : State) : (s.complete).draws = s.draws := rfl
@[simp] theorem complete_resets (s : State) : (s.complete).resets = s.resets := rfl

/-! ### startScan -/

@[simp] theorem startScan_params (s : State) : (s.startScan).params = s.params := rfl
@[simp] theorem startScan_cmd (s : State) : (s.startScan).cmd = s.cmd := rfl
@[simp] theorem startScan_status (s : State) : (s.startScan).status = { s.status with markerSeen := false, markerCode := 0#8, scanDone := false, scanActive := true } := rfl
@[simp] theorem startScan_error (s : State) : (s.startScan).error = s.error := rfl
@[simp] theorem startScan_irqEn (s : State) : (s.startScan).irqEn = s.irqEn := rfl
@[simp] theorem startScan_frameType (s : State) : (s.startScan).frameType = s.frameType := rfl
@[simp] theorem startScan_frameSize (s : State) : (s.startScan).frameSize = s.frameSize := rfl
@[simp] theorem startScan_frameNcomp (s : State) : (s.startScan).frameNcomp = s.frameNcomp := rfl
@[simp] theorem startScan_comp (s : State) : (s.startScan).comp = s.comp := rfl
@[simp] theorem startScan_restartInterval (s : State) : (s.startScan).restartInterval = s.restartInterval := rfl
@[simp] theorem startScan_srcPtr (s : State) : (s.startScan).srcPtr = s.srcPtr := rfl
@[simp] theorem startScan_srcEnd (s : State) : (s.startScan).srcEnd = s.srcEnd := rfl
@[simp] theorem startScan_inBase (s : State) : (s.startScan).inBase = s.inBase := rfl
@[simp] theorem startScan_inLen (s : State) : (s.startScan).inLen = s.inLen := rfl
@[simp] theorem startScan_outBase (s : State) : (s.startScan).outBase = s.outBase := rfl
@[simp] theorem startScan_brPos (s : State) : (s.startScan).brPos = 0#32 := rfl
@[simp] theorem startScan_brBits (s : State) : (s.startScan).brBits = { byte := 0#8, cnt := 0#4 } := rfl
@[simp] theorem startScan_mcuIndex (s : State) : (s.startScan).mcuIndex = 0#32 := rfl
@[simp] theorem startScan_mcuTotal (s : State) : (s.startScan).mcuTotal = BitVec.ofNat 32 s.mcuCount := rfl
@[simp] theorem startScan_result (s : State) : (s.startScan).result = s.result := rfl
@[simp] theorem startScan_tableValid (s : State) : (s.startScan).tableValid = s.tableValid := rfl
@[simp] theorem startScan_pred (s : State) : (s.startScan).pred = Vector.replicate 3 0#32 := rfl
@[simp] theorem startScan_pend (s : State) : (s.startScan).pend = s.pend := rfl
@[simp] theorem startScan_quant (s : State) : (s.startScan).quant = s.quant := rfl
@[simp] theorem startScan_dcTable (s : State) : (s.startScan).dcTable = s.dcTable := rfl
@[simp] theorem startScan_acTable (s : State) : (s.startScan).acTable = s.acTable := rfl
@[simp] theorem startScan_ibuf (s : State) : (s.startScan).ibuf = s.ibuf := rfl
@[simp] theorem startScan_obuf (s : State) : (s.startScan).obuf = s.obuf := rfl
@[simp] theorem startScan_schedule (s : State) : (s.startScan).schedule = s.schedule := rfl
@[simp] theorem startScan_readData (s : State) : (s.startScan).readData = s.readData := rfl
@[simp] theorem startScan_draws (s : State) : (s.startScan).draws = s.draws := rfl
@[simp] theorem startScan_resets (s : State) : (s.startScan).resets = s.resets := rfl

/-! ### forgetGrid -/

@[simp] theorem forgetGrid_params (s : State) : (s.forgetGrid).params = s.params := rfl
@[simp] theorem forgetGrid_cmd (s : State) : (s.forgetGrid).cmd = s.cmd := rfl
@[simp] theorem forgetGrid_status (s : State) : (s.forgetGrid).status = s.status := rfl
@[simp] theorem forgetGrid_error (s : State) : (s.forgetGrid).error = s.error := rfl
@[simp] theorem forgetGrid_irqEn (s : State) : (s.forgetGrid).irqEn = s.irqEn := rfl
@[simp] theorem forgetGrid_frameType (s : State) : (s.forgetGrid).frameType = s.frameType := rfl
@[simp] theorem forgetGrid_frameSize (s : State) : (s.forgetGrid).frameSize = s.frameSize := rfl
@[simp] theorem forgetGrid_frameNcomp (s : State) : (s.forgetGrid).frameNcomp = s.frameNcomp := rfl
@[simp] theorem forgetGrid_comp (s : State) : (s.forgetGrid).comp = s.comp := rfl
@[simp] theorem forgetGrid_restartInterval (s : State) : (s.forgetGrid).restartInterval = s.restartInterval := rfl
@[simp] theorem forgetGrid_srcPtr (s : State) : (s.forgetGrid).srcPtr = s.srcPtr := rfl
@[simp] theorem forgetGrid_srcEnd (s : State) : (s.forgetGrid).srcEnd = s.srcEnd := rfl
@[simp] theorem forgetGrid_inBase (s : State) : (s.forgetGrid).inBase = s.inBase := rfl
@[simp] theorem forgetGrid_inLen (s : State) : (s.forgetGrid).inLen = s.inLen := rfl
@[simp] theorem forgetGrid_outBase (s : State) : (s.forgetGrid).outBase = s.outBase := rfl
@[simp] theorem forgetGrid_brPos (s : State) : (s.forgetGrid).brPos = s.brPos := rfl
@[simp] theorem forgetGrid_brBits (s : State) : (s.forgetGrid).brBits = s.brBits := rfl
@[simp] theorem forgetGrid_mcuIndex (s : State) : (s.forgetGrid).mcuIndex = s.mcuIndex := rfl
@[simp] theorem forgetGrid_mcuTotal (s : State) : (s.forgetGrid).mcuTotal = s.mcuTotal := rfl
@[simp] theorem forgetGrid_result (s : State) : (s.forgetGrid).result = s.result := rfl
@[simp] theorem forgetGrid_tableValid (s : State) : (s.forgetGrid).tableValid = s.tableValid := rfl
@[simp] theorem forgetGrid_pred (s : State) : (s.forgetGrid).pred = s.pred := rfl
@[simp] theorem forgetGrid_pend (s : State) : (s.forgetGrid).pend = s.pend := rfl
@[simp] theorem forgetGrid_quant (s : State) : (s.forgetGrid).quant = s.quant := rfl
@[simp] theorem forgetGrid_dcTable (s : State) : (s.forgetGrid).dcTable = s.dcTable := rfl
@[simp] theorem forgetGrid_acTable (s : State) : (s.forgetGrid).acTable = s.acTable := rfl
@[simp] theorem forgetGrid_ibuf (s : State) : (s.forgetGrid).ibuf = s.ibuf := rfl
@[simp] theorem forgetGrid_obuf (s : State) : (s.forgetGrid).obuf = s.obuf.forget s.gridBase s.gridBytes := rfl
@[simp] theorem forgetGrid_schedule (s : State) : (s.forgetGrid).schedule = s.schedule := rfl
@[simp] theorem forgetGrid_readData (s : State) : (s.forgetGrid).readData = s.readData := rfl
@[simp] theorem forgetGrid_draws (s : State) : (s.forgetGrid).draws = s.draws := rfl
@[simp] theorem forgetGrid_resets (s : State) : (s.forgetGrid).resets = s.resets := rfl

end Sys2Proof.Machine
end

