-- ==== Sys2Proof/Laws/Engine.lean ====
section
/-! SUPPORT. Running pseudocode: what each primitive does to a state, when a piece of pseudocode keeps a relation
between the state before and after (`Keeps`), and what a piece of pseudocode guarantees (`Guarantees`). The lemmas about
the shared operations are stated in these terms, and the proofs cite them instead of unfolding the pseudocode. -/

namespace Sys2Proof.Machine

variable {α β : Type}

/-! ## The primitives -/

@[simp] theorem run_pure (a : α) (s : State) : (pure a : Engine α).run s = .ok a s := rfl
@[simp] theorem run_get (s : State) : (get : Engine State).run s = .ok s s := rfl
@[simp] theorem run_set (t s : State) : (set t : Engine PUnit).run s = .ok ⟨⟩ t := rfl
@[simp] theorem run_modify (f : State → State) (s : State) : (modify f : Engine PUnit).run s = .ok ⟨⟩ (f s) := rfl
@[simp] theorem run_raise (e : Raise) (s : State) : (raise e : Engine α).run s = .error (.raised e) s := rfl
@[simp] theorem run_faultWith (f : Fault) (s : State) : (faultWith f : Engine α).run s = .error (.faulted f) s := rfl

theorem run_bind (m : Engine α) (f : α → Engine β) (s : State) :
    (m >>= f).run s = match m.run s with | .ok a t => (f a).run t | .error e t => .error e t := by
  show EStateM.bind m f s = _
  unfold EStateM.bind EStateM.run
  cases m s <;> rfl

theorem run_bind_ok {m : Engine α} {f : α → Engine β} {s t : State} {a : α} (h : m.run s = .ok a t) :
    (m >>= f).run s = (f a).run t := by
  rw [run_bind, h]

theorem run_bind_error {m : Engine α} {f : α → Engine β} {s t : State} {e : Stop} (h : m.run s = .error e t) :
    (m >>= f).run s = .error e t := by
  rw [run_bind, h]

@[simp] theorem run_pure_bind (a : α) (f : α → Engine β) (s : State) : (pure a >>= f).run s = (f a).run s := rfl
@[simp] theorem run_get_bind (f : State → Engine β) (s : State) : (get >>= f).run s = (f s).run s := rfl
@[simp] theorem run_set_bind (t : State) (f : PUnit → Engine β) (s : State) :
    (set t >>= f).run s = (f ⟨⟩).run t := rfl
@[simp] theorem run_modify_bind (g : State → State) (f : PUnit → Engine β) (s : State) :
    (modify g >>= f).run s = (f ⟨⟩).run (g s) := rfl
@[simp] theorem run_raise_bind (e : Raise) (f : α → Engine β) (s : State) :
    (raise e >>= f).run s = .error (.raised e) s := rfl

theorem run_ite (c : Prop) [Decidable c] (m k : Engine α) (s : State) :
    (if c then m else k).run s = if c then m.run s else k.run s := by
  split <;> rfl

@[simp] theorem run_failIf (b : Bool) (e : Raise) (s : State) :
    (failIf b e).run s = if b then .error (.raised e) s else .ok () s := by
  cases b <;> rfl

/-! ## Keeping a relation -/

/-- The state in which a run ends, however it ends. -/
def endState : EStateM.Result Stop State α → State
  | .ok _ t => t
  | .error _ t => t

@[simp] theorem endState_ok (a : α) (t : State) : endState (.ok a t : EStateM.Result Stop State α) = t := rfl
@[simp] theorem endState_error (e : Stop) (t : State) : endState (.error e t : EStateM.Result Stop State α) = t := rfl

/-- However the pseudocode ends, `R` relates the state before to the state after. -/
def Keeps (R : State → State → Prop) (m : Engine α) : Prop := ∀ s, R s (endState (m.run s))

/-- A relation that holds of no change and composes. -/
structure Composes (R : State → State → Prop) : Prop where
  refl : ∀ s, R s s
  trans : ∀ {s t u}, R s t → R t u → R s u

theorem Keeps.ok {R : State → State → Prop} {m : Engine α} (h : Keeps R m) {s t : State} {a : α}
    (hr : m.run s = .ok a t) : R s t := by
  have := h s; rwa [hr] at this

theorem Keeps.error {R : State → State → Prop} {m : Engine α} (h : Keeps R m) {s t : State} {e : Stop}
    (hr : m.run s = .error e t) : R s t := by
  have := h s; rwa [hr] at this

theorem Keeps.mono {R R' : State → State → Prop} {m : Engine α} (h : Keeps R m) (hR : ∀ s t, R s t → R' s t) :
    Keeps R' m := fun s => hR _ _ (h s)

theorem keeps_pure {R : State → State → Prop} (hR : Composes R) (a : α) : Keeps R (pure a : Engine α) :=
  fun s => hR.refl s

theorem keeps_raise {R : State → State → Prop} (hR : Composes R) (e : Raise) : Keeps R (raise e : Engine α) :=
  fun s => hR.refl s

theorem keeps_fault {R : State → State → Prop} (hR : Composes R) (f : Fault) : Keeps R (faultWith f : Engine α) :=
  fun s => hR.refl s

theorem keeps_modify {R : State → State → Prop} (f : State → State) (h : ∀ s, R s (f s)) :
    Keeps R (modify f : Engine PUnit) := fun s => h s

theorem keeps_failIf {R : State → State → Prop} (hR : Composes R) (b : Bool) (e : Raise) : Keeps R (failIf b e) := by
  cases b
  · exact keeps_pure hR ()
  · exact keeps_raise hR e

theorem keeps_bind {R : State → State → Prop} (hR : Composes R) {m : Engine α} {f : α → Engine β}
    (hm : Keeps R m) (hf : ∀ a, Keeps R (f a)) : Keeps R (m >>= f) := by
  intro s
  rw [run_bind]
  cases hr : m.run s with
  | ok a t => exact hR.trans (hm.ok hr) (hf a t)
  | error e t => exact hm.error hr

/-- Pseudocode that begins by reading the state. -/
theorem keeps_get_bind {R : State → State → Prop} {f : State → Engine β}
    (hf : ∀ s, R s (endState ((f s).run s))) : Keeps R (get >>= f) := hf

theorem keeps_ite {R : State → State → Prop} (c : Prop) [Decidable c] {m k : Engine α} (hm : Keeps R m)
    (hk : Keeps R k) :
    Keeps R (if c then m else k) := by
  split <;> assumption

/-! ## Guarantees -/

/-- From a state with `P`, the pseudocode does not fault, returns only results and states with `Q`, and raises only
errors and states with `E`. -/
def Guarantees (P : State → Prop) (m : Engine α) (Q : α → State → Prop) (E : Raise → State → Prop) : Prop :=
  ∀ s, P s → match m.run s with
    | .ok a t => Q a t
    | .error (.raised e) t => E e t
    | .error (.faulted _) _ => False

theorem guarantees_bind {P : State → Prop} {m : Engine α} {f : α → Engine β} {Q : α → State → Prop}
    {Q' : β → State → Prop} {E : Raise → State → Prop} (hm : Guarantees P m Q E)
    (hf : ∀ a, Guarantees (Q a) (f a) Q' E) : Guarantees P (m >>= f) Q' E := by
  intro s hs
  rw [run_bind]
  have h1 := hm s hs
  cases hr : m.run s with
  | ok a t => rw [hr] at h1; exact hf a t h1
  | error e t => rw [hr] at h1; cases e <;> exact h1

theorem guarantees_pure {P : State → Prop} (a : α) {Q : α → State → Prop} {E : Raise → State → Prop}
    (h : ∀ s, P s → Q a s) : Guarantees P (pure a : Engine α) Q E := fun s hs => h s hs

theorem guarantees_raise {P : State → Prop} (e : Raise) {Q : α → State → Prop} {E : Raise → State → Prop}
    (h : ∀ s, P s → E e s) : Guarantees P (raise e : Engine α) Q E := fun s hs => h s hs

theorem guarantees_get_bind {P : State → Prop} {f : State → Engine β} {Q : β → State → Prop}
    {E : Raise → State → Prop} (hf : ∀ s, P s → Guarantees (fun t => t = s) (f s) Q E) :
    Guarantees P (get >>= f) Q E := fun s hs => hf s hs s rfl

theorem guarantees_modify {P : State → Prop} (g : State → State) {Q : PUnit → State → Prop}
    {E : Raise → State → Prop} (h : ∀ s, P s → Q ⟨⟩ (g s)) : Guarantees P (modify g : Engine PUnit) Q E :=
  fun s hs => h s hs

theorem Guarantees.mono {P P' : State → Prop} {m : Engine α} {Q Q' : α → State → Prop} {E E' : Raise → State → Prop}
    (h : Guarantees P m Q E) (hP : ∀ s, P' s → P s) (hQ : ∀ a s, Q a s → Q' a s) (hE : ∀ e s, E e s → E' e s) :
    Guarantees P' m Q' E' := by
  intro s hs
  have h1 := h s (hP s hs)
  cases hr : m.run s with
  | ok a t => rw [hr] at h1; exact hQ _ _ h1
  | error e t =>
    rw [hr] at h1
    cases e with
    | raised e => exact hE _ _ h1
    | faulted f => exact h1

/-! ## Engine accesses -/

theorem run_engineRead (a : Nat) (s : State) :
    (engineRead a).run s = if a < s.params.ibufBytes then .ok (s.ibufByte a) s else .error
        (.faulted (.ibufOutOfRange a)) s := by
  simp only [engineRead, run_get_bind, run_ite, run_pure, run_faultWith]

theorem run_engineReadBytes (a n : Nat) (s : State) :
    (engineReadBytes a n).run s =
      if a + n ≤ s.params.ibufBytes then .ok (Vector.ofFn fun i => s.ibufByte (a + i.val)) s
      else .error (.faulted (.ibufOutOfRange (a + n))) s := by
  simp only [engineReadBytes, run_get_bind, run_ite, run_pure, run_faultWith]

/-- Stores that all lie in OBUF are made; the first that does not is a fault. -/
theorem run_engineStore_ok {cells : List Host.Cell} {s : State} (h : ∀ c ∈ cells, c.1 < s.params.obufBytes) :
    (engineStore cells).run s = .ok ⟨⟩ (s.setObuf (s.obuf.writeAll cells)) := by
  have hf : (cells.find? fun c => !decide (c.1 < s.params.obufBytes)) = none := by
    rw [List.find?_eq_none]
    intro c hc
    simpa using h c hc
  simp only [engineStore, run_get_bind, hf, run_set]

/-- However `engineStore` ends, only OBUF may differ, and only by the stores. -/
theorem run_engineStore_cases (cells : List Host.Cell) (s : State) :
    ((∀ c ∈ cells, c.1 < s.params.obufBytes) ∧
      (engineStore cells).run s = .ok ⟨⟩ (s.setObuf (s.obuf.writeAll cells))) ∨
    (∃ f, (engineStore cells).run s = .error (.faulted f) s) := by
  by_cases h : ∀ c ∈ cells, c.1 < s.params.obufBytes
  · exact .inl ⟨h, run_engineStore_ok h⟩
  · right
    cases hf : cells.find? fun c => !decide (c.1 < s.params.obufBytes) with
    | none => exact absurd (fun c hc => by simpa using List.find?_eq_none.mp hf c hc) h
    | some c => exact ⟨.obufOutOfRange c.1, by simp only [engineStore, run_get_bind, hf, run_faultWith]⟩

theorem run_tableId (sel : BitVec 4) (s : State) :
    (tableId sel).run s = if h : sel.toNat < 4 then .ok ⟨sel.toNat, h⟩ s else .error
        (.faulted (.noSuchTable sel.toNat)) s := by
  unfold tableId
  split <;> rfl

/-! ## The end of a command -/

/-- A command's pseudocode that ends without an error (42_control R161). -/
theorem runCommand_ok {m : Engine Unit} {s t : State} (h : m.run s = .ok () t) : runCommand m s = .next t.complete := by
  simp only [runCommand, h]

/-- A command's pseudocode that raises (42_control R161, 60_exceptions R218). -/
theorem runCommand_raised {m : Engine Unit} {s t : State} {e : Raise} (h : m.run s = .error (.raised e) t) :
    runCommand m s = .next (t.enterError e) := by
  simp only [runCommand, h]

theorem runDecode_ok {m : Engine Unit} {s t : State} (h : m.run s = .ok () t) : runDecode m s = .next t.complete := by
  simp only [runDecode, h]

theorem runDecode_raised {m : Engine Unit} {s t : State} {e : Raise} (h : m.run s = .error (.raised e) t) :
    runDecode m s = .next (t.enterError e).forgetGrid := by
  simp only [runDecode, h]

/-- Everything `runCommand` can do when it answers a next state. -/
theorem runCommand_cases {m : Engine Unit} {s u : State} (h : runCommand m s = .next u) :
    (∃ t, m.run s = .ok () t ∧ u = t.complete) ∨ (∃ t e, m.run s = .error (.raised e) t ∧ u = t.enterError e) := by
  cases hr : m.run s with
  | ok a t => rw [runCommand_ok hr] at h; cases h; exact .inl ⟨t, rfl, rfl⟩
  | error e t =>
    cases e with
    | raised e => rw [runCommand_raised hr] at h; cases h; exact .inr ⟨t, e, rfl, rfl⟩
    | faulted f => simp [runCommand, hr] at h

/-- Everything `runDecode` can do when it answers a next state. -/
theorem runDecode_cases {m : Engine Unit} {s u : State} (h : runDecode m s = .next u) :
    (∃ t, m.run s = .ok () t ∧ u = t.complete) ∨
    (∃ t e, m.run s = .error (.raised e) t ∧ u = (t.enterError e).forgetGrid) := by
  cases hr : m.run s with
  | ok a t => rw [runDecode_ok hr] at h; cases h; exact .inl ⟨t, rfl, rfl⟩
  | error e t =>
    cases e with
    | raised e => rw [runDecode_raised hr] at h; cases h; exact .inr ⟨t, e, rfl, rfl⟩
    | faulted f => simp [runDecode, hr] at h

/-! ## The scan checks -/

theorem run_requireScan (op : Opcode) (s : State) :
    (requireScan op).run s =
      if s.status.scanActive then .ok () s else .error (.raised ⟨.invalidCommand, 3#8, op.toByte⟩) s := by
  simp only [requireScan, run_get_bind, run_failIf]
  cases s.status.scanActive <;> rfl

theorem run_requireNoScan (op : Opcode) (s : State) :
    (requireNoScan op).run s =
      if s.status.scanActive then .error (.raised ⟨.invalidCommand, 3#8, op.toByte⟩) s else .ok () s := by
  simp only [requireNoScan, run_get_bind, run_failIf]

end Sys2Proof.Machine
end

