-- ==== Sys2Proof/Laws/BitReader.lean ====
section
/-! SUPPORT. What the bit reader does (spec/40_bit_reader.md): the byte fetch as one equation, the frame of every read,
and the reads as steps along the bit stream of spec/30_encoding.md R95 and R96. -/

namespace Sys2Proof.Machine

/-! ## Frame -/

theorem ReaderFrame.refl (s : State) : ReaderFrame s s := ⟨s.brPos, s.brBits, s.status.markerSeen, s.status.markerCode,
    rfl⟩

theorem ReaderFrame.trans {s t u : State} (h : ReaderFrame s t) (k : ReaderFrame t u) : ReaderFrame s u := by
  obtain ⟨p, b, e, c, rfl⟩ := h
  obtain ⟨p', b', e', c', rfl⟩ := k
  exact ⟨p', b', e', c', rfl⟩

theorem readerFrame_composes : Composes ReaderFrame := ⟨ReaderFrame.refl, ReaderFrame.trans⟩

theorem readerFrame_setBrPos (s : State) (v : Word) : ReaderFrame s (s.setBrPos v) :=
  ⟨v, s.brBits, s.status.markerSeen, s.status.markerCode, rfl⟩

theorem readerFrame_setBrBits (s : State) (v : BrBits) : ReaderFrame s (s.setBrBits v) :=
  ⟨s.brPos, v, s.status.markerSeen, s.status.markerCode, rfl⟩

theorem readerFrame_setMarker (s : State) (m : Byte) : ReaderFrame s (s.setMarker m) :=
    ⟨s.brPos, s.brBits, true, m, rfl⟩

/-! ## Byte fetch -/

/-- `fetch_byte()` as one equation: every path of R121. -/
theorem run_fetchByte (info : Byte) (s : State) :
    (fetchByte info).run s =
      if s.status.markerSeen = true then .error (.raised ⟨.unexpectedEndOfData, 2#8, info⟩) s
      else if s.inLen.toNat ≤ s.brPos.toNat then .error (.raised ⟨.unexpectedEndOfData, 1#8, info⟩) s
      else if ¬s.payloadPos < s.params.ibufBytes then .error (.faulted (.ibufOutOfRange s.payloadPos)) s
      else if s.ibufByte s.payloadPos ≠ 0xFF#8 then .ok (s.ibufByte s.payloadPos) (s.setBrPos (s.brPos + 1#32))
      else if s.inLen.toNat ≤ s.brPos.toNat + 1 then .error (.raised ⟨.unexpectedEndOfData, 3#8, info⟩) s
      else if ¬s.payloadPos + 1 < s.params.ibufBytes then .error (.faulted (.ibufOutOfRange (s.payloadPos + 1))) s
      else if s.ibufByte (s.payloadPos + 1) = 0x00#8 then .ok 0xFF#8 (s.setBrPos (s.brPos + 2#32))
      else .error (.raised ⟨.unexpectedEndOfData, 2#8, info⟩) (s.setMarker (s.ibufByte (s.payloadPos + 1))) := by
  simp only [fetchByte, endOfData, run_get_bind, run_ite, run_raise]
  congr 1
  congr 1
  by_cases h1 : s.payloadPos < s.params.ibufBytes
  · rw [run_bind, run_engineRead, if_pos h1, if_neg (not_not_intro h1)]
    simp only [run_ite, run_set_bind, run_pure, run_raise]
    congr 1
    congr 1
    by_cases h2 : s.payloadPos + 1 < s.params.ibufBytes
    · rw [run_bind, run_engineRead, if_pos h2, if_neg (not_not_intro h2)]
      simp only [run_ite, run_set_bind, run_pure, run_raise]
    · rw [run_bind, run_engineRead, if_neg h2, if_pos h2]
  · rw [run_bind, run_engineRead, if_neg h1, if_pos h1]

theorem keeps_fetchByte (info : Byte) : Keeps ReaderFrame (fetchByte info) := by
  intro s
  rw [run_fetchByte]
  simp only [apply_ite endState, endState_ok, endState_error]
  split <;> try exact ReaderFrame.refl s
  split <;> try exact ReaderFrame.refl s
  split <;> try exact ReaderFrame.refl s
  split
  · exact readerFrame_setBrPos _ _
  split <;> try exact ReaderFrame.refl s
  split <;> try exact ReaderFrame.refl s
  split
  · exact readerFrame_setBrPos _ _
  · exact readerFrame_setMarker _ _

/-! ## Bits -/

theorem run_refill_pending {s : State} (h : s.brBits.cnt ≠ 0#4) (info : Byte) : (refill info).run s = .ok () s := by
  simp only [refill, run_get_bind, if_neg h, run_pure]

theorem run_refill_empty {s : State} (h : s.brBits.cnt = 0#4) (info : Byte) :
    (refill info).run s =
      match (fetchByte info).run s with
      | .ok b t => .ok () (t.setBrBits { byte := b, cnt := 8#4 })
      | .error e t => .error e t := by
  simp only [refill, run_get_bind, if_pos h]
  rw [run_bind]
  cases (fetchByte info).run s <;> rfl

theorem run_takeBit (s : State) :
    takeBit.run s = .ok (s.brBits.byte.getLsbD (s.brBits.cnt - 1#4).toNat)
      (s.setBrBits { s.brBits with cnt := s.brBits.cnt - 1#4 }) := rfl

theorem keeps_refill (info : Byte) : Keeps ReaderFrame (refill info) := by
  refine keeps_get_bind fun s => keeps_ite _ ?_ (keeps_pure readerFrame_composes ()) s
  exact keeps_bind readerFrame_composes
      (keeps_fetchByte info) fun b => keeps_modify _ fun t => readerFrame_setBrBits t _

theorem keeps_takeBit : Keeps ReaderFrame takeBit := fun s => by
  rw [run_takeBit]; exact readerFrame_setBrBits _ _

theorem keeps_readBit (info : Byte) : Keeps ReaderFrame (readBit info) :=
  keeps_bind readerFrame_composes (keeps_refill info) fun _ => keeps_takeBit

/-- What every bit read keeps, the reads built from it keep: an n-bit read. -/
theorem keeps_readBitsFrom_of {R : State → State → Prop} (hR : Composes R) (hb : ∀ info, Keeps R (readBit info))
    (info : Byte) (n v : Nat) : Keeps R (readBitsFrom info n v) := by
  induction n generalizing v with
  | zero => exact keeps_pure hR v
  | succ n ih => exact keeps_bind hR (hb info) fun b => ih _

/-- What every bit read keeps, the reads built from it keep: a symbol decode. -/
theorem keeps_huffLoop_of {R : State → State → Prop} (hR : Composes R) (hb : ∀ info, Keeps R (readBit info))
    (t : HuffTable) (sub info : Byte) (n i code : Nat) : Keeps R (huffLoop t sub info n i code) := by
  induction n generalizing i code with
  | zero => exact keeps_raise hR _
  | succ n ih =>
    refine keeps_bind hR (hb info) fun b => ?_
    cases matchCode t i (2 * code + b.toNat) with
    | some v => exact keeps_pure hR v
    | none => exact ih _ _

theorem keeps_readBits (info : Byte) (n : Nat) : Keeps ReaderFrame (readBits info n) :=
  keeps_readBitsFrom_of readerFrame_composes keeps_readBit info n 0

/-- A symbol decode writes only the bit reader's state (41_tables R147). -/
theorem keeps_huffSymbol (t : HuffTable) (sub info : Byte) : Keeps ReaderFrame (huffSymbol t sub info) :=
  keeps_huffLoop_of readerFrame_composes keeps_readBit t sub info 16 0 0

/-- The probe writes MARKER_SEEN and MARKER_CODE only (40_bit_reader R127). -/
theorem readerFrame_probeMarker (s : State) : ReaderFrame s s.probeMarker := by
  unfold State.probeMarker
  split
  · exact readerFrame_setMarker _ _
  · exact ReaderFrame.refl s

end Sys2Proof.Machine
end

