-- ==== Sys2Proof/Laws/Stream.lean ====
section
/-! SUPPORT. The bit reader as steps along the bit stream of spec/30_encoding.md R95 and R96: a fetch takes the next
data byte, a bit read takes the first bit, an n-bit read the first n, and each fails where the stream ends. -/

namespace Sys2Proof.Machine

/-- The reader can run: no marker was met, CNT is at most 8, BR_POS does not pass IN_LEN, and the payload lies in IBUF
(40_bit_reader R120, R130; 42_control R166). -/
structure ReaderReady (s : State) : Prop where
  noMarker : s.status.markerSeen = false
  cnt : s.brBits.cnt.toNat ≤ 8
  pos : s.brPos.toNat ≤ s.inLen.toNat
  payload : s.inBase.toNat + s.inLen.toNat ≤ s.params.ibufBytes

theorem State.Inv.readerReady {s : State} (h : s.Inv) (ha : s.status.scanActive = true) : ReaderReady s := by
  obtain ⟨-, ⟨-, -, -, -, -, hst, -⟩, -, hsc, hcnt, hpos⟩ := h
  obtain ⟨-, -, -, -, -, -, hin, -⟩ := hsc ha
  exact ⟨(hst ha).2.2, hcnt, hpos ha, hin⟩

/-! ## The payload left -/

theorem payloadLeft_done {s : State} (h : s.inLen.toNat ≤ s.brPos.toNat) : s.payloadLeft = [] := by
  simp [State.payloadLeft, Nat.sub_eq_zero_of_le h]

theorem setBrPos_toNat (s : State) (k : Nat) (hk : k ≤ 2) (h : s.brPos.toNat + k ≤ s.inLen.toNat) :
    (s.brPos + BitVec.ofNat 32 k).toNat = s.brPos.toNat + k := by
  have := s.inLen.isLt
  simp only [BitVec.toNat_add, BitVec.toNat_ofNat]
  omega

theorem payloadLeft_next {s : State} (h : s.brPos.toNat < s.inLen.toNat) :
    s.payloadLeft = s.ibufByte s.payloadPos :: (s.setBrPos (s.brPos + 1#32)).payloadLeft := by
  have h1 := setBrPos_toNat s 1 (by omega) (by omega)
  unfold State.payloadLeft
  simp only [setBrPos_inLen, setBrPos_brPos, State.payloadPos, setBrPos_inBase, State.ibufByte, setBrPos_ibuf]
  rw [show BitVec.ofNat 32 1 = 1#32 from rfl] at h1
  rw [h1, show s.inLen.toNat - s.brPos.toNat = (s.inLen.toNat - (s.brPos.toNat + 1)) + 1 by omega,
    List.range_succ_eq_map, List.map_cons, List.map_map]
  congr 1
  apply List.map_congr_left
  intro j _
  simp only [Function.comp_apply]
  congr 1
  omega

theorem payloadLeft_next_next {s : State} (h : s.brPos.toNat + 1 < s.inLen.toNat) :
    s.payloadLeft = s.ibufByte s.payloadPos :: s.ibufByte (s.payloadPos + 1) ::
      (s.setBrPos (s.brPos + 2#32)).payloadLeft := by
  have h1 := setBrPos_toNat s 1 (by omega) (by omega)
  rw [show BitVec.ofNat 32 1 = 1#32 from rfl] at h1
  rw [payloadLeft_next (by omega : s.brPos.toNat < s.inLen.toNat),
    payloadLeft_next (s := s.setBrPos (s.brPos + 1#32)) (by simp only [setBrPos_brPos, setBrPos_inLen]; omega)]
  congr 2
  · simp only [State.ibufByte, setBrPos_ibuf, State.payloadPos, setBrPos_inBase, setBrPos_brPos, h1]
    congr 1
  · simp only [State.setBrPos]
    congr 2
    rw [BitVec.add_assoc]
    rfl

/-! ## Fetching a byte -/

/-- The next data byte is fetched (40_bit_reader R121). -/
theorem run_fetchByte_data {s : State} (hr : ReaderReady s) {b : Byte} {rest : List Byte}
    (h : destuff s.payloadLeft = b :: rest) (info : Byte) :
    ∃ p, (fetchByte info).run s = .ok b (s.setBrPos p) ∧ destuff (s.setBrPos p).payloadLeft = rest ∧
      ReaderReady (s.setBrPos p) := by
  obtain ⟨hm, hcnt, hpos, hpay⟩ := hr
  have h0 : s.brPos.toNat < s.inLen.toNat := by
    refine Decidable.byContradiction fun hc => ?_
    rw [payloadLeft_done (by omega)] at h
    simp [destuff] at h
  have hp0 : s.payloadPos < s.params.ibufBytes := by simp only [State.payloadPos]; omega
  rw [run_fetchByte, if_neg (by simp [hm]), if_neg (by omega), if_neg (not_not_intro hp0)]
  have n1 := setBrPos_toNat s 1 (by omega) (by omega)
  rw [show BitVec.ofNat 32 1 = 1#32 from rfl] at n1
  by_cases hff : s.ibufByte s.payloadPos = 0xFF#8
  · rw [if_neg (not_not_intro hff)]
    by_cases h1 : s.brPos.toNat + 1 < s.inLen.toNat
    · have hp1 : s.payloadPos + 1 < s.params.ibufBytes := by simp only [State.payloadPos]; omega
      rw [if_neg (by omega), if_neg (not_not_intro hp1)]
      rw [payloadLeft_next_next h1, hff, destuff, if_pos rfl] at h
      have n2 := setBrPos_toNat s 2 (by omega) (by omega)
      rw [show BitVec.ofNat 32 2 = 2#32 from rfl] at n2
      by_cases hz : s.ibufByte (s.payloadPos + 1) = 0x00#8
      · rw [if_pos hz] at h ⊢
        obtain ⟨rfl, rfl⟩ := List.cons.inj h
        exact ⟨_, rfl, rfl, ⟨hm, hcnt, by simp only [setBrPos_brPos, setBrPos_inLen, n2]; omega, hpay⟩⟩
      · rw [if_neg hz] at h
        cases h
    · rw [payloadLeft_next h0, payloadLeft_done (by simp only [setBrPos_brPos, setBrPos_inLen, n1]; omega), hff, destuff,
        if_pos rfl] at h
      cases h
  · rw [if_pos hff]
    rw [payloadLeft_next h0] at h
    have hd : destuff (s.ibufByte s.payloadPos :: (s.setBrPos (s.brPos + 1#32)).payloadLeft) =
        s.ibufByte s.payloadPos :: destuff (s.setBrPos (s.brPos + 1#32)).payloadLeft := by
      cases (s.setBrPos (s.brPos + 1#32)).payloadLeft with
      | nil => simp [destuff, hff]
      | cons m r => rw [destuff, if_neg hff]
    rw [hd] at h
    obtain ⟨rfl, rfl⟩ := List.cons.inj h
    exact ⟨_, rfl, rfl, ⟨hm, hcnt, by simp only [setBrPos_brPos, setBrPos_inLen, n1]; omega, hpay⟩⟩

/-! ## Bits -/

theorem bitsOf_zero (v : Nat) : bitsOf 0 v = [] := rfl

theorem bitsOf_succ (n v : Nat) : bitsOf (n + 1) v = v.testBit n :: bitsOf n v := by
  unfold bitsOf
  rw [List.range_succ_eq_map, List.map_cons, List.map_map]
  congr 1
  apply List.map_congr_left
  intro j hj
  simp only [List.mem_range] at hj
  simp only [Function.comp_apply]
  congr 1
  omega

theorem bitsOf_length (n v : Nat) : (bitsOf n v).length = n := by simp [bitsOf]

/-- Taking a pending bit (40_bit_reader R122). -/
theorem takeBit_stream {s : State} (hr : ReaderReady s) (hc : s.brBits.cnt ≠ 0#4) :
    ∃ b t, takeBit.run s = .ok b t ∧ s.streamBits = b :: t.streamBits ∧ ReaderReady t := by
  obtain ⟨hm, hcnt, hpos, hpay⟩ := hr
  have hc0 : s.brBits.cnt.toNat ≠ 0 := fun h => hc (BitVec.eq_of_toNat_eq h)
  have hn : (s.brBits.cnt - 1#4).toNat = s.brBits.cnt.toNat - 1 := by
    have := s.brBits.cnt.isLt
    simp only [BitVec.toNat_sub, BitVec.toNat_ofNat]
    omega
  refine ⟨_, _, run_takeBit s, ?_, ⟨hm, ?_, hpos, hpay⟩⟩
  · unfold State.streamBits
    simp only [setBrBits_brBits, hn]
    rw [show s.brBits.cnt.toNat = (s.brBits.cnt.toNat - 1) + 1 by omega, bitsOf_succ]
    rfl
  · simp only [setBrBits_brBits, hn]; omega

/-- `readBit()` takes the first bit of the stream (40_bit_reader R122, 30_encoding R96). -/
theorem readBit_stream {s : State} (hr : ReaderReady s) {b : Bool} {rest : List Bool} (h : s.streamBits = b :: rest)
    (info : Byte) : ∃ t, (readBit info).run s = .ok b t ∧ t.streamBits = rest ∧ ReaderReady t := by
  by_cases hc : s.brBits.cnt = 0#4
  · cases hd : destuff s.payloadLeft with
    | nil => simp [State.streamBits, hc, hd, bitsOf_zero] at h
    | cons c r =>
      obtain ⟨p, hf, hrest, hr'⟩ := run_fetchByte_data hr hd info
      have hready : ReaderReady ((s.setBrPos p).setBrBits { byte := c, cnt := 8#4 }) :=
        ⟨hr'.noMarker, by simp, hr'.pos, hr'.payload⟩
      obtain ⟨b', t, ht, hs, hrt⟩ := takeBit_stream hready (by simp)
      have hst : ((s.setBrPos p).setBrBits { byte := c, cnt := 8#4 }).streamBits = s.streamBits := by
        have hp : ((s.setBrPos p).setBrBits { byte := c, cnt := 8#4 }).payloadLeft = (s.setBrPos p).payloadLeft := rfl
        simp only [State.streamBits, setBrBits_brBits, hp, hrest, hc, hd]
        simp [bitsOf_zero]
      rw [hst, h] at hs
      obtain ⟨rfl, rfl⟩ := List.cons.inj hs
      refine ⟨t, ?_, rfl, hrt⟩
      unfold readBit
      rw [run_bind_ok (by rw [run_refill_empty hc, hf])]
      exact ht
  · obtain ⟨b', t, ht, hs, hrt⟩ := takeBit_stream hr hc
    rw [h] at hs
    obtain ⟨rfl, rfl⟩ := List.cons.inj hs
    refine ⟨t, ?_, rfl, hrt⟩
    unfold readBit
    rw [run_bind_ok (run_refill_pending hc info)]
    exact ht

theorem readBitsFrom_stream {s : State} (hr : ReaderReady s) (bits rest : List Bool) (h : s.streamBits = bits ++ rest)
    (info : Byte) (v : Nat) :
    ∃ t, (readBitsFrom info bits.length v).run s = .ok (bits.foldl (fun v b => 2 * v + b.toNat) v) t ∧
      t.streamBits = rest ∧ ReaderReady t := by
  induction bits generalizing s v with
  | nil => exact ⟨s, rfl, h, hr⟩
  | cons b bits ih =>
    obtain ⟨t, ht, hs, hrt⟩ := readBit_stream hr h info
    obtain ⟨u, hu, hsu, hru⟩ := ih hrt hs (2 * v + b.toNat)
    refine ⟨u, ?_, hsu, hru⟩
    simp only [List.length_cons, readBitsFrom, List.foldl_cons]
    rw [run_bind_ok ht, hu]

/-- `readBits(n)` takes the first n bits of the stream, the first of them the most significant (40_bit_reader R123). -/
theorem readBits_stream {s : State} (hr : ReaderReady s) (bits rest : List Bool) (h : s.streamBits = bits ++ rest)
    (info : Byte) :
    ∃ t, (readBits info bits.length).run s = .ok (bitsValue bits) t ∧ t.streamBits = rest ∧ ReaderReady t :=
  readBitsFrom_stream hr bits rest h info 0

/-! ## What a read that succeeds changes -/

/-- `t` is `s` but for BR_POS and BR_BITS: no read that succeeds meets a marker (40_bit_reader R126). -/
def ReadFrame (s t : State) : Prop := ∃ (pos : Word) (bits : BrBits), t = { s with brPos := pos, brBits := bits }

theorem ReadFrame.refl (s : State) : ReadFrame s s := ⟨s.brPos, s.brBits, rfl⟩

theorem ReadFrame.trans {s t u : State} (h : ReadFrame s t) (k : ReadFrame t u) : ReadFrame s u := by
  obtain ⟨p, b, rfl⟩ := h
  obtain ⟨p', b', rfl⟩ := k
  exact ⟨p', b', rfl⟩

/-- Where the pseudocode ends without a raise it changes BR_POS and BR_BITS only. -/
def Reads {α : Type} (m : Engine α) : Prop := ∀ s a t, m.run s = .ok a t → ReadFrame s t

theorem reads_pure {α : Type} (a : α) : Reads (pure a : Engine α) := by
  intro s b t h
  cases h
  exact ReadFrame.refl s

theorem reads_raise {α : Type} (e : Raise) : Reads (raise e : Engine α) := by
  intro s b t h
  cases h

theorem reads_bind {α β : Type} {m : Engine α} {f : α → Engine β} (hm : Reads m) (hf : ∀ a, Reads (f a)) :
    Reads (m >>= f) := by
  intro s b u h
  rw [run_bind] at h
  cases hr : m.run s with
  | ok a t => rw [hr] at h; exact (hm s a t hr).trans (hf a t b u h)
  | error e t => rw [hr] at h; cases h

theorem reads_fetchByte (info : Byte) : Reads (fetchByte info) := by
  intro s a t h
  rw [run_fetchByte] at h
  repeat' split at h
  all_goals first
    | (cases h; exact ⟨_, _, rfl⟩)
    | cases h

theorem reads_readBit (info : Byte) : Reads (readBit info) := by
  refine reads_bind (fun s a t h => ?_) fun _ s a t h => ?_
  · by_cases hc : s.brBits.cnt = 0#4
    · rw [run_refill_empty hc] at h
      cases hf : (fetchByte info).run s with
      | ok b v => rw [hf] at h; cases h; exact (reads_fetchByte info s b v hf).trans ⟨_, _, rfl⟩
      | error e v => rw [hf] at h; cases h
    · rw [run_refill_pending hc] at h; cases h; exact ReadFrame.refl s
  · rw [run_takeBit] at h; cases h; exact ⟨_, _, rfl⟩

theorem reads_readBitsFrom (info : Byte) (n v : Nat) : Reads (readBitsFrom info n v) := by
  induction n generalizing v with
  | zero => exact reads_pure v
  | succ n ih => exact reads_bind (reads_readBit info) fun b => ih _

theorem reads_huffLoop (t : HuffTable) (sub info : Byte) (n i code : Nat) : Reads (huffLoop t sub info n i code) := by
  induction n generalizing i code with
  | zero => exact reads_raise _
  | succ n ih =>
    refine reads_bind (reads_readBit info) fun b => ?_
    cases matchCode t i (2 * code + b.toNat) with
    | some v => exact reads_pure v
    | none => exact ih _ _

/-! ## Where the stream ends (40_bit_reader R121, R124) -/

/-- The stream of `t` is used up, and `r` is the error of its end: (1) no byte is left, (3) a 0xFF alone is left, (2) a
marker comes next, which is recorded. -/
def EndsAt {α : Type} (t : State) (info : Byte) (r : EStateM.Result Stop State α) : Prop :=
  t.streamBits = [] ∧ t.brBits.cnt = 0#4 ∧
  (t.payloadLeft = [] ∧ r = .error (.raised ⟨.unexpectedEndOfData, 1#8, info⟩) t ∨
   t.payloadLeft = [0xFF#8] ∧ r = .error (.raised ⟨.unexpectedEndOfData, 3#8, info⟩) t ∨
   ∃ m rest, t.payloadLeft = 0xFF#8 :: m :: rest ∧ m ≠ 0#8 ∧
     r = .error (.raised ⟨.unexpectedEndOfData, 2#8, info⟩) (t.setMarker m))

theorem EndsAt.bind {α β : Type} {m : Engine α} {f : α → Engine β} {s t : State} {info : Byte}
    (h : EndsAt t info (m.run s)) : EndsAt t info ((m >>= f).run s) := by
  obtain ⟨h1, h2, h3⟩ := h
  refine ⟨h1, h2, ?_⟩
  rcases h3 with ⟨h3, h4⟩ | ⟨h3, h4⟩ | ⟨b, rest, h3, h5, h4⟩
  · exact .inl ⟨h3, run_bind_error h4⟩
  · exact .inr (.inl ⟨h3, run_bind_error h4⟩)
  · exact .inr (.inr ⟨b, rest, h3, h5, run_bind_error h4⟩)

theorem run_fetchByte_endsAt {s : State} (hr : ReaderReady s) (hc : s.brBits.cnt = 0#4) (h : destuff s.payloadLeft = [])
    (info : Byte) : EndsAt s info ((fetchByte info).run s) := by
  obtain ⟨hm, -, hpos, hpay⟩ := hr
  refine ⟨by simp [State.streamBits, hc, h, bitsOf_zero], hc, ?_⟩
  rw [run_fetchByte, if_neg (by simp [hm])]
  by_cases h0 : s.inLen.toNat ≤ s.brPos.toNat
  · rw [if_pos h0]; exact .inl ⟨payloadLeft_done h0, rfl⟩
  have hp0 : s.payloadPos < s.params.ibufBytes := by simp only [State.payloadPos]; omega
  rw [if_neg h0, if_neg (not_not_intro hp0)]
  right
  rw [payloadLeft_next (by omega)] at h ⊢
  have n1 := setBrPos_toNat s 1 (by omega) (by omega)
  rw [show BitVec.ofNat 32 1 = 1#32 from rfl] at n1
  by_cases hff : s.ibufByte s.payloadPos = 0xFF#8
  · rw [if_neg (not_not_intro hff)]
    by_cases h1 : s.inLen.toNat ≤ s.brPos.toNat + 1
    · rw [if_pos h1, payloadLeft_done (by simp only [setBrPos_brPos, setBrPos_inLen, n1]; omega), hff]
      exact .inl ⟨rfl, rfl⟩
    have hp1 : s.payloadPos + 1 < s.params.ibufBytes := by simp only [State.payloadPos]; omega
    rw [if_neg h1, if_neg (not_not_intro hp1)]
    rw [← payloadLeft_next (by omega), payloadLeft_next_next (by omega), hff] at h ⊢
    rw [destuff, if_pos rfl] at h
    by_cases hz : s.ibufByte (s.payloadPos + 1) = 0x00#8
    · rw [if_pos hz] at h; cases h
    · rw [if_neg hz]; exact .inr ⟨_, _, rfl, hz, rfl⟩
  · cases hp : (s.setBrPos (s.brPos + 1#32)).payloadLeft with
    | nil => rw [hp] at h; simp [destuff, hff] at h
    | cons m r => rw [hp, destuff, if_neg hff] at h; cases h

theorem readBit_endsAt {s : State} (hr : ReaderReady s) (h : s.streamBits = []) (info : Byte) :
    EndsAt s info ((readBit info).run s) := by
  have hc : s.brBits.cnt = 0#4 := by
    have := congrArg List.length h
    simp only [State.streamBits, List.length_append, bitsOf_length, List.length_nil] at this
    exact BitVec.eq_of_toNat_eq (by simp; omega)
  have hd : destuff s.payloadLeft = [] := by
    cases hd : destuff s.payloadLeft with
    | nil => rfl
    | cons c r => simp [State.streamBits, hc, hd, bitsOf_zero, bitsOf_succ] at h
  have hf := run_fetchByte_endsAt hr hc hd info
  refine EndsAt.bind ⟨hf.1, hf.2.1, ?_⟩
  rw [run_refill_empty hc]
  rcases hf.2.2 with ⟨h3, h4⟩ | ⟨h3, h4⟩ | ⟨b, rest, h3, h5, h4⟩ <;> rw [h4]
  · exact .inl ⟨h3, rfl⟩
  · exact .inr (.inl ⟨h3, rfl⟩)
  · exact .inr (.inr ⟨b, rest, h3, h5, rfl⟩)

/-- `readBits(n)` on a stream of fewer bits takes them all and raises at its end (40_bit_reader R124). -/
theorem readBitsFrom_endsAt {s : State} (hr : ReaderReady s) (n : Nat) (h : s.streamBits.length < n) (info : Byte)
    (v : Nat) : ∃ t, ReadFrame s t ∧ EndsAt t info ((readBitsFrom info n v).run s) := by
  induction n generalizing s v with
  | zero => omega
  | succ n ih =>
    cases hs : s.streamBits with
    | nil => exact ⟨s, ReadFrame.refl s, (readBit_endsAt hr hs info).bind⟩
    | cons b rest =>
      obtain ⟨t, ht, hst, hrt⟩ := readBit_stream hr hs info
      rw [hs, List.length_cons] at h
      obtain ⟨u, hf, hu⟩ := ih hrt (by rw [hst]; omega) (2 * v + b.toNat)
      exact ⟨u, (reads_readBit info s b t ht).trans hf, by rw [readBitsFrom, run_bind_ok ht]; exact hu⟩

/-! ## Bits and their value -/

theorem bitsValue_append_bit (l : List Bool) (b : Bool) : bitsValue (l ++ [b]) = 2 * bitsValue l + b.toNat := by
  simp [bitsValue, List.foldl_append]

theorem bitsOf_append_bit (n v : Nat) (b : Bool) : bitsOf (n + 1) (2 * v + b.toNat) = bitsOf n v ++ [b] := by
  induction n with
  | zero => rw [bitsOf_succ]; cases b <;> simp [bitsOf_zero]
  | succ n ih =>
    rw [bitsOf_succ, ih, bitsOf_succ]
    have : (2 * v + b.toNat).testBit (n + 1) = v.testBit n := by
      rw [Nat.testBit_succ]; congr 1; cases b <;> simp <;> omega
    rw [this]
    rfl

/-- Writing the value of some bits gives the bits back. -/
theorem bitsOf_bitsValue (l : List Bool) : bitsOf l.length (bitsValue l) = l := by
  generalize hn : l.length = n
  induction n generalizing l with
  | zero => rw [List.length_eq_zero_iff.mp hn]; rfl
  | succ n ih =>
    rcases List.eq_nil_or_concat l with rfl | ⟨m, b, rfl⟩
    · cases hn
    · rw [List.concat_eq_append] at hn ⊢
      rw [bitsValue_append_bit, bitsOf_append_bit, ih m (by simpa using hn)]

theorem bitsValue_lt (l : List Bool) : bitsValue l < 2 ^ l.length := by
  generalize hn : l.length = n
  induction n generalizing l with
  | zero => rw [List.length_eq_zero_iff.mp hn]; decide
  | succ n ih =>
    rcases List.eq_nil_or_concat l with rfl | ⟨m, b, rfl⟩
    · cases hn
    · rw [List.concat_eq_append] at hn ⊢
      have := ih m (by simpa using hn)
      rw [bitsValue_append_bit, Nat.pow_succ]
      cases b <;> simp <;> omega

end Sys2Proof.Machine
end

