-- ==== Sys2Proof/Laws/Tables.lean ====
section
/-! SUPPORT. What the table builder and the Huffman decoder do (spec/41_tables.md): the zig-zag order is a permutation,
a stored quantization table has each element at its natural index, the codes of a sound table are prefix-free, symbol
decode reads the code of a list position off the bit stream, and the frame of the two loads. -/

namespace Sys2Proof.Machine

/-! ## Zig-zag order (30_encoding R103) -/

theorem zz_injective : ∀ i j : Fin 64, zz i = zz j → i = j := by decide +kernel

theorem foldl_set_other (l : List (Fin 64)) (e : Fin 64 → BitVec 16) (v : QuantTable) (n : Fin 64)
    (h : ∀ i ∈ l, zz i ≠ n) :
    (l.foldl (fun tmp i => tmp.set (zz i).val (e i)) v)[n.val] = v[n.val] := by
  induction l generalizing v with
  | nil => rfl
  | cons i l ih =>
    rw [List.foldl_cons, ih _ fun j hj => h j (List.mem_cons_of_mem _ hj)]
    exact Vector.getElem_set_ne _ _ fun he => h i List.mem_cons_self (Fin.ext he)

/-- Element `i` of a record stands at natural index ZZ[i] (41_tables R136). -/
theorem unzigzag_zz (e : Fin 64 → BitVec 16) (i : Fin 64) : (unzigzag e)[(zz i).val] = e i := by
  have hmem : i ∈ List.finRange 64 := List.mem_finRange i
  obtain ⟨pre, post, hl⟩ := List.append_of_mem hmem
  have hnd : (List.finRange 64).Nodup := by decide +kernel
  rw [hl] at hnd
  have hpost : ∀ j ∈ post, zz j ≠ zz i := by
    intro j hj he
    have : j = i := zz_injective j i he
    subst this
    exact (List.nodup_cons.mp (List.nodup_append.mp hnd).2.1).1 hj
  unfold unzigzag
  rw [hl, List.foldl_append, List.foldl_cons, foldl_set_other post e _ _ hpost]
  exact Vector.getElem_set_self _

/-! ## Canonical codes (41_tables R141 to R143) -/

theorem countAt_index (cnt : Vector Byte 16) (i : Nat) (h : i < 16) : countAt cnt (i + 1) = cnt[i].toNat := by
  unfold countAt
  rw [dif_pos ⟨by omega, by omega⟩]
  simp

theorem codesFit_iff (cnt : Vector Byte 16) :
    codesFit cnt = true ↔ ∀ i, i < 16 → codeBefore cnt (i + 1) + countAt cnt (i + 1) ≤ 2 ^ (i + 1) := by
  simp only [codesFit, List.all_eq_true, List.mem_finRange, true_imp_iff, decide_eq_true_eq]
  exact ⟨fun h i hi => h ⟨i, hi⟩, fun h i => h i.val i.isLt⟩

/-- The model's count of symbols is the sum of the counts (41_tables R139). -/
theorem symbolCount_eq (cnt : Vector Byte 16) : symbolCount cnt = countSum cnt := by
  simp only [symbolCount, symbolsBefore, countSum, countAt, List.finRange_succ, List.map_cons, List.map_map,
    List.sum_cons]
  simp [Nat.add_assoc] <;> rfl

/-- A sum with one term that counts. -/
theorem sum_one {l : List (Fin 16)} (hl : l.Nodup) {i : Fin 16} (hi : i ∈ l) (g : Fin 16 → Nat) :
    (l.map fun j => if j = i then g j else 0).sum = g i := by
  have hno : ∀ l : List (Fin 16), i ∉ l → (l.map fun j => if j = i then g j else 0).sum = 0 := by
    intro l
    induction l with
    | nil => exact fun _ => rfl
    | cons k l ih =>
      intro h
      rw [List.mem_cons, not_or] at h
      rw [List.map_cons, List.sum_cons, ih h.2, if_neg (Ne.symm h.1)]
  induction l with
  | nil => cases hi
  | cons k l ih =>
    rw [List.nodup_cons] at hl
    rw [List.map_cons, List.sum_cons]
    by_cases hk : k = i
    · subst hk; rw [if_pos rfl, hno l hl.1, Nat.add_zero]
    · rw [if_neg hk, ih hl.2 ((List.mem_cons.mp hi).resolve_left (Ne.symm hk)), Nat.zero_add]

/-- The closed form of FIRSTCODE doubles from length to length, as R141 computes it. -/
theorem codesShorter_succ (cnt : Vector Byte 16) (i j : Fin 16) (h : j.val = i.val + 1) :
    codesShorter cnt j = 2 * (codesShorter cnt i + cnt[i.val].toNat) := by
  have hs := sum_one (l := List.finRange 16) (List.nodup_finRange 16) (List.mem_finRange i) fun k => cnt[k.val].toNat
  unfold codesShorter
  rw [← hs]
  generalize List.finRange 16 = l
  induction l with
  | nil => rfl
  | cons k l ih =>
    simp only [List.map_cons, List.sum_cons, ih]
    rcases Nat.lt_trichotomy k.val i.val with hk | hk | hk
    · rw [if_pos (show k < j by omega), if_pos (show k < i by omega), if_neg (show k ≠ i by omega),
        show j.val - k.val = (i.val - k.val) + 1 by omega, Nat.pow_succ, ← Nat.mul_assoc]
      omega
    · rw [if_pos (show k < j by omega), if_neg (show ¬k < i by omega), if_pos (show k = i by omega),
        show j.val - k.val = 1 by omega]
      omega
    · rw [if_neg (show ¬k < j by omega), if_neg (show ¬k < i by omega), if_neg (show k ≠ i by omega)]
      omega

/-- The closed form of FIRSTCODE is the value of R141's loop. -/
theorem codesShorter_eq (cnt : Vector Byte 16) (i : Nat) (h : i < 16) :
    codesShorter cnt ⟨i, h⟩ = codeBefore cnt (i + 1) := by
  induction i with
  | zero =>
    simp [codesShorter, codeBefore, countAt] <;> rfl
  | succ i ih =>
    rw [codesShorter_succ cnt ⟨i, by omega⟩ _ rfl, ih (by omega), ← countAt_index cnt i (by omega)]
    rfl

/-- The model's test of the counts is R142's bound at every length. -/
theorem codesFit_eq (cnt : Vector Byte 16) : codesFit cnt = true ↔ CodesFit cnt := by
  rw [codesFit_iff]
  refine ⟨fun h i => ?_, fun h i hi => ?_⟩
  · rw [codesShorter_eq cnt i.val i.isLt, ← countAt_index]; exact h i.val i.isLt
  · rw [← codesShorter_eq cnt i hi, countAt_index cnt i hi]; exact h ⟨i, hi⟩
theorem symbolsBefore_mono (cnt : Vector Byte 16) {a b : Nat} (h : a ≤ b) :
    symbolsBefore cnt a ≤ symbolsBefore cnt b := by
  induction b with
  | zero => exact Nat.le_of_eq (by rw [Nat.le_zero.mp h])
  | succ b ih =>
    rcases Nat.lt_or_ge a (b + 1) with hlt | hge
    · exact Nat.le_trans (ih (by omega)) (Nat.le_add_right _ _)
    · exact Nat.le_of_eq (by rw [show a = b + 1 by omega])

/-- The codes of a length leave room for those of every longer length: the first code of length `len + m` is at least
the end of the codes of length `len`, shifted by `m` (41_tables R141). -/
theorem codeBefore_grows (cnt : Vector Byte 16) (len m : Nat) (hm : 1 ≤ m) :
    (codeBefore cnt len + countAt cnt len) * 2 ^ m ≤ codeBefore cnt (len + m) := by
  induction m with
  | zero => omega
  | succ m ih =>
    show _ ≤ 2 * (codeBefore cnt (len + m) + countAt cnt (len + m))
    rcases Nat.eq_zero_or_pos m with rfl | hpos
    · simp only [Nat.zero_add, Nat.pow_one, Nat.add_zero]; omega
    · have := ih hpos
      rw [Nat.pow_succ, ← Nat.mul_assoc]
      omega

/-- The arrays a sound table stores are those of the canonical construction (10_state R50). -/
theorem HuffSound.arrays {t : HuffTable} (h : HuffSound t) (i : Nat) (hi : i < 16) :
    t.firstCode[i].toNat = codeBefore t.count (i + 1) ∧ t.valPtr[i].toNat = symbolsBefore t.count (i + 1) := by
  obtain ⟨hfit, hsym, -, hb⟩ := h
  rw [← symbolCount_eq] at hsym
  have h1 := (codesFit_iff t.count).mp ((codesFit_eq t.count).mpr hfit) i hi
  have h2 : symbolsBefore t.count (i + 1) ≤ symbolCount t.count := symbolsBefore_mono _ (by omega)
  have h3 : (2 : Nat) ^ (i + 1) ≤ 2 ^ 16 := Nat.pow_le_pow_right (by omega) (by omega)
  have hf : t.firstCode = (buildTable t.count t.huffval).firstCode := congrArg HuffTable.firstCode hb
  have hv : t.valPtr = (buildTable t.count t.huffval).valPtr := congrArg HuffTable.valPtr hb
  refine ⟨?_, ?_⟩
  · rw [show t.firstCode[i] = (buildTable t.count t.huffval).firstCode[i] by simp only [hf]]
    simp only [buildTable, Vector.getElem_ofFn, BitVec.toNat_ofNat]
    omega
  · rw [show t.valPtr[i] = (buildTable t.count t.huffval).valPtr[i] by simp only [hv]]
    simp only [buildTable, Vector.getElem_ofFn, BitVec.toNat_ofNat]
    omega

/-- Which symbol a sound table gives a code value of one length (41_tables R145). -/
theorem matchCode_sound {t : HuffTable} (h : HuffSound t) {i : Nat} (hi : i < 16) (code : Nat) :
    matchCode t i code =
      if codeBefore t.count (i + 1) ≤ code ∧ code < codeBefore t.count (i + 1) + countAt t.count (i + 1) then
        some (symbolAt t (symbolsBefore t.count (i + 1) + (code - codeBefore t.count (i + 1))))
      else none := by
  obtain ⟨hf, hv⟩ := h.arrays i hi
  unfold matchCode
  rw [dif_pos hi, hf, hv, ← countAt_index t.count i hi]
  by_cases hc : codeBefore t.count (i + 1) ≤ code ∧ code < codeBefore t.count (i + 1) + countAt t.count (i + 1)
  · rw [if_pos ⟨by omega, hc.1, hc.2⟩, if_pos hc, Nat.add_sub_assoc hc.1]
  · rw [if_neg fun hx => hc ⟨hx.2.1, hx.2.2⟩, if_neg hc]

/-- A code of list position `k` is decoded to HUFFVAL[k] at its own length (41_tables R143). -/
theorem matchCode_own {t : HuffTable} (h : HuffSound t) {len k : Nat} (hk : HasCode t.count len k)
    {b : Byte} (hb : t.huffval[k]? = some b) :
    matchCode t (len - 1) (codeBefore t.count len + (k - symbolsBefore t.count len)) = some b := by
  obtain ⟨h1, h2, h3, h4⟩ := hk
  rw [matchCode_sound h (by omega), show len - 1 + 1 = len by omega, if_pos ⟨by omega, by omega⟩]
  rw [show symbolsBefore t.count len + (codeBefore t.count len +
      (k - symbolsBefore t.count len) - codeBefore t.count len) = k by
    omega]
  unfold symbolAt
  rw [hb]

/-- No proper beginning of a code is a code (41_tables R143). -/
theorem matchCode_shorter {t : HuffTable} (h : HuffSound t) {len k m : Nat} (hk : HasCode t.count len k)
    (hm : 1 ≤ m) (hlen : m < len) :
    matchCode t (len - m - 1) ((codeBefore t.count len + (k - symbolsBefore t.count len)) >>> m) = none := by
  obtain ⟨h1, h2, h3, h4⟩ := hk
  rw [matchCode_sound h (by omega), show len - m - 1 + 1 = len - m by omega, if_neg]
  intro hc
  have hg := codeBefore_grows t.count (len - m) m hm
  rw [show len - m + m = len by omega] at hg
  have : (codeBefore t.count (len - m) + countAt t.count (len - m)) ≤
      (codeBefore t.count len + (k - symbolsBefore t.count len)) >>> m := by
    rw [Nat.shiftRight_eq_div_pow, Nat.le_div_iff_mul_le (Nat.two_pow_pos m)]
    omega
  omega

/-! ## Symbol decode (41_tables R145) -/

theorem shiftRight_bit (c m : Nat) : 2 * (c >>> (m + 1)) + (c.testBit m).toNat = c >>> m := by
  rw [Nat.shiftRight_succ, Nat.testBit]
  rcases Nat.mod_two_eq_zero_or_one (c >>> m) with h | h <;> simp [Nat.one_and_eq_mod_two, h] <;> omega

theorem huffLoop_stream {t : HuffTable} (ht : HuffSound t) {len k : Nat} (hk : HasCode t.count len k) {b : Byte}
    (hb : t.huffval[k]? = some b) (sub info : Byte) (m : Nat) (hm : m < len) (rest : List Bool) {s : State}
    (hr : ReaderReady s)
    (h : s.streamBits = bitsOf (m + 1) (codeBefore t.count len + (k - symbolsBefore t.count len)) ++ rest) :
    ∃ u, (huffLoop t sub info (16 - (len - (m + 1))) (len - (m + 1))
        ((codeBefore t.count len + (k - symbolsBefore t.count len)) >>> (m + 1))).run s = .ok b u ∧
      u.streamBits = rest ∧ ReaderReady u := by
  have hle := hk.2.1
  induction m generalizing s with
  | zero =>
    rw [bitsOf_succ] at h
    obtain ⟨u, hu, hus, hur⟩ := readBit_stream hr h info
    refine ⟨u, ?_, by rw [hus]; rfl, hur⟩
    rw [show 16 - (len - (0 + 1)) = (16 - len) + 1 by omega, huffLoop, run_bind_ok hu, shiftRight_bit]
    simp only [Nat.shiftRight_zero, Nat.zero_add]
    rw [matchCode_own ht hk hb]
    rfl
  | succ m ih =>
    rw [bitsOf_succ] at h
    obtain ⟨u, hu, hus, hur⟩ := readBit_stream hr h info
    obtain ⟨w, hw, hws, hwr⟩ := ih (by omega) hur hus
    refine ⟨w, ?_, hws, hwr⟩
    rw [show 16 - (len - (m + 1 + 1)) = (16 - (len - (m + 1))) + 1 by omega, huffLoop, run_bind_ok hu, shiftRight_bit]
    rw [show len - (m + 1 + 1) = len - (m + 1) - 1 by omega, matchCode_shorter ht hk (by omega) hm]
    rw [show len - (m + 1) - 1 + 1 = len - (m + 1) by omega]
    exact hw

/-- Symbol decode reads the code of list position `k` off the stream and returns HUFFVAL[k] (41_tables R143, R145). -/
theorem huffSymbol_stream {t : HuffTable} (ht : HuffSound t) {len k : Nat} (hk : HasCode t.count len k) {b : Byte}
    (hb : t.huffval[k]? = some b) (sub info : Byte) (rest : List Bool) {s : State} (hr : ReaderReady s)
    (h : s.streamBits = codeBits t.count len k ++ rest) :
    ∃ u, (huffSymbol t sub info).run s = .ok b u ∧ u.streamBits = rest ∧ ReaderReady u := by
  have h1 := hk.1
  have hl := huffLoop_stream ht hk hb sub info (len - 1) (by omega) rest hr
    (by rw [show len - 1 + 1 = len by omega]; exact h)
  rw [show len - 1 + 1 = len by omega, Nat.sub_self] at hl
  have hz : (codeBefore t.count len + (k - symbolsBefore t.count len)) >>> len = 0 := by
    rw [Nat.shiftRight_eq_div_pow]
    apply Nat.div_eq_of_lt
    have := (codesFit_iff t.count).mp ((codesFit_eq t.count).mpr ht.1) (len - 1) (by have := hk.2.1; omega)
    rw [show len - 1 + 1 = len by omega] at this
    have := hk.2.2.1
    have := hk.2.2.2
    omega
  rw [hz] at hl
  exact hl

/-- Bits that no code begins match no entry of a sound table at their length (41_tables R145). -/
theorem matchCode_noCode {t : HuffTable} (ht : HuffSound t) {pre bits : List Bool} {b : Bool} (hl : pre.length < 16)
    (hno : NoCode t (pre ++ b :: bits)) : matchCode t pre.length (2 * bitsValue pre + b.toNat) = none := by
  rw [matchCode_sound ht hl]
  split
  case isFalse => rfl
  rename_i hc
  obtain ⟨k, hk⟩ : ∃ k, k = symbolsBefore t.count (pre.length + 1) +
    (2 * bitsValue pre + b.toNat - codeBefore t.count (pre.length + 1)) := ⟨_, rfl⟩
  have hcode : HasCode t.count (pre.length + 1) k := ⟨by omega, by omega, by omega, by omega⟩
  have hlt : k < t.huffval.length := by
    rw [ht.2.2.1, ← symbolCount_eq]
    have h1 : symbolsBefore t.count (pre.length + 1 + 1) ≤ symbolCount t.count := symbolsBefore_mono t.count (by omega)
    have h2 : symbolsBefore t.count (pre.length + 1 + 1) =
      symbolsBefore t.count (pre.length + 1) + countAt t.count (pre.length + 1) := rfl
    omega
  have hbits : codeBits t.count (pre.length + 1) k = pre ++ [b] := by
    have := bitsOf_bitsValue (pre ++ [b])
    rw [List.length_append, List.length_singleton] at this
    rw [codeBits, show codeBefore t.count (pre.length + 1) + (k - symbolsBefore t.count (pre.length + 1)) =
      bitsValue (pre ++ [b]) by rw [bitsValue_append_bit]; omega, this]
  refine absurd ?_ (hno _ _ ⟨_, _, hcode, List.getElem?_eq_getElem hlt, rfl⟩)
  rw [hbits]
  exact ⟨bits, (List.append_cons ..).symm⟩

/-- Symbol decode on 16 bits that begin with no code of a sound table takes the 16 bits and raises
NoMatchingHuffmanCode (41_tables R146); `pre` are those already read. -/
theorem huffLoop_noMatch {t : HuffTable} (ht : HuffSound t) (sub info : Byte) (n : Nat) (pre bits rest : List Bool)
    (hpre : pre.length + n = 16) (hbits : bits.length = n) {s : State} (hr : ReaderReady s)
    (h : s.streamBits = bits ++ rest) (hno : NoCode t (pre ++ bits)) :
    ∃ u, (huffLoop t sub info n pre.length (bitsValue pre)).run s =
        .error (.raised ⟨.noMatchingHuffmanCode, sub, info⟩) u ∧ u.streamBits = rest ∧ ReadFrame s u := by
  induction n generalizing pre bits s with
  | zero =>
    rw [List.length_eq_zero_iff.mp hbits] at h
    exact ⟨s, rfl, h, ReadFrame.refl s⟩
  | succ n ih =>
    cases bits with
    | nil => cases hbits
    | cons b bits =>
      obtain ⟨u, hu, hus, hur⟩ := readBit_stream hr h info
      obtain ⟨w, hw, hws, hwf⟩ := ih (pre ++ [b]) bits (by simp; omega) (by simpa using hbits) hur hus
        (by rw [← List.append_cons]; exact hno)
      refine ⟨w, ?_, hws, (reads_readBit info s b u hu).trans hwf⟩
      rw [huffLoop, run_bind_ok hu, matchCode_noCode ht (by omega) hno]
      rw [bitsValue_append_bit, List.length_append, List.length_singleton] at hw
      exact hw

/-- Symbol decode on a stream that ends before a code of a sound table takes every bit and raises at its end
(41_tables R146); `pre` are the bits already read. -/
theorem huffLoop_endsAt {t : HuffTable} (ht : HuffSound t) (sub info : Byte) (n : Nat) (pre : List Bool)
    (hpre : pre.length + n = 16) {s : State} (hr : ReaderReady s) (hlen : s.streamBits.length < n)
    (hno : NoCode t (pre ++ s.streamBits)) :
    ∃ u, ReadFrame s u ∧ EndsAt u info ((huffLoop t sub info n pre.length (bitsValue pre)).run s) := by
  induction n generalizing pre s with
  | zero => omega
  | succ n ih =>
    cases hs : s.streamBits with
    | nil => exact ⟨s, ReadFrame.refl s, (readBit_endsAt hr hs info).bind⟩
    | cons b rest =>
      rw [hs] at hlen hno
      obtain ⟨u, hu, hus, hur⟩ := readBit_stream hr hs info
      obtain ⟨w, hwf, hw⟩ := ih (pre ++ [b]) (by simp; omega) hur (by rw [hus]; simpa using hlen)
        (by rw [hus, ← List.append_cons]; exact hno)
      refine ⟨w, (reads_readBit info s b u hu).trans hwf, ?_⟩
      rw [huffLoop, run_bind_ok hu, matchCode_noCode ht (by omega) hno]
      rw [bitsValue_append_bit, List.length_append, List.length_singleton] at hw
      exact hw

/-! ## The loads -/

/-- What a load may change: QT, HT, TABLE_VALID, SRC_PTR (41_tables R136, R139). -/
def LoadFrame (s t : State) : Prop :=
  ∃ (q : Vector QuantTable 4) (d a : Vector HuffTable 4) (v : TableValid) (p : Word),
    t = { s with quant := q, dcTable := d, acTable := a, tableValid := v, srcPtr := p }

theorem loadFrame_composes : Composes LoadFrame := by
  refine ⟨fun s => ⟨s.quant, s.dcTable, s.acTable, s.tableValid, s.srcPtr, rfl⟩, ?_⟩
  rintro s t u ⟨q, d, a, v, p, rfl⟩ ⟨q', d', a', v', p', rfl⟩
  exact ⟨q', d', a', v', p', rfl⟩

theorem keeps_engineRead {R : State → State → Prop} (hR : Composes R) (a : Nat) : Keeps R (engineRead a) := by
  intro s
  rw [run_engineRead]
  split <;> exact hR.refl s

theorem keeps_engineReadBytes {R : State → State → Prop} (hR : Composes R) (a n : Nat) : Keeps R
    (engineReadBytes a n) := by
  intro s
  rw [run_engineReadBytes]
  split <;> exact hR.refl s

/-- What one record of a quantization payload does, path by path (41_tables R136). -/
theorem loadQuantRecord_cases (s : State) :
    (∃ f, loadQuantRecord.run s = .error (.faulted f) s) ∨
    (∃ sub, loadQuantRecord.run s = .error (.raised ⟨.invalidTableDefinition, sub, s.ibufByte s.srcPtr.toNat⟩) s) ∨
    (∃ q t p, loadQuantRecord.run s = .ok ⟨⟩ ((s.storeQuant t q).setSrcPtr (BitVec.ofNat 32 p)) ∧
      s.srcPtr.toNat < p ∧ p ≤ s.srcEnd.toNat) := by
  unfold loadQuantRecord
  simp only [run_get_bind]
  rw [run_bind, run_engineRead]
  by_cases h0 : s.srcPtr.toNat < s.params.ibufBytes
  · rw [if_pos h0]
    simp only []
    by_cases h1 : headerHigh (s.ibufByte s.srcPtr.toNat) ≤ 1
    · rw [dif_pos h1]
      by_cases h2 : headerLow (s.ibufByte s.srcPtr.toNat) ≤ 3
      · rw [dif_pos h2]
        by_cases h3 : s.srcEnd.toNat < s.srcPtr.toNat + (1 + 64 * (headerHigh (s.ibufByte s.srcPtr.toNat) + 1))
        · rw [if_pos h3]; exact .inr (.inl ⟨_, rfl⟩)
        · rw [if_neg h3, run_bind, run_engineReadBytes]
          split
          · rename_i heq
            split at heq <;> cases heq
            exact .inr (.inr ⟨_, _, _, rfl, by omega, by omega⟩)
          · rename_i heq
            split at heq <;> cases heq
            exact .inl ⟨_, rfl⟩
      · rw [dif_neg h2]; exact .inr (.inl ⟨_, rfl⟩)
    · rw [dif_neg h1]; exact .inr (.inl ⟨_, rfl⟩)
  · rw [if_neg h0]; exact .inl ⟨_, rfl⟩

/-- What one record of a Huffman payload does, path by path (41_tables R139). -/
theorem loadHuffRecord_cases (s : State) :
    (∃ f, loadHuffRecord.run s = .error (.faulted f) s) ∨
    (∃ sub, loadHuffRecord.run s = .error (.raised ⟨.invalidTableDefinition, sub, s.ibufByte s.srcPtr.toNat⟩) s) ∨
    (∃ c t cnt symbols p,
      loadHuffRecord.run s = .ok ⟨⟩ ((s.storeHuff c t (buildTable cnt symbols)).setSrcPtr (BitVec.ofNat 32 p)) ∧
      codesFit cnt = true ∧ symbolCount cnt ≤ 256 ∧ symbols.length = symbolCount cnt ∧
      s.srcPtr.toNat < p ∧ p ≤ s.srcEnd.toNat) := by
  unfold loadHuffRecord
  simp only [run_get_bind]
  rw [run_bind, run_engineRead]
  by_cases h0 : s.srcPtr.toNat < s.params.ibufBytes
  · rw [if_pos h0]
    simp only []
    by_cases h1 : headerHigh (s.ibufByte s.srcPtr.toNat) ≤ 1
    · rw [if_pos h1]
      by_cases h2 : headerLow (s.ibufByte s.srcPtr.toNat) ≤ 3
      · rw [dif_pos h2]
        by_cases h3 : s.srcEnd.toNat < s.srcPtr.toNat + 17
        · rw [if_pos h3]; exact .inr (.inl ⟨_, rfl⟩)
        · rw [if_neg h3, run_bind, run_engineReadBytes]
          split
          · rename_i cnt u heq
            split at heq
            case isFalse => cases heq
            obtain ⟨hcnt, rfl⟩ := EStateM.Result.ok.inj heq
            simp only [run_ite]
            by_cases h4 : 256 < symbolCount cnt
            · rw [if_pos h4]; exact .inr (.inl ⟨_, rfl⟩)
            rw [if_neg h4]
            by_cases h5 : s.srcEnd.toNat < s.srcPtr.toNat + 17 + symbolCount cnt
            · rw [if_pos h5]; exact .inr (.inl ⟨_, rfl⟩)
            rw [if_neg h5]
            by_cases h6 : (!codesFit cnt) = true
            · rw [if_pos h6]; exact .inr (.inl ⟨_, rfl⟩)
            rw [if_neg h6, run_bind, run_engineReadBytes]
            split
            · rename_i symbols u heq
              split at heq
              case isFalse => cases heq
              obtain ⟨hsym, rfl⟩ := EStateM.Result.ok.inj heq
              exact .inr (.inr ⟨_, _, _, _, _, rfl, by simpa using h6, by omega, by simp, by omega, by omega⟩)
            · rename_i heq
              split at heq <;> cases heq
              exact .inl ⟨_, rfl⟩
          · rename_i heq
            split at heq <;> cases heq
            exact .inl ⟨_, rfl⟩
      · rw [dif_neg h2]; exact .inr (.inl ⟨_, rfl⟩)
    · rw [if_neg h1]; exact .inr (.inl ⟨_, rfl⟩)
  · rw [if_neg h0]; exact .inl ⟨_, rfl⟩

theorem loadFrame_storeQuant (s : State) (t : Fin 4) (q : QuantTable) (p : Word) :
    LoadFrame s ((s.storeQuant t q).setSrcPtr p) := ⟨_, _, _, _, _, rfl⟩

theorem loadFrame_storeHuff (s : State) (c : HuffClass) (t : Fin 4) (h : HuffTable) (p : Word) :
    LoadFrame s ((s.storeHuff c t h).setSrcPtr p) := by
  cases c <;> exact ⟨_, _, _, _, _, rfl⟩

theorem keeps_loadQuantRecord : Keeps LoadFrame loadQuantRecord := by
  intro s
  rcases loadQuantRecord_cases s with ⟨f, h⟩ | ⟨sub, h⟩ | ⟨q, t, p, h, -⟩ <;> rw [h]
  · exact loadFrame_composes.refl s
  · exact loadFrame_composes.refl s
  · exact loadFrame_storeQuant ..

theorem keeps_loadHuffRecord : Keeps LoadFrame loadHuffRecord := by
  intro s
  rcases loadHuffRecord_cases s with ⟨f, h⟩ | ⟨sub, h⟩ | ⟨c, t, cnt, symbols, p, h, -⟩ <;> rw [h]
  · exact loadFrame_composes.refl s
  · exact loadFrame_composes.refl s
  · exact loadFrame_storeHuff ..

theorem keeps_loadRecords {R : State → State → Prop} (hR : Composes R) {record : Engine Unit} (h : Keeps R record)
    (n : Nat) :
    Keeps R (loadRecords record n) := by
  induction n with
  | zero => exact keeps_pure hR ()
  | succ n ih =>
    refine keeps_get_bind fun s => ?_
    exact keeps_ite _ (keeps_bind hR h fun _ => ih) (keeps_pure hR ()) s

theorem keeps_loadChecks {R : State → State → Prop} (hR : Composes R) (op : Opcode) : Keeps R (loadChecks op) := by
  refine keeps_bind hR (fun s => ?_) fun _ => keeps_get_bind fun s => keeps_failIf hR _ _ s
  rw [run_requireNoScan]
  split <;> exact hR.refl s

/-- LOAD_DQT's pseudocode writes QT, TABLE_VALID and SRC_PTR only (41_tables R136). -/
theorem keeps_loadDqtCommand : Keeps LoadFrame loadDqtCommand :=
  keeps_bind loadFrame_composes (keeps_loadChecks loadFrame_composes _) fun _ =>
    keeps_get_bind fun s => keeps_loadRecords loadFrame_composes keeps_loadQuantRecord _ s

/-- LOAD_DHT's pseudocode writes HT, TABLE_VALID and SRC_PTR only (41_tables R139). -/
theorem keeps_loadDhtCommand : Keeps LoadFrame loadDhtCommand :=
  keeps_bind loadFrame_composes (keeps_loadChecks loadFrame_composes _) fun _ =>
    keeps_get_bind fun s => keeps_loadRecords loadFrame_composes keeps_loadHuffRecord _ s

end Sys2Proof.Machine
end

