-- ==== Sys2Proof/Laws/Block.lean ====
section
/-! SUPPORT. What the block decoder and DECODE_MCU change (spec/43_block_decoder.md R188, R191,
spec/42_control.md R170), and the arithmetic of magnitude extension. -/

namespace Sys2Proof.Machine

/-! ## Frame -/

theorem blockFrame_composes : Composes BlockFrame := by
  refine ⟨fun s => ⟨s.brPos, s.brBits, s.status.markerSeen, s.status.markerCode, s.pred, rfl⟩, ?_⟩
  rintro s t u ⟨p, b, e, c, r, rfl⟩ ⟨p', b', e', c', r', rfl⟩
  exact ⟨p', b', e', c', r', rfl⟩

theorem ReaderFrame.block {s t : State} (h : ReaderFrame s t) : BlockFrame s t := by
  obtain ⟨p, b, e, c, rfl⟩ := h
  exact ⟨p, b, e, c, s.pred, rfl⟩

theorem blockFrame_setPred (s : State) (i : Fin 3) (v : Word) : BlockFrame s (s.setPred i v) :=
  ⟨s.brPos, s.brBits, s.status.markerSeen, s.status.markerCode, _, rfl⟩

theorem keeps_tableId {R : State → State → Prop} (hR : Composes R) (sel : BitVec 4) : Keeps R (tableId sel) := by
  intro s
  rw [run_tableId]
  split <;> exact hR.refl s

/-- What every bit read and every write of a predictor keeps, the DC part keeps. -/
theorem keeps_decodeDc_of {R : State → State → Prop} (hR : Composes R) (hb : ∀ info, Keeps R (readBit info))
    (hp : ∀ s i v, R s (s.setPred i v)) (i : Fin 3) (dc : HuffTable) (q : QuantTable) : Keeps R (decodeDc i dc q) := by
  refine keeps_bind hR (keeps_huffLoop_of hR hb dc _ _ _ _ _) fun t => ?_
  refine keeps_ite _ (keeps_raise hR _) ?_
  refine keeps_bind hR (keeps_readBitsFrom_of hR hb _ _ _) fun v => ?_
  exact keeps_get_bind fun s => hp s i _

/-- What every bit read keeps, the AC part keeps. -/
theorem keeps_decodeAcFrom_of {R : State → State → Prop} (hR : Composes R) (hb : ∀ info, Keeps R (readBit info))
    (i : Fin 3) (ac : HuffTable) (q : QuantTable) (n k : Nat) (f : Coefs) : Keeps R (decodeAcFrom i ac q n k f) := by
  induction n generalizing k f with
  | zero => exact keeps_pure hR f
  | succ n ih =>
    refine keeps_ite _ ?_ (keeps_pure hR f)
    refine keeps_bind hR (keeps_huffLoop_of hR hb ac _ _ _ _ _) fun rs => ?_
    refine keeps_ite _ (keeps_ite _ (keeps_pure hR f) (keeps_ite _ (keeps_ite _ (keeps_raise hR _) (ih _ _))
      (keeps_raise hR _))) ?_
    split
    · exact keeps_bind hR (keeps_readBitsFrom_of hR hb _ _ _) fun v => ih _ _
    · exact keeps_raise hR _

/-- What every bit read and every write of a predictor keeps, `decode_block(i)` keeps. -/
theorem keeps_decodeBlock_of {R : State → State → Prop} (hR : Composes R) (hb : ∀ info, Keeps R (readBit info))
    (hp : ∀ s i v, R s (s.setPred i v)) (i : Fin 3) : Keeps R (decodeBlock i) := by
  refine keeps_get_bind fun s => ?_
  exact keeps_bind hR (keeps_tableId hR _) (fun tq => keeps_bind hR (keeps_tableId hR _) fun td =>
    keeps_bind hR (keeps_tableId hR _) fun ta => keeps_bind hR (keeps_decodeDc_of hR hb hp _ _ _) fun f0 =>
      keeps_decodeAcFrom_of hR hb _ _ _ _ _ _) s

/-- What every bit read and every write of a predictor keeps, decoding blocks keeps. -/
theorem keeps_decodeBlocks_of {R : State → State → Prop} (hR : Composes R) (hb : ∀ info, Keeps R (readBit info))
    (hp : ∀ s i v, R s (s.setPred i v)) (l : List (Fin 3)) : Keeps R (decodeBlocks l) := by
  induction l with
  | nil => exact keeps_pure hR []
  | cons i l ih =>
    exact keeps_bind hR (keeps_decodeBlock_of hR hb hp i) fun f => keeps_bind hR ih fun fs => keeps_pure hR _

theorem blockFrame_readBit (info : Byte) : Keeps BlockFrame (readBit info) :=
  (keeps_readBit info).mono fun _ _ => ReaderFrame.block

theorem keeps_decodeBlock (i : Fin 3) : Keeps BlockFrame (decodeBlock i) :=
  keeps_decodeBlock_of blockFrame_composes blockFrame_readBit blockFrame_setPred i

/-- Decoding blocks writes the bit reader's state and the predictors only (43_block_decoder R188). -/
theorem keeps_decodeBlocks (l : List (Fin 3)) : Keeps BlockFrame (decodeBlocks l) :=
  keeps_decodeBlocks_of blockFrame_composes blockFrame_readBit blockFrame_setPred l

/-! ## DECODE_MCU -/

/-- One run of DECODE_MCU's pseudocode after its checks (42_control R170), path by path: the blocks fail and nothing
but the block decoder's state moved, or the pixels are stored and MCU_INDEX advances, or the model faults. -/
theorem decodeMcuBody_cases (s : State) :
    (∃ f t, decodeMcuBody.run s = .error (.faulted f) t) ∨
    (∃ e t, (decodeBlocks s.frameComps).run s = .error (.raised e) t ∧ decodeMcuBody.run s = .error (.raised e) t ∧
      BlockFrame s t) ∨
    (∃ coefs t, (decodeBlocks s.frameComps).run s = .ok coefs t ∧ BlockFrame s t ∧
      (∀ c ∈ s.currentMcuCells coefs, c.1 < s.params.obufBytes) ∧
      decodeMcuBody.run s = .ok () (t.setObuf (s.obuf.writeAll (s.currentMcuCells coefs))).advanceMcu) := by
  unfold decodeMcuBody
  rw [run_get_bind, run_bind]
  have hk := keeps_decodeBlocks s.frameComps s
  cases hb : (decodeBlocks s.frameComps).run s with
  | error e t =>
    rw [hb, endState_error] at hk
    cases e with
    | raised e => exact .inr (.inl ⟨e, t, rfl, rfl, hk⟩)
    | faulted f => exact .inl ⟨f, t, rfl⟩
  | ok coefs t =>
    rw [hb, endState_ok] at hk
    have hparams : t.params = s.params := by obtain ⟨p, b, e, c, r, rfl⟩ := hk; rfl
    have hobuf : t.obuf = s.obuf := by obtain ⟨p, b, e, c, r, rfl⟩ := hk; rfl
    simp only []
    rw [run_bind]
    rcases run_engineStore_cases (s.currentMcuCells coefs) t with ⟨hin, hs⟩ | ⟨f, hf⟩
    · rw [hs, hobuf]
      rw [hparams] at hin
      exact .inr (.inr ⟨coefs, t, rfl, hk, hin, rfl⟩)
    · rw [hf]; exact .inl ⟨f, t, rfl⟩

/-- `advanceMcu` writes MCU_INDEX, SCAN_ACTIVE, SCAN_DONE, MARKER_SEEN and MARKER_CODE only (42_control R170). -/
theorem advanceMcu_frame (s : State) :
    ∃ (idx : Word) (act dn seen : Bool) (code : Byte),
      s.advanceMcu = { s with mcuIndex := idx, status := { s.status with scanActive := act, scanDone := dn
                                                                         markerSeen := seen, markerCode := code } } := by
  unfold State.advanceMcu
  split
  · unfold State.probeMarker
    split
    · exact ⟨_, false, true, true, _, rfl⟩
    · exact ⟨_, false, true, s.status.markerSeen, s.status.markerCode, rfl⟩
  · exact ⟨_, s.status.scanActive, s.status.scanDone, s.status.markerSeen, s.status.markerCode, rfl⟩

/-- What DECODE_MCU and DECODE_SCAN may change (42_control R170, R172): the bit reader's state, the predictors, OBUF,
MCU_INDEX, SCAN_ACTIVE, SCAN_DONE, MARKER_SEEN, MARKER_CODE. -/
def DecodeFrame (s t : State) : Prop :=
  ∃ (pos : Word) (bits : BrBits) (pred : Vector Word 3) (obuf : Memory) (idx : Word) (act dn seen : Bool) (code : Byte),
    t = { s with brPos := pos, brBits := bits, pred := pred, obuf := obuf, mcuIndex := idx
                 status := { s.status with scanActive := act, scanDone := dn, markerSeen := seen, markerCode := code } }

theorem decodeFrame_composes : Composes DecodeFrame := by
  refine ⟨fun s => ⟨s.brPos, s.brBits, s.pred, s.obuf, s.mcuIndex, s.status.scanActive, s.status.scanDone,
    s.status.markerSeen, s.status.markerCode, rfl⟩, ?_⟩
  rintro s t u ⟨p, b, r, o, i, a, d, e, c, rfl⟩ ⟨p', b', r', o', i', a', d', e', c', rfl⟩
  exact ⟨p', b', r', o', i', a', d', e', c', rfl⟩

theorem BlockFrame.decode {s t : State} (h : BlockFrame s t) : DecodeFrame s t := by
  obtain ⟨p, b, e, c, r, rfl⟩ := h
  exact ⟨p, b, r, s.obuf, s.mcuIndex, s.status.scanActive, s.status.scanDone, e, c, rfl⟩

theorem decodeFrame_setObuf (s : State) (m : Memory) : DecodeFrame s (s.setObuf m) :=
  ⟨s.brPos, s.brBits, s.pred, m, s.mcuIndex, s.status.scanActive, s.status.scanDone, s.status.markerSeen,
    s.status.markerCode, rfl⟩

theorem decodeFrame_advanceMcu (s : State) : DecodeFrame s s.advanceMcu := by
  obtain ⟨i, a, d, e, c, h⟩ := advanceMcu_frame s
  exact ⟨s.brPos, s.brBits, s.pred, s.obuf, i, a, d, e, c, h⟩

theorem keeps_engineStore (cells : List Host.Cell) : Keeps DecodeFrame (engineStore cells) := by
  intro s
  rcases run_engineStore_cases cells s with ⟨-, h⟩ | ⟨f, h⟩ <;> rw [h]
  · exact decodeFrame_setObuf s _
  · exact decodeFrame_composes.refl s

theorem keeps_decodeMcuBody : Keeps DecodeFrame decodeMcuBody := by
  have hR := decodeFrame_composes
  refine keeps_get_bind fun s => ?_
  exact keeps_bind hR ((keeps_decodeBlocks _).mono fun _ _ => BlockFrame.decode) (fun coefs =>
    keeps_bind hR (keeps_engineStore _) fun _ => keeps_modify _ fun t => decodeFrame_advanceMcu t) s

theorem keeps_decodeRemaining (n : Nat) : Keeps DecodeFrame (decodeRemaining n) := by
  have hR := decodeFrame_composes
  induction n with
  | zero => exact keeps_pure hR ()
  | succ n ih =>
    refine keeps_get_bind fun s => ?_
    exact keeps_ite _ (keeps_bind hR keeps_decodeMcuBody fun _ => ih) (keeps_pure hR ()) s

theorem keeps_requireScan {R : State → State → Prop} (hR : Composes R) (op : Opcode) : Keeps R (requireScan op) := by
  intro s
  rw [run_requireScan]
  split <;> exact hR.refl s

theorem keeps_decodeMcuCommand : Keeps DecodeFrame decodeMcuCommand :=
  keeps_bind decodeFrame_composes (keeps_requireScan decodeFrame_composes _) fun _ => keeps_decodeMcuBody

theorem keeps_decodeScanCommand : Keeps DecodeFrame decodeScanCommand :=
  keeps_bind decodeFrame_composes (keeps_requireScan decodeFrame_composes _) fun _ =>
    keeps_get_bind fun s => keeps_decodeRemaining _ s

/-! ## Magnitudes (43_block_decoder R183) -/

theorem extend_zero (v : Nat) : extend v 0 = 0 := rfl

theorem extend_low {v t : Nat} (ht : t ≠ 0) (h : v < 2 ^ (t - 1)) : extend v t = (v : Int) - (2 ^ t - 1) := by
  simp [extend, ht, h]

theorem extend_high {v t : Nat} (ht : t ≠ 0) (h : ¬v < 2 ^ (t - 1)) : extend v t = (v : Int) := by
  simp [extend, ht, h]

end Sys2Proof.Machine
end

