-- ==== Sys2Proof/Laws/Coded.lean ====
section
/-! SUPPORT. The block decoder on coded data: on a stream that begins with a coded block or MCU (Safety.lean, after
spec/30_encoding.md R100, R101), it consumes exactly those bits and returns the coefficients they code. -/

namespace Sys2Proof.Machine

/-! ## Symbols -/

/-- Symbol decode on a stream that begins with a code of the table. -/
theorem huffSymbol_code {t : HuffTable} (ht : HuffSound t) {v : Byte} {code rest : List Bool} (hc : IsCode t v code)
    (sub info : Byte) {s : State} (hr : ReaderReady s) (h : s.streamBits = code ++ rest) :
    ∃ u, (huffSymbol t sub info).run s = .ok v u ∧ u.streamBits = rest ∧ ReaderReady u ∧ ReadFrame s u := by
  obtain ⟨len, k, hk, hv, rfl⟩ := hc
  obtain ⟨u, hu, hus, hur⟩ := huffSymbol_stream ht hk hv sub info rest hr h
  exact ⟨u, hu, hus, hur, reads_huffLoop t sub info 16 0 0 s v u hu⟩

/-- `readBits(n)` on a stream that begins with n bits. -/
theorem readBits_bits {bits rest : List Bool} {n : Nat} (hn : bits.length = n) (info : Byte) {s : State}
    (hr : ReaderReady s) (h : s.streamBits = bits ++ rest) :
    ∃ u, (readBits info n).run s = .ok (bitsValue bits) u ∧ u.streamBits = rest ∧ ReaderReady u ∧ ReadFrame s u := by
  subst hn
  obtain ⟨u, hu, hus, hur⟩ := readBits_stream hr bits rest h info
  exact ⟨u, hu, hus, hur, reads_readBitsFrom info _ 0 s _ u hu⟩

/-! ## The AC part -/

theorem symbol_run_size {r sz : Nat} (hr : r ≤ 15) (hs : sz ≤ 15) :
    (BitVec.ofNat 8 (16 * r + sz)).toNat / 16 = r ∧ (BitVec.ofNat 8 (16 * r + sz)).toNat % 16 = sz := by
  simp only [BitVec.toNat_ofNat]
  omega

/-- The loop of R185 on a coded AC part (43_block_decoder R185 to R190). -/
theorem decodeAcFrom_coded {ac : HuffTable} (hac : HuffSound ac) {q : QuantTable} (i : Fin 3) {k : Nat} {f g : Coefs}
    {bits : List Bool} (hcoded : AcCoded ac q k f bits g) (n : Nat) (hn : 64 ≤ n + k) (rest : List Bool) {s : State}
    (hr : ReaderReady s) (h : s.streamBits = bits ++ rest) :
    ∃ u, (decodeAcFrom i ac q n k f).run s = .ok g u ∧ u.streamBits = rest ∧ ReaderReady u ∧ ReadFrame s u := by
  induction hcoded generalizing n s with
  | passed f =>
    refine ⟨s, ?_, h, hr, ReadFrame.refl s⟩
    cases n with
    | zero => rfl
    | succ n => rw [decodeAcFrom, if_neg (by omega)]; rfl
  | @eob k f code hk hc =>
    obtain ⟨n, rfl⟩ : ∃ m, n = m + 1 := ⟨n - 1, by omega⟩
    obtain ⟨u, hu, hus, hur, huf⟩ := huffSymbol_code hac hc 3#8 (compInfo i) hr h
    refine ⟨u, ?_, hus, hur, huf⟩
    rw [decodeAcFrom, if_pos hk, run_bind_ok hu]
    rfl
  | @zrl k f g code more hk hc _ ih =>
    obtain ⟨n, rfl⟩ : ∃ m, n = m + 1 := ⟨n - 1, by omega⟩
    rw [List.append_assoc] at h
    obtain ⟨u, hu, hus, hur, huf⟩ := huffSymbol_code hac hc 3#8 (compInfo i) hr h
    obtain ⟨w, hw, hws, hwr, hwf⟩ := ih n (by omega) hur hus
    refine ⟨w, ?_, hws, hwr, huf.trans hwf⟩
    rw [decodeAcFrom, if_pos (by omega), run_bind_ok hu]
    have hz : (0xF0#8).toNat % 16 = 0 := by decide
    have h15 : (0xF0#8).toNat / 16 = 15 := by decide
    simp only [hz, h15, if_true, if_neg (show ¬(15 : Nat) = 0 by omega), if_neg (show ¬64 < k + 16 by omega)]
    exact hw
  | @coefficient k r sz f g code mag more hk hr15 hs hc hm _ ih =>
    obtain ⟨n, rfl⟩ : ∃ m, n = m + 1 := ⟨n - 1, by omega⟩
    rw [List.append_assoc, List.append_assoc] at h
    obtain ⟨u, hu, hus, hur, huf⟩ := huffSymbol_code hac hc 3#8 (compInfo i) hr h
    obtain ⟨v, hv, hvs, hvr, hvf⟩ := readBits_bits hm (compInfo i) hur hus
    obtain ⟨w, hw, hws, hwr, hwf⟩ := ih n (by omega) hvr hvs
    refine ⟨w, ?_, hws, hwr, (huf.trans hvf).trans hwf⟩
    obtain ⟨h1, h2⟩ := symbol_run_size hr15 hs.2
    rw [decodeAcFrom, if_pos (by omega), run_bind_ok hu]
    simp only [h1, h2, if_neg (show ¬sz = 0 by omega), dif_pos hk]
    rw [run_bind_ok hv]
    exact hw

/-! ## The DC part -/

/-- The predictor's new value is a sum modulo 2^32 (43_block_decoder R182). -/
theorem nextPred_eq (p : Word) (d : Int) : nextPred p d = p + BitVec.ofInt 32 d := by
  rw [nextPred, BitVec.ofInt_add, BitVec.ofInt_toInt]

/-- The DC part of a coded block (43_block_decoder R181). -/
theorem decodeDc_coded {dc : HuffTable} (hdc : HuffSound dc) (q : QuantTable) (i : Fin 3) {t : Nat}
    {code mag rest : List Bool} (ht : t ≤ 16) (hc : IsCode dc (BitVec.ofNat 8 t) code) (hm : mag.length = t) {s : State}
    (hr : ReaderReady s) (h : s.streamBits = code ++ mag ++ rest) :
    ∃ u, (decodeDc i dc q).run s =
        .ok (dequant (nextPred s.pred[i.val] (extend (bitsValue mag) t)).toInt q[0])
          (u.setPred i (nextPred s.pred[i.val] (extend (bitsValue mag) t))) ∧
      u.streamBits = rest ∧ ReaderReady u ∧ ReadFrame s u := by
  rw [List.append_assoc] at h
  obtain ⟨u, hu, hus, hur, huf⟩ := huffSymbol_code hdc hc 2#8 (compInfo i) hr h
  obtain ⟨v, hv, hvs, hvr, hvf⟩ := readBits_bits hm (compInfo i) hur hus
  have hn : (BitVec.ofNat 8 t).toNat = t := by simp only [BitVec.toNat_ofNat]; omega
  have hp : v.pred = s.pred := by obtain ⟨p, b, rfl⟩ := huf.trans hvf; rfl
  refine ⟨v, ?_, hvs, hvr, huf.trans hvf⟩
  unfold decodeDc
  rw [run_bind_ok hu, hn, if_neg (by omega), run_bind_ok hv, run_get_bind, run_set_bind, run_pure, hp]

/-! ## Blocks -/

/-- What a block decode needs of the tables: those of `s` that are defined are sound, and component `i` selects defined
ones. -/
structure BlockReady (s : State) (i : Fin 3) (tq td ta : Fin 4) : Prop where
  quantId : s.comp[i.val].tq.toNat = tq.val
  dcId : s.comp[i.val].td.toNat = td.val
  acId : s.comp[i.val].ta.toNat = ta.val
  dc : HuffSound s.dcTable[td.val]
  ac : HuffSound s.acTable[ta.val]

theorem run_tableId_of {sel : BitVec 4} {t : Fin 4} (h : sel.toNat = t.val) (s : State) : (tableId sel).run s = .ok t s := by
  have hlt : sel.toNat < 4 := by omega
  rw [run_tableId, dif_pos hlt]
  congr 1
  exact Fin.ext h

/-- `decode_block(i)` on a coded block (43_block_decoder R188). -/
theorem decodeBlock_coded {s : State} {i : Fin 3} {tq td ta : Fin 4} (hb : BlockReady s i tq td ta) {bits rest : List Bool}
    {f : Coefs} {w : Word}
    (hcoded : BlockCoded s.dcTable[td.val] s.acTable[ta.val] s.quant[tq.val] s.pred[i.val] bits f w) (hr : ReaderReady s)
    (h : s.streamBits = bits ++ rest) :
    ∃ u, (decodeBlock i).run s = .ok f u ∧ u.streamBits = rest ∧ ReaderReady u ∧ ReadFrame (s.setPred i w) u := by
  obtain ⟨t, code, mag, acBits, ht, hc, hm, rfl, hac, rfl⟩ := hcoded
  rw [← nextPred_eq] at hac ⊢
  rw [List.append_assoc] at h
  obtain ⟨v, hv, hvs, hvr, hvf⟩ := decodeDc_coded hb.dc s.quant[tq.val] i ht hc hm hr h
  have hvr' : ReaderReady (v.setPred i (nextPred s.pred[i.val] (extend (bitsValue mag) t))) :=
    ⟨hvr.noMarker, hvr.cnt, hvr.pos, hvr.payload⟩
  obtain ⟨u, hu, hus, hur, huf⟩ := decodeAcFrom_coded hb.ac i hac 63 (by omega) rest hvr' hvs
  refine ⟨u, ?_, hus, hur, ?_⟩
  · unfold decodeBlock
    rw [run_get_bind, run_bind_ok (run_tableId_of hb.quantId s), run_bind_ok (run_tableId_of hb.dcId s),
      run_bind_ok (run_tableId_of hb.acId s), run_bind_ok hv]
    exact hu
  · refine ReadFrame.trans ?_ huf
    obtain ⟨p, b, rfl⟩ := hvf
    exact ⟨p, b, rfl⟩

/-- The blocks of a coded MCU (42_control R169): `s0` names the tables and the selectors, which decoding does not
change. -/
theorem decodeBlocks_coded {s0 : State} {l : List (Fin 3)} {p p' : Vector Word 3} {bits rest : List Bool}
    {fs : List Coefs} (hcoded : McuCoded s0 l p bits fs p')
    (hsound : ∀ i ∈ l, ∀ t : Fin 4, (s0.comp[i.val].td.toNat = t.val → HuffSound s0.dcTable[t.val]) ∧
      (s0.comp[i.val].ta.toNat = t.val → HuffSound s0.acTable[t.val])) {s : State}
    (hs : ReadFrame { s0 with pred := p } s) (hr : ReaderReady s) (h : s.streamBits = bits ++ rest) :
    ∃ u, (decodeBlocks l).run s = .ok fs u ∧ u.streamBits = rest ∧ ReaderReady u ∧
      ReadFrame { s0 with pred := p' } u := by
  induction hcoded generalizing s with
  | done p => exact ⟨s, rfl, h, hr, hs⟩
  | @block i l p p' w tq td ta bits more f fs hq hd ha hb _ ih =>
    rw [List.append_assoc] at h
    have hi := hsound i List.mem_cons_self
    have hready : BlockReady s i tq td ta := by
      obtain ⟨pos, b, rfl⟩ := hs
      exact ⟨hq, hd, ha, (hi td).1 hd, (hi ta).2 ha⟩
    have hcoded : BlockCoded s.dcTable[td.val] s.acTable[ta.val] s.quant[tq.val] s.pred[i.val] bits f w := by
      obtain ⟨pos, b, rfl⟩ := hs
      exact hb
    obtain ⟨v, hv, hvs, hvr, hvf⟩ := decodeBlock_coded hready hcoded hr h
    have hvf' : ReadFrame { s0 with pred := p.set i.val w } v := by
      obtain ⟨pos, b, rfl⟩ := hs
      obtain ⟨pos', b', rfl⟩ := hvf
      exact ⟨pos', b', rfl⟩
    obtain ⟨u, hu, hus, hur, huf⟩ := ih (fun j hj => hsound j (List.mem_cons_of_mem _ hj)) hvf' hvr hvs
    refine ⟨u, ?_, hus, hur, huf⟩
    rw [decodeBlocks, run_bind_ok hv, run_bind_ok hu]
    rfl

end Sys2Proof.Machine
end

