-- ==== Sys2Proof/WellFormed.lean ====
section
/-! DEFINITION. Which commands have legal operands (spec/30_encoding.md R91): READ_BITS counts at most 16 bits and
HUFF_DECODE names class 0 or 1. A command outside this raises InvalidCommand when it executes (R94). -/

namespace Sys2Proof

/-- The operands are ones 30_encoding R91 calls legal. -/
def Instr.wf : Instr → Bool
  | .nop => true
  | .softReset _ => true
  | .loadDqt => true
  | .loadDht => true
  | .setFrame => true
  | .beginScan => true
  | .decodeMcu => true
  | .decodeScan => true
  | .endScan => true
  | .readBits n => decide (n.toNat ≤ 16)
  | .huffDecode c _ => decide (c.toNat ≤ 1)

end Sys2Proof
end

