-- ==== Sys2Proof/Laws/Decode.lean ====
section
/-! SUPPORT. The fields of a packed command word (spec/30_encoding.md R90), and which bytes name an opcode (R92, R93). -/

namespace Sys2Proof

@[simp] theorem opField_packWord (hi b a op : Byte) : opField (packWord hi b a op) = op := by
  apply BitVec.eq_of_getLsbD_eq
  intro i hi'
  simp only [opField, packWord, BitVec.getLsbD_extractLsb', BitVec.getLsbD_append]
  grind

@[simp] theorem aField_packWord (hi b a op : Byte) : aField (packWord hi b a op) = a := by
  apply BitVec.eq_of_getLsbD_eq
  intro i hi'
  simp only [aField, packWord, BitVec.getLsbD_extractLsb', BitVec.getLsbD_append]
  grind

@[simp] theorem bField_packWord (hi b a op : Byte) : bField (packWord hi b a op) = b := by
  apply BitVec.eq_of_getLsbD_eq
  intro i hi'
  simp only [bField, packWord, BitVec.getLsbD_extractLsb', BitVec.getLsbD_append]
  grind

@[simp] theorem reservedField_packWord (hi b a op : Byte) : reservedField (packWord hi b a op) = hi := by
  apply BitVec.eq_of_getLsbD_eq
  intro i hi'
  simp only [reservedField, packWord, BitVec.getLsbD_extractLsb', BitVec.getLsbD_append]
  grind

/-- A word is packed from its fields (R90). -/
theorem packWord_fields (w : Word) : packWord (reservedField w) (bField w) (aField w) (opField w) = w := by
  apply BitVec.eq_of_getLsbD_eq
  intro i hi'
  simp only [packWord, reservedField, bField, aField, opField, BitVec.getLsbD_extractLsb', BitVec.getLsbD_append]
  grind

/-- The bytes of a word make the word (20_memory R74). -/
theorem wordOfBytes_fields (w : Word) : wordOfBytes (opField w) (aField w) (bField w) (reservedField w) = w :=
  packWord_fields w

/-- Decoding the four bytes of a word is decoding the word. -/
theorem decodeBytes_bytesOfWord (w : Word) (rest : List Byte) :
    decodeBytes (bytesOfWord w ++ rest) = match decodeWord w with | .ok i => .ok (i, rest) | .error e => .error e := by
  show (match decodeWord (wordOfBytes (opField w) (aField w) (bField w) (reservedField w)) with
    | .ok i => Except.ok (i, rest) | .error e => .error e) = _
  rw [wordOfBytes_fields]

@[simp] theorem ofByte_toByte (o : Opcode) : Opcode.ofByte o.toByte = some o := by cases o <;> rfl

/-- An OP byte that names a command is that command's byte (R92). -/
theorem ofByte_some {b : Byte} {o : Opcode} (h : Opcode.ofByte b = some o) : b = o.toByte := by
  apply BitVec.eq_of_toNat_eq
  unfold Opcode.ofByte at h
  split at h <;> cases h <;> assumption

/-- Reserved opcodes are 0x0B to 0xFF (R93). -/
theorem ofByte_none {b : Byte} : Opcode.ofByte b = none ↔ 0x0B ≤ b.toNat := by
  unfold Opcode.ofByte
  split <;> simp_all <;> omega

@[simp] theorem opField_softReset (x : BitVec 24) (op : Byte) : opField (x ++ op) = op := by
  apply BitVec.eq_of_getLsbD_eq
  intro i hi'
  simp only [opField, BitVec.getLsbD_extractLsb', BitVec.getLsbD_append]
  grind

/-- Bits [31:8] of a SOFT_RESET word are the ones it ignores (R163). -/
theorem ignored_softReset (x : BitVec 24) (op : Byte) : (x ++ op : Word).extractLsb' 8 24 = x := by
  apply BitVec.eq_of_getLsbD_eq
  intro i hi'
  simp only [BitVec.getLsbD_extractLsb', BitVec.getLsbD_append]
  grind

end Sys2Proof
end

