-- ==== Sys2Proof/Laws/Memory.lean ====
section
/-! SUPPORT. The laws of the buffers: a read after a write, what a write leaves alone, the contents that become
unspecified, and that every operation keeps the canonical form and the size. -/

namespace Sys2Proof.Machine

/-! ## One cell -/

@[simp] theorem lookupCell_insertCell_same (l : List Host.Cell) (a : Nat) (b : Byte) :
    lookupCell (insertCell l a b) a = some b := by
  induction l with
  | nil => simp [insertCell, lookupCell]
  | cons c l ih =>
    obtain ⟨k, c⟩ := c
    by_cases h1 : a < k
    · simp [insertCell, h1, lookupCell]
    · by_cases h2 : a = k
      · simp [insertCell, h2, lookupCell]
      · simp [insertCell, h1, h2, lookupCell, ih, Ne.symm h2]

theorem lookupCell_insertCell_other (l : List Host.Cell) {a a' : Nat} (b : Byte) (h : a' ≠ a) :
    lookupCell (insertCell l a b) a' = lookupCell l a' := by
  induction l with
  | nil => simp [insertCell, lookupCell, Ne.symm h]
  | cons c l ih =>
    obtain ⟨k, c⟩ := c
    by_cases h1 : a < k
    · simp [insertCell, h1, lookupCell, Ne.symm h]
    · by_cases h2 : a = k
      · subst h2; simp [insertCell, lookupCell, Ne.symm h]
      · simp [insertCell, h1, h2, lookupCell, ih]

theorem mem_insertCell {l : List Host.Cell} {a : Nat} {b : Byte} {c : Host.Cell} (h : c ∈ insertCell l a b) :
    c = (a, b) ∨ c ∈ l := by
  induction l with
  | nil => simpa [insertCell] using h
  | cons d l ih =>
    obtain ⟨k, d⟩ := d
    by_cases h1 : a < k
    · simpa [insertCell, h1] using h
    · by_cases h2 : a = k
      · subst h2
        simp only [insertCell, Nat.lt_irrefl, if_false, if_true, List.mem_cons] at h ⊢
        grind
      · simp only [insertCell, h1, h2, if_false, List.mem_cons] at h ⊢
        grind

theorem insertCell_pairwise {l : List Host.Cell} (a : Nat) (b : Byte)
    (h : l.Pairwise fun c d => c.1 < d.1) : (insertCell l a b).Pairwise fun c d => c.1 < d.1 := by
  induction l with
  | nil => simp [insertCell]
  | cons d l ih =>
    obtain ⟨k, d⟩ := d
    rw [List.pairwise_cons] at h
    by_cases h1 : a < k
    · simp only [insertCell, h1, if_true, List.pairwise_cons, List.mem_cons]
      grind
    · by_cases h2 : a = k
      · subst h2
        simp only [insertCell, Nat.lt_irrefl, if_false, if_true]
        exact List.pairwise_cons.mpr ⟨h.1, h.2⟩
      · simp only [insertCell, h1, h2, if_false, List.pairwise_cons]
        refine ⟨fun c hc => ?_, ih h.2⟩
        rcases mem_insertCell hc with rfl | hc
        · simp only; omega
        · exact h.1 c hc

theorem lookupCell_filter (l : List Host.Cell) (p : Nat → Bool) (a : Nat) :
    lookupCell (l.filter fun c => p c.1) a = if p a then lookupCell l a else none := by
  induction l with
  | nil => simp [lookupCell]
  | cons c l ih =>
    obtain ⟨k, c⟩ := c
    by_cases hk : k = a
    · subst hk
      by_cases hp : p k <;> simp [lookupCell, ih, hp]
    · by_cases hp : p k <;> simp [lookupCell, ih, hp, hk]

/-! ## Reading and writing a buffer -/

theorem read_write_same (id : BufferId) (m : Memory) (a : Nat) (b : Byte) : (m.write a b).read id a = b := by
  simp [Memory.read, Memory.write]

theorem read_write_other (id : BufferId) (m : Memory) {a a' : Nat} (b : Byte) (h : a' ≠ a) :
    (m.write a b).read id a' = m.read id a' := by
  simp [Memory.read, Memory.write, lookupCell_insertCell_other _ _ h, Memory.unlisted, Memory.lossCount]

theorem read_writeAll_outside (id : BufferId) (cells : List Host.Cell) (m : Memory) {a : Nat}
    (h : ∀ c ∈ cells, c.1 ≠ a) : (m.writeAll cells).read id a = m.read id a := by
  induction cells generalizing m with
  | nil => rfl
  | cons c cells ih =>
    obtain ⟨k, b⟩ := c
    rw [Memory.writeAll, ih _ fun c hc => h c (List.mem_cons_of_mem _ hc),
      read_write_other _ _ _ (Ne.symm (h (k, b) List.mem_cons_self))]

/-- A byte that is stored once reads as what was stored. -/
theorem read_writeAll_once (id : BufferId) (pre post : List Host.Cell) (m : Memory) (a : Nat) (b : Byte)
    (h : ∀ c ∈ post, c.1 ≠ a) : (m.writeAll (pre ++ (a, b) :: post)).read id a = b := by
  induction pre generalizing m with
  | nil => rw [List.nil_append, Memory.writeAll, read_writeAll_outside _ _ _ h, read_write_same]
  | cons c pre ih => obtain ⟨k, d⟩ := c; exact ih (m.write k d)

theorem read_forget_outside (id : BufferId) (m : Memory) {base len a : Nat} (h : ¬(base ≤ a ∧ a < base + len)) :
    (m.forget base len).read id a = m.read id a := by
  unfold Memory.forget
  split
  · rfl
  · have hf := lookupCell_filter m.cells (fun k => !decide (base ≤ k ∧ k < base + len)) a
    rw [if_pos (by simp only [Bool.not_eq_true', decide_eq_false_iff_not]; exact h)] at hf
    have hl : Memory.lossCount { cells := m.cells.filter fun c => !decide (base ≤ c.1 ∧ c.1 < base + len)
                                 lost := (base, len) :: m.lost } a = m.lossCount a := by
      simp only [Memory.lossCount, List.filter_cons]
      rw [if_neg (by simp only [decide_eq_true_eq]; exact h)]
    simp only [Memory.read, hf, Memory.unlisted, hl]

theorem read_forget_inside (id : BufferId) (m : Memory) {base len a : Nat} (h : base ≤ a ∧ a < base + len) :
    (m.forget base len).read id a = Config.unspecifiedByte id (m.lossCount a + 1) a := by
  unfold Memory.forget
  rw [if_neg (by omega)]
  have hf := lookupCell_filter m.cells (fun k => !decide (base ≤ k ∧ k < base + len)) a
  rw [if_neg (by simpa using h)] at hf
  simp only [Memory.read, hf, Memory.unlisted, Memory.lossCount, List.filter_cons]
  rw [if_pos (by simpa using h)]
  simp

/-! ## Canonical form and size -/

theorem write_wf {m : Memory} (a : Nat) (b : Byte) (h : m.wf) : (m.write a b).wf := insertCell_pairwise a b h

theorem write_within {m : Memory} {size a : Nat} (b : Byte) (h : m.within size) (ha : a < size) :
    (m.write a b).within size := by
  intro c hc
  rcases mem_insertCell hc with rfl | hc
  · exact ha
  · exact h c hc

theorem writeAll_wf (cells : List Host.Cell) {m : Memory} (h : m.wf) : (m.writeAll cells).wf := by
  induction cells generalizing m with
  | nil => exact h
  | cons c cells ih => obtain ⟨k, b⟩ := c; exact ih (write_wf k b h)

theorem writeAll_within {size : Nat} (cells : List Host.Cell) {m : Memory} (h : m.within size)
    (hc : ∀ c ∈ cells, c.1 < size) : (m.writeAll cells).within size := by
  induction cells generalizing m with
  | nil => exact h
  | cons c cells ih =>
    obtain ⟨k, b⟩ := c
    exact ih (write_within b h (hc _ List.mem_cons_self)) fun c h' => hc c (List.mem_cons_of_mem _ h')

theorem forget_wf {m : Memory} (base len : Nat) (h : m.wf) : (m.forget base len).wf := by
  unfold Memory.forget
  split
  · exact h
  · exact List.Pairwise.filter _ h

theorem forget_within {m : Memory} {size : Nat} (base len : Nat) (h : m.within size) :
    (m.forget base len).within size := by
  unfold Memory.forget
  split
  · exact h
  · exact fun c hc => h c (List.mem_filter.mp hc).1

theorem empty_wf : Memory.empty.wf := List.Pairwise.nil

end Sys2Proof.Machine
end

