-- ==== Sys2Proof/Laws/Host.lean ====
section
/-! SUPPORT. What a step can do: the turns of the schedule, the host's accesses case by case (spec/20_memory.md R74 to
R77), and little-endian assembly (R74). -/

namespace Sys2Proof.Machine

/-! ## Whose step it is -/

theorem step_turn {s : State} {t : Turn} {rest : List Turn} (h : s.schedule = t :: rest) :
    step s = turnStep (s.setSchedule rest) t := by
  unfold step; rw [h]

theorem step_no_turn {s : State} (h : s.schedule = []) : step s = engineStep s := by
  unfold step; rw [h]

/-- Everything a step that answers a next state can be: the engine's, a host's access, or a reset. -/
theorem step_cases {s u : State} (h : step s = .next u) :
    (∃ r, (s.schedule = [] ∧ r = s ∨ ∃ rest, s.schedule = .engine :: rest ∧ r = s.setSchedule rest) ∧
      engineStep r = .next u) ∨
    (∃ addr n rest, s.schedule = .hostRead addr n :: rest ∧ u = (s.setSchedule rest).hostRead addr n) ∨
    (∃ addr n v rest, s.schedule = .hostWrite addr n v :: rest ∧ u = (s.setSchedule rest).hostWrite addr n v) ∨
    (∃ rest, s.schedule = .platformReset :: rest ∧ u = (s.setSchedule rest).platformReset) ∨
    (∃ rest, s.schedule = .powerOn :: rest ∧ u = (s.setSchedule rest).powerOn) := by
  cases hs : s.schedule with
  | nil => rw [step_no_turn hs] at h; exact .inl ⟨s, .inl ⟨rfl, rfl⟩, h⟩
  | cons t rest =>
    rw [step_turn hs] at h
    cases t with
    | engine => exact .inl ⟨_, .inr ⟨rest, rfl, rfl⟩, h⟩
    | hostRead addr n =>
      exact .inr (.inl ⟨addr, n, rest, rfl, (Host.Outcome.next.inj h).symm⟩)
    | hostWrite addr n v =>
      exact .inr (.inr (.inl ⟨addr, n, v, rest, rfl, (Host.Outcome.next.inj h).symm⟩))
    | platformReset => exact .inr (.inr (.inr (.inl ⟨rest, rfl, (Host.Outcome.next.inj h).symm⟩)))
    | powerOn => exact .inr (.inr (.inr (.inr ⟨rest, rfl, (Host.Outcome.next.inj h).symm⟩)))

/-- The engine's step while a command is pending (42_control R161). -/
theorem engineStep_busy {s : State} (h : s.status.busy = true) {i : Instr} (hd : decodeWord s.pend = .ok i) :
    engineStep s = exec i s := by
  simp only [engineStep, h, if_true, hd]

theorem engineStep_bad {s : State} (h : s.status.busy = true) {e : DecodeError} (hd : decodeWord s.pend = .error e) :
    engineStep s = .next (rejectWord s.pend e s) := by
  simp only [engineStep, h, if_true, hd]

theorem engineStep_idle {s : State} (h : s.status.busy = false) : engineStep s = .next s := by
  simp only [engineStep, h, Bool.false_eq_true, if_false]

/-! ## The resets (10_state R51, R52; 70_reset R240) -/

@[simp] theorem platformReset_ibuf (s : State) : s.platformReset.ibuf = s.ibuf := rfl
@[simp] theorem platformReset_obuf (s : State) : s.platformReset.obuf = s.obuf := rfl
@[simp] theorem platformReset_status (s : State) : s.platformReset.status = Status.cleared := rfl
@[simp] theorem platformReset_params (s : State) : s.platformReset.params = s.params := rfl
@[simp] theorem powerOn_ibuf (s : State) : s.powerOn.ibuf = s.ibuf.forget 0 s.params.ibufBytes := rfl
@[simp] theorem powerOn_obuf (s : State) : s.powerOn.obuf = s.obuf.forget 0 s.params.obufBytes := rfl
@[simp] theorem powerOn_status (s : State) : s.powerOn.status = Status.cleared := rfl
@[simp] theorem powerOn_params (s : State) : s.powerOn.params = s.params := rfl

/-- Both resets leave every register as State.reset has it. -/
theorem readCsr_reset (s : State) (r : Csr) :
    s.platformReset.readCsr r = State.reset.readCsr r ∧ s.powerOn.readCsr r = State.reset.readCsr r := by
  cases r <;> exact ⟨rfl, rfl⟩

/-! ## Host reads -/

/-- What a host read may change: the value returned, the draws made, ACCERR (20_memory R75, R82). -/
theorem hostRead_frame (s : State) (addr n : Nat) :
    ∃ (d : Word) (k : Nat) (acc : Bool),
      s.hostRead addr n = { s with readData := d, draws := k, status := { s.status with accerr := acc } } := by
  cases ho : s.windowOffset addr with
  | none => exact ⟨s.readData, s.draws, s.status.accerr, by simp only [State.hostRead, ho]⟩
  | some off =>
    cases ht : s.target off n with
    | none => exact ⟨0#32, s.draws, true, by simp only [State.hostRead, ho, ht]; rfl⟩
    | some t =>
      simp only [State.hostRead, ho, ht]
      cases t with
      | csr r =>
        simp only [State.readTarget]
        split
        · exact ⟨_, s.draws + 1, s.status.accerr, rfl⟩
        · exact ⟨_, s.draws, s.status.accerr, rfl⟩
      | ibuf a => exact ⟨_, s.draws, s.status.accerr, rfl⟩
      | obuf a =>
        simp only [State.readTarget]
        split
        · exact ⟨_, s.draws + 1, s.status.accerr, rfl⟩
        · exact ⟨_, s.draws, s.status.accerr, rfl⟩

/-! ## Host writes -/

/-- A write made while BUSY = 1 changes HAZ and ACCERR only (20_memory R76). -/
theorem hostWrite_busy {s : State} (h : s.status.busy = true) (addr n : Nat) (v : Word) :
    ∃ (haz acc : Bool), s.hostWrite addr n v = { s with status := { s.status with haz := haz, accerr := acc } } := by
  cases ho : s.windowOffset addr with
  | none => exact ⟨s.status.haz, s.status.accerr, by simp only [State.hostWrite, ho]⟩
  | some off =>
    cases ht : s.target off n with
    | none => exact ⟨true, true, by simp only [State.hostWrite, ho, ht]; rw [if_pos h]; rfl⟩
    | some t => exact ⟨true, s.status.accerr, by simp only [State.hostWrite, ho, ht]; rw [if_pos h]; rfl⟩

/-- A buffer access reaches only offsets within the buffer (20_memory R75). -/
theorem bufferOffset_within {base size off n a : Nat} (h : bufferOffset base size off n = some a) : a + n ≤ size := by
  unfold bufferOffset at h
  split at h
  · rename_i hc; cases h; exact hc.2
  · cases h

theorem target_ibuf {s : State} {off n a : Nat} (h : s.target off n = some (.ibuf a)) : a + n ≤ s.params.ibufBytes := by
  unfold State.target at h
  repeat' split at h
  all_goals first
    | (simp only [Option.map_eq_some_iff] at h
       obtain ⟨x, hx, hxa⟩ := h
       cases hxa
       exact bufferOffset_within hx)
    | simp at h

theorem target_obuf {s : State} {off n a : Nat} (h : s.target off n = some (.obuf a)) : a + n ≤ s.params.obufBytes := by
  unfold State.target at h
  repeat' split at h
  all_goals first
    | (simp only [Option.map_eq_some_iff] at h
       obtain ⟨x, hx, hxa⟩ := h
       cases hxa
       exact bufferOffset_within hx)
    | simp at h

theorem bytesAt_range (v : Word) (a n : Nat) : ∀ c ∈ bytesAt v a n, a ≤ c.1 ∧ c.1 < a + n := by
  intro c hc
  simp only [bytesAt, List.mem_map, List.mem_range] at hc
  obtain ⟨k, hk, rfl⟩ := hc
  simp only
  omega

/-! ## Registers and malformed accesses -/

/-- A host address within the window is the base and an offset (20_memory R70). -/
theorem windowOffset_base (s : State) {o : Nat} (h : o < 0x4000000) : s.windowOffset (s.params.base + o) = some o := by
  unfold State.windowOffset
  rw [if_pos ⟨by omega, by simp only [Config.windowBytes]; omega⟩]
  congr 1; omega

/-- A word access to a register's offset reaches the register (20_memory R71). -/
theorem target_csr (s : State) {o : Nat} {r : Csr} (h : o < 0x1000) (h4 : o % 4 = 0)
    (hr : Csr.ofIndex (o / 4) = some r) : s.target o 4 = some (.csr r) := by
  unfold State.target
  rw [if_neg (by omega), if_pos (by simpa [Config.csrBytes] using h), if_pos ⟨rfl, h4⟩, hr]; rfl

/-- A write to a register while no command is pending. -/
theorem writeReg_eq (s : State) {o : Nat} {r : Csr} (w : Word) (h : o < 0x1000) (h4 : o % 4 = 0)
    (hr : Csr.ofIndex (o / 4) = some r) (hb : s.status.busy = false) :
   s.writeReg o w = s.writeCsr r w := by
  unfold State.writeReg State.hostWrite
  rw [windowOffset_base s (by omega)]
  simp only [target_csr s h h4 hr, hb]; rfl

/-- A read of a register. -/
theorem hostRead_csr (s : State) {o : Nat} {r : Csr} (h : o < 0x1000) (h4 : o % 4 = 0)
    (hr : Csr.ofIndex (o / 4) = some r) :
   s.hostRead (s.params.base + o) 4 = s.readTarget 4 (.csr r) := by
  unfold State.hostRead
  rw [windowOffset_base s (by omega)]
  simp only [target_csr s h h4 hr]

/-- The reserved offsets of the aperture (10_state R46). -/
theorem ofIndex_none {k : Nat} : Csr.ofIndex k = none ↔ 26 ≤ k := by
  constructor
  · intro h
    refine Decidable.byContradiction fun hc => ?_
    have : ∀ j : Fin 26, Csr.ofIndex j.val ≠ none := by decide
    exact this ⟨k, by omega⟩ h
  · intro h
    unfold Csr.ofIndex
    split <;> first | omega | rfl

/-- An access reaches nothing exactly when it is malformed (20_memory R75). -/
theorem target_none (s : State) {off n : Nat} : s.target off n = none ↔ s.Malformed off n := by
  unfold State.target State.Malformed bufferOffset Config.csrBytes Config.ibufBase Config.obufBase
  by_cases h1 : n ≠ 1 ∧ n ≠ 2 ∧ n ≠ 4
  · rw [if_pos h1]; exact ⟨fun _ => .inl h1, fun _ => rfl⟩
  rw [if_neg h1]
  by_cases h2 : off < 0x1000
  · rw [if_pos h2]
    by_cases h3 : n = 4 ∧ off % 4 = 0
    · rw [if_pos h3, Option.map_eq_none_iff, ofIndex_none]; omega
    · rw [if_neg h3]; exact ⟨fun _ => by omega, fun _ => rfl⟩
  rw [if_neg h2]
  by_cases h3 : off < 0x1000000
  · rw [if_pos h3]; exact ⟨fun _ => by omega, fun _ => rfl⟩
  rw [if_neg h3]
  by_cases h4 : off < 0x2000000
  · rw [if_pos h4, Option.map_eq_none_iff]
    by_cases h5 : (off - 0x1000000) % n = 0 ∧ off - 0x1000000 + n ≤ s.params.ibufBytes
    · rw [if_pos h5]; exact ⟨fun h => (Option.some_ne_none _ h).elim, fun h => by omega⟩
    · rw [if_neg h5]; exact ⟨fun _ => by omega, fun _ => rfl⟩
  · rw [if_neg h4, Option.map_eq_none_iff]
    by_cases h5 : (off - 0x2000000) % n = 0 ∧ off - 0x2000000 + n ≤ s.params.obufBytes
    · rw [if_pos h5]; exact ⟨fun h => (Option.some_ne_none _ h).elim, fun h => by omega⟩
    · rw [if_neg h5]; exact ⟨fun _ => by omega, fun _ => rfl⟩

/-- A read of a register while no command is pending returns its value. -/
theorem readReg_idle (s : State) {o : Nat} {r : Csr} (h : o < 0x1000) (h4 : o % 4 = 0)
    (hr : Csr.ofIndex (o / 4) = some r) (hb : s.status.busy = false) :
   s.readReg o = s.readCsr r := by
  unfold State.readReg; rw [hostRead_csr s h h4 hr]; simp only [State.readTarget, hb]; rfl

/-! ## Byte order (20_memory R74) -/

theorem littleEndian_one (f : Nat → Byte) (a : Nat) : littleEndian f a 1 = (f a).setWidth 32 := by
  simp [littleEndian]

end Sys2Proof.Machine
end

