-- ==== Sys2Proof/Laws/Fetched.lean ====
section
/-! SUPPORT. Which payload bytes the bit reader takes (`State.Fetched`, after spec/10_state.md R39, R40 and
spec/40_bit_reader.md R121): whole data bytes with their stuffing, one after another, and nothing else. -/

namespace Sys2Proof.Machine

theorem stuff_append (l m : List Byte) : stuff (l ++ m) = stuff l ++ stuff m := by simp [stuff]

theorem getLastD_append {α : Type} (l m : List α) (a : α) : (l ++ m).getLastD a = m.getLastD (l.getLastD a) := by
  induction l generalizing a with
  | nil => rfl
  | cons b l ih => rw [List.cons_append, List.getLastD_cons, ih, List.getLastD_cons]

/-- Fetching some bytes and then some more is fetching them all. -/
theorem fetched_composes : Composes State.Fetched := by
  refine ⟨fun s => ⟨[], rfl, rfl, rfl⟩, ?_⟩
  rintro s t u ⟨d, h1, h2, h3⟩ ⟨e, k1, k2, k3⟩
  refine ⟨d ++ e, ?_, ?_, ?_⟩
  · rw [h1, k1, stuff_append, List.append_assoc]
  · rw [k2, h2, stuff_append, List.length_append, Nat.add_assoc]
  · rw [k3, h3, getLastD_append]

theorem fetched_setPred (s : State) (i : Fin 3) (v : Word) : s.Fetched (s.setPred i v) := ⟨[], rfl, rfl, rfl⟩

/-- A fetch that returns a byte has passed it and its stuffing (40_bit_reader R121). -/
theorem run_fetchByte_fetched {info : Byte} {s t : State} {b : Byte} (h : (fetchByte info).run s = .ok b t) :
    s.payloadLeft = stuff [b] ++ t.payloadLeft ∧ t.brPos.toNat = s.brPos.toNat + (stuff [b]).length := by
  rw [run_fetchByte] at h
  repeat' split at h
  all_goals first
    | (cases h; done)
    | skip
  · rename_i h0 _ hff
    cases h
    have n1 := setBrPos_toNat s 1 (by omega) (by omega)
    simp only [stuff, List.flatMap_cons, List.flatMap_nil, if_neg hff, List.append_nil]
    exact ⟨payloadLeft_next (by omega), n1⟩
  · rename_i h0 _ hff h1 _ hz
    cases h
    have n2 := setBrPos_toNat s 2 (by omega) (by omega)
    refine ⟨?_, n2⟩
    rw [payloadLeft_next_next (by omega), hz, Decidable.not_not.mp hff]
    rfl

/-- A fetch that raises moves nothing. -/
theorem run_fetchByte_stays {info : Byte} {s t : State} {e : Stop} (h : (fetchByte info).run s = .error e t) :
    s.Fetched t := by
  rw [run_fetchByte] at h
  repeat' split at h
  all_goals cases h
  all_goals exact ⟨[], rfl, rfl, rfl⟩

theorem fetched_refill (info : Byte) : Keeps State.Fetched (refill info) := by
  intro s
  by_cases hc : s.brBits.cnt = 0#4
  · rw [run_refill_empty hc]
    cases h : (fetchByte info).run s with
    | ok b t =>
      obtain ⟨h1, h2⟩ := run_fetchByte_fetched h
      exact ⟨[b], h1, h2, rfl⟩
    | error e t => exact run_fetchByte_stays h
  · rw [run_refill_pending hc]
    exact fetched_composes.refl s

/-- `readBit()`, however it ends (40_bit_reader R122). -/
theorem fetched_readBit (info : Byte) : Keeps State.Fetched (readBit info) :=
  keeps_bind fetched_composes (fetched_refill info) fun _ s => by rw [run_takeBit]; exact ⟨[], rfl, rfl, rfl⟩

theorem fetched_readBits (info : Byte) (n : Nat) : Keeps State.Fetched (readBits info n) :=
  keeps_readBitsFrom_of fetched_composes fetched_readBit _ _ _

theorem fetched_huffSymbol (t : HuffTable) (sub info : Byte) : Keeps State.Fetched (huffSymbol t sub info) :=
  keeps_huffLoop_of fetched_composes fetched_readBit _ _ _ _ _ _

theorem fetched_decodeBlocks (l : List (Fin 3)) : Keeps State.Fetched (decodeBlocks l) :=
  keeps_decodeBlocks_of fetched_composes fetched_readBit fetched_setPred l

end Sys2Proof.Machine
end

