-- ==== Sys2Proof/Laws/NoAhead.lean ====
section
/-! SUPPORT. The bit reader never fetches a byte ahead (spec/40_bit_reader.md R122): once a bit has been read, fewer than 8
are pending, whatever is read after it. -/

namespace Sys2Proof.Machine

/-- Once fewer than 8 bits are pending it stays so. -/
def NoAhead (s t : State) : Prop := s.brBits.cnt.toNat < 8 → t.brBits.cnt.toNat < 8

theorem noAhead_composes : Composes NoAhead := ⟨fun _ h => h, fun h k hs => k (h hs)⟩

theorem cnt_sub_one {c : BitVec 4} (h : c.toNat ≤ 8) (h0 : c ≠ 0#4) : (c - 1#4).toNat < 8 := by
  have : c.toNat ≠ 0 := fun hc => h0 (BitVec.eq_of_toNat_eq hc)
  simp only [BitVec.toNat_sub, BitVec.toNat_ofNat]
  omega

theorem brBits_fetchByte (info : Byte) (s : State) : (endState ((fetchByte info).run s)).brBits = s.brBits := by
  rw [run_fetchByte]
  simp only [apply_ite endState, endState_ok, endState_error, apply_ite State.brBits, setBrPos_brBits, setMarker_brBits,
    ite_self]

/-- After `readBit()`, however it ends, fewer than 8 bits are pending (40_bit_reader R122). -/
theorem cnt_readBit (info : Byte) {s : State} (h : s.brBits.cnt.toNat ≤ 8) :
    (endState ((readBit info).run s)).brBits.cnt.toNat < 8 := by
  unfold readBit
  by_cases hc : s.brBits.cnt = 0#4
  · have hf := brBits_fetchByte info s
    rw [run_bind, run_refill_empty hc]
    cases hr : (fetchByte info).run s with
    | ok b t => simp only [run_takeBit, endState_ok]; exact cnt_sub_one (by simp) (by simp)
    | error e t =>
      rw [hr, endState_error] at hf
      simp only [endState_error, hf, hc]
      decide
  · rw [run_bind_ok (run_refill_pending hc info), run_takeBit]
    exact cnt_sub_one h hc

theorem noAhead_readBit (info : Byte) : Keeps NoAhead (readBit info) := fun _ h => cnt_readBit info (Nat.le_of_lt h)

theorem noAhead_setPred (s : State) (i : Fin 3) (v : Word) : NoAhead s (s.setPred i v) := fun h => h

/-- Pseudocode that begins with a piece after which fewer than 8 bits are pending. -/
theorem cnt_bind {α β : Type} {m : Engine α} {f : α → Engine β} {s : State}
    (hm : (endState (m.run s)).brBits.cnt.toNat < 8) (hf : ∀ a, Keeps NoAhead (f a)) :
    (endState ((m >>= f).run s)).brBits.cnt.toNat < 8 := by
  rw [run_bind]
  cases hr : m.run s with
  | ok a t => rw [hr, endState_ok] at hm; exact hf a t hm
  | error e t => rw [hr, endState_error] at hm; exact hm

theorem cnt_huffSymbol (t : HuffTable) (sub info : Byte) {s : State} (h : s.brBits.cnt.toNat ≤ 8) :
    (endState ((huffSymbol t sub info).run s)).brBits.cnt.toNat < 8 := by
  refine cnt_bind (cnt_readBit info h) fun b => ?_
  cases matchCode t 0 (2 * 0 + b.toNat) with
  | some v => exact keeps_pure noAhead_composes v
  | none => exact keeps_huffLoop_of noAhead_composes noAhead_readBit _ _ _ _ _ _

theorem cnt_readBits (info : Byte) {n : Nat} (hn : n ≠ 0) {s : State} (h : s.brBits.cnt.toNat ≤ 8) :
    (endState ((readBits info n).run s)).brBits.cnt.toNat < 8 := by
  obtain ⟨m, rfl⟩ := Nat.exists_eq_succ_of_ne_zero hn
  exact cnt_bind (cnt_readBit info h) fun b => keeps_readBitsFrom_of noAhead_composes noAhead_readBit _ _ _

theorem cnt_decodeDc (i : Fin 3) (dc : HuffTable) (q : QuantTable) {s : State} (h : s.brBits.cnt.toNat ≤ 8) :
    (endState ((decodeDc i dc q).run s)).brBits.cnt.toNat < 8 := by
  refine cnt_bind (cnt_huffSymbol dc _ _ h) fun t => keeps_ite _ (keeps_raise noAhead_composes _) ?_
  exact keeps_bind noAhead_composes (keeps_readBitsFrom_of noAhead_composes noAhead_readBit _ _ _) fun v =>
    keeps_get_bind fun s => noAhead_setPred s i _

/-- After decoding at least one block, fewer than 8 bits are pending, however the decode ends but by a fault. -/
theorem cnt_decodeBlocks {l : List (Fin 3)} (hl : l ≠ []) {s : State} (h : s.brBits.cnt.toNat ≤ 8)
    (hnf : ∀ f t, (decodeBlocks l).run s ≠ .error (.faulted f) t) :
    (endState ((decodeBlocks l).run s)).brBits.cnt.toNat < 8 := by
  obtain ⟨i, l, rfl⟩ := List.exists_cons_of_ne_nil hl
  rw [decodeBlocks] at hnf ⊢
  refine cnt_bind ?_ fun f => keeps_bind noAhead_composes
    (keeps_decodeBlocks_of noAhead_composes noAhead_readBit noAhead_setPred l) fun fs => keeps_pure noAhead_composes _
  have hb : ∀ f t, (decodeBlock i).run s ≠ .error (.faulted f) t := fun f t he => hnf f t (run_bind_error he)
  unfold decodeBlock at hb ⊢
  simp only [run_get_bind] at hb ⊢
  simp only [run_bind, run_tableId] at hb ⊢
  by_cases hq : s.comp[i.val].tq.toNat < 4 <;> by_cases hd : s.comp[i.val].td.toNat < 4 <;>
    by_cases ha : s.comp[i.val].ta.toNat < 4 <;>
    simp only [hq, hd, ha, dite_true, dite_false, ne_eq] at hb ⊢
  case pos =>
    rw [← run_bind]
    exact cnt_bind (cnt_decodeDc i _ _ h) fun f0 => keeps_decodeAcFrom_of noAhead_composes noAhead_readBit _ _ _ _ _ _
  all_goals exact absurd rfl (hb _ _)

end Sys2Proof.Machine
end

