-- ==== Sys2Proof/Laws/Pixels.lean ====
section
/-! SUPPORT. The pixels of an MCU (spec/44_reconstruction.md R211, R212): which bytes `currentMcuCells` stores and what
they hold. -/

namespace Sys2Proof.Machine

/-! ## Addresses -/

/-- Two bytes of the sample grid at one offset are the same byte of the same pixel. -/
theorem pixelAddr_injective {w x x' y y' k k' : Nat} (hx : x < w) (hx' : x' < w) (hk : k < 3) (hk' : k' < 3)
    (h : 3 * (y * w + x) + k = 3 * (y' * w + x') + k') : x = x' ∧ y = y' ∧ k = k' := by
  have h1 : y * w + x = y' * w + x' := by omega
  have h2 : y = y' := by
    have := congrArg (· / w) h1
    simp only [Nat.mul_comm _ w] at this
    rwa [Nat.mul_add_div (by omega), Nat.mul_add_div (by omega), Nat.div_eq_of_lt hx, Nat.div_eq_of_lt hx',
        Nat.add_zero,
      Nat.add_zero] at this
  subst h2
  omega

/-- Every byte of a pixel inside the image lies in the sample grid. -/
theorem pixelAddr_in_grid {s : State} {x y k : Nat} (hx : x < s.frameSize.x.toNat) (hy : y < s.frameSize.y.toNat)
    (hk : k < 3) : ¬s.OutsideGrid (s.pixelAddr x y + k) := by
  have h1 : y * s.frameSize.x.toNat + s.frameSize.x.toNat ≤ s.frameSize.y.toNat * s.frameSize.x.toNat := by
    rw [← Nat.succ_mul]
    exact Nat.mul_le_mul_right _ hy
  simp only [State.OutsideGrid, State.pixelAddr, Nat.mul_assoc, Nat.mul_comm s.frameSize.x.toNat]
  omega

/-! ## The stores of an MCU -/

/-- Every store of an MCU is a byte of a pixel inside the image that belongs to it. -/
theorem mcuCells_addr {s : State} {mx my : Nat} {smp : List Samples} {c : Host.Cell} (h : c ∈ s.mcuCells mx my smp) :
    ∃ x y k, x < s.frameSize.x.toNat ∧ y < s.frameSize.y.toNat ∧ x / 8 = mx ∧ y / 8 = my ∧ k < 3 ∧
      c.1 = s.pixelAddr x y + k := by
  unfold State.mcuCells at h
  cases hp : colourPlanes smp with
  | none => rw [hp] at h; cases h
  | some planes =>
    rw [hp] at h
    obtain ⟨n, -, hn⟩ := List.mem_flatMap.mp h
    unfold State.pixelCells at hn
    simp only at hn
    split at hn
    case isFalse => cases hn
    rename_i hxy
    have := n.isLt
    simp only [List.mem_cons, List.not_mem_nil, or_false] at hn
    rcases hn with rfl | rfl | rfl
    · exact ⟨_, _, 0, hxy.1, hxy.2, by omega, by omega, by omega, rfl⟩
    · exact ⟨_, _, 1, hxy.1, hxy.2, by omega, by omega, by omega, rfl⟩
    · exact ⟨_, _, 2, hxy.1, hxy.2, by omega, by omega, by omega, rfl⟩

/-- Every store of an MCU lies in the sample grid. -/
theorem mcuCells_in_grid {s : State} {mx my : Nat} {smp : List Samples} {c : Host.Cell} (h : c ∈ s.mcuCells mx my smp) :
    ¬s.OutsideGrid c.1 := by
  obtain ⟨x, y, k, hx, hy, -, -, hk, he⟩ := mcuCells_addr h
  rw [he]
  exact pixelAddr_in_grid hx hy hk

/-- A byte that no store of the MCU names is kept. -/
theorem read_mcuCells_outside (m : Memory) {s : State} {mx my : Nat} {smp : List Samples} {a : Nat}
    (h : ∀ x y k, x < s.frameSize.x.toNat → y < s.frameSize.y.toNat → x / 8 = mx → y / 8 = my → k < 3 →
      s.pixelAddr x y + k ≠ a) : (m.writeAll (s.mcuCells mx my smp)).read .obuf a = m.read .obuf a := by
  apply read_writeAll_outside
  intro c hc
  obtain ⟨x, y, k, hx, hy, hmx, hmy, hk, he⟩ := mcuCells_addr hc
  rw [he]
  exact h x y k hx hy hmx hmy hk

/-- A byte of a pixel of the MCU holds the pixel's colour. -/
theorem read_mcuCells_pixel (m : Memory) {s : State} {x y : Nat} {smp : List Samples}
    {planes : Samples × Samples × Samples} (hp : colourPlanes smp = some planes) (hx : x < s.frameSize.x.toNat)
    (hy : y < s.frameSize.y.toNat) :
    let n : Fin 64 := ⟨8 * (y % 8) + x % 8, by omega⟩
    let rgb := yccToRgb planes.1[n.val] planes.2.1[n.val] planes.2.2[n.val]
    let m' := m.writeAll (s.mcuCells (x / 8) (y / 8) smp)
    m'.read .obuf (s.pixelAddr x y) = rgb.1 ∧ m'.read .obuf (s.pixelAddr x y + 1) = rgb.2.1 ∧
      m'.read .obuf (s.pixelAddr x y + 2) = rgb.2.2 := by
  intro n rgb m'
  obtain ⟨pre, post, hl⟩ := List.append_of_mem (List.mem_finRange n)
  have hnd : (List.finRange 64).Nodup := List.nodup_finRange 64
  rw [hl] at hnd
  have hpost : ∀ j ∈ post, j ≠ n := by
    rintro j hj rfl
    exact (List.nodup_cons.mp (List.nodup_append.mp hnd).2.1).1 hj
  have hcells : s.mcuCells (x / 8) (y / 8) smp =
      pre.flatMap (s.pixelCells (x / 8) (y / 8) planes) ++
        ([(s.pixelAddr x y, rgb.1), (s.pixelAddr x y + 1, rgb.2.1), (s.pixelAddr x y + 2, rgb.2.2)] ++
          post.flatMap (s.pixelCells (x / 8) (y / 8) planes)) := by
    unfold State.mcuCells
    rw [hp, hl]
    simp only [List.flatMap_append, List.flatMap_cons]
    congr 2
    unfold State.pixelCells
    have h1 : 8 * (x / 8) + n.val % 8 = x := by show 8 * (x / 8) + (8 * (y % 8) + x % 8) % 8 = x; omega
    have h2 : 8 * (y / 8) + n.val / 8 = y := by show 8 * (y / 8) + (8 * (y % 8) + x % 8) / 8 = y; omega
    simp only [h1, h2, hx, hy, and_self, if_true]
    rfl
  have hother : ∀ k, k < 3 → ∀ c ∈ post.flatMap (s.pixelCells (x / 8) (y / 8) planes), c.1 ≠ s.pixelAddr x y + k := by
    intro k hk c hc
    obtain ⟨j, hj, hjc⟩ := List.mem_flatMap.mp hc
    have hjn := hpost j hj
    have hjlt := j.isLt
    unfold State.pixelCells at hjc
    simp only at hjc
    split at hjc
    case isFalse => cases hjc
    rename_i hxy
    simp only [List.mem_cons, List.not_mem_nil, or_false] at hjc
    have key : ∀ k', k' < 3 →
        s.pixelAddr (8 * (x / 8) + j.val % 8) (8 * (y / 8) + j.val / 8) + k' ≠ s.pixelAddr x y + k := by
      intro k' hk' he
      unfold State.pixelAddr at he
      obtain ⟨hxx, hyy, -⟩ := pixelAddr_injective (y := 8 * (y / 8) + j.val / 8) (y' := y) hxy.1 hx hk' hk (by omega)
      exact hjn (Fin.ext (by show j.val = 8 * (y % 8) + x % 8; omega))
    rcases hjc with rfl | rfl | rfl
    · exact key 0 (by omega)
    · exact key 1 (by omega)
    · exact key 2 (by omega)
  have h0 := hother 0 (by omega)
  have h1 := hother 1 (by omega)
  have h2 := hother 2 (by omega)
  have hsplit1 : ∀ (p0 p1 p2 : Host.Cell) (a b : List Host.Cell), a ++ ([p0, p1, p2] ++ b) = (a ++ [p0]) ++ p1 ::
      (p2 :: b) := by
    intros; simp
  have hsplit2 : ∀ (p0 p1 p2 : Host.Cell) (a b : List Host.Cell), a ++ ([p0, p1, p2] ++ b) =
      (a ++ [p0, p1]) ++ p2 :: b := by
    intros; simp
  refine ⟨?_, ?_, ?_⟩
  · show (m.writeAll (s.mcuCells (x / 8) (y / 8) smp)).read .obuf _ = _
    rw [hcells]
    apply read_writeAll_once
    intro c hc
    rcases List.mem_cons.mp hc with rfl | hc
    · exact Nat.ne_of_gt (Nat.lt_succ_self _)
    rcases List.mem_cons.mp hc with rfl | hc
    · exact Nat.ne_of_gt (Nat.lt_add_of_pos_right (by omega))
    · exact h0 c hc
  · show (m.writeAll (s.mcuCells (x / 8) (y / 8) smp)).read .obuf _ = _
    rw [hcells, hsplit1]
    apply read_writeAll_once
    intro c hc
    rcases List.mem_cons.mp hc with rfl | hc
    · exact Nat.ne_of_gt (Nat.lt_succ_self _)
    · exact h1 c hc
  · show (m.writeAll (s.mcuCells (x / 8) (y / 8) smp)).read .obuf _ = _
    rw [hcells, hsplit2]
    apply read_writeAll_once
    exact h2

/-! ## The colour of a pixel -/

/-- The colour planes of the reconstructed blocks give the pixel's colour (44_reconstruction R209, R211). -/
theorem colourPlanes_mcuColour {coefs : List Coefs} (hn : coefs.length = 1 ∨ coefs.length = 3) (x y : Nat) :
    ∃ planes, colourPlanes (coefs.map reconstruct) = some planes ∧
      mcuColour coefs x y = some (yccToRgb (planes.1[8 * (y % 8) + x % 8]'(by omega))
        (planes.2.1[8 * (y % 8) + x % 8]'(by omega)) (planes.2.2[8 * (y % 8) + x % 8]'(by omega))) := by
  match coefs, hn with
  | [f], _ => exact ⟨_, rfl, by simp [mcuColour, grayPlane]⟩
  | [f, g, h], _ => exact ⟨_, rfl, rfl⟩

/-! ## The current MCU -/

theorem currentMcu_of {s : State} {x y : Nat} (hx : x < s.frameSize.x.toNat) :
    s.mcuOf x y = s.mcuIndex.toNat ↔
      x / 8 = s.mcuIndex.toNat % s.mcusPerRow ∧ y / 8 = s.mcuIndex.toNat / s.mcusPerRow := by
  have hw : x / 8 < s.mcusPerRow := by unfold State.mcusPerRow ceilDiv8; omega
  unfold State.mcuOf
  show y / 8 * s.mcusPerRow + x / 8 = _ ↔ _
  constructor
  · intro h
    rw [← h, Nat.mul_comm, Nat.mul_add_mod, Nat.mod_eq_of_lt hw, Nat.mul_add_div (by omega), Nat.div_eq_of_lt hw]
    exact ⟨rfl, rfl⟩
  · rintro ⟨h1, h2⟩
    rw [h1, h2, Nat.mul_comm]
    exact Nat.div_add_mod _ _

/-- After the stores of the current MCU, each pixel of the image holds the MCU's colour if it belongs to it and its former
bytes otherwise. -/
theorem pixel_currentMcu {s : State} {coefs : List Coefs} (hn : coefs.length = 1 ∨ coefs.length = 3) {x y : Nat}
    (hx : x < s.frameSize.x.toNat) (hy : y < s.frameSize.y.toNat) :
    if s.mcuOf x y = s.mcuIndex.toNat then
      some ((s.setObuf (s.obuf.writeAll (s.currentMcuCells coefs))).pixel x y) = mcuColour coefs x y
    else (s.setObuf (s.obuf.writeAll (s.currentMcuCells coefs))).pixel x y = s.pixel x y := by
  split
  · rename_i h
    obtain ⟨h1, h2⟩ := (currentMcu_of hx).mp h
    obtain ⟨planes, hp, hc⟩ := colourPlanes_mcuColour hn x y
    obtain ⟨r1, r2, r3⟩ := read_mcuCells_pixel s.obuf hp hx hy
    rw [hc]
    unfold State.currentMcuCells
    rw [← h1, ← h2]
    unfold State.pixel State.obufByte
    simp only [setObuf_obuf, setObuf_outBase, setObuf_frameSize]
    simp only [State.pixelAddr] at r1 r2 r3
    rw [r1, r2, r3]
  · rename_i h
    have key : ∀ k, k < 3 → (s.obuf.writeAll (s.currentMcuCells coefs)).read .obuf (s.pixelAddr x y + k) =
        s.obuf.read .obuf (s.pixelAddr x y + k) := by
      intro k hk
      apply read_mcuCells_outside
      intro x' y' k' hx' hy' hmx hmy hk' he
      unfold State.pixelAddr at he
      obtain ⟨rfl, rfl, -⟩ := pixelAddr_injective (y := y') (y' := y) hx' hx hk' hk (by omega)
      exact h ((currentMcu_of hx).mpr ⟨hmx, hmy⟩)
    have k0 := key 0 (by omega)
    have k1 := key 1 (by omega)
    have k2 := key 2 (by omega)
    unfold State.pixel State.obufByte
    simp only [setObuf_obuf, setObuf_outBase, setObuf_frameSize]
    simp only [State.pixelAddr, Nat.add_zero] at k0 k1 k2
    rw [k0, k1, k2]

end Sys2Proof.Machine
end

