-- ==== Sys2Proof/Laws/Mcu.lean ====
section
/-! SUPPORT. One turn of DECODE_MCU's pseudocode on coded data (spec/42_control.md R170): the state it ends in. -/

namespace Sys2Proof.Machine

/-! ## What `advanceMcu` leaves (42_control R170) -/

@[simp] theorem advanceMcu_params (s : State) : s.advanceMcu.params = s.params := by
  obtain ⟨i, a, d, e, c, h⟩ := advanceMcu_frame s
  rw [h]

@[simp] theorem advanceMcu_cmd (s : State) : s.advanceMcu.cmd = s.cmd := by
  obtain ⟨i, a, d, e, c, h⟩ := advanceMcu_frame s
  rw [h]

@[simp] theorem advanceMcu_error (s : State) : s.advanceMcu.error = s.error := by
  obtain ⟨i, a, d, e, c, h⟩ := advanceMcu_frame s
  rw [h]

@[simp] theorem advanceMcu_irqEn (s : State) : s.advanceMcu.irqEn = s.irqEn := by
  obtain ⟨i, a, d, e, c, h⟩ := advanceMcu_frame s
  rw [h]

@[simp] theorem advanceMcu_frameType (s : State) : s.advanceMcu.frameType = s.frameType := by
  obtain ⟨i, a, d, e, c, h⟩ := advanceMcu_frame s
  rw [h]

@[simp] theorem advanceMcu_frameSize (s : State) : s.advanceMcu.frameSize = s.frameSize := by
  obtain ⟨i, a, d, e, c, h⟩ := advanceMcu_frame s
  rw [h]

@[simp] theorem advanceMcu_frameNcomp (s : State) : s.advanceMcu.frameNcomp = s.frameNcomp := by
  obtain ⟨i, a, d, e, c, h⟩ := advanceMcu_frame s
  rw [h]

@[simp] theorem advanceMcu_comp (s : State) : s.advanceMcu.comp = s.comp := by
  obtain ⟨i, a, d, e, c, h⟩ := advanceMcu_frame s
  rw [h]

@[simp] theorem advanceMcu_restartInterval (s : State) : s.advanceMcu.restartInterval = s.restartInterval := by
  obtain ⟨i, a, d, e, c, h⟩ := advanceMcu_frame s
  rw [h]

@[simp] theorem advanceMcu_srcPtr (s : State) : s.advanceMcu.srcPtr = s.srcPtr := by
  obtain ⟨i, a, d, e, c, h⟩ := advanceMcu_frame s
  rw [h]

@[simp] theorem advanceMcu_srcEnd (s : State) : s.advanceMcu.srcEnd = s.srcEnd := by
  obtain ⟨i, a, d, e, c, h⟩ := advanceMcu_frame s
  rw [h]

@[simp] theorem advanceMcu_inBase (s : State) : s.advanceMcu.inBase = s.inBase := by
  obtain ⟨i, a, d, e, c, h⟩ := advanceMcu_frame s
  rw [h]

@[simp] theorem advanceMcu_inLen (s : State) : s.advanceMcu.inLen = s.inLen := by
  obtain ⟨i, a, d, e, c, h⟩ := advanceMcu_frame s
  rw [h]

@[simp] theorem advanceMcu_outBase (s : State) : s.advanceMcu.outBase = s.outBase := by
  obtain ⟨i, a, d, e, c, h⟩ := advanceMcu_frame s
  rw [h]

@[simp] theorem advanceMcu_brPos (s : State) : s.advanceMcu.brPos = s.brPos := by
  obtain ⟨i, a, d, e, c, h⟩ := advanceMcu_frame s
  rw [h]

@[simp] theorem advanceMcu_brBits (s : State) : s.advanceMcu.brBits = s.brBits := by
  obtain ⟨i, a, d, e, c, h⟩ := advanceMcu_frame s
  rw [h]

@[simp] theorem advanceMcu_mcuTotal (s : State) : s.advanceMcu.mcuTotal = s.mcuTotal := by
  obtain ⟨i, a, d, e, c, h⟩ := advanceMcu_frame s
  rw [h]

@[simp] theorem advanceMcu_result (s : State) : s.advanceMcu.result = s.result := by
  obtain ⟨i, a, d, e, c, h⟩ := advanceMcu_frame s
  rw [h]

@[simp] theorem advanceMcu_tableValid (s : State) : s.advanceMcu.tableValid = s.tableValid := by
  obtain ⟨i, a, d, e, c, h⟩ := advanceMcu_frame s
  rw [h]

@[simp] theorem advanceMcu_pred (s : State) : s.advanceMcu.pred = s.pred := by
  obtain ⟨i, a, d, e, c, h⟩ := advanceMcu_frame s
  rw [h]

@[simp] theorem advanceMcu_pend (s : State) : s.advanceMcu.pend = s.pend := by
  obtain ⟨i, a, d, e, c, h⟩ := advanceMcu_frame s
  rw [h]

@[simp] theorem advanceMcu_quant (s : State) : s.advanceMcu.quant = s.quant := by
  obtain ⟨i, a, d, e, c, h⟩ := advanceMcu_frame s
  rw [h]

@[simp] theorem advanceMcu_dcTable (s : State) : s.advanceMcu.dcTable = s.dcTable := by
  obtain ⟨i, a, d, e, c, h⟩ := advanceMcu_frame s
  rw [h]

@[simp] theorem advanceMcu_acTable (s : State) : s.advanceMcu.acTable = s.acTable := by
  obtain ⟨i, a, d, e, c, h⟩ := advanceMcu_frame s
  rw [h]

@[simp] theorem advanceMcu_ibuf (s : State) : s.advanceMcu.ibuf = s.ibuf := by
  obtain ⟨i, a, d, e, c, h⟩ := advanceMcu_frame s
  rw [h]

@[simp] theorem advanceMcu_obuf (s : State) : s.advanceMcu.obuf = s.obuf := by
  obtain ⟨i, a, d, e, c, h⟩ := advanceMcu_frame s
  rw [h]

@[simp] theorem advanceMcu_schedule (s : State) : s.advanceMcu.schedule = s.schedule := by
  obtain ⟨i, a, d, e, c, h⟩ := advanceMcu_frame s
  rw [h]

@[simp] theorem advanceMcu_readData (s : State) : s.advanceMcu.readData = s.readData := by
  obtain ⟨i, a, d, e, c, h⟩ := advanceMcu_frame s
  rw [h]

@[simp] theorem advanceMcu_draws (s : State) : s.advanceMcu.draws = s.draws := by
  obtain ⟨i, a, d, e, c, h⟩ := advanceMcu_frame s
  rw [h]

@[simp] theorem advanceMcu_resets (s : State) : s.advanceMcu.resets = s.resets := by
  obtain ⟨i, a, d, e, c, h⟩ := advanceMcu_frame s
  rw [h]

@[simp] theorem advanceMcu_mcuIndex (s : State) : s.advanceMcu.mcuIndex = s.mcuIndex + 1#32 := by
  unfold State.advanceMcu State.probeMarker
  split
  · split <;> rfl
  · rfl

/-! ## One turn -/

/-- What a turn needs of the state, and keeps while the scan is active: the reader can run, the frame has 1 or 3
components whose tables are sound, and the sample grid lies in OBUF (42_control R166). -/
structure TurnReady (s : State) : Prop where
  reader : ReaderReady s
  comps : s.frameComps.length = 1 ∨ s.frameComps.length = 3
  sound : ∀ i ∈ s.frameComps, ∀ t : Fin 4, (s.comp[i.val].td.toNat = t.val → HuffSound s.dcTable[t.val]) ∧
    (s.comp[i.val].ta.toNat = t.val → HuffSound s.acTable[t.val])
  grid : s.gridBase + s.gridBytes ≤ s.params.obufBytes

/-- The table checks of a component all pass exactly when its three tables are defined (42_control R166). -/
theorem tableError_none {s : State} {i : Fin 3} : s.tableError i = none ↔
    s.tableValid.quant s.comp[i.val].tq.toNat = true ∧ s.tableValid.huff .dc s.comp[i.val].td.toNat = true ∧
      s.tableValid.huff .ac s.comp[i.val].ta.toNat = true := by
  unfold State.tableError
  cases s.tableValid.quant s.comp[i.val].tq.toNat <;> cases s.tableValid.huff .dc s.comp[i.val].td.toNat <;>
    cases s.tableValid.huff .ac s.comp[i.val].ta.toNat <;> simp

theorem State.Inv.turnReady {s : State} (h : s.Inv) (ha : s.status.scanActive = true) : TurnReady s := by
  obtain ⟨-, -, hn, hc, -, -, -, hg, -⟩ := h.2.2.2.1 ha
  refine ⟨h.readerReady ha, ?_, ?_, hg⟩
  · unfold State.frameComps
    rcases hn with hn | hn <;> rw [hn] <;> decide
  · intro i hi t
    have hte := tableError_none.mp (hc i hi).2
    have ht := h.2.2.1 t
    exact ⟨fun hd => ht.1 (by rw [← hd]; exact hte.2.1), fun ha' => ht.2 (by rw [← ha']; exact hte.2.2)⟩

theorem mcuCoded_length {s : State} {l : List (Fin 3)} {p p' : Vector Word 3} {bits : List Bool} {fs : List Coefs}
    (h : McuCoded s l p bits fs p') : fs.length = l.length := by
  induction h with
  | done p => rfl
  | block _ _ _ _ _ ih => simp [ih]

theorem currentMcuCells_within {s : State} (hg : s.gridBase + s.gridBytes ≤ s.params.obufBytes) (coefs : List Coefs) :
    ∀ c ∈ s.currentMcuCells coefs, c.1 < s.params.obufBytes := by
  intro c hc
  have h1 := mcuCells_in_grid hc
  have h2 : s.outBase.toNat + 3 * s.frameSize.x.toNat * s.frameSize.y.toNat ≤ s.params.obufBytes := hg
  simp only [State.OutsideGrid] at h1
  omega

/-- The state after a turn on the coded MCU `coefs`: the reader stands where `t` left it, the predictors and the pixels are
written, and MCU_INDEX advances. -/
def State.afterMcu (s t : State) (pred : Vector Word 3) (coefs : List Coefs) : State :=
  State.advanceMcu { s with brPos := t.brPos, brBits := t.brBits, pred := pred
                            obuf := s.obuf.writeAll (s.currentMcuCells coefs) }

/-- One turn on coded data. -/
theorem decodeMcuBody_coded {s : State} (hr : TurnReady s) {bits rest : List Bool} {coefs : List Coefs}
    {pred : Vector Word 3} (hcoded : McuCoded s s.frameComps s.pred bits coefs pred) (h : s.streamBits = bits ++ rest) :
    ∃ t, ReaderReady t ∧ t.streamBits = rest ∧ ReadFrame { s with pred := pred } t ∧ t.brBits.cnt.toNat < 8 ∧
      s.Fetched t ∧ decodeMcuBody.run s = .ok () (s.afterMcu t pred coefs) := by
  obtain ⟨t, ht, hts, htr, htf⟩ := decodeBlocks_coded hcoded hr.sound (ReadFrame.refl s) hr.reader h
  have hcnt : t.brBits.cnt.toNat < 8 := by
    have hne : s.frameComps ≠ [] := fun hn => by have := hr.comps; rw [hn] at this; simp at this
    have := cnt_decodeBlocks hne hr.reader.cnt (by rw [ht]; exact fun _ _ => by simp)
    rwa [ht] at this
  refine ⟨t, htr, hts, htf, hcnt, (fetched_decodeBlocks _).ok ht, ?_⟩
  unfold decodeMcuBody
  rw [run_get_bind, run_bind_ok ht]
  have hin : ∀ c ∈ s.currentMcuCells coefs, c.1 < t.params.obufBytes := by
    have := currentMcuCells_within hr.grid coefs
    obtain ⟨p, b, rfl⟩ := htf
    exact this
  rw [run_bind_ok (run_engineStore_ok hin), run_modify]
  obtain ⟨p, b, rfl⟩ := htf
  rfl

/-! ## The pixels and the stream after a turn -/

theorem pixel_congr {s t : State} (h1 : t.obuf = s.obuf) (h2 : t.outBase = s.outBase) (h3 : t.frameSize = s.frameSize)
    (x y : Nat) : t.pixel x y = s.pixel x y := by
  unfold State.pixel State.obufByte
  rw [h1, h2, h3]

theorem afterMcu_pixel (s t : State) (pred : Vector Word 3) (coefs : List Coefs) (x y : Nat) :
    (s.afterMcu t pred coefs).pixel x y = (s.setObuf (s.obuf.writeAll (s.currentMcuCells coefs))).pixel x y :=
  pixel_congr (by simp [State.afterMcu]) (by simp [State.afterMcu]) (by simp [State.afterMcu]) x y

theorem fetched_congr {r s t : State} (h1 : t.brBits = s.brBits) (h2 : t.brPos = s.brPos) (h3 : t.inLen = s.inLen)
    (h4 : t.inBase = s.inBase) (h5 : t.ibuf = s.ibuf) (h : r.Fetched s) : r.Fetched t := by
  unfold State.Fetched State.payloadLeft State.ibufByte at h ⊢
  rw [h1, h2, h3, h4, h5]
  exact h

/-- A turn takes the payload bytes its blocks took. -/
theorem fetched_afterMcu {s t : State} {pred : Vector Word 3} (coefs : List Coefs) (h : s.Fetched t)
    (hf : ReadFrame { s with pred := pred } t) : s.Fetched (s.afterMcu t pred coefs) := by
  obtain ⟨p, b, rfl⟩ := hf
  exact fetched_congr (by simp [State.afterMcu]) (by simp [State.afterMcu]) (by simp [State.afterMcu])
    (by simp [State.afterMcu]) (by simp [State.afterMcu]) h

theorem streamBits_congr {s t : State} (h1 : t.brBits = s.brBits) (h2 : t.brPos = s.brPos) (h3 : t.inLen = s.inLen)
    (h4 : t.inBase = s.inBase) (h5 : t.ibuf = s.ibuf) : t.streamBits = s.streamBits := by
  unfold State.streamBits State.payloadLeft State.ibufByte
  rw [h1, h2, h3, h4, h5]

end Sys2Proof.Machine
end

