-- ==== Sys2Proof/Laws/Safe.lean ====
section
/-! SUPPORT. Reading the stream is safe (spec/40_bit_reader.md R124, R130, spec/20_memory.md R88): from a reader that can run,
no read faults; one that succeeds leaves a reader that can run, further on, and STATUS as it was;
    one that raises leaves CNT
in its bound and MARKER_CODE 0 unless a marker was recorded. -/

namespace Sys2Proof.Machine

variable {α β : Type}

/-- How reading pseudocode may end from a state `s` whose reader can run. -/
def SafeEnd (s : State) : EStateM.Result Stop State α → Prop
  | .ok _ t => ReaderReady t ∧ s.brPos.toNat ≤ t.brPos.toNat ∧ t.status = s.status
  | .error (.raised _) t =>
    t.brBits.cnt.toNat ≤ 8 ∧ (t.status.markerSeen = false → t.status.markerCode = s.status.markerCode)
  | .error (.faulted _) _ => False

/-- The pseudocode ends so from every reader that can run. -/
def Safe (m : Engine α) : Prop := ∀ s, ReaderReady s → SafeEnd s (m.run s)

theorem safe_pure (a : α) : Safe (pure a : Engine α) := fun _ hs => ⟨hs, Nat.le_refl _, rfl⟩

theorem safe_raise (e : Raise) : Safe (raise e : Engine α) := fun _ hs => ⟨hs.cnt, fun _ => rfl⟩

theorem safe_bind {m : Engine α} {f : α → Engine β} (hm : Safe m) (hf : ∀ a, Safe (f a)) : Safe (m >>= f) := by
  intro s hs
  rw [run_bind]
  have h1 := hm s hs
  cases hr : m.run s with
  | ok a t =>
    rw [hr] at h1
    obtain ⟨ht, hp, hst⟩ := h1
    have h2 := hf a t ht
    simp only []
    cases hr2 : (f a).run t with
    | ok b u => rw [hr2] at h2; exact ⟨h2.1, Nat.le_trans hp h2.2.1, h2.2.2.trans hst⟩
    | error e u =>
      rw [hr2] at h2
      cases e with
      | raised e => exact ⟨h2.1, fun h => (h2.2 h).trans (congrArg Status.markerCode hst)⟩
      | faulted f => exact h2
  | error e t => rw [hr] at h1; cases e <;> exact h1

theorem safe_ite (c : Prop) [Decidable c] {m k : Engine α} (hm : Safe m) (hk : Safe k) : Safe (if c then m else k) := by
  split <;> assumption

theorem safe_get_bind {f : State → Engine β} (hf : ∀ s, Safe (f s)) : Safe (get >>= f) := fun s hs => hf s s hs

theorem safe_fetchByte (info : Byte) : Safe (fetchByte info) := by
  intro s hs
  obtain ⟨hm, hcnt, hpos, hpay⟩ := hs
  rw [run_fetchByte, if_neg (by simp [hm])]
  by_cases h0 : s.inLen.toNat ≤ s.brPos.toNat
  · rw [if_pos h0]; exact ⟨hcnt, fun _ => rfl⟩
  have hp0 : s.payloadPos < s.params.ibufBytes := by simp only [State.payloadPos]; omega
  rw [if_neg h0, if_neg (not_not_intro hp0)]
  by_cases hff : s.ibufByte s.payloadPos = 0xFF#8
  · rw [if_neg (not_not_intro hff)]
    by_cases h1 : s.inLen.toNat ≤ s.brPos.toNat + 1
    · rw [if_pos h1]; exact ⟨hcnt, fun _ => rfl⟩
    have hp1 : s.payloadPos + 1 < s.params.ibufBytes := by simp only [State.payloadPos]; omega
    rw [if_neg h1, if_neg (not_not_intro hp1)]
    by_cases hz : s.ibufByte (s.payloadPos + 1) = 0x00#8
    · rw [if_pos hz]
      have n2 : (s.brPos + 2#32).toNat = s.brPos.toNat + 2 := setBrPos_toNat s 2 (by omega) (by omega)
      exact ⟨⟨hm, hcnt, by simp only [setBrPos_brPos, setBrPos_inLen, n2]; omega, hpay⟩,
        by simp only [setBrPos_brPos, n2]; omega, rfl⟩
    · rw [if_neg hz]; exact ⟨hcnt, fun h => by cases h⟩
  · rw [if_pos hff]
    have n1 : (s.brPos + 1#32).toNat = s.brPos.toNat + 1 := setBrPos_toNat s 1 (by omega) (by omega)
    exact ⟨⟨hm, hcnt, by simp only [setBrPos_brPos, setBrPos_inLen, n1]; omega, hpay⟩,
      by simp only [setBrPos_brPos, n1]; omega, rfl⟩

theorem safe_readBit (info : Byte) : Safe (readBit info) := by
  intro s hs
  by_cases hc : s.brBits.cnt = 0#4
  · have h := safe_fetchByte info s hs
    unfold readBit
    rw [run_bind, run_refill_empty hc]
    cases hf : (fetchByte info).run s with
    | ok b t =>
      rw [hf] at h
      obtain ⟨⟨hm, -, hpos, hpay⟩, hp, hst⟩ := h
      exact ⟨⟨hm, show (8#4 - 1#4 : BitVec 4).toNat ≤ 8 by decide, hpos, hpay⟩, hp, hst⟩
    | error e t => rw [hf] at h; cases e <;> exact h
  · unfold readBit
    rw [run_bind_ok (run_refill_pending hc info), run_takeBit]
    obtain ⟨hm, hcnt, hpos, hpay⟩ := hs
    have hc0 : s.brBits.cnt.toNat ≠ 0 := fun h => hc (BitVec.eq_of_toNat_eq h)
    refine ⟨⟨hm, ?_, hpos, hpay⟩, Nat.le_refl _, rfl⟩
    have := s.brBits.cnt.isLt
    simp only [setBrBits_brBits, BitVec.toNat_sub, BitVec.toNat_ofNat]
    omega

theorem safe_readBitsFrom (info : Byte) (n v : Nat) : Safe (readBitsFrom info n v) := by
  induction n generalizing v with
  | zero => exact safe_pure v
  | succ n ih => exact safe_bind (safe_readBit info) fun b => ih _

/-- An n-bit read (40_bit_reader R123). -/
theorem safe_readBits (info : Byte) (n : Nat) : Safe (readBits info n) := safe_readBitsFrom info n 0

theorem safe_huffLoop (t : HuffTable) (sub info : Byte) (n i code : Nat) : Safe (huffLoop t sub info n i code) := by
  induction n generalizing i code with
  | zero => exact safe_raise _
  | succ n ih =>
    refine safe_bind (safe_readBit info) fun b => ?_
    cases matchCode t i (2 * code + b.toNat) with
    | some v => exact safe_pure v
    | none => exact ih _ _

/-- A symbol decode (41_tables R145). -/
theorem safe_huffSymbol (t : HuffTable) (sub info : Byte) : Safe
    (huffSymbol t sub info) := safe_huffLoop t sub info 16 0 0

theorem safe_setPred (i : Fin 3) (f : State → Word) (g : State → α) :
    Safe (do let s ← get; set (s.setPred i (f s)); pure (g s) : Engine α) :=
  fun _ hs => ⟨⟨hs.noMarker, hs.cnt, hs.pos, hs.payload⟩, Nat.le_refl _, rfl⟩

theorem safe_decodeDc (i : Fin 3) (dc : HuffTable) (q : QuantTable) : Safe (decodeDc i dc q) :=
  safe_bind (safe_huffSymbol dc _ _) fun _ => safe_ite _ (safe_raise _)
      (safe_bind (safe_readBits _ _) fun _ => safe_setPred i _ _)

theorem safe_decodeAcFrom (i : Fin 3) (ac : HuffTable) (q : QuantTable) (n k : Nat) (f : Coefs) :
    Safe (decodeAcFrom i ac q n k f) := by
  induction n generalizing k f with
  | zero => exact safe_pure f
  | succ n ih =>
    refine safe_ite _ (safe_bind (safe_huffSymbol ac _ _) fun rs => ?_) (safe_pure f)
    refine safe_ite _ (safe_ite _ (safe_pure f) (safe_ite _ (safe_ite _ (safe_raise _) (ih _ _)) (safe_raise _))) ?_
    split
    · exact safe_bind (safe_readBits _ _) fun v => ih _ _
    · exact safe_raise _

/-- A block of a component whose three table ids name tables (43_block_decoder R188). -/
theorem safe_decodeBlock (i : Fin 3) {s : State} (hs : ReaderReady s) (hq : s.comp[i.val].tq.toNat < 4)
    (hd : s.comp[i.val].td.toNat < 4) (ha : s.comp[i.val].ta.toNat < 4) :
    SafeEnd s ((decodeBlock i).run s) := by
  have h : (decodeBlock i).run s =
      (decodeDc i s.dcTable[s.comp[i.val].td.toNat] s.quant[s.comp[i.val].tq.toNat] >>= fun f0 =>
        decodeAc i s.acTable[s.comp[i.val].ta.toNat] s.quant[s.comp[i.val].tq.toNat] (zeroCoefs.set 0 f0)).run s := by
    unfold decodeBlock
    rw [run_get_bind, run_bind_ok (run_tableId_of (t := ⟨_, hq⟩) rfl s), run_bind_ok
        (run_tableId_of (t := ⟨_, hd⟩) rfl s),
      run_bind_ok (run_tableId_of (t := ⟨_, ha⟩) rfl s)]
  rw [h]
  exact safe_bind (safe_decodeDc i _ _) (fun f0 => safe_decodeAcFrom i _ _ 63 1 _) s hs

/-- Blocks of components whose table ids name tables (42_control R169). -/
theorem safe_decodeBlocks (l : List (Fin 3)) {s : State} (hs : ReaderReady s)
    (hl : ∀ i ∈ l, s.comp[i.val].tq.toNat < 4 ∧ s.comp[i.val].td.toNat < 4 ∧ s.comp[i.val].ta.toNat < 4) :
    SafeEnd s ((decodeBlocks l).run s) := by
  induction l generalizing s with
  | nil => exact ⟨hs, Nat.le_refl _, rfl⟩
  | cons i l ih =>
    obtain ⟨hq, hd, ha⟩ := hl i List.mem_cons_self
    have h1 := safe_decodeBlock i hs hq hd ha
    rw [decodeBlocks, run_bind]
    have hk := keeps_decodeBlock i s
    cases hb : (decodeBlock i).run s with
    | error e t => rw [hb] at h1; cases e <;> exact h1
    | ok f t =>
      rw [hb] at h1 hk
      obtain ⟨ht, hp, hst⟩ := h1
      have hcomp : t.comp = s.comp := by
        obtain ⟨p, b, e, c, r, he⟩ := hk
        rw [endState_ok] at he
        rw [he]
      have h2 := ih ht fun j hj => by rw [hcomp]; exact hl j (List.mem_cons_of_mem _ hj)
      simp only []
      rw [run_bind]
      cases hbs : (decodeBlocks l).run t with
      | ok fs u => rw [hbs] at h2; exact ⟨h2.1, Nat.le_trans hp h2.2.1, h2.2.2.trans hst⟩
      | error e u =>
        rw [hbs] at h2
        cases e with
        | raised e => exact ⟨h2.1, fun h => (h2.2 h).trans (congrArg Status.markerCode hst)⟩
        | faulted f => exact h2

end Sys2Proof.Machine
end

