-- ==== Sys2Proof/Laws/Invariant.lean ====
section
/-! SUPPORT. Each command from a state of the invariant answers a next state of the invariant, one lemma per command; and
each host access and reset keeps the invariant. The table loads are in Laws/Loads.lean. -/

namespace Sys2Proof.Machine

/-- A command other than SOFT_RESET finds no error (42_control R160). -/
theorem State.Inv.noError {s : State} (h : s.Inv) (hb : s.status.busy = true)
    (hd : ∀ x, decodeWord s.pend ≠ .ok (.softReset x)) : s.status.err = false := by
  cases he : s.status.err with
  | false => rfl
  | true =>
    have hop := h.2.1.2.2.2.1 he hb
    exact absurd (by unfold decodeWord; rw [hop]; rfl) (hd (s.pend.extractLsb' 8 24))

/-- The start of a command: the invariant, nothing raised, nothing done (42_control R160). -/
structure Starts (s : State) : Prop where
  inv : s.Inv
  noErr : s.status.err = false
  notDone : s.status.done = false

/-- Ending a command without a raise keeps the invariant. -/
theorem inv_complete {s : State} (h : s.Inv) (he : s.status.err = false) : s.complete.Inv := by
  obtain ⟨hm, hs, ht, hsc, hr⟩ := h
  refine ⟨hm, ⟨?_, fun _ => he, hs.2.2.1, ?_, hs.2.2.2.2⟩, ht, hsc, hr⟩
  · intro h; cases h
  · intro _ h; cases h

/-- Error entry from a state that a command reached keeps the invariant (60_exceptions R218). -/
theorem inv_enterError {t : State} (hm : t.MemoryOk) (hd : t.status.done = false)
    (hmark : t.status.markerSeen = false → t.status.markerCode = 0#8) (ht : t.TablesOk) (hc : t.brBits.cnt.toNat ≤ 8)
    (e : Raise) : (t.enterError e).Inv := by
  refine ⟨hm, ⟨?_, ?_, fun _ => rfl, ?_, hmark, ?_, ?_, ?_⟩, ht, ?_, hc, ?_⟩
  · intro h; cases h
  · intro h; exact absurd (hd.symm.trans h) Bool.false_ne_true
  · intro _ h; cases h
  · intro h; cases h
  · intro h; cases h
  · intro _
    show e.code.toByte ≠ 0#8
    cases e.code <;> decide
  · intro h; cases h
  · intro h; cases h

theorem inv_forgetGrid {s : State} (h : s.Inv) : s.forgetGrid.Inv := by
  obtain ⟨⟨hp, hiw, how, hi, ho⟩, hs, ht, hsc, hr⟩ := h
  exact ⟨⟨hp, hiw, forget_wf _ _ how, hi, forget_within _ _ ho⟩, hs, ht, hsc, hr⟩

/-- A raise that changed nothing before. -/
theorem Starts.raises {s : State} (h : Starts s) (e : Raise) : (s.enterError e).Inv :=
  inv_enterError h.inv.1 h.notDone h.inv.2.1.2.2.2.2.1 h.inv.2.2.1 h.inv.2.2.2.2.1 e

/-! ## NOP, SOFT_RESET, SET_FRAME, END_SCAN, BEGIN_SCAN -/

theorem execNop_inv {s : State} (h : Starts s) : ∃ u, execNop s = .next u ∧ u.Inv :=
  ⟨s.complete, rfl, inv_complete h.inv h.noErr⟩

theorem clearRegisters_inv {s : State} (h : s.Inv) : s.clearRegisters.Inv := by
  refine ⟨h.1, ?_, ?_, ?_, ?_, ?_⟩
  · exact ⟨fun _ => rfl, fun k => Bool.noConfusion (k : false = true), fun _ => rfl,
      fun k => Bool.noConfusion (k : false = true), fun _ => rfl, fun k => Bool.noConfusion (k : false = true),
      fun _ => rfl, fun k => Bool.noConfusion (k : false = true)⟩
  · intro t
    have hz : ∀ k, tableDefined 0#4 k = false := fun k => by simp [tableDefined]
    exact ⟨fun h => absurd ((hz _).symm.trans h) Bool.false_ne_true, fun h => absurd
        ((hz _).symm.trans h) Bool.false_ne_true⟩
  · intro h; cases h
  · exact Nat.zero_le _
  · intro h; cases h

theorem execSoftReset_inv {s : State} (h : s.Inv) : ∃ u, execSoftReset s = .next u ∧ u.Inv :=
  ⟨_, rfl, clearRegisters_inv h⟩

theorem execSetFrame_inv {s : State} (h : Starts s) : ∃ u, execSetFrame s = .next u ∧ u.Inv := by
  cases ha : s.status.scanActive with
  | true =>
    exact ⟨_, runCommand_raised (run_bind_error (by rw [run_requireNoScan, ha]; rfl)), h.raises _⟩
  | false =>
    refine ⟨s.setFrameValid.complete, runCommand_ok ?_, inv_complete ?_ h.noErr⟩
    · unfold setFrameCommand
      rw [run_bind_ok (a := ()) (t := s) (by rw [run_requireNoScan, ha]; rfl), run_modify]
    · obtain ⟨hm, hs, ht, hsc, hr⟩ := h.inv
      have hna : s.setFrameValid.status.scanActive = true → False := fun k => by cases ha.symm.trans k
      exact ⟨hm, ⟨hs.1, hs.2.1, hs.2.2.1, hs.2.2.2.1, hs.2.2.2.2.1, fun k => (hna k).elim, hs.2.2.2.2.2.2⟩, ht,
        fun k => (hna k).elim, hr⟩

theorem execEndScan_inv {s : State} (h : Starts s) : ∃ u, execEndScan s = .next u ∧ u.Inv := by
  refine ⟨_, rfl, inv_complete ?_ h.noErr⟩
  obtain ⟨hm, hs, ht, hsc, hr⟩ := h.inv
  have hna : (s.setScanActive false).status.scanActive = true → False := fun k => by cases k
  exact ⟨hm, ⟨hs.1, hs.2.1, fun _ => rfl, hs.2.2.2.1, hs.2.2.2.2.1, fun k => (hna k).elim, hs.2.2.2.2.2.2⟩, ht,
    fun k => (hna k).elim, hr.1, fun k => (hna k).elim⟩

/-- What BEGIN_SCAN has checked when no check fails (42_control R166). -/
theorem scanError_none {s : State} (h : s.scanError = none) :
    s.status.scanActive = false ∧ s.status.frameValid = true ∧ s.frameType.sof = 0xC0#8 ∧ s.frameType.p = 8#8 ∧
    (s.frameNcomp = 1#8 ∨ s.frameNcomp = 3#8) ∧ (∀ i ∈ s.frameComps, s.samplingOk i = true ∧ s.tableError i = none) ∧
    s.frameSize.x ≠ 0#16 ∧ s.frameSize.y ≠ 0#16 ∧ s.inBase.toNat + s.inLen.toNat ≤ s.params.ibufBytes ∧
    s.gridBase + s.gridBytes ≤ s.params.obufBytes := by
  unfold State.scanError at h
  by_cases h1 : s.status.scanActive = true
  · rw [if_pos h1] at h; cases h
  rw [if_neg h1] at h
  by_cases h2 : (!s.status.frameValid) = true
  · rw [if_pos h2] at h; cases h
  rw [if_neg h2] at h
  by_cases h3 : (s.frameType.sof != 0xC0#8) = true
  · rw [if_pos h3] at h; cases h
  rw [if_neg h3] at h
  by_cases h4 : (s.frameType.p != 8#8) = true
  · rw [if_pos h4] at h; cases h
  rw [if_neg h4] at h
  by_cases h5 : (s.frameNcomp != 1#8 && s.frameNcomp != 3#8) = true
  · rw [if_pos h5] at h; cases h
  rw [if_neg h5] at h
  cases hf : s.frameComps.find? fun i => !s.samplingOk i with
  | some i => rw [hf] at h; cases h
  | none =>
    rw [hf] at h
    simp only [] at h
    by_cases h6 : (s.frameSize.x == 0#16 || s.frameSize.y == 0#16) = true
    · rw [if_pos h6] at h; cases h
    rw [if_neg h6] at h
    cases ht : s.frameComps.findSome? s.tableError with
    | some e => rw [ht] at h; cases h
    | none =>
      rw [ht] at h
      simp only [] at h
      by_cases h7 : s.params.ibufBytes < s.inBase.toNat + s.inLen.toNat
      · rw [if_pos h7] at h; cases h
      rw [if_neg h7] at h
      by_cases h8 : s.params.obufBytes < s.gridBase + s.gridBytes
      · rw [if_pos h8] at h; cases h
      rw [List.find?_eq_none] at hf
      rw [List.findSome?_eq_none_iff] at ht
      simp only [Bool.not_eq_true, Bool.not_eq_false', bne_eq_false_iff_eq, Bool.and_eq_false_iff, Bool.or_eq_false_iff,
        beq_eq_false_iff_ne] at h1 h2 h3 h4 h5 h6
      exact ⟨h1, h2, h3, h4, h5, fun i hi => ⟨by simpa using hf i hi, ht i hi⟩, h6.1, h6.2, by omega, by omega⟩

/-- MCU_TOTAL holds the number of MCUs of any frame, which is not 0 (42_control R165, R166). -/
theorem mcuCount_fits {s : State} (hx : s.frameSize.x ≠ 0#16) (hy : s.frameSize.y ≠ 0#16) :
    (BitVec.ofNat 32 s.mcuCount).toNat = s.mcuCount ∧ 0 < s.mcuCount := by
  have h1 := s.frameSize.x.isLt
  have h2 := s.frameSize.y.isLt
  have h3 : s.frameSize.x.toNat ≠ 0 := fun h => hx (BitVec.eq_of_toNat_eq h)
  have h4 : s.frameSize.y.toNat ≠ 0 := fun h => hy (BitVec.eq_of_toNat_eq h)
  have hb : s.mcuCount ≤ 8192 * 8192 := Nat.mul_le_mul (by unfold ceilDiv8; omega) (by unfold ceilDiv8; omega)
  refine ⟨?_, Nat.mul_pos (by unfold ceilDiv8; omega) (by unfold ceilDiv8; omega)⟩
  simp only [BitVec.toNat_ofNat]
  omega

theorem execBeginScan_inv {s : State} (h : Starts s) : ∃ u, execBeginScan s = .next u ∧ u.Inv := by
  cases he : s.scanError with
  | some e =>
    exact ⟨_, runCommand_raised (by unfold beginScanCommand; rw [run_get_bind, he]; rfl), h.raises e⟩
  | none =>
    refine ⟨s.startScan.complete, runCommand_ok (by unfold beginScanCommand; rw [run_get_bind, he]; rfl), ?_⟩
    refine inv_complete ?_ h.noErr
    obtain ⟨hna, hfv, hsof, hp, hn, hc, hx, hy, hin, hout⟩ := scanError_none he
    obtain ⟨hm, hs, ht, hsc, hr⟩ := h.inv
    obtain ⟨hf1, hf2⟩ := mcuCount_fits hx hy
    refine ⟨hm, ⟨hs.1, hs.2.1, ?_, hs.2.2.2.1, fun _ => rfl, fun _ => ⟨hfv, rfl, rfl⟩, hs.2.2.2.2.2.2⟩, ht, ?_, ?_, ?_⟩
    · intro k; exact absurd (h.noErr.symm.trans k) Bool.false_ne_true
    · intro _
      refine ⟨hsof, hp, hn, hc, hx, hy, hin, hout, hf1, ?_⟩
      show (0#32).toNat < (BitVec.ofNat 32 s.mcuCount).toNat
      rw [hf1]; exact hf2
    · exact Nat.zero_le _
    · intro _; exact Nat.zero_le _

/-! ## The stream commands -/

theorem statusOk_congr {s t : State} (h : t.status = s.status) (he : t.error = s.error) (hp : t.pend = s.pend)
    (hs : s.StatusOk) : t.StatusOk := by
  unfold State.StatusOk
  rw [h, he, hp]
  exact hs

/-- A reading command that ran to its end and then wrote RESULT. -/
theorem inv_read {s t : State} (h : s.Inv) (hf : ReaderFrame s t) (ht : ReaderReady t) (hst : t.status = s.status) :
    t.Inv := by
  obtain ⟨p, b, e, c, rfl⟩ := hf
  obtain ⟨hm, hs, htb, hsc, hr⟩ := h
  refine ⟨hm, ?_, htb, ?_, ht.cnt, fun _ => ht.pos⟩
  · exact statusOk_congr hst rfl rfl hs
  · intro k
    exact hsc k

theorem inv_setResult {s : State} (h : s.Inv) (v : Word) : (s.setResult v).Inv := h

/-- A raise out of a reading command. -/
theorem Starts.readRaises {s t : State} (h : Starts s) (hf : BlockFrame s t) (hc : t.brBits.cnt.toNat ≤ 8)
    (hm : t.status.markerSeen = false → t.status.markerCode = s.status.markerCode)
    (hm' : s.status.markerSeen = false) (e : Raise) : (t.enterError e).Inv := by
  have h5 := h.inv.2.1.2.2.2.2.1 hm'
  obtain ⟨p, b, sn, c, r, rfl⟩ := hf
  refine inv_enterError ?_ ?_ (fun k => (hm k).trans h5) ?_ hc e
  · exact h.inv.1
  · exact h.notDone
  · exact h.inv.2.2.1

theorem execReadBits_inv {s : State} (h : Starts s) (n : Byte) : ∃ u, execReadBits n s = .next u ∧ u.Inv := by
  unfold execReadBits
  by_cases hn : n.toNat ≤ 16
  · cases ha : s.status.scanActive with
    | false =>
      refine ⟨_, runCommand_raised (e := ⟨.invalidCommand, 3#8, Opcode.readBits.toByte⟩) (t := s) ?_, h.raises _⟩
      unfold readBitsCommand bitCount
      rw [if_pos hn, run_pure_bind]
      exact run_bind_error (by rw [run_requireScan, ha]; rfl)
    | true =>
      have hr := h.inv.readerReady ha
      have hrun : (readBitsCommand n).run s =
          (readBits 0#8 n.toNat >>= fun v => modify fun t => t.setResult (BitVec.ofNat 32 v)).run s := by
        unfold readBitsCommand bitCount
        rw [if_pos hn, run_pure_bind, run_bind_ok (a := ()) (t := s) (by rw [run_requireScan, ha, if_pos rfl])]
      have hs := safe_readBits 0#8 n.toNat s hr
      have hk := keeps_readBits 0#8 n.toNat s
      cases hb : (readBits 0#8 n.toNat).run s with
      | ok v t =>
        rw [hb] at hs hk
        refine ⟨_, runCommand_ok (by rw [hrun, run_bind_ok hb, run_modify]), inv_complete ?_ ?_⟩
        · exact inv_setResult (inv_read h.inv hk hs.1 hs.2.2) _
        · show t.status.err = false
          rw [hs.2.2]; exact h.noErr
      | error e t =>
        rw [hb] at hs hk
        cases e with
        | faulted f => exact hs.elim
        | raised e =>
          exact ⟨_, runCommand_raised (t := t) (by rw [hrun, run_bind_error hb]),
            h.readRaises (ReaderFrame.block hk) hs.1 hs.2 hr.noMarker e⟩
  · refine ⟨_, runCommand_raised (e := ⟨.invalidCommand, 4#8, n⟩) (t := s) ?_, h.raises _⟩
    unfold readBitsCommand bitCount
    rw [if_neg hn]; rfl

/-- `definedHuffTable` picks a table or raises; it changes nothing (41_tables R147). -/
theorem run_definedHuffTable_cases (c : HuffClass) (t : Byte) (s : State) :
    (∃ id, (definedHuffTable c t).run s = .ok id s) ∨ ∃ e, (definedHuffTable c t).run s = .error (.raised e) s := by
  unfold definedHuffTable
  rw [run_get_bind]
  split
  · split
    · exact .inl ⟨_, rfl⟩
    · exact .inr ⟨_, rfl⟩
  · exact .inr ⟨_, rfl⟩

theorem run_huffClass_cases (c : Byte) (s : State) :
    (∃ cls, (huffClass c).run s = .ok cls s) ∨ ∃ e, (huffClass c).run s = .error (.raised e) s := by
  unfold huffClass
  split
  · exact .inl ⟨_, rfl⟩
  · split
    · exact .inl ⟨_, rfl⟩
    · exact .inr ⟨_, rfl⟩

theorem execHuffDecode_inv {s : State} (h : Starts s) (c t : Byte) : ∃ u, execHuffDecode c t s = .next u ∧ u.Inv := by
  unfold execHuffDecode
  rcases run_huffClass_cases c s with ⟨cls, hc⟩ | ⟨e, hc⟩
  · cases ha : s.status.scanActive with
    | false =>
      refine ⟨_, runCommand_raised (e := ⟨.invalidCommand, 3#8, Opcode.huffDecode.toByte⟩) (t := s) ?_, h.raises _⟩
      unfold huffDecodeCommand
      rw [run_bind_ok hc]
      exact run_bind_error (by rw [run_requireScan, ha]; rfl)
    | true =>
      have hscan : (requireScan .huffDecode).run s = .ok () s := by rw [run_requireScan, ha, if_pos rfl]
      rcases run_definedHuffTable_cases cls t s with ⟨id, hd⟩ | ⟨e, hd⟩
      · have hr := h.inv.readerReady ha
        have hrun : (huffDecodeCommand c t).run s =
            (huffSymbol (s.huffTable cls id) 1#8 t >>= fun v => modify fun u => u.setResult (v.setWidth 32)).run s := by
          unfold huffDecodeCommand
          rw [run_bind_ok hc, run_bind_ok hscan, run_bind_ok hd, run_get_bind]
        have hs := safe_huffSymbol (s.huffTable cls id) 1#8 t s hr
        have hk := keeps_huffSymbol (s.huffTable cls id) 1#8 t s
        cases hb : (huffSymbol (s.huffTable cls id) 1#8 t).run s with
        | ok v u =>
          rw [hb] at hs hk
          refine ⟨_, runCommand_ok (by rw [hrun, run_bind_ok hb, run_modify]), inv_complete ?_ ?_⟩
          · exact inv_setResult (inv_read h.inv hk hs.1 hs.2.2) _
          · show u.status.err = false
            rw [hs.2.2]; exact h.noErr
        | error e u =>
          rw [hb] at hs hk
          cases e with
          | faulted f => exact hs.elim
          | raised e =>
            exact ⟨_, runCommand_raised (t := u) (by rw [hrun, run_bind_error hb]),
              h.readRaises (ReaderFrame.block hk) hs.1 hs.2 hr.noMarker e⟩
      · refine ⟨_, runCommand_raised (e := e) (t := s) ?_, h.raises _⟩
        unfold huffDecodeCommand
        rw [run_bind_ok hc, run_bind_ok hscan]
        exact run_bind_error hd
  · exact ⟨_, runCommand_raised (e := e) (t := s) (run_bind_error hc), h.raises _⟩

/-! ## DECODE_MCU and DECODE_SCAN -/

/-- The probe after a scan has ended keeps the invariant (40_bit_reader R127). -/
theorem inv_probeMarker {s : State} (h : s.Inv) (ha : s.status.scanActive = false) : s.probeMarker.Inv := by
  unfold State.probeMarker
  split
  · obtain ⟨hm, hs, ht, hsc, hr⟩ := h
    have hna : s.status.scanActive = true → False := fun k => by cases ha.symm.trans k
    exact ⟨hm, ⟨hs.1, hs.2.1, hs.2.2.1, hs.2.2.2.1, fun k => (Bool.noConfusion (k : true = false)), fun k =>
        (hna k).elim,
      hs.2.2.2.2.2.2⟩, ht, fun k => (hna k).elim, hr.1, fun k => (hna k).elim⟩
  · exact h

/-- One turn from a state of the invariant in a scan: the invariant and the other flags stay, or a raise (42_control R170). -/
theorem decodeMcuBody_inv {s : State} (h : Starts s) (ha : s.status.scanActive = true) :
    (∃ t, decodeMcuBody.run s = .ok () t ∧ Starts t) ∨
    ∃ e t, decodeMcuBody.run s = .error (.raised e) t ∧ (t.enterError e).Inv := by
  have hr := h.inv.readerReady ha
  obtain ⟨hsof, hp, hn, hc, hx, hy, hin, hg, htot, hlt⟩ := h.inv.2.2.2.1 ha
  have htab : ∀ i ∈ s.frameComps, s.comp[i.val].tq.toNat < 4 ∧ s.comp[i.val].td.toNat < 4 ∧
      s.comp[i.val].ta.toNat < 4 := by
    intro i hi
    have hte := tableError_none.mp (hc i hi).2
    have hlt4 : ∀ (v : BitVec 4) (k : Nat), tableDefined v k = true → k < 4 := fun v k hk =>
      BitVec.lt_of_getLsbD hk
    exact ⟨hlt4 _ _ hte.1, hlt4 _ _ hte.2.1, hlt4 _ _ hte.2.2⟩
  have hs := safe_decodeBlocks s.frameComps hr htab
  have hk := keeps_decodeBlocks s.frameComps s
  cases hb : (decodeBlocks s.frameComps).run s with
  | error e t =>
    rw [hb] at hs hk
    cases e with
    | faulted f => exact hs.elim
    | raised e =>
      refine .inr ⟨e, t, ?_, h.readRaises hk hs.1 hs.2 hr.noMarker e⟩
      unfold decodeMcuBody
      rw [run_get_bind]
      exact run_bind_error hb
  | ok coefs t =>
    rw [hb] at hs hk
    obtain ⟨ht, -, hst⟩ := hs
    refine .inl ⟨(t.setObuf (t.obuf.writeAll (s.currentMcuCells coefs))).advanceMcu, ?_, ?_⟩
    · unfold decodeMcuBody
      rw [run_get_bind, run_bind_ok hb, run_bind_ok (run_engineStore_ok ?_), run_modify]
      have := currentMcuCells_within hg coefs
      obtain ⟨p, b, e, c, r, he⟩ := hk
      rw [endState_ok] at he
      rw [he]
      exact this
    · obtain ⟨p, b, e, c, r, he⟩ := hk
      rw [endState_ok] at he
      subst he
      have hobuf := currentMcuCells_within hg coefs
      obtain ⟨⟨hpl, hiw, how, hi, ho⟩, hsts, htb, hsc, hro⟩ := h.inv
      generalize hw : State.setObuf _ _ = w
      have hwst : w.status = s.status := by rw [← hw]; exact hst
      have hwinv : w.Inv := by
        subst hw
        refine ⟨⟨hpl, hiw, writeAll_wf _ how, hi, writeAll_within _ ho hobuf⟩, ?_, htb, ?_, ht.cnt, fun _ => ht.pos⟩
        · exact statusOk_congr hst rfl rfl hsts
        · intro k
          exact hsc ha
      have hidx : w.mcuIndex = s.mcuIndex ∧ w.mcuTotal = s.mcuTotal := by subst hw; exact ⟨rfl, rfl⟩
      unfold State.advanceMcu
      rw [hidx.1, hidx.2]
      by_cases hl : s.mcuIndex + 1#32 = s.mcuTotal
      · rw [if_pos hl]
        have hinv : (((w.setMcuIndex (s.mcuIndex + 1#32)).setScanActive false).setScanDone true).Inv := by
          obtain ⟨hm, hs', ht', hsc', hr'⟩ := hwinv
          exact ⟨hm, ⟨hs'.1, hs'.2.1, fun _ => rfl, hs'.2.2.2.1, hs'.2.2.2.2.1, fun k => Bool.noConfusion
              (k : false = true),
            hs'.2.2.2.2.2.2⟩, ht', fun k => Bool.noConfusion (k : false = true), hr'.1, fun k => Bool.noConfusion
                (k : false = true)⟩
        refine ⟨inv_probeMarker hinv rfl, ?_, ?_⟩
        · unfold State.probeMarker
          split <;> (show w.status.err = false; rw [hwst]; exact h.noErr)
        · unfold State.probeMarker
          split <;> (show w.status.done = false; rw [hwst]; exact h.notDone)
      · rw [if_neg hl]
        refine ⟨?_, by show w.status.err = false; rw [hwst]; exact h.noErr,
          by show w.status.done = false; rw [hwst]; exact h.notDone⟩
        obtain ⟨hm, hs', ht', hsc', hr'⟩ := hwinv
        refine ⟨hm, hs', ht', fun k => ?_, hr'⟩
        obtain ⟨a1, a2, a3, a4, a5, a6, a7, a8, a9, -⟩ := hsc' k
        refine ⟨a1, a2, a3, a4, a5, a6, a7, a8, a9, ?_⟩
        show (s.mcuIndex + 1#32).toNat < w.mcuTotal.toNat
        rw [hidx.2]
        have h1 : (s.mcuIndex + 1#32).toNat ≠ s.mcuTotal.toNat := fun hh => hl (BitVec.eq_of_toNat_eq hh)
        have h2 := s.mcuTotal.isLt
        simp only [BitVec.toNat_add, BitVec.toNat_ofNat] at h1 ⊢
        omega

/-- The end of DECODE_MCU or DECODE_SCAN (42_control R161, 60_exceptions R220). -/
theorem runDecode_inv {s : State} {m : Engine Unit}
    (h : (∃ t, m.run s = .ok () t ∧ Starts t) ∨ ∃ e t, m.run s = .error (.raised e) t ∧ (t.enterError e).Inv) :
    ∃ u, runDecode m s = .next u ∧ u.Inv := by
  rcases h with ⟨t, ht, hs⟩ | ⟨e, t, ht, hi⟩
  · exact ⟨_, runDecode_ok ht, inv_complete hs.inv hs.noErr⟩
  · exact ⟨_, runDecode_raised ht, inv_forgetGrid hi⟩

theorem execDecodeMcu_inv {s : State} (h : Starts s) : ∃ u, execDecodeMcu s = .next u ∧ u.Inv := by
  apply runDecode_inv
  cases ha : s.status.scanActive with
  | false => exact .inr ⟨_, s, run_bind_error (by rw [run_requireScan, ha]; rfl), h.raises _⟩
  | true =>
    rcases decodeMcuBody_inv h ha with ⟨t, ht, hs⟩ | ⟨e, t, ht, hi⟩
    · exact .inl ⟨t, by unfold decodeMcuCommand; rw [run_bind_ok (a := ()) (t := s)
        (by rw [run_requireScan, ha, if_pos rfl])]; exact ht, hs⟩
    · exact .inr ⟨e, t, by unfold decodeMcuCommand; rw [run_bind_ok (a := ()) (t := s)
        (by rw [run_requireScan, ha, if_pos rfl])]; exact ht, hi⟩

theorem decodeRemaining_inv (n : Nat) {s : State} (h : Starts s) :
    (∃ t, (decodeRemaining n).run s = .ok () t ∧ Starts t) ∨
    ∃ e t, (decodeRemaining n).run s = .error (.raised e) t ∧ (t.enterError e).Inv := by
  induction n generalizing s with
  | zero => exact .inl ⟨s, rfl, h⟩
  | succ n ih =>
    cases ha : s.status.scanActive with
    | false => exact .inl ⟨s, by rw [decodeRemaining, run_get_bind, if_neg (by simp [ha])]; rfl, h⟩
    | true =>
      have hrun : (decodeRemaining (n + 1)).run s = (decodeMcuBody >>= fun _ => decodeRemaining n).run s := by
        rw [decodeRemaining, run_get_bind, if_pos ha]
      rw [hrun]
      rcases decodeMcuBody_inv h ha with ⟨t, ht, hs⟩ | ⟨e, t, ht, hi⟩
      · rw [run_bind_ok ht]; exact ih hs
      · exact .inr ⟨e, t, run_bind_error ht, hi⟩

theorem execDecodeScan_inv {s : State} (h : Starts s) : ∃ u, execDecodeScan s = .next u ∧ u.Inv := by
  apply runDecode_inv
  cases ha : s.status.scanActive with
  | false => exact .inr ⟨_, s, run_bind_error (by rw [run_requireScan, ha]; rfl), h.raises _⟩
  | true =>
    have hrun : decodeScanCommand.run s = (decodeRemaining s.mcusLeft).run s := by
      unfold decodeScanCommand
      rw [run_bind_ok (a := ()) (t := s) (by rw [run_requireScan, ha, if_pos rfl]), run_get_bind]
    rw [hrun]
    exact decodeRemaining_inv _ h

/-! ## Host accesses and the reset input -/

theorem hostRead_inv {s : State} (h : s.Inv) (addr n : Nat) : (s.hostRead addr n).Inv := by
  obtain ⟨d, k, a, he⟩ := hostRead_frame s addr n
  rw [he]
  exact h

theorem platformReset_inv {s : State} (h : s.Inv) : s.platformReset.Inv := by
  obtain ⟨hm, hs, ht, hsc, hr⟩ := clearRegisters_inv h
  refine ⟨hm, hs, fun t => ?_, hsc, hr⟩
  have hz : ∀ k, tableDefined 0#4 k = false := fun k => by simp [tableDefined]
  exact ⟨fun h => absurd ((hz _).symm.trans h) Bool.false_ne_true,
    fun h => absurd ((hz _).symm.trans h) Bool.false_ne_true⟩

theorem powerOn_inv {s : State} (h : s.Inv) : s.powerOn.Inv := by
  obtain ⟨⟨hp, hiw, how, hi, ho⟩, hrest⟩ := platformReset_inv h
  exact ⟨⟨hp, forget_wf _ _ hiw, forget_wf _ _ how, forget_within _ _ hi, forget_within _ _ ho⟩, hrest⟩

/-- A write to a register while no command is pending keeps the invariant (10_state R21). -/
theorem writeCsr_inv {s : State} (h : s.Inv) (hb : s.status.busy = false) (r : Csr) (w : Word) :
    (s.writeCsr r w).Inv := by
  obtain ⟨hm, hs, ht, hsc, hr⟩ := h
  have hidle : ∀ {p : Prop}, s.status.busy = true → p := fun k => by cases hb.symm.trans k
  unfold State.writeCsr
  split
  · exact ⟨hm, hs, ht, hsc, hr⟩
  · rename_i hl
    cases r with
    | cmd =>
      simp only [State.storeCsr, State.writeCmd]
      split
      · exact ⟨hm, hs, ht, hsc, hr⟩
      · rename_i hc
        refine ⟨hm, ⟨fun _ => rfl, fun k => Bool.noConfusion (k : false = true), hs.2.2.1, fun he _ => ?_, hs.2.2.2.2⟩,
            ht, hsc, hr⟩
        have he' : s.status.err = true := he
        rw [he', Bool.true_and, bne_iff_ne, Decidable.not_not] at hc
        exact hc
    | status =>
      refine ⟨hm, ⟨fun k => hidle k, fun k => hs.2.1 ?_, hs.2.2.1, hs.2.2.2.1, hs.2.2.2.2⟩, ht, hsc, hr⟩
      simp only [State.storeCsr, Status.clearNamed, Bool.and_eq_true] at k
      exact k.1
    | frameType | frameSize | frameNcomp | comp i | inBase | inLen | outBase =>
      have hna : s.status.scanActive = true → False := fun k => hl (by rw [k]; rfl)
      exact ⟨hm, hs, ht, fun k => (hna k).elim, hr.1, fun k => (hna k).elim⟩
    | id | error | irqEn | restartInterval | srcPtr | srcEnd | brPos | brBits | mcuIndex | mcuTotal | result | tableValid | pred i =>
      exact ⟨hm, hs, ht, hsc, hr⟩

theorem hostWrite_inv {s : State} (h : s.Inv) (addr n : Nat) (v : Word) : (s.hostWrite addr n v).Inv := by
  cases hb : s.status.busy with
  | true =>
    obtain ⟨hz, ac, he⟩ := hostWrite_busy hb addr n v
    rw [he]
    exact h
  | false =>
    unfold State.hostWrite
    cases s.windowOffset addr with
    | none => exact h
    | some off =>
      simp only []
      cases ht : s.target off n with
      | none => rw [hb]; exact h
      | some t =>
        rw [hb]
        obtain ⟨⟨hp, hiw, how, hi, ho⟩, hs, htb, hsc, hr⟩ := h
        cases t with
        | csr r => exact writeCsr_inv ⟨⟨hp, hiw, how, hi, ho⟩, hs, htb, hsc, hr⟩ hb r v
        | ibuf a =>
          have hw := target_ibuf ht
          show (s.setIbuf (s.ibuf.writeAll (bytesAt v a n))).Inv
          exact ⟨⟨hp, writeAll_wf _ hiw, how, writeAll_within _ hi fun c hc => Nat.lt_of_lt_of_le
              (bytesAt_range v a n c hc).2 hw, ho⟩,
            hs, htb, hsc, hr⟩
        | obuf a =>
          have hw := target_obuf ht
          show (s.setObuf (s.obuf.writeAll (bytesAt v a n))).Inv
          exact ⟨⟨hp, hiw, writeAll_wf _ how, hi, writeAll_within _ ho fun c hc => Nat.lt_of_lt_of_le
              (bytesAt_range v a n c hc).2 hw⟩,
            hs, htb, hsc, hr⟩

end Sys2Proof.Machine
end

