-- ==== Sys2Proof/Laws/Loads.lean ====
section
/-! SUPPORT. The table loads (spec/41_tables.md R135 to R142): one record as one equation, where the source range lies in
IBUF; the loop; and that LOAD_DQT and LOAD_DHT keep the invariant. -/

namespace Sys2Proof.Machine

/-- One quantization record, path by path, where SRC_END is within IBUF (R135, R136). -/
theorem run_loadQuantRecord {s : State} (hin : s.srcEnd.toNat ≤ s.params.ibufBytes)
    (hp : s.srcPtr.toNat < s.srcEnd.toNat) :
    loadQuantRecord.run s =
      if hpq : headerHigh (s.ibufByte s.srcPtr.toNat) ≤ 1 then
        if htq : headerLow (s.ibufByte s.srcPtr.toNat) ≤ 3 then
          if s.srcEnd.toNat < s.srcPtr.toNat + (1 + 64 * (headerHigh (s.ibufByte s.srcPtr.toNat) + 1)) then
            .error (.raised ⟨.invalidTableDefinition, 5#8, s.ibufByte s.srcPtr.toNat⟩) s
          else
            .ok ⟨⟩ ((s.storeQuant ⟨headerLow (s.ibufByte s.srcPtr.toNat), by omega⟩
              (unzigzag fun i => quantElement (headerHigh (s.ibufByte s.srcPtr.toNat))
                (Vector.ofFn fun j : Fin (64 * (headerHigh (s.ibufByte s.srcPtr.toNat) + 1)) =>
                  s.ibufByte (s.srcPtr.toNat + 1 + j.val)) i rfl hpq)).setSrcPtr
              (BitVec.ofNat 32 (s.srcPtr.toNat + (1 + 64 * (headerHigh (s.ibufByte s.srcPtr.toNat) + 1)))))
        else .error (.raised ⟨.invalidTableDefinition, 2#8, s.ibufByte s.srcPtr.toNat⟩) s
      else .error (.raised ⟨.invalidTableDefinition, 1#8, s.ibufByte s.srcPtr.toNat⟩) s := by
  unfold loadQuantRecord
  rw [run_get_bind, run_bind_ok (by rw [run_engineRead, if_pos (by omega)])]
  by_cases hpq : headerHigh (s.ibufByte s.srcPtr.toNat) ≤ 1
  · rw [dif_pos hpq, dif_pos hpq]
    by_cases htq : headerLow (s.ibufByte s.srcPtr.toNat) ≤ 3
    · rw [dif_pos htq, dif_pos htq, run_ite]
      by_cases hb : s.srcEnd.toNat < s.srcPtr.toNat + (1 + 64 * (headerHigh (s.ibufByte s.srcPtr.toNat) + 1))
      · rw [if_pos hb, if_pos hb]; rfl
      · rw [if_neg hb, if_neg hb, run_bind_ok (by rw [run_engineReadBytes, if_pos (by omega)]), run_set]
    · rw [dif_neg htq, dif_neg htq]; rfl
  · rw [dif_neg hpq, dif_neg hpq]; rfl

/-- One Huffman record, path by path, where SRC_END is within IBUF (R138, R139). -/
theorem run_loadHuffRecord {s : State} (hin : s.srcEnd.toNat ≤ s.params.ibufBytes)
    (hp : s.srcPtr.toNat < s.srcEnd.toNat) :
    loadHuffRecord.run s =
      let cnt : Vector Byte 16 := Vector.ofFn fun i : Fin 16 => s.ibufByte (s.srcPtr.toNat + 1 + i.val)
      if headerHigh (s.ibufByte s.srcPtr.toNat) ≤ 1 then
        if hth : headerLow (s.ibufByte s.srcPtr.toNat) ≤ 3 then
          if s.srcEnd.toNat < s.srcPtr.toNat + 17 then
            .error (.raised ⟨.invalidTableDefinition, 5#8, s.ibufByte s.srcPtr.toNat⟩) s
          else if 256 < symbolCount cnt then
            .error (.raised ⟨.invalidTableDefinition, 6#8, s.ibufByte s.srcPtr.toNat⟩) s
          else if s.srcEnd.toNat < s.srcPtr.toNat + 17 + symbolCount cnt then
            .error (.raised ⟨.invalidTableDefinition, 5#8, s.ibufByte s.srcPtr.toNat⟩) s
          else if (!codesFit cnt) = true then
            .error (.raised ⟨.invalidTableDefinition, 7#8, s.ibufByte s.srcPtr.toNat⟩) s
          else
            .ok ⟨⟩ ((s.storeHuff (classOf (headerHigh (s.ibufByte s.srcPtr.toNat)))
              ⟨headerLow (s.ibufByte s.srcPtr.toNat), by omega⟩
              (buildTable cnt (Vector.ofFn fun j : Fin (symbolCount cnt) =>
                s.ibufByte (s.srcPtr.toNat + 17 + j.val)).toList)).setSrcPtr
              (BitVec.ofNat 32 (s.srcPtr.toNat + 17 + symbolCount cnt)))
        else .error (.raised ⟨.invalidTableDefinition, 4#8, s.ibufByte s.srcPtr.toNat⟩) s
      else .error (.raised ⟨.invalidTableDefinition, 3#8, s.ibufByte s.srcPtr.toNat⟩) s := by
  unfold loadHuffRecord
  rw [run_get_bind, run_bind_ok (by rw [run_engineRead, if_pos (by omega)])]
  simp only []
  by_cases htc : headerHigh (s.ibufByte s.srcPtr.toNat) ≤ 1
  · rw [if_pos htc, if_pos htc]
    by_cases hth : headerLow (s.ibufByte s.srcPtr.toNat) ≤ 3
    · rw [dif_pos hth, dif_pos hth, run_ite]
      by_cases h1 : s.srcEnd.toNat < s.srcPtr.toNat + 17
      · rw [if_pos h1, if_pos h1]; rfl
      rw [if_neg h1, if_neg h1, run_bind_ok (by rw [run_engineReadBytes, if_pos (by omega)]), run_ite]
      by_cases h2 : 256 < symbolCount (Vector.ofFn fun i : Fin 16 => s.ibufByte (s.srcPtr.toNat + 1 + i.val))
      · rw [if_pos h2, if_pos h2]; rfl
      rw [if_neg h2, if_neg h2, run_ite]
      by_cases h3 : s.srcEnd.toNat <
          s.srcPtr.toNat + 17 + symbolCount (Vector.ofFn fun i : Fin 16 => s.ibufByte (s.srcPtr.toNat + 1 + i.val))
      · rw [if_pos h3, if_pos h3]; rfl
      rw [if_neg h3, if_neg h3, run_ite]
      by_cases h4 : (!codesFit (Vector.ofFn fun i : Fin 16 => s.ibufByte (s.srcPtr.toNat + 1 + i.val))) = true
      · rw [if_pos h4, if_pos h4]; rfl
      rw [if_neg h4, if_neg h4, run_bind_ok (by rw [run_engineReadBytes, if_pos (by omega)]), run_set]
    · rw [dif_neg hth, dif_neg hth]; rfl
  · rw [if_neg htc, if_neg htc]; rfl

/-! ## The loop -/

theorem run_loadRecords_done {record : Engine Unit} {s : State} (h : s.srcEnd.toNat ≤ s.srcPtr.toNat) (n : Nat) :
    (loadRecords record n).run s = .ok () s := by
  cases n with
  | zero => rfl
  | succ n => rw [loadRecords, run_get_bind, if_neg (by omega)]; rfl

theorem run_loadRecords_more {record : Engine Unit} {s : State} (h : s.srcPtr.toNat < s.srcEnd.toNat) (n : Nat) :
    (loadRecords record (n + 1)).run s = (record >>= fun _ => loadRecords record n).run s := by
  rw [loadRecords, run_get_bind, if_pos h]

/-- Where every record moves SRC_PTR on and keeps SRC_END, any number of turns that covers the bytes left does the same. -/
theorem run_loadRecords_enough {record : Engine Unit}
    (hrec : ∀ s t, record.run s = .ok () t → s.srcPtr.toNat < t.srcPtr.toNat ∧ t.srcEnd = s.srcEnd) (n m : Nat)
        (s : State)
    (hn : s.srcEnd.toNat - s.srcPtr.toNat ≤ n) (hm : s.srcEnd.toNat - s.srcPtr.toNat ≤ m) :
    (loadRecords record n).run s = (loadRecords record m).run s := by
  induction n generalizing m s with
  | zero => rw [run_loadRecords_done (by omega), run_loadRecords_done (by omega)]
  | succ n ih =>
    by_cases h : s.srcPtr.toNat < s.srcEnd.toNat
    · obtain ⟨m, rfl⟩ : ∃ k, m = k + 1 := ⟨m - 1, by omega⟩
      rw [run_loadRecords_more h, run_loadRecords_more h, run_bind, run_bind]
      cases hr : record.run s with
      | error e t => rfl
      | ok a t =>
        obtain ⟨h1, h2⟩ := hrec s t hr
        exact ih m t (by rw [h2]; omega) (by rw [h2]; omega)
    · rw [run_loadRecords_done (by omega), run_loadRecords_done (by omega)]

theorem loadQuantRecord_moves (s t : State) (h : loadQuantRecord.run s = .ok () t) :
    s.srcPtr.toNat < t.srcPtr.toNat ∧ t.srcEnd = s.srcEnd := by
  rcases loadQuantRecord_cases s with ⟨f, hc⟩ | ⟨sub, hc⟩ | ⟨q, k, p, hc, h1, h2⟩
  · rw [hc] at h; cases h
  · rw [hc] at h; cases h
  · rw [hc] at h; cases h
    have := s.srcEnd.isLt
    refine ⟨?_, rfl⟩
    simp only [setSrcPtr_srcPtr, BitVec.toNat_ofNat]
    omega

theorem loadHuffRecord_moves (s t : State) (h : loadHuffRecord.run s = .ok () t) :
    s.srcPtr.toNat < t.srcPtr.toNat ∧ t.srcEnd = s.srcEnd := by
  rcases loadHuffRecord_cases s with ⟨f, hc⟩ | ⟨sub, hc⟩ | ⟨c, k, cnt, sy, p, hc, -, -, -, h1, h2⟩
  · rw [hc] at h; cases h
  · rw [hc] at h; cases h
  · rw [hc] at h; cases h
    have := s.srcEnd.isLt
    refine ⟨?_, ?_⟩
    · simp only [setSrcPtr_srcPtr, BitVec.toNat_ofNat]
      omega
    · cases c <;> rfl

/-- The checks of R135 (and R138) pass. -/
theorem run_loadChecks_ok {s : State} {op : Opcode} (ha : s.status.scanActive = false)
    (hin : s.srcEnd.toNat ≤ s.params.ibufBytes)
    (hp : s.srcPtr.toNat ≤ s.srcEnd.toNat) : (loadChecks op).run s = .ok () s := by
  unfold loadChecks
  rw [run_bind_ok (a := ()) (t := s) (by rw [run_requireNoScan, ha]; rfl), run_get_bind, run_failIf, if_neg]
  simp only [decide_eq_true_eq]
  omega

/-- A bad source range raises InvalidConfiguration(1) (R135, R138). -/
theorem run_loadChecks_bad {s : State} {op : Opcode} (ha : s.status.scanActive = false)
    (h : s.params.ibufBytes < s.srcEnd.toNat ∨ s.srcEnd.toNat < s.srcPtr.toNat) :
    (loadChecks op).run s = .error (.raised ⟨.invalidConfiguration, 1#8, 0#8⟩) s := by
  unfold loadChecks
  rw [run_bind_ok (a := ()) (t := s) (by rw [run_requireNoScan, ha]; rfl), run_get_bind, run_failIf, if_pos]
  simpa using h

/-! ## Whole records -/

/-- LOAD_DQT's pseudocode after its checks. -/
theorem run_loadDqtCommand {s : State} (ha : s.status.scanActive = false) (hin : s.srcEnd.toNat ≤ s.params.ibufBytes)
    (hp : s.srcPtr.toNat ≤ s.srcEnd.toNat) :
   loadDqtCommand.run s = (loadRecords loadQuantRecord (s.srcEnd.toNat - s.srcPtr.toNat)).run s := by
  unfold loadDqtCommand; rw [run_bind_ok (run_loadChecks_ok ha hin hp)]; rfl

/-- LOAD_DHT's pseudocode after its checks. -/
theorem run_loadDhtCommand {s : State} (ha : s.status.scanActive = false) (hin : s.srcEnd.toNat ≤ s.params.ibufBytes)
    (hp : s.srcPtr.toNat ≤ s.srcEnd.toNat) :
   loadDhtCommand.run s = (loadRecords loadHuffRecord (s.srcEnd.toNat - s.srcPtr.toNat)).run s := by
  unfold loadDhtCommand; rw [run_bind_ok (run_loadChecks_ok ha hin hp)]; rfl

/-- The two nibbles of a record's first byte (30_encoding R97, R98). -/
theorem header_nibbles {h : Byte} {pq : Nat} {tq : Fin 4} (hpq : pq ≤ 1) (e : h = BitVec.ofNat 8 (16 * pq + tq.val)) :
    headerHigh h = pq ∧ headerLow h = tq.val := by
  subst e; unfold headerHigh headerLow; simp only [BitVec.toNat_ofNat]; omega

/-- A whole quantization record is stored (R136, R137). -/
theorem run_loadQuantRecord_whole {s : State} {pq : Nat} {tq : Fin 4} (hpq : pq ≤ 1)
    (e : s.ibufByte s.srcPtr.toNat = BitVec.ofNat 8 (16 * pq + tq.val))
    (hle : s.srcPtr.toNat + (1 + 64 * (pq + 1)) ≤ s.srcEnd.toNat) (hin : s.srcEnd.toNat ≤ s.params.ibufBytes) :
    ∃ q : QuantTable, (∀ i : Fin 64, q[(zz i).val] =
        if pq = 0 then (s.ibufByte (s.srcPtr.toNat + 1 + i.val)).setWidth 16
        else s.ibufByte (s.srcPtr.toNat + 1 + 2 * i.val) ++ s.ibufByte (s.srcPtr.toNat + 2 + 2 * i.val)) ∧
     loadQuantRecord.run s = .ok ⟨⟩ ((s.storeQuant tq q).setSrcPtr
         (BitVec.ofNat 32 (s.srcPtr.toNat + (1 + 64 * (pq + 1))))) := by
  obtain ⟨h1, h2⟩ := header_nibbles hpq e
  obtain ⟨tq, htl⟩ := tq
  simp only at h2
  subst h2
  rw [run_loadQuantRecord hin (by omega)]
  subst h1
  rw [dif_pos hpq, dif_pos (by omega), if_neg (by omega)]
  refine ⟨_, ?_, rfl⟩
  intro i
  rw [unzigzag_zz]
  unfold quantElement
  split
  · simp
  · simp only [Vector.getElem_ofFn]
    congr 2
    omega

/-- A whole Huffman record with valid counts is stored (R139 to R142). -/
theorem run_loadHuffRecord_whole {s : State} {tc : Nat} {th : Fin 4} (htc : tc ≤ 1)
    (e : s.ibufByte s.srcPtr.toNat = BitVec.ofNat 8 (16 * tc + th.val))
    (cnt : Vector Byte 16) (hcnt : ∀ i : Fin 16, cnt[i.val] = s.ibufByte (s.srcPtr.toNat + 1 + i.val))
        (hn : symbolCount cnt ≤ 256) (hf : codesFit cnt = true)
    (hle : s.srcPtr.toNat + 17 + symbolCount cnt ≤ s.srcEnd.toNat) (hin : s.srcEnd.toNat ≤ s.params.ibufBytes) :
    ∃ sy : List Byte, sy.length = symbolCount cnt ∧ (∀ k, k < symbolCount cnt → sy[k]? = some
        (s.ibufByte (s.srcPtr.toNat + 17 + k))) ∧
     loadHuffRecord.run s = .ok ⟨⟩ ((s.storeHuff (classOf tc) th (buildTable cnt sy)).setSrcPtr
         (BitVec.ofNat 32 (s.srcPtr.toNat + 17 + symbolCount cnt))) := by
  obtain ⟨h1, h2⟩ := header_nibbles htc e
  obtain ⟨th, htl⟩ := th
  simp only at h2
  subst h2
  have hc : Vector.ofFn (fun i : Fin 16 => s.ibufByte (s.srcPtr.toNat + 1 + i.val)) = cnt := by
    apply Vector.ext; intro i hi; rw [Vector.getElem_ofFn]; exact (hcnt ⟨i, hi⟩).symm
  rw [run_loadHuffRecord hin (by omega)]
  simp only []
  rw [hc]
  subst h1
  rw [if_pos htc, dif_pos (by omega), if_neg (by omega), if_neg (by omega), if_neg (by omega), if_neg (by simp [hf])]
  refine ⟨_, ?_, ?_, rfl⟩
  · simp
  · intro k hk; simp [hk]

/-! ## The invariant -/

theorem starts_storeQuant {s : State} (h : Starts s) (t : Fin 4) (q : QuantTable) (p : Word)
    (ha : s.status.scanActive = false) :
    Starts ((s.storeQuant t q).setSrcPtr p) := by
  obtain ⟨hm, hs, ht, hsc, hr⟩ := h.inv
  have hna : s.status.scanActive = true → False := fun k => by cases ha.symm.trans k
  exact ⟨⟨hm, hs, ht, fun k => (hna k).elim, hr⟩, h.noErr, h.notDone⟩

theorem tableDefined_define {v : BitVec 4} {t k : Fin 4} (h : tableDefined (defineTable v t) k.val = true) :
    k = t ∨ tableDefined v k.val = true := by
  revert v t k
  unfold tableDefined defineTable
  decide

/-- A table that LOAD_DHT builds is sound (R139, R141, R142). -/
theorem huffSound_buildTable {cnt : Vector Byte 16} {symbols : List Byte} (hf : codesFit cnt = true)
    (hn : symbolCount cnt ≤ 256) (hl : symbols.length = symbolCount cnt) : HuffSound (buildTable cnt symbols) :=
  ⟨(codesFit_eq cnt).mp hf, by rw [← symbolCount_eq]; exact hn, by rw [← symbolCount_eq]; exact hl, rfl⟩

theorem starts_storeHuff {s : State} (h : Starts s) (c : HuffClass) (t : Fin 4) {b : HuffTable} (hb : HuffSound b)
    (p : Word)
    (ha : s.status.scanActive = false) : Starts ((s.storeHuff c t b).setSrcPtr p) := by
  obtain ⟨hm, hs, ht, hsc, hr⟩ := h.inv
  have hna : s.status.scanActive = true → False := fun k => by cases ha.symm.trans k
  have hset : ∀ (v : Vector HuffTable 4) (w : BitVec 4) (k : Fin 4), tableDefined (defineTable w t) k.val = true →
      (tableDefined w k.val = true → HuffSound v[k.val]) → HuffSound (v.set t.val b)[k.val] := by
    intro v w k hd hv
    rcases tableDefined_define hd with rfl | hd'
    · rw [Vector.getElem_set_self]; exact hb
    · rw [Vector.getElem_set]
      split
      · exact hb
      · exact hv hd'
  cases c with
  | dc =>
    refine ⟨⟨hm, hs, fun k => ⟨fun hd => ?_, (ht k).2⟩, fun k => (hna k).elim, hr⟩, h.noErr, h.notDone⟩
    exact hset s.dcTable s.tableValid.dv k hd (ht k).1
  | ac =>
    refine ⟨⟨hm, hs, fun k => ⟨(ht k).1, fun hd => ?_⟩, fun k => (hna k).elim, hr⟩, h.noErr, h.notDone⟩
    exact hset s.acTable s.tableValid.av k hd (ht k).2

/-- Running records keeps the start of a command, or raises where the record began. -/
theorem loadRecords_inv {record : Engine Unit}
    (hrec : ∀ s, Starts s → s.status.scanActive = false → s.srcEnd.toNat ≤ s.params.ibufBytes →
      s.srcPtr.toNat < s.srcEnd.toNat →
      (∃ e, record.run s = .error (.raised e) s) ∨
      ∃ t, record.run s = .ok () t ∧ Starts t ∧ t.status.scanActive = false ∧ t.srcEnd.toNat ≤ t.params.ibufBytes)
    (n : Nat) {s : State} (h : Starts s) (ha : s.status.scanActive = false)
        (hin : s.srcEnd.toNat ≤ s.params.ibufBytes) :
    (∃ t, (loadRecords record n).run s = .ok () t ∧ Starts t) ∨
    ∃ e t, (loadRecords record n).run s = .error (.raised e) t ∧ Starts t := by
  induction n generalizing s with
  | zero => exact .inl ⟨s, rfl, h⟩
  | succ n ih =>
    by_cases hp : s.srcPtr.toNat < s.srcEnd.toNat
    · rw [run_loadRecords_more hp]
      rcases hrec s h ha hin hp with ⟨e, he⟩ | ⟨t, ht, h1, h2, h3⟩
      · exact .inr ⟨e, s, run_bind_error he, h⟩
      · rw [run_bind_ok ht]; exact ih h1 h2 h3
    · exact .inl ⟨s, run_loadRecords_done (by omega) _, h⟩

theorem loadQuantRecord_inv (s : State) (h : Starts s) (ha : s.status.scanActive = false)
    (hin : s.srcEnd.toNat ≤ s.params.ibufBytes) (hp : s.srcPtr.toNat < s.srcEnd.toNat) :
    (∃ e, loadQuantRecord.run s = .error (.raised e) s) ∨
    ∃ t, loadQuantRecord.run s = .ok () t ∧ Starts t ∧ t.status.scanActive = false ∧
        t.srcEnd.toNat ≤ t.params.ibufBytes := by
  rw [run_loadQuantRecord hin hp]
  by_cases hpq : headerHigh (s.ibufByte s.srcPtr.toNat) ≤ 1
  · rw [dif_pos hpq]
    by_cases htq : headerLow (s.ibufByte s.srcPtr.toNat) ≤ 3
    · rw [dif_pos htq]
      split
      · exact .inl ⟨_, rfl⟩
      · exact .inr ⟨_, rfl, starts_storeQuant h _ _ _ ha, ha, hin⟩
    · rw [dif_neg htq]; exact .inl ⟨_, rfl⟩
  · rw [dif_neg hpq]; exact .inl ⟨_, rfl⟩

theorem loadHuffRecord_inv (s : State) (h : Starts s) (ha : s.status.scanActive = false)
    (hin : s.srcEnd.toNat ≤ s.params.ibufBytes) (hp : s.srcPtr.toNat < s.srcEnd.toNat) :
    (∃ e, loadHuffRecord.run s = .error (.raised e) s) ∨
    ∃ t, loadHuffRecord.run s = .ok () t ∧ Starts t ∧ t.status.scanActive = false ∧
        t.srcEnd.toNat ≤ t.params.ibufBytes := by
  have stored : ∀ (c : HuffClass) (k : Fin 4) (b : HuffTable), HuffSound b → ∀ p : Word, ∃ t,
      (.ok ⟨⟩ ((s.storeHuff c k b).setSrcPtr p) : EStateM.Result Stop State PUnit) = .ok () t ∧ Starts t ∧
        t.status.scanActive = false ∧ t.srcEnd.toNat ≤ t.params.ibufBytes := fun c k b hb p =>
    ⟨_, rfl, starts_storeHuff h c k hb p ha, by cases c <;> exact ha, by cases c <;> exact hin⟩
  rw [run_loadHuffRecord hin hp]
  simp only []
  by_cases htc : headerHigh (s.ibufByte s.srcPtr.toNat) ≤ 1
  · rw [if_pos htc]
    by_cases hth : headerLow (s.ibufByte s.srcPtr.toNat) ≤ 3
    · rw [dif_pos hth]
      split
      · exact .inl ⟨_, rfl⟩
      split
      · exact .inl ⟨_, rfl⟩
      rename_i hn
      split
      · exact .inl ⟨_, rfl⟩
      split
      · exact .inl ⟨_, rfl⟩
      rename_i hf
      have hb := huffSound_buildTable (by simpa using hf) (by omega) (Vector.length_toList (xs := Vector.ofFn fun j :
        Fin (symbolCount (Vector.ofFn fun i : Fin 16 => s.ibufByte (s.srcPtr.toNat + 1 + i.val))) =>
          s.ibufByte (s.srcPtr.toNat + 17 + j.val)))
      exact .inr (stored _ _ _ hb _)
    · rw [dif_neg hth]; exact .inl ⟨_, rfl⟩
  · rw [if_neg htc]; exact .inl ⟨_, rfl⟩

/-- A load from the start of a command. -/
theorem runLoad_inv {s : State} (h : Starts s) (op : Opcode) {record : Engine Unit}
    (hrec : ∀ s, Starts s → s.status.scanActive = false → s.srcEnd.toNat ≤ s.params.ibufBytes →
      s.srcPtr.toNat < s.srcEnd.toNat →
      (∃ e, record.run s = .error (.raised e) s) ∨
      ∃ t, record.run s = .ok () t ∧ Starts t ∧ t.status.scanActive = false ∧ t.srcEnd.toNat ≤ t.params.ibufBytes) :
    ∃ u, runCommand (do loadChecks op; loadAll record) s = .next u ∧ u.Inv := by
  cases ha : s.status.scanActive with
  | true =>
    refine ⟨_, runCommand_raised (e := ⟨.invalidCommand, 3#8, op.toByte⟩) (t := s) ?_, h.raises _⟩
    exact run_bind_error (by unfold loadChecks; exact run_bind_error (by rw [run_requireNoScan, ha]; rfl))
  | false =>
    by_cases hb : s.params.ibufBytes < s.srcEnd.toNat ∨ s.srcEnd.toNat < s.srcPtr.toNat
    · exact ⟨_, runCommand_raised (run_bind_error (run_loadChecks_bad ha hb)), h.raises _⟩
    · have hrun : (do loadChecks op; loadAll record : Engine Unit).run s =
          (loadRecords record (s.srcEnd.toNat - s.srcPtr.toNat)).run s := by
        rw [run_bind_ok (run_loadChecks_ok ha (by omega) (by omega))]
        rfl
      rcases loadRecords_inv hrec (s.srcEnd.toNat - s.srcPtr.toNat) h ha (by omega) with ⟨t, ht, hs⟩ | ⟨e, t, ht, hs⟩
      · exact ⟨_, runCommand_ok (by rw [hrun, ht]), inv_complete hs.inv hs.noErr⟩
      · exact ⟨_, runCommand_raised (by rw [hrun, ht]), hs.raises e⟩

theorem execLoadDqt_inv {s : State} (h : Starts s) : ∃ u, execLoadDqt s = .next u ∧ u.Inv :=
  runLoad_inv h .loadDqt loadQuantRecord_inv

theorem execLoadDht_inv {s : State} (h : Starts s) : ∃ u, execLoadDht s = .next u ∧ u.Inv :=
  runLoad_inv h .loadDht loadHuffRecord_inv

end Sys2Proof.Machine
end

