-- ==== Sys2Proof/Laws/Commands.lean ====
section
/-! SUPPORT. The commands after their checks: READ_BITS and HUFF_DECODE on their operands, BEGIN_SCAN's checks as the list of
Safety.lean, DECODE_MCU and DECODE_SCAN in a scan, the loop of DECODE_SCAN on coded data, and
the grid after an error. -/

namespace Sys2Proof.Machine

/-! ## HUFF_DECODE (41_tables R147) -/

theorem huffClass_classByte (c : HuffClass) : huffClass (classByte c) = pure c := by cases c <;> rfl

/-- A table that is defined is picked. -/
theorem run_definedHuffTable (c : HuffClass) (t : Fin 4) (s : State) (hd : s.tableValid.huff c t.val = true) :
    (definedHuffTable c (BitVec.ofNat 8 t.val)).run s = .ok t s := by
  have ht : (BitVec.ofNat 8 t.val).toNat = t.val := by simp; omega
  simp only [definedHuffTable, run_get_bind, ht, t.isLt, dite_true, hd, if_true, run_pure]

/-- HUFF_DECODE on a defined table in a scan: the symbol goes to RESULT. -/
theorem run_huffDecodeCommand (c : HuffClass) (t : Fin 4) {s : State} (ha : s.status.scanActive = true)
    (hd : s.tableValid.huff c t.val = true) :
    (huffDecodeCommand (classByte c) (BitVec.ofNat 8 t.val)).run s =
      match (huffSymbol (s.huffTable c t) 1#8 (BitVec.ofNat 8 t.val)).run s with
      | .ok v u => .ok () (u.setResult (v.setWidth 32))
      | .error e u => .error e u := by
  unfold huffDecodeCommand
  rw [huffClass_classByte, run_pure_bind, run_bind_ok (a := ()) (t := s) (by rw [run_requireScan, ha, if_pos rfl]),
    run_bind_ok (run_definedHuffTable c t s hd), run_get_bind, run_bind]
  cases (huffSymbol (s.huffTable c t) 1#8 (BitVec.ofNat 8 t.val)).run s with
  | ok v u => rfl
  | error e u => rfl

/-! ## The sample grid after an error (60_exceptions R220) -/

/-- Error entry with the sample grid forgotten keeps every byte of OBUF outside the grid. -/
theorem enterError_forgetGrid (s : State) (e : Raise) :
    ∃ m, (s.enterError e).forgetGrid = { s.afterError e.code.toByte e.sub e.info with obuf := m } ∧
      ∀ a, s.OutsideGrid a → m.read .obuf a = s.obufByte a := by
  refine ⟨_, rfl, fun a ha => ?_⟩
  rw [read_forget_outside]
  · rfl
  · simp only [State.gridBase, State.gridBytes, State.enterError]
    simp only [State.OutsideGrid] at ha
    omega

/-! ## BEGIN_SCAN (42_control R166) -/

/-- What the first line of a list of checks that raises, raises. -/
def firstRaise (l : List (Bool × Byte × Byte × Byte)) : Option (Byte × Byte × Byte) :=
  l.findSome? fun c => if c.1 then some c.2 else none

/-- Code, sub-code and INFO of a raise. -/
def Raise.bytes (e : Raise) : Byte × Byte × Byte := (e.code.toByte, e.sub, e.info)

/-- The components of the frame, by their index. -/
theorem frameComps_eq (s : State) : s.frameComps = s.components := by
  unfold State.frameComps State.components
  rcases (by omega : s.frameNcomp.toNat = 0 ∨ s.frameNcomp.toNat = 1 ∨ s.frameNcomp.toNat = 2 ∨ 3 ≤ s.frameNcomp.toNat) with h | h | h | h
  · rw [h]; rfl
  · rw [h]; rfl
  · rw [h]; rfl
  · rw [List.take_of_length_le (by simp; omega), List.filter_eq_self.mpr]; intro a _; have := a.isLt; simp; omega

theorem tableDefined_big (v : BitVec 4) (k : Nat) : (decide (3 < k ∨ v.getLsbD k = false)) = !tableDefined v k := by
  unfold tableDefined
  by_cases h : 3 < k
  · have : v.getLsbD k = false := BitVec.getLsbD_of_ge _ _ (by omega)
    simp [h, this]
  · simp [h]

theorem firstRaise_append (a b) : firstRaise (a ++ b) = (firstRaise a).or (firstRaise b) := by
  simp [firstRaise, List.findSome?_append]

theorem sampling_first (s : State) (l : List (Fin 3)) :
   firstRaise (l.map fun i => (decide (s.comp[i.val].h ≠ 1#4 ∨ s.comp[i.val].v ≠ 1#4), 0x02#8, 4#8,
       BitVec.ofNat 8 i.val)) =
   (l.find? fun i => !s.samplingOk i).map fun i => Raise.bytes ⟨.unsupportedFeature, 4#8, compInfo i⟩ := by
  induction l with
  | nil => rfl
  | cons i l ih =>
    simp only [firstRaise, List.map_cons, List.findSome?_cons, List.find?_cons] at ih ⊢
    have : (decide (s.comp[i.val].h ≠ 1#4 ∨ s.comp[i.val].v ≠ 1#4)) = !s.samplingOk i := by
      simp [State.samplingOk]
      grind
    rw [this]
    cases s.samplingOk i with
    | true => simpa using ih
    | false => rfl

theorem tables_first (s : State) (l : List (Fin 3)) :
   firstRaise (l.flatMap fun i =>
    [(decide (3 < s.comp[i.val].tq.toNat ∨ s.tableValid.qv.getLsbD s.comp[i.val].tq.toNat = false),
      0x03#8, 1#8, BitVec.ofNat 8 i.val),
     (decide (3 < s.comp[i.val].td.toNat ∨ s.tableValid.dv.getLsbD s.comp[i.val].td.toNat = false),
      0x03#8, 2#8, BitVec.ofNat 8 i.val),
     (decide (3 < s.comp[i.val].ta.toNat ∨ s.tableValid.av.getLsbD s.comp[i.val].ta.toNat = false),
      0x03#8, 3#8, BitVec.ofNat 8 i.val)]) =
   (l.findSome? s.tableError).map Raise.bytes := by
  induction l with
  | nil => rfl
  | cons i l ih =>
    rw [List.flatMap_cons, firstRaise_append, ih, List.findSome?_cons]
    simp only [tableDefined_big, firstRaise, List.findSome?_cons, List.findSome?_nil, State.tableError,
        TableValid.quant, TableValid.huff]
    by_cases h1 : tableDefined s.tableValid.qv s.comp[i.val].tq.toNat = true <;>
      by_cases h2 : tableDefined s.tableValid.dv s.comp[i.val].td.toNat = true <;>
      by_cases h3 : tableDefined s.tableValid.av s.comp[i.val].ta.toNat = true <;>
      simp [h1, h2, h3, Raise.bytes, ErrorCode.toByte, compInfo]

/-- BEGIN_SCAN raises what the first failing line of `beginScanChecks` says. -/
theorem scanError_checks (s : State) : firstRaise s.beginScanChecks = s.scanError.map Raise.bytes := by
  unfold State.beginScanChecks
  simp only [firstRaise_append]
  rw [← frameComps_eq, sampling_first, tables_first]
  unfold State.scanError
  simp only [firstRaise, List.findSome?_cons, List.findSome?_nil]
  cases s.status.scanActive
  case true => rfl
  cases s.status.frameValid
  case false => rfl
  by_cases h1 : s.frameType.sof = 0xC0#8
  case neg => simp [h1]; rfl
  by_cases h2 : s.frameType.p = 8#8
  case neg => simp [h1, h2]; rfl
  by_cases h3 : s.frameNcomp ≠ 1#8 ∧ s.frameNcomp ≠ 3#8
  case pos => simp [h1, h2, h3]; rfl
  have h3' : (s.frameNcomp != 1#8 && s.frameNcomp != 3#8) = false := by simp; grind
  simp only [h1, h2, h3, h3', ne_eq, not_true, decide_false, Bool.not_true, bne_self_eq_false, if_false,
      Bool.false_eq_true, Option.none_or]
  cases hf : s.frameComps.find? fun i => !s.samplingOk i with
  | some i => rfl
  | none =>
    simp only [Option.map_none, Option.none_or]
    by_cases h4 : s.frameSize.x = 0#16 ∨ s.frameSize.y = 0#16
    case pos => 
      have : (s.frameSize.x == 0#16 || s.frameSize.y == 0#16) = true := by simpa using h4
      simp [h4, this]; rfl
    have : (s.frameSize.x == 0#16 || s.frameSize.y == 0#16) = false := by simpa using h4
    simp only [h4, this, decide_false, if_false, Bool.false_eq_true, Option.none_or]
    cases ht : s.frameComps.findSome? s.tableError with
    | some e => rfl
    | none =>
      simp only [Option.map_none, Option.none_or]
      by_cases h5 : s.params.ibufBytes < s.inBase.toNat + s.inLen.toNat
      case pos => simp [h5]; rfl
      by_cases h6 : s.params.obufBytes < s.outBase.toNat + 3 * s.frameSize.x.toNat * s.frameSize.y.toNat
      case pos => 
        have : s.params.obufBytes < s.gridBase + s.gridBytes := h6
        simp [h5, h6, this]; rfl
      have : ¬ s.params.obufBytes < s.gridBase + s.gridBytes := h6
      simp [h5, h6, this]

/-! ## DECODE_MCU and DECODE_SCAN (42_control R170, R172) -/

theorem run_decodeMcuCommand {s : State} (h : s.status.scanActive = true) :
    decodeMcuCommand.run s = decodeMcuBody.run s := by
  unfold decodeMcuCommand
  exact run_bind_ok (a := ()) (t := s) (by rw [run_requireScan, h, if_pos rfl])

theorem run_decodeScanCommand {s : State} (h : s.status.scanActive = true) :
    decodeScanCommand.run s = (decodeRemaining s.mcusLeft).run s := by
  unfold decodeScanCommand
  rw [run_bind_ok (a := ()) (t := s) (by rw [run_requireScan, h, if_pos rfl]), run_get_bind]

theorem run_decodeRemaining_active {s : State} (h : s.status.scanActive = true) (n : Nat) :
   (decodeRemaining (n+1)).run s = (decodeMcuBody >>= fun _ => decodeRemaining n).run s := by
  rw [decodeRemaining, run_get_bind, if_pos h]

theorem run_decodeRemaining_inactive {s : State} (h : s.status.scanActive = false) (n : Nat) :
   (decodeRemaining n).run s = .ok () s := by
  cases n with
  | zero => rfl
  | succ n => rw [decodeRemaining, run_get_bind, if_neg (by simp [h])]; rfl

/-- A scan goes on only while MCU_INDEX + 1 is not MCU_TOTAL. -/
theorem advanceMcu_active {t : State} (h : t.advanceMcu.status.scanActive = true) :
    ¬ t.mcuIndex + 1#32 = t.mcuTotal := by
  intro he
  unfold State.advanceMcu at h
  rw [if_pos he] at h
  unfold State.probeMarker at h
  split at h <;> cases h

/-- The probe reports a marker exactly when one comes next (40_bit_reader R127). -/
theorem probeMarker_iff (s : State) (hm : s.status.markerSeen = false) (hi : s.brPos.toNat ≤ s.inLen.toNat) :
  (s.probeMarker.status.markerSeen = true ↔ ∃ m more, s.payloadLeft = 0xFF#8 :: m :: more ∧ m ≠ 0#8 ∧
      s.probeMarker.status.markerCode = m) := by
  unfold State.probeMarker
  by_cases h : s.markerNext = true
  · rw [if_pos (by simp [hm, h])]
    simp only [State.markerNext, Bool.and_eq_true, decide_eq_true_eq, beq_iff_eq, bne_iff_ne] at h
    rw [payloadLeft_next_next h.1.1, h.1.2]
    simp only [State.setMarker, true_iff]
    exact ⟨_, _, rfl, h.2, rfl⟩
  · rw [if_neg (by simp [h])]
    rw [hm]
    constructor
    · intro h; cases h
    · rintro ⟨m, more, h1, h2, -⟩
      exfalso; apply h
      have hl : 1 + s.brPos.toNat < s.inLen.toNat := by
        have := congrArg List.length h1
        simp only [State.payloadLeft, List.length_map, List.length_range, List.length_cons] at this
        omega
      rw [payloadLeft_next_next (by omega)] at h1
      simp only [List.cons.injEq] at h1
      simp only [State.markerNext, Bool.and_eq_true, decide_eq_true_eq, beq_iff_eq, bne_iff_ne]
      exact ⟨⟨by omega, h1.1⟩, by rw [h1.2.1]; exact h2⟩

/-- What the last MCU's advance says of a marker (42_control R170, 40_bit_reader R127). -/
theorem advanceMcu_probe {s : State} (hm : s.status.markerSeen = false) (hi : s.brPos.toNat ≤ s.inLen.toNat)
    (hl : s.mcuIndex + 1#32 = s.mcuTotal) :
    (s.advanceMcu.status.markerSeen = false → s.advanceMcu.status.markerCode = s.status.markerCode) ∧
    (s.advanceMcu.status.markerSeen = true ↔ ∃ m more, s.advanceMcu.payloadLeft = 0xFF#8 :: m :: more ∧ m ≠ 0#8 ∧
      s.advanceMcu.status.markerCode = m) := by
  have hp := probeMarker_iff (((s.setMcuIndex (s.mcuIndex + 1#32)).setScanActive false).setScanDone true) hm hi
  unfold State.advanceMcu
  rw [if_pos hl]
  unfold State.probeMarker at hp ⊢
  split at hp <;> rename_i hc
  · rw [if_pos hc]; exact ⟨fun h => (by cases h), hp⟩
  · rw [if_neg hc]; exact ⟨fun _ => rfl, hp⟩

theorem mcuCoded_congr {s t : State} (h1 : t.comp = s.comp) (h2 : t.dcTable = s.dcTable) (h3 : t.acTable = s.acTable)
    (h4 : t.quant = s.quant)
   {l p bits fs p'} (h : McuCoded s l p bits fs p') : McuCoded t l p bits fs p' := by
  induction h with
  | done p => exact .done p
  | block hq hd ha hb _ ih =>
    exact .block (by rw [h1]; exact hq) (by rw [h1]; exact hd) (by rw [h1]; exact ha)
      (by rw [h2, h3, h4]; exact hb) ih

/-- A pixel of the image lies in an MCU of the frame (42_control R165). -/
theorem mcuOf_lt {s : State} {x y : Nat} (hx : x < s.frameSize.x.toNat) (hy : y < s.frameSize.y.toNat) :
    s.mcuOf x y < s.mcuCount := by
  unfold State.mcuOf State.mcuCount ceilDiv8
  have h1 : y / 8 + 1 ≤ (s.frameSize.y.toNat + 7) / 8 := by omega
  have h2 : x / 8 < (s.frameSize.x.toNat + 7) / 8 := by omega
  have := Nat.mul_le_mul_right ((s.frameSize.x.toNat + 7) / 8) h1
  rw [Nat.succ_mul] at this
  omega

/-- The loop of DECODE_SCAN on coded MCUs that end the frame. -/
theorem decodeRemaining_coded (s0 : State) {mcus : List (List Coefs)}
    {p : Vector Word 3} {bits rest : List Bool} {pred : Vector Word 3}
    (hs : ScanCoded s0 p bits mcus pred) (s : State) (hp : s.pred = p)
    (hc : s.comp = s0.comp) (hd : s.dcTable = s0.dcTable) (ha : s.acTable = s0.acTable) (hq : s.quant = s0.quant)
        (hn : s.frameNcomp = s0.frameNcomp)
    (htr : TurnReady s) (hact : s.status.scanActive = true) (hdone : s.status.scanDone = false) (hne : mcus ≠ [])
    (hlen : s.mcuIndex.toNat + mcus.length = s.mcuTotal.toNat) (hb : s.streamBits = bits ++ rest) (n : Nat)
        (hnl : mcus.length ≤ n) :
    ∃ u, (decodeRemaining n).run s = .ok () u ∧ u.streamBits = rest ∧ s.Fetched u ∧ u.brBits.cnt.toNat < 8 ∧
      (u.status.markerSeen = false → u.status.markerCode = s.status.markerCode) ∧
      (u.status.markerSeen = true ↔ ∃ m more, u.payloadLeft = 0xFF#8 :: m :: more ∧ m ≠ 0#8 ∧ u.status.markerCode = m) ∧
      u = { s with brPos := u.brPos, brBits := u.brBits, pred := pred, obuf := u.obuf, mcuIndex := s.mcuTotal
                   status := { s.status with scanActive := false, scanDone := true
                                             markerSeen := u.status.markerSeen, markerCode := u.status.markerCode } } ∧
      (∀ x y, x < s.frameSize.x.toNat → y < s.frameSize.y.toNat →
        if s.mcuIndex.toNat ≤ s.mcuOf x y ∧ s.mcuOf x y < s.mcuTotal.toNat then
          ∃ coefs, mcus[s.mcuOf x y - s.mcuIndex.toNat]? = some coefs ∧ some (u.pixel x y) = mcuColour coefs x y
        else u.pixel x y = s.pixel x y) ∧
      ∀ a, s.OutsideGrid a → u.obufByte a = s.obufByte a := by
  induction hs generalizing s n with
  | done p => exact absurd rfl hne
  | @mcu p p' p'' bits1 rest1 fs mcus hm hs ih =>
    obtain ⟨n, rfl⟩ : ∃ k, n = k + 1 := ⟨n - 1, by simp at hnl; omega⟩
    rw [run_decodeRemaining_active hact]
    have hcomps : s.frameComps = s0.components := by rw [frameComps_eq, State.components, hn]; rfl
    have hm' : McuCoded s s.frameComps s.pred bits1 fs p' := by rw [hp, hcomps]; exact mcuCoded_congr hc hd ha hq hm
    rw [List.append_assoc] at hb
    obtain ⟨t, hready, hts, htf, hcnt, hfet, hrun⟩ := decodeMcuBody_coded htr hm' hb
    have hfet := fetched_afterMcu fs hfet htf
    obtain ⟨pos, b, rfl⟩ := htf
    rw [run_bind_ok hrun]
    have hlen' : fs.length = 1 ∨ fs.length = 3 := by rw [mcuCoded_length hm']; exact htr.comps
    have hpix := fun x y (hx : x < s.frameSize.x.toNat) (hy : y < s.frameSize.y.toNat) => pixel_currentMcu
        (s := s) hlen' hx hy
    simp only [← afterMcu_pixel s { s with brPos := pos, brBits := b, pred := p' } p' fs] at hpix
    have hout : ∀ a, s.OutsideGrid a →
        (s.afterMcu { s with brPos := pos, brBits := b, pred := p' } p' fs).obufByte a = s.obufByte a := by
      intro a hout
      have : (s.obuf.writeAll (s.currentMcuCells fs)).read .obuf a = s.obuf.read .obuf a := by
        apply read_writeAll_outside
        intro c hc he
        exact mcuCells_in_grid hc (by rw [he]; exact hout)
      unfold State.obufByte State.afterMcu
      rw [advanceMcu_obuf]; exact this
    have hlt := s.mcuTotal.isLt
    have hidx : (s.mcuIndex + 1#32).toNat = s.mcuIndex.toNat + 1 := by
      simp only [BitVec.toNat_add, BitVec.toNat_ofNat, List.length_cons] at hlen ⊢; omega
    cases mcus with
    | nil =>
      cases hs
      have heq : s.mcuIndex + 1#32 = s.mcuTotal := by
        apply BitVec.eq_of_toNat_eq; rw [hidx]; simpa using hlen
      have hi : (s.afterMcu { s with brPos := pos, brBits := b, pred := p' } p' fs).status.scanActive = false := by
        unfold State.afterMcu State.advanceMcu
        rw [if_pos (show s.mcuIndex + 1#32 = s.mcuTotal from heq)]
        unfold State.probeMarker
        split <;> rfl
      rw [run_decodeRemaining_inactive hi]
      have hprobe := advanceMcu_probe (s := { s with brPos := pos, brBits := b, pred := p'
                                                     obuf := s.obuf.writeAll (s.currentMcuCells fs) })
        hready.noMarker hready.pos heq
      refine ⟨_, rfl, ?_, hfet, by unfold State.afterMcu; rw [advanceMcu_brBits]; exact hcnt, hprobe.1, hprobe.2, ?_, ?_, hout⟩
      · rw [show rest = State.streamBits { s with brPos := pos, brBits := b, pred := p' } from by simpa using hts.symm]
        apply streamBits_congr <;> simp [State.afterMcu]
      · unfold State.afterMcu State.advanceMcu
        rw [if_pos (show s.mcuIndex + 1#32 = s.mcuTotal from heq)]
        unfold State.probeMarker
        split <;> simp [State.setMcuIndex, State.setScanActive, State.setScanDone, State.setMarker, heq]
      · intro x y hx hy
        have := hpix x y hx hy
        simp only [List.length_cons, List.length_nil] at hlen
        split at this
        · rename_i he
          rw [if_pos (by omega)]
          exact ⟨fs, by rw [he, Nat.sub_self]; rfl, this⟩
        · rename_i he
          rw [if_neg (by omega)]; exact this
    | cons fs' mcus =>
      simp only [List.length_cons] at hlen hnl
      have hneq : ¬ s.mcuIndex + 1#32 = s.mcuTotal := by
        intro h; rw [← h, hidx] at hlen; omega
      have hst : s.afterMcu { s with brPos := pos, brBits := b, pred := p' } p' fs =
          { s with brPos := pos, brBits := b, pred := p', obuf := s.obuf.writeAll (s.currentMcuCells fs)
                   mcuIndex := s.mcuIndex + 1#32 } := by
        unfold State.afterMcu State.advanceMcu
        rw [if_neg (show ¬ s.mcuIndex + 1#32 = s.mcuTotal from hneq)]
        rfl
      rw [hst] at hpix hout hfet ⊢
      obtain ⟨u, hu, hus, huf, huc, hum, hup', hue, hup, huo⟩ := ih
        { s with brPos := pos, brBits := b, pred := p', obuf := s.obuf.writeAll (s.currentMcuCells fs)
                 mcuIndex := s.mcuIndex + 1#32 }
        rfl hc hd ha hq hn ⟨⟨hready.noMarker, hready.cnt, hready.pos, hready.payload⟩, htr.comps, htr.sound,
            htr.grid⟩ hact hdone (by simp)
        (by show (s.mcuIndex + 1#32).toNat + _ = _; rw [hidx]; simp only [List.length_cons]; omega) hts n
            (by simp only [List.length_cons]; omega)
      refine ⟨u, hu, hus, fetched_composes.trans hfet huf, huc, hum, hup', ?_, ?_, ?_⟩
      · rw [hue]
      · intro x y hx hy
        have h1 := hpix x y hx hy
        have h2 := hup x y hx hy
        have e1 : State.mcuOf
            { s with brPos := pos, brBits := b, pred := p', obuf := s.obuf.writeAll (s.currentMcuCells fs)
                     mcuIndex := s.mcuIndex + 1#32 } x y = s.mcuOf x y := rfl
        rw [e1] at h2
        simp only [hidx] at h2
        split at h1
        · rename_i he
          rw [if_neg (by omega)] at h2
          rw [if_pos (by omega), h2]
          exact ⟨fs, by rw [he, Nat.sub_self]; rfl, h1⟩
        · rename_i he
          split at h2
          · rename_i hg
            rw [if_pos (by omega)]
            obtain ⟨c, hc1, hc2⟩ := h2
            refine ⟨c, ?_, hc2⟩
            rw [show s.mcuOf x y - s.mcuIndex.toNat = (s.mcuOf x y - (s.mcuIndex.toNat + 1)) + 1 by omega]
            exact hc1
          · rw [if_neg (by omega), h2, h1]
      · intro a ha
        rw [huo a ha, hout a ha]

end Sys2Proof.Machine
end

