-- ==== Sys2Proof/Laws/Failing.lean ====
section
/-! SUPPORT. The block decoder on streams that go wrong (Safety.lean, after spec/43_block_decoder.md R181, R185, R186,
R188): which bits it consumes, what it raises and which predictor it leaves. -/

namespace Sys2Proof.Machine

/-! ## How a block fails -/

/-- The run raises the error given, the stream goes on with `rest`, and the end state is `t` but for BR_POS and BR_BITS. -/
def FailsAt {α : Type} (t : State) (err sub info : Byte) (rest : List Bool) (r : EStateM.Result Stop State α) : Prop :=
  ∃ code u, code.toByte = err ∧ r = .error (.raised ⟨code, sub, info⟩) u ∧ u.streamBits = rest ∧ ReadFrame t u

/-- The run meets the end of the stream, and until then `t` changed in BR_POS and BR_BITS only. -/
def EndsFrom {α : Type} (t : State) (info : Byte) (r : EStateM.Result Stop State α) : Prop :=
  ∃ u, ReadFrame t u ∧ EndsAt u info r

theorem FailsAt.bind {α β : Type} {m : Engine α} {f : α → Engine β} {s t : State} {err sub info : Byte}
    {rest : List Bool} (h : FailsAt t err sub info rest (m.run s)) : FailsAt t err sub info rest ((m >>= f).run s) := by
  obtain ⟨code, u, h1, h2, h3⟩ := h
  exact ⟨code, u, h1, run_bind_error h2, h3⟩

theorem EndsFrom.bind {α β : Type} {m : Engine α} {f : α → Engine β} {s t : State} {info : Byte}
    (h : EndsFrom t info (m.run s)) : EndsFrom t info ((m >>= f).run s) := by
  obtain ⟨u, h1, h2⟩ := h
  exact ⟨u, h1, h2.bind⟩

theorem FailsAt.from {α : Type} {s t : State} {err sub info : Byte} {rest : List Bool} {r : EStateM.Result Stop State α}
    (hf : ReadFrame s t) (h : FailsAt t err sub info rest r) : FailsAt s err sub info rest r := by
  obtain ⟨code, u, h1, h2, h3, h4⟩ := h
  exact ⟨code, u, h1, h2, h3, hf.trans h4⟩

theorem EndsFrom.from {α : Type} {s t : State} {info : Byte} {r : EStateM.Result Stop State α}
    (hf : ReadFrame s t) (h : EndsFrom t info r) : EndsFrom s info r := by
  obtain ⟨u, h1, h2⟩ := h
  exact ⟨u, hf.trans h1, h2⟩

/-- A run that meets the end of the stream raises, and after error entry the state is as `RunsOut` says (40_bit_reader
R124, 60_exceptions R218). -/
theorem EndsFrom.runsOut {α : Type} {s : State} {info : Byte} {r : EStateM.Result Stop State α} (h : EndsFrom s info r)
    (hf : s.Fetched (endState r)) :
    ∃ code sub v, r = .error (.raised ⟨code, sub, info⟩) v ∧ s.RunsOut (v.enterError ⟨code, sub, info⟩) info := by
  obtain ⟨t, ⟨p, b, rfl⟩, h1, h2, ⟨h3, h4⟩ | ⟨h3, h4⟩ | ⟨m, rest, h3, h5, h4⟩⟩ := h
  all_goals rw [h4] at hf
  · exact ⟨_, _, _, h4, hf, h1, h2, .inl ⟨h3, rfl⟩⟩
  · exact ⟨_, _, _, h4, hf, h1, h2, .inr (.inl ⟨h3, rfl⟩)⟩
  · exact ⟨_, _, _, h4, hf, h1, h2, .inr (.inr ⟨m, rest, h3, h5, rfl⟩)⟩

/-! ## Symbols and magnitudes -/

theorem huffSymbol_noCode {t : HuffTable} (ht : HuffSound t) {bits rest : List Bool} (hl : bits.length = 16)
    (hno : NoCode t bits) (sub info : Byte) {s : State} (hr : ReaderReady s) (h : s.streamBits = bits ++ rest) :
    FailsAt s 0x04#8 sub info rest ((huffSymbol t sub info).run s) := by
  obtain ⟨u, hu, hus, huf⟩ := huffLoop_noMatch ht sub info 16 [] bits rest rfl hl hr h hno
  exact ⟨.noMatchingHuffmanCode, u, rfl, hu, hus, huf⟩

theorem huffSymbol_endsAt {t : HuffTable} (ht : HuffSound t) (sub info : Byte) {s : State} (hr : ReaderReady s)
    (hl : s.streamBits.length < 16) (hno : NoCode t s.streamBits) :
    EndsFrom s info ((huffSymbol t sub info).run s) :=
  huffLoop_endsAt ht sub info 16 [] rfl hr hl hno

theorem readBits_endsAt (info : Byte) {n : Nat} {s : State} (hr : ReaderReady s) (hl : s.streamBits.length < n) :
    EndsFrom s info ((readBits info n).run s) :=
  readBitsFrom_endsAt hr n hl info 0

/-! ## The AC part -/

/-- The AC part goes through the codes that lead from `k` to `k'` and stands at `k'`. -/
theorem decodeAcFrom_reaches {ac : HuffTable} (hac : HuffSound ac) (q : QuantTable) (i : Fin 3) {k k' : Nat}
    {bits : List Bool} (hreach : AcReaches ac k bits k') (hk' : k' ≤ 63) (n : Nat) (hn : 64 ≤ n + k) (f : Coefs)
    (rest : List Bool) {s : State} (hr : ReaderReady s) (h : s.streamBits = bits ++ rest) :
    ∃ m g u, 64 ≤ m + 1 + k' ∧ (decodeAcFrom i ac q n k f).run s = (decodeAcFrom i ac q (m + 1) k' g).run u ∧
      u.streamBits = rest ∧ ReaderReady u ∧ ReadFrame s u := by
  induction hreach generalizing n s f with
  | here k =>
    obtain ⟨n, rfl⟩ : ∃ m, n = m + 1 := ⟨n - 1, by omega⟩
    exact ⟨n, f, s, hn, rfl, h, hr, ReadFrame.refl s⟩
  | @zrl k k' code more hk hc _ ih =>
    obtain ⟨n, rfl⟩ : ∃ m, n = m + 1 := ⟨n - 1, by omega⟩
    rw [List.append_assoc] at h
    obtain ⟨u, hu, hus, hur, huf⟩ := huffSymbol_code hac hc 3#8 (compInfo i) hr h
    obtain ⟨m, g, w, hm, hw, hws, hwr, hwf⟩ := ih hk' n (by omega) f hur hus
    refine ⟨m, g, w, hm, ?_, hws, hwr, huf.trans hwf⟩
    have hz : (0xF0#8).toNat % 16 = 0 := by decide
    have h15 : (0xF0#8).toNat / 16 = 15 := by decide
    rw [decodeAcFrom, if_pos (by omega), run_bind_ok hu]
    simp only [hz, h15, if_true, if_neg (show ¬(15 : Nat) = 0 by omega), if_neg (show ¬64 < k + 16 by omega)]
    exact hw
  | @coefficient k k' r sz code mag more hk hr15 hs hc hm _ ih =>
    obtain ⟨n, rfl⟩ : ∃ m, n = m + 1 := ⟨n - 1, by omega⟩
    rw [List.append_assoc, List.append_assoc] at h
    obtain ⟨u, hu, hus, hur, huf⟩ := huffSymbol_code hac hc 3#8 (compInfo i) hr h
    obtain ⟨v, hv, hvs, hvr, hvf⟩ := readBits_bits hm (compInfo i) hur hus
    obtain ⟨h1, h2⟩ := symbol_run_size hr15 hs.2
    obtain ⟨m, g, w, hm', hw, hws, hwr, hwf⟩ := ih hk' n (by omega)
      (f.set (zz ⟨k + r, hk⟩).val (dequant (extend (bitsValue mag) sz) q[(zz ⟨k + r, hk⟩).val])) hvr hvs
    refine ⟨m, g, w, hm', ?_, hws, hwr, (huf.trans hvf).trans hwf⟩
    rw [decodeAcFrom, if_pos (by omega), run_bind_ok hu]
    simp only [h1, h2, if_neg (show ¬sz = 0 by omega), dif_pos hk]
    rw [run_bind_ok hv]
    exact hw

/-- At index `k` the AC part raises what `AcFails` says (43_block_decoder R185, R186). -/
theorem decodeAcFrom_fails {ac : HuffTable} (hac : HuffSound ac) (q : QuantTable) (i : Fin 3) {k : Nat} {bits : List Bool}
    {err sub : Byte} (hfail : AcFails ac k bits err sub) (hk : k ≤ 63) (m : Nat) (f : Coefs) (rest : List Bool) {s : State}
    (hr : ReaderReady s) (h : s.streamBits = bits ++ rest) :
    FailsAt s err sub (compInfo i) rest ((decodeAcFrom i ac q (m + 1) k f).run s) := by
  rw [decodeAcFrom, if_pos hk]
  cases hfail with
  | noCode hl hno => exact (huffSymbol_noCode hac hl hno _ _ hr h).bind
  | @noMeaning r _ hr14 hc =>
    obtain ⟨u, hu, hus, -, huf⟩ := huffSymbol_code hac hc 3#8 (compInfo i) hr h
    obtain ⟨h1, h2⟩ := symbol_run_size (r := r) (sz := 0) (by omega) (by omega)
    rw [Nat.add_zero] at h1 h2
    rw [run_bind_ok hu]
    simp only [h1, h2, if_true, if_neg (show ¬r = 0 by omega), if_neg (show ¬r = 15 by omega)]
    exact ⟨.corruptEntropyData, u, rfl, rfl, hus, huf⟩
  | @pastEnd r sz _ hkr hr15 hs hc =>
    obtain ⟨u, hu, hus, -, huf⟩ := huffSymbol_code hac hc 3#8 (compInfo i) hr h
    obtain ⟨h1, h2⟩ := symbol_run_size hr15 hs.2
    rw [run_bind_ok hu]
    simp only [h1, h2, if_neg (show ¬sz = 0 by omega), dif_neg (show ¬k + r < 64 by omega)]
    exact ⟨.corruptEntropyData, u, rfl, rfl, hus, huf⟩
  | zrlPastEnd hk64 hc =>
    obtain ⟨u, hu, hus, -, huf⟩ := huffSymbol_code hac hc 3#8 (compInfo i) hr h
    have hz : (0xF0#8).toNat % 16 = 0 := by decide
    have h15 : (0xF0#8).toNat / 16 = 15 := by decide
    rw [run_bind_ok hu]
    simp only [hz, h15, if_true, if_neg (show ¬(15 : Nat) = 0 by omega), if_pos hk64]
    exact ⟨.corruptEntropyData, u, rfl, rfl, hus, huf⟩

/-! ## Blocks -/

theorem ReaderReady.setPred {s : State} (h : ReaderReady s) (i : Fin 3) (v : Word) : ReaderReady (s.setPred i v) :=
  ⟨h.noMarker, h.cnt, h.pos, h.payload⟩

theorem ReadFrame.setPred {s t : State} (h : ReadFrame s t) (i : Fin 3) (v : Word) :
    ReadFrame (s.setPred i v) (t.setPred i v) := by
  obtain ⟨p, b, rfl⟩ := h
  exact ⟨p, b, rfl⟩

theorem setPred_self (s : State) (i : Fin 3) : s.setPred i s.pred[i.val] = s := by
  unfold State.setPred
  rw [Vector.set_getElem_self]

/-- `decode_block(i)` with its tables picked. -/
theorem run_decodeBlock {s : State} {i : Fin 3} {tq td ta : Fin 4} (hb : BlockReady s i tq td ta) :
    (decodeBlock i).run s = ((decodeDc i s.dcTable[td.val] s.quant[tq.val]) >>= fun f0 =>
      decodeAc i s.acTable[ta.val] s.quant[tq.val] (zeroCoefs.set 0 f0)).run s := by
  unfold decodeBlock
  rw [run_get_bind, run_bind_ok (run_tableId_of hb.quantId s), run_bind_ok (run_tableId_of hb.dcId s),
    run_bind_ok (run_tableId_of hb.acId s)]

/-- `decode_block(i)` raises what `BlockFails` says (43_block_decoder R181, R185, R186). -/
theorem decodeBlock_fails {s : State} {i : Fin 3} {tq td ta : Fin 4} (hb : BlockReady s i tq td ta)
    {bits rest : List Bool} {err sub : Byte} {w : Word}
    (hfail : BlockFails s.dcTable[td.val] s.acTable[ta.val] s.pred[i.val] bits err sub w) (hr : ReaderReady s)
    (h : s.streamBits = bits ++ rest) :
    FailsAt (s.setPred i w) err sub (compInfo i) rest ((decodeBlock i).run s) := by
  rw [run_decodeBlock hb]
  cases hfail with
  | dcNoCode hl hno => rw [setPred_self]; exact (huffSymbol_noCode hb.dc hl hno _ _ hr h).bind.bind
  | @dcCategory v _ hv hc =>
    rw [setPred_self]
    obtain ⟨u, hu, hus, -, huf⟩ := huffSymbol_code hb.dc hc 2#8 (compInfo i) hr h
    refine FailsAt.bind ⟨.corruptEntropyData, u, rfl, ?_, hus, huf⟩
    unfold decodeDc
    rw [run_bind_ok hu, if_pos hv]
    rfl
  | @acPart t k code mag acBits bits _ _ ht hc hm ha hk hf =>
    rw [← nextPred_eq]
    rw [List.append_assoc, List.append_assoc] at h
    obtain ⟨v, hv, hvs, hvr, hvf⟩ := decodeDc_coded hb.dc s.quant[tq.val] i ht hc hm hr h
    rw [run_bind_ok hv]
    obtain ⟨m, g, u, -, hu, hus, hur, huf⟩ := decodeAcFrom_reaches hb.ac s.quant[tq.val] i ha hk 63 (by omega)
      (zeroCoefs.set 0 (dequant (nextPred s.pred[i.val] (extend (bitsValue mag) t)).toInt s.quant[tq.val][0]))
      (bits ++ rest) (hvr.setPred i (nextPred s.pred[i.val] (extend (bitsValue mag) t))) hvs
    unfold decodeAc
    rw [hu]
    exact (decodeAcFrom_fails hb.ac s.quant[tq.val] i hf hk m g rest hur hus).from ((hvf.setPred i _).trans huf)

/-- `decode_block(i)` on a stream that ends within the block (43_block_decoder R188). -/
theorem decodeBlock_truncated {s : State} {i : Fin 3} {tq td ta : Fin 4} (hb : BlockReady s i tq td ta)
    {bits : List Bool} {w : Word}
    (htr : BlockTruncated s.dcTable[td.val] s.acTable[ta.val] s.pred[i.val] bits w) (hr : ReaderReady s)
    (h : s.streamBits = bits) : EndsFrom (s.setPred i w) (compInfo i) ((decodeBlock i).run s) := by
  rw [run_decodeBlock hb]
  cases htr with
  | dcCode hl hno =>
    rw [setPred_self]; subst h; exact (huffSymbol_endsAt hb.dc _ _ hr hl hno).bind.bind
  | @dcMagnitude t code mag ht hc hm =>
    rw [setPred_self]
    obtain ⟨u, hu, hus, hur, huf⟩ := huffSymbol_code hb.dc hc 2#8 (compInfo i) hr h
    have hn : (BitVec.ofNat 8 t).toNat = t := by simp only [BitVec.toNat_ofNat]; omega
    refine (EndsFrom.bind ?_).from huf
    unfold decodeDc
    rw [run_bind_ok hu, hn, if_neg (by omega)]
    exact EndsFrom.bind (readBits_endsAt _ hur (by rw [hus]; exact hm))
  | @acCode t k code mag acBits bits ht hc hm ha hk hl hno =>
    rw [← nextPred_eq]
    rw [List.append_assoc] at h
    obtain ⟨v, hv, hvs, hvr, hvf⟩ := decodeDc_coded hb.dc s.quant[tq.val] i ht hc hm hr h
    rw [run_bind_ok hv]
    obtain ⟨m, g, u, -, hu, hus, hur, huf⟩ := decodeAcFrom_reaches hb.ac s.quant[tq.val] i ha hk 63 (by omega)
      (zeroCoefs.set 0 (dequant (nextPred s.pred[i.val] (extend (bitsValue mag) t)).toInt s.quant[tq.val][0]))
      bits (hvr.setPred i (nextPred s.pred[i.val] (extend (bitsValue mag) t))) hvs
    unfold decodeAc
    rw [hu, decodeAcFrom, if_pos hk]
    subst hus
    exact ((huffSymbol_endsAt hb.ac _ _ hur hl hno).bind).from ((hvf.setPred i _).trans huf)
  | @acMagnitude t k r sz code mag acBits code' mag' ht hc hm ha hk hr15 hs hc' hm' =>
    rw [← nextPred_eq]
    rw [List.append_assoc] at h
    obtain ⟨v, hv, hvs, hvr, hvf⟩ := decodeDc_coded hb.dc s.quant[tq.val] i ht hc hm hr h
    rw [run_bind_ok hv]
    obtain ⟨m, g, u, -, hu, hus, hur, huf⟩ := decodeAcFrom_reaches hb.ac s.quant[tq.val] i ha (by omega) 63 (by omega)
      (zeroCoefs.set 0 (dequant (nextPred s.pred[i.val] (extend (bitsValue mag) t)).toInt s.quant[tq.val][0]))
      (code' ++ mag') (hvr.setPred i (nextPred s.pred[i.val] (extend (bitsValue mag) t))) hvs
    obtain ⟨x, hx, hxs, hxr, hxf⟩ := huffSymbol_code hb.ac hc' 3#8 (compInfo i) hur hus
    obtain ⟨h1, h2⟩ := symbol_run_size hr15 hs.2
    unfold decodeAc
    rw [hu, decodeAcFrom, if_pos (by omega), run_bind_ok hx]
    simp only [h1, h2, if_neg (show ¬sz = 0 by omega), dif_pos hk]
    exact ((readBits_endsAt _ hxr (by rw [hxs]; exact hm')).bind).from (((hvf.setPred i _).trans huf).trans hxf)

/-! ## MCUs -/

/-- Blocks that are decoded, and then one that ends the run. -/
theorem run_decodeBlocks_error {pre post : List (Fin 3)} {s t u : State} {fs : List Coefs} {e : Stop}
    (h : (decodeBlocks pre).run s = .ok fs t) (he : (decodeBlocks post).run t = .error e u) :
    (decodeBlocks (pre ++ post)).run s = .error e u := by
  induction pre generalizing s fs with
  | nil => cases h; exact he
  | cons i pre ih =>
    rw [decodeBlocks, run_bind] at h
    rw [List.cons_append, decodeBlocks, run_bind]
    cases hb : (decodeBlock i).run s with
    | error e v => rw [hb] at h; cases h
    | ok f v =>
      rw [hb] at h
      simp only [run_bind] at h
      cases hr : (decodeBlocks pre).run v with
      | error e w => rw [hr] at h; cases h
      | ok gs w =>
        rw [hr] at h
        cases h
        exact run_bind_error (ih hr)

/-- A turn whose blocks end the run ends so itself (42_control R170). -/
theorem run_decodeMcuBody_error {s t : State} {e : Stop} (h : (decodeBlocks s.frameComps).run s = .error e t) :
    decodeMcuBody.run s = .error e t := by
  unfold decodeMcuBody
  rw [run_get_bind]
  exact run_bind_error h

/-- The scan's table ids of a component of the frame (42_control R166). -/
theorem State.Inv.tableIds {s : State} (h : s.Inv) (ha : s.status.scanActive = true) {i : Fin 3} (hi : i ∈ s.frameComps) :
    ∃ tq td ta : Fin 4, s.comp[i.val].tq.toNat = tq.val ∧ s.comp[i.val].td.toNat = td.val ∧
      s.comp[i.val].ta.toNat = ta.val := by
  have hte := tableError_none.mp ((h.2.2.2.1 ha).2.2.2.1 i hi).2
  have hlt : ∀ v k, tableDefined v k = true → k < 4 := by
    intro v k hd
    refine Decidable.byContradiction fun hk => ?_
    rw [tableDefined, BitVec.getLsbD_of_ge _ _ (by omega)] at hd
    cases hd
  exact ⟨⟨_, hlt _ _ hte.1⟩, ⟨_, hlt _ _ hte.2.1⟩, ⟨_, hlt _ _ hte.2.2⟩, rfl, rfl, rfl⟩

end Sys2Proof.Machine
end

