-- ==== Sys2Proof/Laws/PerInstr.lean ====
section
/-! SUPPORT. A fact about every command, one lemma per constructor of Instr: the OP byte of its word is the one the opcode
map gives its mnemonic (spec/30_encoding.md R90, R92). -/

namespace Sys2Proof.Laws.EncodeOpcode

/-- Bits [7:0] of the command's word are its OP byte. -/
def Statement (i : Instr) : Prop := opField (encode i) = i.opcode.toByte

theorem nop : Statement .nop := opField_packWord _ _ _ _
theorem softReset (ignored : BitVec 24) : Statement (.softReset ignored) := opField_softReset _ _
theorem loadDqt : Statement .loadDqt := opField_packWord _ _ _ _
theorem loadDht : Statement .loadDht := opField_packWord _ _ _ _
theorem setFrame : Statement .setFrame := opField_packWord _ _ _ _
theorem beginScan : Statement .beginScan := opField_packWord _ _ _ _
theorem decodeMcu : Statement .decodeMcu := opField_packWord _ _ _ _
theorem decodeScan : Statement .decodeScan := opField_packWord _ _ _ _
theorem endScan : Statement .endScan := opField_packWord _ _ _ _
theorem readBits (n : Byte) : Statement (.readBits n) := opField_packWord _ _ _ _
theorem huffDecode (c t : Byte) : Statement (.huffDecode c t) := opField_packWord _ _ _ _

end Sys2Proof.Laws.EncodeOpcode
end

