-- ==== Sys2Proof/Tests/Slice0.lean ====
section
/-! SUPPORT. The model's own tests: ill-formed commands, words written out bit by bit, vectors of spec/95_test_vectors.md
(each test names its source), and for every statement of Certificates/Slice0 that has hypotheses a state and operands that
meet them all (`witness_` and the statement's name). -/

set_option Elab.async false

namespace Sys2Proof.Tests

open Sys2Proof.Machine

/-! ## Well-formed commands (30_encoding R91, R94) -/

theorem test_wf_readBits_16 : (Instr.readBits 16).wf = true := by decide
theorem test_ill_formed_readBits_17 : (Instr.readBits 17).wf = false := by decide
theorem test_wf_huffDecode_ac : (Instr.huffDecode 1 255).wf = true := by decide
theorem test_ill_formed_huffDecode_class_2 : (Instr.huffDecode 2 0).wf = false := by decide

/-! ## Words from the encoding (30_encoding R90 to R94): [31:24], B, A, OP -/

theorem test_decode_nop : decodeWord 0b00000000_00000000_00000000_00000000#32 = .ok .nop := rfl
theorem test_decode_softReset : decodeWord 0b00000001_00000010_00000011_00000001#32 = .ok (.softReset 0x010203) := rfl
theorem test_decode_loadDqt : decodeWord 0b00000000_00000000_00000000_00000010#32 = .ok .loadDqt := rfl
theorem test_decode_loadDht : decodeWord 0b00000000_00000000_00000000_00000011#32 = .ok .loadDht := rfl
theorem test_decode_setFrame : decodeWord 0b00000000_00000000_00000000_00000100#32 = .ok .setFrame := rfl
theorem test_decode_beginScan : decodeWord 0b00000000_00000000_00000000_00000101#32 = .ok .beginScan := rfl
theorem test_decode_decodeMcu : decodeWord 0b00000000_00000000_00000000_00000110#32 = .ok .decodeMcu := rfl
theorem test_decode_decodeScan : decodeWord 0b00000000_00000000_00000000_00000111#32 = .ok .decodeScan := rfl
theorem test_decode_endScan : decodeWord 0b00000000_00000000_00000000_00001000#32 = .ok .endScan := rfl
theorem test_decode_readBits : decodeWord 0b00000000_00000000_00010000_00001001#32 = .ok (.readBits 16) := rfl
theorem test_decode_huffDecode : decodeWord 0b00000000_00000011_00000001_00001010#32 = .ok (.huffDecode 1 3) := rfl
theorem test_reserved_opcode : decodeWord 0x0000000B#32 = .error (.reservedOpcode 0x0B) := rfl
theorem test_illegal_field_nop : decodeWord 0x00000100#32 = .error (.illegalField 0x00) := rfl
theorem test_illegal_field_readBits : decodeWord 0x00010109#32 = .error (.illegalField 0x09) := rfl
theorem test_table_word_is_little_endian : decodeTableWord 32 0x0003010A = some (.huffDecode 1 3) := by decide
theorem test_encode_huffDecode : encode (.huffDecode 1 3) = 0x0003010A#32 := by decide

/-! ## States -/

/-- The state an outcome answers; the reset state where it answers none. -/
def after (o : Host.Outcome State Fault Refusal) : State := (nextState o).getD State.reset

/-- The state after the command of a table word, placed in `s`. -/
def runWord (w : Nat) (s : State) : State := after (step (s.withFetchWord 32 w))

/-- Bytes stored in IBUF from offset `a`. -/
def withBytes (s : State) (a : Nat) (l : List Byte) : State :=
  s.setIbuf (s.ibuf.writeAll (l.mapIdx fun k b => (a + k, b)))

/-- Counts: one code of length 1. -/
def oneCode : Vector Byte 16 := #v[1, 0, 0, 0, 0, 0, 0, 0, 0, 0, 0, 0, 0, 0, 0, 0]

/-- Counts: one code of length 1, one of length 2, two of length 3 (95_test_vectors E1). -/
def e1Counts : Vector Byte 16 := #v[1, 1, 2, 0, 0, 0, 0, 0, 0, 0, 0, 0, 0, 0, 0, 0]

/-- A one-component frame of `x` by 1 pixels with its tables defined (DC 0 as in E1, AC 0 with the one code `0` for EOB) and
a payload, before BEGIN_SCAN. -/
def frameState (x : BitVec 16) (payload : List Byte) : State :=
  withBytes { State.reset with
    status := { Status.cleared with frameValid := true }
    frameType := { sof := 0xC0#8, p := 8#8 }
    frameSize := { x := x, y := 1#16 }
    frameNcomp := 1#8
    comp := #v[{ h := 1#4, v := 1#4, tq := 0#4, td := 0#4, ta := 0#4 }, Comp.cleared, Comp.cleared]
    inLen := BitVec.ofNat 32 payload.length
    tableValid := { qv := 1#4, dv := 1#4, av := 1#4 }
    quant := Vector.replicate 4 (Vector.replicate 64 1#16)
    dcTable := Vector.replicate 4 (buildTable e1Counts [0, 1, 2, 3])
    acTable := Vector.replicate 4 (buildTable oneCode [0]) } 0 payload

/-- The same frame after BEGIN_SCAN. -/
def scanState (x : BitVec 16) (payload : List Byte) : State :=
  { frameState x payload with
    status := { Status.cleared with frameValid := true, scanActive := true }
    mcuTotal := BitVec.ofNat 32 (ceilDiv8 x.toNat) }

/-- One MCU, DC category 0 and EOB, then padding. -/
def oneMcu : State := scanState 1 [0x3F]

/-- Two MCUs of the same kind. -/
def twoMcus : State := scanState 9 [0x0F]

/-- A command is pending. -/
def pending (s : State) (w : Word) : State := { s with pend := w, status := { s.status with busy := true } }

theorem reset_inv : State.reset.Inv :=
  ⟨by decide +kernel, by decide +kernel, by decide +kernel, by decide +kernel, by decide +kernel⟩

theorem pending_nop_inv : (pending State.reset 0#32).Inv :=
  ⟨by decide +kernel, by decide +kernel, by decide +kernel, by decide +kernel, by decide +kernel⟩

theorem oneMcu_inv : oneMcu.Inv :=
  ⟨by decide +kernel, by decide +kernel, by decide +kernel, by decide +kernel, by decide +kernel⟩

theorem twoMcus_inv : twoMcus.Inv :=
  ⟨by decide +kernel, by decide +kernel, by decide +kernel, by decide +kernel, by decide +kernel⟩

/-! ## Vectors of 95_test_vectors -/

/-- E10, R162: RUN NOP from reset gives STATUS = 0x2. -/
theorem test_nop : (runWord 0x00 State.reset).statusWord = 0x2#32 := by decide +kernel

/-- H14: after H13, SOFT_RESET leaves STATUS 0, IRQ_EN 0, CMD 1. -/
theorem test_softReset :
    let s := runWord 0x01 (runWord 0x0B { State.reset with irqEn := { doneIe := false, errIe := true } })
    s.statusWord = 0#32 ∧ s.irqEn.word = 0#32 ∧ s.cmd = 1#32 := by decide +kernel

/-- H13: a reserved opcode with ERR_IE set gives STATUS = 0x204 and ERROR = 0x000B_0109. -/
theorem test_reserved :
    let s := runWord 0x0B { State.reset with irqEn := { doneIe := false, errIe := true } }
    s.statusWord = 0x204#32 ∧ s.error.word = 0x000B0109#32 := by decide +kernel

/-- E10, R164: RUN SET_FRAME from reset gives STATUS = 0xA. -/
theorem test_setFrame : (runWord 0x04 State.reset).statusWord = 0xA#32 := by decide +kernel

/-- E8: RUN BEGIN_SCAN from reset gives ERROR = 5 and STATUS = 4. -/
theorem test_beginScan_without_frame :
    (runWord 0x05 State.reset).error.word = 5#32 ∧ (runWord 0x05 State.reset).statusWord = 4#32 := by decide +kernel

/-- R165, R166: 9 by 1 pixels are 2 MCUs; STATUS has DONE, FRAME_VALID and SCAN_ACTIVE. -/
theorem test_beginScan :
    (runWord 0x05 (frameState 9 [0x0F])).mcuTotal = 2#32 ∧
    (runWord 0x05 (frameState 9 [0x0F])).statusWord = 0x1A#32 := by decide +kernel

/-- R168: END_SCAN ends the scan. -/
theorem test_endScan : (runWord 0x08 oneMcu).statusWord = 0xA#32 := by decide +kernel

/-- Section 2.3: a record with Tq = 4 gives ERROR = 0x0004_0207. -/
theorem test_loadDqt_bad_id :
    (runWord 0x02 (withBytes { State.reset with srcEnd := 65#32 } 0 [0x04])).error.word = 0x00040207#32 := by
  decide +kernel

/-- E10, R136: record 01 10 11 ... 4F gives QT[1][8] = 0x12 and SRC_PTR = 0x41. -/
theorem test_loadDqt :
    let s := runWord 0x02 (withBytes { State.reset with srcEnd := 65#32 } 0
      (0x01#8 :: (List.range 64).map fun k => BitVec.ofNat 8 (0x10 + k)))
    s.quant[1][8] = 0x12#16 ∧ s.srcPtr = 0x41#32 ∧ s.tableValid.word = 0x2#32 := by decide +kernel

/-- E10, R139: record 00 01 01 02 00 x 13, 00 01 02 03: SRC_PTR advances by 21; E1: FIRSTCODE[3] = 6, VALPTR[3] = 2. -/
theorem test_loadDht :
    let s := runWord 0x03 (withBytes { State.reset with srcEnd := 21#32 } 0
      [0, 1, 1, 2, 0, 0, 0, 0, 0, 0, 0, 0, 0, 0, 0, 0, 0, 0, 1, 2, 3])
    s.srcPtr = 21#32 ∧ s.tableValid.word = 0x10#32 ∧ s.dcTable[0].firstCode[2] = 6#17 ∧ s.dcTable[0].valPtr[2] = 2#9 ∧
      s.dcTable[0].huffval = [0, 1, 2, 3] := by decide +kernel

/-- Section 2.3: record 00 03 00 x 15, 00 01 02 (three codes of length 1) gives ERROR = 0x0000_0707. -/
theorem test_loadDht_overflow :
    (runWord 0x03 (withBytes { State.reset with srcEnd := 20#32 } 0
      [0, 3, 0, 0, 0, 0, 0, 0, 0, 0, 0, 0, 0, 0, 0, 0, 0, 0, 1, 2])).error.word = 0x0707#32 := by decide +kernel

/-- E10, R125: payload FF 00 A5, READ_BITS 12: RESULT = 0xFFA, BR_POS = 3, BR_BITS = 0x4A5. -/
theorem test_readBits_stuffed :
    let s := runWord 0x0C09 (scanState 1 [0xFF, 0x00, 0xA5])
    s.result = 0xFFA#32 ∧ s.brPos = 3#32 ∧ s.brBits.word = 0x4A5#32 := by decide +kernel

/-- Section 2.2: payload 12 FF D9, READ_BITS 9: UnexpectedEndOfData(2), MARKER_CODE = D9, BR_POS = 1. -/
theorem test_readBits_marker :
    let s := runWord 0x0909 (scanState 1 [0x12, 0xFF, 0xD9])
    s.error.word = 0x0206#32 ∧ s.statusWord = 0x00D9004C#32 ∧ s.brPos = 1#32 := by decide +kernel

/-- Section 2.4: payload D3 FF 00, HUFF_DECODE DC 0 gives 0x02 and BR_BITS = 0x5D3. -/
theorem test_huffDecode :
    let s := runWord 0x0A (scanState 1 [0xD3, 0xFF, 0x00])
    s.result = 2#32 ∧ s.brBits.word = 0x5D3#32 := by decide +kernel

/-- Section 2.4: HUFF_DECODE AC, 5 during a scan gives ERROR = 0x0005_0303. -/
theorem test_huffDecode_undefined : (runWord 0x0005010A oneMcu).error.word = 0x00050303#32 := by decide +kernel

/-- Section 2.2: an empty payload raises UnexpectedEndOfData(1) in DECODE_MCU; the scan ends and MCU_INDEX stays. -/
theorem test_decodeMcu_empty :
    let s := runWord 0x06 (scanState 1 [])
    s.error.word = 0x0106#32 ∧ s.statusWord = 0xC#32 ∧ s.mcuIndex = 0#32 := by decide +kernel

/-- The same in DECODE_SCAN. -/
theorem test_decodeScan_empty :
    let s := runWord 0x07 (scanState 1 [])
    s.error.word = 0x0106#32 ∧ s.statusWord = 0xC#32 ∧ s.mcuIndex = 0#32 := by decide +kernel

/-- Section 2.5, magnitude extension, categories 2, 11 and 16. -/
theorem test_extend :
    extend 1 2 = -2 ∧ extend 2 2 = 2 ∧ extend 1023 11 = -1024 ∧ extend 0x7FFF 16 = -32768 ∧ extend 0x8000 16 = 32768 := by
  decide

/-- Section 2.6: F[1] = 100 gives rows that begin 17 15; F[8] = 100 gives columns that begin 17 15. -/
theorem test_idct_ac :
    (idct (zeroCoefs.set 1 100#32))[0] = 17 ∧ (idct (zeroCoefs.set 1 100#32))[1] = 15 ∧
    (idct (zeroCoefs.set 8 100#32))[1] = 17 ∧ (idct (zeroCoefs.set 8 100#32))[8] = 15 := by
  simp only [idct, idctCols, idctRows, Vector.getElem_map, Vector.getElem_ofFn]
  decide +kernel

/-- Section 2.7: three rows of the colour table. -/
theorem test_colour :
    yccToRgb 150 100 200 = (251, 108, 100) ∧ yccToRgb 0 0 0 = (0, 135, 0) ∧ yccToRgb 100 78 178 = (170, 82, 11) := by
  decide +kernel

/-- H3, H4: a 4-byte write to IBUF, read back as 2 bytes. -/
theorem test_host_bytes :
    ((State.reset.hostWrite 0x1000000 4 0x44332211#32).hostRead 0x1000002 2).readData = 0x4433#32 := by decide +kernel

/-- H5: a read at 0x068 returns 0 and sets ACCERR. -/
theorem test_host_malformed :
    (State.reset.hostRead 0x68 4).readData = 0#32 ∧ (State.reset.hostRead 0x68 4).statusWord = 0x100#32 := by
  decide +kernel

/-- H18: a second command word before the engine's step is dropped with HAZ, and the first runs. -/
theorem test_second_command_dropped :
    let s := (State.reset.hostWrite 4 4 0#32).hostWrite 4 4 1#32
    (after (engineStep s)).statusWord = 0x82#32 ∧ (after (engineStep s)).cmd = 0#32 := by decide +kernel

/-! ## Coded data for the witnesses -/

theorem dc_code (s : State) (h : s.dcTable[0] = buildTable e1Counts [0, 1, 2, 3]) : IsCode s.dcTable[0] 0 [false] := by
  rw [h]; exact ⟨1, 0, by decide, rfl, by decide⟩

theorem ac_code (s : State) (h : s.acTable[0] = buildTable oneCode [0]) : IsCode s.acTable[0] 0 [false] := by
  rw [h]; exact ⟨1, 0, by decide, rfl, by decide⟩

/-- The block of DC category 0 and EOB. -/
def flatBlock (s : State) : Coefs := zeroCoefs.set 0 (dequant (nextPred s.pred[0] 0).toInt s.quant[0][0])

/-- The predictors after it. -/
def flatPred (s : State) : Vector Word 3 := s.pred.set 0 (nextPred s.pred[0] 0)

theorem flat_coded (s : State) (p : Vector Word 3) (hd : s.dcTable[0] = buildTable e1Counts [0, 1, 2, 3])
    (ha : s.acTable[0] = buildTable oneCode [0]) (hc : s.comp[0] = { h := 1#4, v := 1#4, tq := 0#4, td := 0#4, ta := 0#4 }) :
    McuCoded s [0] p [false, false] [zeroCoefs.set 0 (dequant (nextPred p[0] 0).toInt s.quant[0][0])]
      (p.set 0 (nextPred p[0] 0)) :=
  .block (i := 0) (tq := 0) (td := 0) (ta := 0) (bits := [false, false]) (rest := []) (w := nextPred p[0] 0)
    (by simp [hc]) (by simp [hc]) (by simp [hc])
    ⟨0, [false], [], [false], by decide, dc_code s hd, rfl, nextPred_eq _ _, .eob (by decide) (ac_code s ha), rfl⟩ (.done _)

theorem oneMcu_coded : McuCoded oneMcu oneMcu.frameComps oneMcu.pred [false, false] [flatBlock oneMcu] (flatPred oneMcu) := by
  rw [show oneMcu.frameComps = [0] by decide +kernel]
  exact flat_coded oneMcu _ (by decide +kernel) (by decide +kernel) (by decide +kernel)

theorem oneMcu_stream : oneMcu.streamBits = [false, false] ++ [true, true, true, true, true, true] := by decide +kernel

theorem twoMcus_coded :
    McuCoded twoMcus twoMcus.frameComps twoMcus.pred [false, false] [flatBlock twoMcus] (flatPred twoMcus) := by
  rw [show twoMcus.frameComps = [0] by decide +kernel]
  exact flat_coded twoMcus _ (by decide +kernel) (by decide +kernel) (by decide +kernel)

theorem twoMcus_stream : twoMcus.streamBits = [false, false] ++ [false, false, true, true, true, true] := by decide +kernel

theorem twoMcus_scanCoded : ∃ mcus pred, ScanCoded twoMcus twoMcus.pred [false, false, false, false] mcus pred ∧
    mcus.length = 2 := by
  have h2 := flat_coded twoMcus (flatPred twoMcus) (by decide +kernel) (by decide +kernel) (by decide +kernel)
  rw [← show twoMcus.components = [0] by decide +kernel] at h2
  exact ⟨_, _, .mcu (frameComps_eq twoMcus ▸ twoMcus_coded) (.mcu h2 (.done _)), rfl⟩

/-- DECODE_MCU completes on the first MCU of each state, and the scan goes on in the second. -/
theorem oneMcu_completes : ∃ u, exec .decodeMcu oneMcu = .next u ∧ u.status.done = true := by
  obtain ⟨t, -, -, -, -, -, hrun⟩ := decodeMcuBody_coded (oneMcu_inv.turnReady rfl) oneMcu_coded oneMcu_stream
  exact ⟨_, runDecode_ok (m := decodeMcuCommand) ((run_decodeMcuCommand (s := oneMcu) rfl).trans hrun), rfl⟩

theorem twoMcus_completes : ∃ u, exec .decodeMcu twoMcus = .next u ∧ u.status.scanActive = true := by
  obtain ⟨t, -, -, -, -, -, hrun⟩ := decodeMcuBody_coded (twoMcus_inv.turnReady rfl) twoMcus_coded twoMcus_stream
  refine ⟨_, runDecode_ok (m := decodeMcuCommand) ((run_decodeMcuCommand (s := twoMcus) rfl).trans hrun), ?_⟩
  have hne : ¬twoMcus.mcuIndex + 1#32 = twoMcus.mcuTotal := by decide +kernel
  unfold State.afterMcu State.advanceMcu
  rw [if_neg hne]
  rfl

/-- A check of finitely many codes shows that bits begin with none of a table of few symbols. -/
theorem noCode_of {t : HuffTable} {bits : List Bool} (hn : symbolCount t.count ≤ 8)
    (h : ∀ (len : Fin 17) (k : Fin 8), HasCode t.count len.val k.val → ¬codeBits t.count len.val k.val <+: bits) :
    NoCode t bits := by
  rintro v code ⟨len, k, hk, -, rfl⟩
  have h1 : symbolsBefore t.count (len + 1) ≤ symbolCount t.count := symbolsBefore_mono t.count (by have := hk.2.1; omega)
  have h2 : symbolsBefore t.count (len + 1) = symbolsBefore t.count len + countAt t.count len := rfl
  exact h ⟨len, by have := hk.2.1; omega⟩ ⟨k, by have := hk.2.2.2; omega⟩ hk

/-! ## Witnesses: encoding and steps -/

theorem witness_DecodedWordIsEncoding : decodeWord 0x00001009#32 = .ok (.readBits 16) := rfl

theorem witness_ReservedOpcodeRaises :
    ((pending State.reset 0x0B#32).status.busy = true ∧ 0x0B ≤ (opField (pending State.reset 0x0B#32).pend).toNat) ∧
    ((pending State.reset 0xFF#32).status.busy = true ∧ 0x0B ≤ (opField (pending State.reset 0xFF#32).pend).toNat) := by
  decide +kernel

/-- Each clause: HUFF_DECODE with class 2 and with bit 24 set, READ_BITS with B = 1, END_SCAN with A = 255, READ_BITS 17,
DECODE_SCAN with A = 1. -/
theorem witness_IllegalFieldRaises :
    (∀ w, (pending State.reset w).status.busy = true ∧ (pending State.reset w).pend = w) ∧
    (opField 0x0000020A#32 = 0x0A#8 ∧ 1 < (aField 0x0000020A#32).toNat) ∧
    (opField 0x0100000A#32 = 0x0A#8 ∧ reservedField 0x0100000A#32 ≠ 0) ∧
    (opField 0x00010009#32 = 0x09#8 ∧ bField 0x00010009#32 ≠ 0) ∧
    (opField 0x0000FF08#32 = 0x08#8 ∧ aField 0x0000FF08#32 ≠ 0) ∧
    (opField 0x00001109#32 = 0x09#8 ∧ reservedField 0x00001109#32 = 0 ∧ bField 0x00001109#32 = 0 ∧
      16 < (aField 0x00001109#32).toNat) ∧
    (opField 0x00000107#32 = 0x07#8 ∧ aField 0x00000107#32 ≠ 0) := by
  refine ⟨fun w => ⟨rfl, rfl⟩, ?_⟩
  decide +kernel

theorem witness_StepRunsDecodedCommand :
    ((pending State.reset 0#32).status.busy = true ∧ decodeWord (pending State.reset 0#32).pend = .ok .nop ∧
      (pending State.reset 0#32).schedule = []) ∧
    (State.reset.status.busy = false ∧ (State.reset.setSchedule [.engine]).schedule = [.engine]) ∧
    (State.reset.setSchedule [.hostRead 0 4]).schedule = [.hostRead 0 4] ∧
    (State.reset.setSchedule [.hostWrite 0 4 0#32]).schedule = [.hostWrite 0 4 0#32] ∧
    (State.reset.setSchedule [.platformReset]).schedule = [.platformReset] ∧
    (State.reset.setSchedule [.powerOn]).schedule = [.powerOn] := ⟨⟨rfl, rfl, rfl⟩, ⟨rfl, rfl⟩, rfl, rfl, rfl, rfl⟩

theorem witness_PlacedWordRunsNext : decodeTableWord 32 0x00001009 = some (.readBits 16) := by decide

/-- Accepted with ERR = 0, not accepted with ERR = 1, accepted with ERR = 1 for SOFT_RESET. -/
theorem witness_CommandAcceptance :
    let e := { State.reset with status := { Status.cleared with err := true } }
    State.reset.status.busy = false ∧ State.reset.status.err = false ∧ e.status.busy = false ∧ e.status.err = true ∧
      opField 0#32 ≠ 0x01#8 ∧ opField 0x00000001#32 = 0x01#8 := by decide +kernel

theorem witness_PendingCommandEndsInOneStep :
    (pending State.reset 0#32).Inv ∧ (pending State.reset 0#32).status.busy = true ∧
    decodeWord (pending State.reset 0#32).pend = .ok .nop ∧ opField (pending State.reset 0#32).pend ≠ 0x01#8 ∧
    opField (pending State.reset 1#32).pend = 0x01#8 :=
  ⟨pending_nop_inv, rfl, rfl, by decide +kernel, by decide +kernel⟩

theorem witness_StatusCommandsComplete : State.reset.status.scanActive = false := rfl

theorem witness_SetupRefusedDuringScan : oneMcu.status.scanActive = true := rfl

theorem witness_StreamCommandsNeedScan :
    State.reset.status.scanActive = false ∧ (16#8).toNat ≤ 16 ∧ (1#8).toNat ≤ 1 := by decide +kernel

/-! ## Witnesses: BEGIN_SCAN and the stream -/

theorem witness_BeginScanCompletes :
    let s := frameState 1 [0x3F]
    s.status.scanActive = false ∧ s.status.frameValid = true ∧ s.frameType.sof = 0xC0#8 ∧ s.frameType.p = 8#8 ∧
    (s.frameNcomp = 1#8 ∨ s.frameNcomp = 3#8) ∧
    (∀ i : Fin 3, i.val < s.frameNcomp.toNat →
      s.comp[i.val].h = 1#4 ∧ s.comp[i.val].v = 1#4 ∧
      s.comp[i.val].tq.toNat ≤ 3 ∧ s.tableValid.qv.getLsbD s.comp[i.val].tq.toNat = true ∧
      s.comp[i.val].td.toNat ≤ 3 ∧ s.tableValid.dv.getLsbD s.comp[i.val].td.toNat = true ∧
      s.comp[i.val].ta.toNat ≤ 3 ∧ s.tableValid.av.getLsbD s.comp[i.val].ta.toNat = true) ∧
    s.frameSize.x ≠ 0#16 ∧ s.frameSize.y ≠ 0#16 ∧
    s.inBase.toNat + s.inLen.toNat ≤ s.params.ibufBytes ∧
    s.outBase.toNat + 3 * s.frameSize.x.toNat * s.frameSize.y.toNat ≤ s.params.obufBytes := by decide +kernel

theorem witness_BeginScanReportsFirstFailure :
    ∃ before after code sub info, State.reset.beginScanChecks = before ++ (true, code, sub, info) :: after ∧
      ∀ c ∈ before, c.1 = false :=
  ⟨[(false, 0x09#8, 3#8, 0x05#8)], State.reset.beginScanChecks.drop 2, 0x05#8, 0#8, 0#8, by decide +kernel,
    by simp⟩

/-- All 16 bits of a payload of two bytes, and a stream that is exhausted. -/
theorem witness_ReadBitsTakesStream :
    (scanState 1 [0xA5, 0x3C]).StreamReady ∧ (16#8).toNat ≤ 16 ∧
    [true, false, true, false, false, true, false, true, false, false, true, true, true, true, false, false].length =
      (16#8).toNat ∧
    (scanState 1 [0xA5, 0x3C]).streamBits =
      [true, false, true, false, false, true, false, true, false, false, true, true, true, true, false, false] ++ [] ∧
    (scanState 1 []).status.scanActive = true := by
  decide +kernel

/-- One bit too many at each end: of the payload, at a lone 0xFF, at a marker. -/
theorem witness_ReadBitsRunsOut :
    ∀ l ∈ [[0x12#8], [0x12#8, 0xFF#8], [0x12#8, 0xFF#8, 0xD9#8]],
      (scanState 1 l).StreamReady ∧ (9#8).toNat ≤ 16 ∧ (scanState 1 l).streamBits.length < (9#8).toNat := by
  decide +kernel

/-- The 3-bit code 110 of list position 2, the symbol 02 (95_test_vectors E1). -/
theorem witness_HuffDecodeReadsSymbol :
    let s := scanState 1 [0xD3]
    s.StreamReady ∧ s.Defines .dc 0 s.dcTable[0] ∧ HuffSound s.dcTable[0] ∧ IsCode s.dcTable[0] 2 [true, true, false] ∧
      s.streamBits = [true, true, false] ++ [true, false, false, true, true] :=
  ⟨by decide +kernel, ⟨by decide +kernel, rfl⟩, by decide +kernel, ⟨3, 2, by decide +kernel, by decide +kernel, by decide +kernel⟩,
    by decide +kernel⟩

/-- Sixteen ones begin with no code of the AC table, whose one code is 0; seven ones are the end of a stream before a code. -/
theorem witness_HuffDecodeFindsNoCode :
    (let s := scanState 1 [0xFF, 0x00, 0xFF, 0x00]
     s.StreamReady ∧ s.Defines .ac 0 s.acTable[0] ∧ HuffSound s.acTable[0] ∧
       (List.replicate 16 true).length = 16 ∧ NoCode s.acTable[0] (List.replicate 16 true) ∧
       s.streamBits = List.replicate 16 true ++ []) ∧
    let s := { scanState 1 [0x7F] with brPos := 1#32, brBits := { byte := 0x7F#8, cnt := 7#4 } }
    s.StreamReady ∧ s.Defines .ac 0 s.acTable[0] ∧ HuffSound s.acTable[0] ∧ s.streamBits.length < 16 ∧
      s.streamBits.length = 7 ∧ NoCode s.acTable[0] s.streamBits :=
  ⟨⟨by decide +kernel, ⟨by decide +kernel, rfl⟩, by decide +kernel, by decide +kernel,
      noCode_of (by decide +kernel) (by decide +kernel), by decide +kernel⟩,
    by decide +kernel, ⟨by decide +kernel, rfl⟩, by decide +kernel, by decide +kernel, by decide +kernel,
    noCode_of (by decide +kernel) (by decide +kernel)⟩

theorem witness_HuffDecodeUndefinedTable :
    oneMcu.status.scanActive = true ∧ 3 < (4#8).toNat ∧ oneMcu.tableValid.dv.getLsbD (3#8).toNat = false ∧
      oneMcu.tableValid.av.getLsbD (3#8).toNat = false := by decide +kernel

theorem witness_CodesPrefixFree :
    CodesFit e1Counts ∧ HasCode e1Counts 3 3 ∧ HasCode e1Counts 3 3 ∧ codeBits e1Counts 3 3 <+: codeBits e1Counts 3 3 :=
  ⟨by decide, by decide, by decide, List.prefix_refl _⟩

/-! ## Witnesses: table loads -/

/-- A source range that holds the given bytes. -/
def source (l : List Byte) : State := withBytes { State.reset with srcEnd := BitVec.ofNat 32 l.length } 0 l

theorem witness_LoadDqtStoresTable :
    ∀ r ∈ [(0, 0x03#8), (1, 0x13#8)],
      let s := source (r.2 :: List.replicate (64 * (r.1 + 1)) 1#8)
      s.status.scanActive = false ∧ r.1 ≤ 1 ∧
      s.ibufByte s.srcPtr.toNat = BitVec.ofNat 8 (16 * r.1 + (3 : Fin 4).val) ∧
      s.srcEnd.toNat = s.srcPtr.toNat + (1 + 64 * (r.1 + 1)) ∧ s.srcEnd.toNat ≤ s.params.ibufBytes := by decide +kernel

theorem witness_LoadDqtTakesRecordsInOrder :
    let s := source (0x03#8 :: List.replicate 64 1#8 ++ 0x05#8 :: List.replicate 64 1#8)
    s.status.scanActive = false ∧ s.ibufByte s.srcPtr.toNat = BitVec.ofNat 8 (16 * 0 + (3 : Fin 4).val) ∧
      s.srcPtr.toNat + (1 + 64 * (0 + 1)) ≤ s.srcEnd.toNat ∧ s.srcEnd.toNat ≤ s.params.ibufBytes := by decide +kernel

/-- Each clause: a range beyond IBUF by one byte, one that ends before it starts, an empty one, Pq = 2, Tq = 4, and a record
one byte short. -/
theorem witness_LoadDqtChecksRange :
    let big := { State.reset with srcEnd := 4097#32 }
    let bad := { State.reset with srcPtr := 1#32 }
    (big.status.scanActive = false ∧ big.params.ibufBytes < big.srcEnd.toNat) ∧ bad.srcEnd.toNat < bad.srcPtr.toNat ∧
    (State.reset.srcEnd.toNat ≤ State.reset.params.ibufBytes ∧ State.reset.srcPtr = State.reset.srcEnd) ∧
    (∀ h ∈ [0x20#8, 0x04#8, 0x00#8],
      (source (h :: List.replicate 63 1#8)).srcEnd.toNat ≤ (source (h :: List.replicate 63 1#8)).params.ibufBytes ∧
      (source (h :: List.replicate 63 1#8)).srcPtr.toNat < (source (h :: List.replicate 63 1#8)).srcEnd.toNat ∧
      (source (h :: List.replicate 63 1#8)).ibufByte (source (h :: List.replicate 63 1#8)).srcPtr.toNat = h) ∧
    1 < (0x20#8).toNat / 16 ∧ ((0x04#8).toNat / 16 ≤ 1 ∧ 3 < (0x04#8).toNat % 16) ∧
    ((0x00#8).toNat / 16 ≤ 1 ∧ (0x00#8).toNat % 16 ≤ 3 ∧
      (source (0x00#8 :: List.replicate 63 1#8)).srcEnd.toNat <
        (source (0x00#8 :: List.replicate 63 1#8)).srcPtr.toNat + (1 + 64 * ((0x00#8).toNat / 16 + 1))) := by
  decide +kernel

/-- A Huffman record with the counts of E1 for the class and table id of `h`, then its four symbols. -/
def huffSource (h : Byte) : State := source ([h, 1, 1, 2, 0, 0, 0, 0, 0, 0, 0, 0, 0, 0, 0, 0, 0] ++ [0, 1, 2, 3])

theorem witness_LoadDhtStoresTable :
    ∀ r ∈ [(0, 0x03#8), (1, 0x13#8)],
      let s := huffSource r.2
      s.status.scanActive = false ∧ r.1 ≤ 1 ∧
      s.ibufByte s.srcPtr.toNat = BitVec.ofNat 8 (16 * r.1 + (3 : Fin 4).val) ∧
      (∀ i : Fin 16, e1Counts[i.val] = s.ibufByte (s.srcPtr.toNat + 1 + i.val)) ∧
      countSum e1Counts ≤ 256 ∧ CodesFit e1Counts ∧
      s.srcEnd.toNat = s.srcPtr.toNat + 17 + countSum e1Counts ∧ s.srcEnd.toNat ≤ s.params.ibufBytes := by
  decide +kernel

theorem witness_LoadDhtTakesRecordsInOrder :
    let s := { huffSource 0x13#8 with srcEnd := 4096#32 }
    s.status.scanActive = false ∧ s.ibufByte s.srcPtr.toNat = BitVec.ofNat 8 (16 * 1 + (3 : Fin 4).val) ∧
      (∀ i : Fin 16, e1Counts[i.val] = s.ibufByte (s.srcPtr.toNat + 1 + i.val)) ∧
      countSum e1Counts ≤ 256 ∧ CodesFit e1Counts ∧
      s.srcPtr.toNat + 17 + countSum e1Counts ≤ s.srcEnd.toNat ∧ s.srcEnd.toNat ≤ s.params.ibufBytes := by
  decide +kernel

/-- Counts of 16 bytes, each `n`. -/
def evenCounts (n : Byte) : Vector Byte 16 := Vector.replicate 16 n

/-- Each clause after the range checks: Tc = 2, Th = 4, a record short of its counts, 272 symbols, symbols short by one,
three codes of length 1. -/
theorem witness_LoadDhtChecksRecord :
    (1 < (0x20#8).toNat / 16 ∧ (source [0x20]).ibufByte 0 = 0x20 ∧ (source [0x20]).srcPtr.toNat < (source [0x20]).srcEnd.toNat) ∧
    ((0x14#8).toNat / 16 ≤ 1 ∧ 3 < (0x14#8).toNat % 16 ∧ (source [0x14]).ibufByte 0 = 0x14) ∧
    (source [0x00]).srcEnd.toNat < (source [0x00]).srcPtr.toNat + 17 ∧
    (let s := source (0x00#8 :: List.replicate 16 17#8)
     s.srcPtr.toNat + 17 ≤ s.srcEnd.toNat ∧ (∀ i : Fin 16, (evenCounts 17)[i.val] = s.ibufByte (s.srcPtr.toNat + 1 + i.val)) ∧
       256 < countSum (evenCounts 17)) ∧
    (let s := { huffSource 0x00#8 with srcEnd := 20#32 }
     s.srcPtr.toNat + 17 ≤ s.srcEnd.toNat ∧ (∀ i : Fin 16, e1Counts[i.val] = s.ibufByte (s.srcPtr.toNat + 1 + i.val)) ∧
       countSum e1Counts ≤ 256 ∧ s.srcEnd.toNat < s.srcPtr.toNat + 17 + countSum e1Counts) ∧
    (let cnt : Vector Byte 16 := oneCode.set 0 3
     let s := source ([0x00#8] ++ cnt.toList ++ [0, 1, 2])
     (∀ i : Fin 16, cnt[i.val] = s.ibufByte (s.srcPtr.toNat + 1 + i.val)) ∧ countSum cnt ≤ 256 ∧
       s.srcPtr.toNat + 17 + countSum cnt ≤ s.srcEnd.toNat ∧ ¬CodesFit cnt) := by decide +kernel

/-! ## Witnesses: frames -/

/-- READ_BITS completes, HUFF_DECODE raises, each from a scan. -/
theorem witness_ReaderCommandsFrame :
    (∃ u, exec (.readBits 4) (scanState 1 [0xA5]) = .next u ∧ u.status.done = true) ∧
    ∃ u, exec (.huffDecode 0 0) (scanState 1 []) = .next u ∧ u.status.err = true :=
  ⟨⟨_, rfl, by decide +kernel⟩, ⟨_, rfl, by decide +kernel⟩⟩

/-- LOAD_DQT and LOAD_DHT complete on an empty range and raise on a bad one. -/
theorem witness_LoadsFrame :
    (∃ u, exec .loadDqt State.reset = .next u) ∧ (∃ u, exec .loadDht State.reset = .next u) ∧
    (∃ u, exec .loadDqt { State.reset with srcPtr := 1#32 } = .next u) ∧
    State.reset.tableValid.qv.getLsbD 0 = false ∧ oneMcu.tableValid.qv.getLsbD 0 = true :=
  ⟨⟨_, rfl⟩, ⟨_, rfl⟩, ⟨_, rfl⟩, by decide +kernel, by decide +kernel⟩

/-- DECODE_MCU completes on the coded MCU and raises on an empty payload; an offset outside the grid. -/
theorem witness_DecodeCommandsFrame :
    (∃ u, exec .decodeMcu oneMcu = .next u) ∧ (∃ u, exec .decodeScan (scanState 1 []) = .next u) ∧ oneMcu.OutsideGrid 3 :=
  ⟨let ⟨u, h, _⟩ := oneMcu_completes; ⟨u, h⟩, ⟨_, rfl⟩, by decide +kernel⟩

theorem witness_DecodeMcuStoresItsPixels :
    oneMcu.status.scanActive = true ∧ (∃ u, exec .decodeMcu oneMcu = .next u) ∧
    (∃ coefs t, (decodeBlocks oneMcu.frameComps).run oneMcu = .ok coefs t) ∧
    ∃ e t, (decodeBlocks (scanState 1 []).frameComps).run (scanState 1 []) = .error e t := by
  refine ⟨rfl, let ⟨u, h, _⟩ := oneMcu_completes; ⟨u, h⟩, ?_, _, _, rfl⟩
  have hr := oneMcu_inv.turnReady rfl
  obtain ⟨u, hu, -⟩ := decodeBlocks_coded oneMcu_coded hr.sound (ReadFrame.refl oneMcu) hr.reader oneMcu_stream
  exact ⟨_, u, hu⟩

/-! ## Witnesses: blocks that fail -/

/-- DC codes 00 (category 0), 01 (category 17), 10 (category 16). -/
def badDc : HuffTable := buildTable #v[0, 3, 0, 0, 0, 0, 0, 0, 0, 0, 0, 0, 0, 0, 0, 0] [0, 17, 16]

/-- AC codes 000 (ZRL), 001 (S = 0, R = 1), 010 (S = 0, R = 14), 011 (S = 1, R = 15), 100 (S = 15, R = 0). -/
def badAc : HuffTable :=
  buildTable #v[0, 0, 5, 0, 0, 0, 0, 0, 0, 0, 0, 0, 0, 0, 0, 0] [0xF0, 0x10, 0xE0, 0xF1, 0x0F]

/-- A scan of one MCU with these tables, and the payloads used below. -/
def badState (payload : List Byte) : State :=
  { scanState 1 payload with dcTable := Vector.replicate 4 badDc, acTable := Vector.replicate 4 badAc }

theorem dc_zero : IsCode badDc (BitVec.ofNat 8 0) [false, false] := ⟨2, 0, by decide, rfl, by decide⟩
theorem ac_zrl : IsCode badAc 0xF0#8 [false, false, false] := ⟨3, 0, by decide, rfl, by decide⟩

/-- Three ZRL lead from index 1 to index 49. -/
theorem three_zrl : AcReaches badAc 1 (List.replicate 9 false) 49 :=
  .zrl (by decide) ac_zrl (.zrl (by decide) ac_zrl (.zrl (by decide) ac_zrl (.here 49)))

/-- What a payload of `badState` shows of a block that fails. -/
abbrev FailsOn (payload : List Byte) (bits rest : List Bool) (err sub : Byte) : Prop :=
  (badState payload).Inv ∧ (∃ w, BlockFails badDc badAc 0#32 bits err sub w) ∧
    (badState payload).streamBits = [] ++ bits ++ rest

/-- What a payload of `badState` shows of a block that is cut short. -/
abbrev CutShortOn (payload : List Byte) (bits : List Bool) : Prop :=
  (badState payload).Inv ∧ (∃ w, BlockTruncated badDc badAc 0#32 bits w) ∧ (badState payload).streamBits = [] ++ bits

def badPayloads : List (List Byte) :=
  [[], [0xFF], [0xFF, 0xD9], [0x80], [0x3F], [0x20], [0xFF, 0x00, 0xFF, 0x00], [0x40], [0x3F, 0xFF, 0x00, 0xC0], [0x08],
    [0x10], [0x00, 0x00], [0x00, 0x0C]]

theorem badState_inv (p : List Byte) (h : p ∈ badPayloads) : (badState p).Inv :=
  ⟨(by decide +kernel : ∀ p ∈ badPayloads, (badState p).MemoryOk) p h,
    (by decide +kernel : ∀ p ∈ badPayloads, (badState p).StatusOk) p h,
    (by decide +kernel : ∀ p ∈ badPayloads, (badState p).TablesOk) p h,
    (by decide +kernel : ∀ p ∈ badPayloads, (badState p).ScanOk) p h,
    (by decide +kernel : ∀ p ∈ badPayloads, (badState p).ReaderOk) p h⟩

/-- The frame's one component is 0, with nothing before it and both table ids 0; the DC part with no code and with category
17; the AC part with no code, with S = 0 and R = 1 and 14, with run 15 and with a ZRL at index 49. -/
theorem witness_DecodeMcuReportsBlockErrors :
    (∀ payload, (badState payload).status.scanActive = true ∧ (badState payload).components = [] ++ 0 :: [] ∧
      McuCoded (badState payload) [] (badState payload).pred [] [] (badState payload).pred ∧
      (badState payload).comp[0].td.toNat = (0 : Fin 4).val ∧ (badState payload).comp[0].ta.toNat = (0 : Fin 4).val ∧
      (badState payload).dcTable[0] = badDc ∧ (badState payload).acTable[0] = badAc ∧
      (badState payload).pred[0] = 0#32) ∧
    FailsOn [0xFF, 0x00, 0xFF, 0x00] (List.replicate 16 true) [] 0x04#8 2#8 ∧
    FailsOn [0x40] [false, true] (List.replicate 6 false) 0x08#8 1#8 ∧
    FailsOn [0x3F, 0xFF, 0x00, 0xC0] ([false, false] ++ List.replicate 16 true) (List.replicate 6 false) 0x04#8 3#8 ∧
    FailsOn [0x08] [false, false, false, false, true] [false, false, false] 0x08#8 2#8 ∧
    FailsOn [0x10] [false, false, false, true, false] [false, false, false] 0x08#8 2#8 ∧
    FailsOn [0x00, 0x0C] (List.replicate 12 false ++ [true, true]) [false, false] 0x08#8 3#8 ∧
    FailsOn [0x00, 0x00] (List.replicate 14 false) [false, false] 0x08#8 4#8 := by
  refine ⟨fun payload => ⟨rfl, rfl, .done _, rfl, rfl, rfl, rfl, rfl⟩, ?_, ?_, ?_, ?_, ?_, ?_, ?_⟩ <;>
    refine ⟨badState_inv _ (by decide), ?_, by decide +kernel⟩
  · exact ⟨_, .dcNoCode rfl (noCode_of (by decide) (by decide +kernel))⟩
  · exact ⟨_, .dcCategory (v := 17) (by decide) ⟨2, 1, by decide, rfl, by decide⟩⟩
  · exact ⟨_, .acPart (mag := []) (by decide) dc_zero rfl (.here 1) (by decide)
      (.noCode rfl (noCode_of (by decide) (by decide +kernel)))⟩
  · exact ⟨_, .acPart (mag := []) (acBits := []) (bits := [false, false, true]) (by decide) dc_zero rfl (.here 1) (by decide)
      (.noMeaning (r := 1) (by decide) ⟨3, 1, by decide, rfl, by decide⟩)⟩
  · exact ⟨_, .acPart (mag := []) (acBits := []) (bits := [false, true, false]) (by decide) dc_zero rfl (.here 1) (by decide)
      (.noMeaning (r := 14) (by decide) ⟨3, 2, by decide, rfl, by decide⟩)⟩
  · exact ⟨_, .acPart (mag := []) (bits := [false, true, true]) (by decide) dc_zero rfl three_zrl (by decide)
      (.pastEnd (r := 15) (sz := 1) (by decide) (by decide) (by decide) ⟨3, 3, by decide, rfl, by decide⟩)⟩
  · exact ⟨_, .acPart (mag := []) (bits := [false, false, false]) (by decide) dc_zero rfl three_zrl (by decide)
      (.zrlPastEnd (by decide) ac_zrl)⟩

/-- The stream ends before a DC code, at the payload's end, at a lone 0xFF and at a marker; in a DC magnitude of 16 bits; in
an AC code; in an AC magnitude of 15 bits. -/
theorem witness_DecodeMcuReportsBlockErrors_cutShort :
    CutShortOn [] [] ∧ CutShortOn [0xFF] [] ∧ CutShortOn [0xFF, 0xD9] [] ∧
    CutShortOn [0x80] (true :: List.replicate 7 false) ∧
    CutShortOn [0x3F] ([false, false] ++ List.replicate 6 true) ∧
    CutShortOn [0x20] ([false, false, true] ++ List.replicate 5 false) := by
  refine ⟨?_, ?_, ?_, ?_, ?_, ?_⟩ <;> refine ⟨badState_inv _ (by decide), ?_, by decide +kernel⟩
  · exact ⟨_, .dcCode (by decide) (noCode_of (by decide) (by decide +kernel))⟩
  · exact ⟨_, .dcCode (by decide) (noCode_of (by decide) (by decide +kernel))⟩
  · exact ⟨_, .dcCode (by decide) (noCode_of (by decide) (by decide +kernel))⟩
  · exact ⟨_, .dcMagnitude (t := 16) (code := [true, false]) (mag := List.replicate 6 false) (by decide)
      ⟨2, 2, by decide, rfl, by decide⟩ (by decide)⟩
  · exact ⟨_, .acCode (mag := []) (acBits := []) (by decide) dc_zero rfl (.here 1) (by decide) (by decide)
      (noCode_of (by decide) (by decide +kernel))⟩
  · exact ⟨_, .acMagnitude (r := 0) (sz := 15) (mag := []) (acBits := []) (code' := [true, false, false])
      (mag' := [false, false, false]) (by decide) dc_zero rfl (.here 1) (by decide) (by decide) (by decide)
      ⟨3, 4, by decide, rfl, by decide⟩ (by decide)⟩

/-- AC symbol 0x10 is CorruptEntropyData(2), INFO the component (43_block_decoder R185, 60_exceptions R215, R216). -/
theorem test_decodeMcu_corrupt : (runWord 0x06 (badState [0x08])).error.word = 0x00000208#32 := by decide +kernel

/-- A platform reset leaves IBUF as it was (10_state R51). -/
theorem test_platformReset_keeps_ibuf : oneMcu.platformReset.ibufByte 0 = 0x3F#8 := by decide +kernel

/-! ## Witnesses: blocks and scans -/

/-- Both ends of the categories, and both halves. -/
theorem witness_ExtendRange :
    (1 ≤ 1 ∧ 1 ≤ 16 ∧ 0 < 2 ^ 1 ∧ 0 < 2 ^ (1 - 1)) ∧ (16 ≤ 16 ∧ 65535 < 2 ^ 16 ∧ 2 ^ (16 - 1) ≤ 65535) := by decide

theorem witness_ComponentsAreIsolated :
    ((1 : Fin 3) ≠ 0 ∧ ∃ f t, (decodeBlock 0).run oneMcu = .ok f t) ∧
    ∃ e t, (decodeBlock 0).run (scanState 1 []) = .error e t := by
  refine ⟨⟨by decide, ?_⟩, _, _, rfl⟩
  have hr := oneMcu_inv.turnReady rfl
  obtain ⟨u, hu, -⟩ := decodeBlocks_coded oneMcu_coded hr.sound (ReadFrame.refl oneMcu) hr.reader oneMcu_stream
  rw [show oneMcu.frameComps = [0] by decide +kernel, decodeBlocks, run_bind] at hu
  cases h : (decodeBlock 0).run oneMcu with
  | ok f t => exact ⟨f, t, rfl⟩
  | error e t => rw [h] at hu; cases hu

/-- The last MCU of a scan, and one that is not the last. -/
theorem witness_DecodeMcuDecodesStream :
    (∃ bits rest coefs pred, oneMcu.Inv ∧ oneMcu.status.scanActive = true ∧
      McuCoded oneMcu oneMcu.components oneMcu.pred bits coefs pred ∧ oneMcu.streamBits = bits ++ rest ∧
      oneMcu.mcuIndex + 1#32 = oneMcu.mcuTotal) ∧
    ∃ bits rest coefs pred, twoMcus.Inv ∧ twoMcus.status.scanActive = true ∧
      McuCoded twoMcus twoMcus.components twoMcus.pred bits coefs pred ∧ twoMcus.streamBits = bits ++ rest ∧
      twoMcus.mcuIndex + 1#32 ≠ twoMcus.mcuTotal :=
  ⟨⟨_, _, _, _, oneMcu_inv, rfl, frameComps_eq oneMcu ▸ oneMcu_coded, oneMcu_stream, by decide +kernel⟩,
    ⟨_, _, _, _, twoMcus_inv, rfl, frameComps_eq twoMcus ▸ twoMcus_coded, twoMcus_stream, by decide +kernel⟩⟩

theorem witness_DecodeScanDecodesStream :
    ∃ bits rest mcus pred, twoMcus.Inv ∧ twoMcus.status.scanActive = true ∧ ScanCoded twoMcus twoMcus.pred bits mcus pred ∧
      twoMcus.mcuIndex.toNat + mcus.length = twoMcus.mcuTotal.toNat ∧ twoMcus.streamBits = bits ++ rest := by
  obtain ⟨mcus, pred, h, hl⟩ := twoMcus_scanCoded
  exact ⟨_, [true, true, true, true], mcus, pred, twoMcus_inv, rfl, h, by rw [hl]; decide +kernel, twoMcus_stream⟩

/-- The scan ends with the MCU, or goes on. -/
theorem witness_DecodeScanRepeatsDecodeMcu :
    (∃ u, (scanState 1 []).status.scanActive = true ∧ exec .decodeMcu (scanState 1 []) = .next u ∧
      u.status.scanActive = false) ∧
    ∃ u, twoMcus.status.scanActive = true ∧ exec .decodeMcu twoMcus = .next u ∧ u.status.scanActive = true :=
  ⟨⟨_, rfl, rfl, by decide +kernel⟩, let ⟨u, h, ha⟩ := twoMcus_completes; ⟨u, rfl, h, ha⟩⟩

/-! ## Witnesses: whole-machine rules -/

/-- An active scan in which the engine runs NOP, and a pending NOP from reset. -/
theorem witness_StepKeepsInv :
    (oneMcu.Inv ∧ step oneMcu = .next oneMcu) ∧ (pending State.reset 0#32).Inv ∧ ∃ u, step (pending State.reset 0#32) = .next u :=
  ⟨⟨oneMcu_inv, rfl⟩, pending_nop_inv, _, rfl⟩

theorem witness_InvNeverFaults : oneMcu.Inv ∧ State.reset.Inv := ⟨oneMcu_inv, reset_inv⟩

/-- A block with an error that the host then reads. -/
def failed : State := runWord 0x0B State.reset

theorem failed_inv : failed.Inv :=
  ⟨by decide +kernel, by decide +kernel, by decide +kernel, by decide +kernel, by decide +kernel⟩

theorem witness_ErrorHeldUntilReset :
    (failed.setSchedule [.hostWrite 8 4 0x6#32]).Inv ∧ (failed.setSchedule [.hostWrite 8 4 0x6#32]).status.err = true ∧
    (∃ u, step (failed.setSchedule [.hostWrite 8 4 0x6#32]) = .next u) ∧
    ¬(failed.setSchedule [.hostWrite 8 4 0x6#32]).Resets := by
  refine ⟨failed_inv, by decide +kernel, ⟨_, rfl⟩, ?_⟩
  rintro (⟨x, h, -⟩ | h | h)
  · rcases h with h | h <;> cases h
  · cases h
  · cases h

theorem witness_EngineKeepsHostState :
    (∃ u, engineStep (pending State.reset 0#32) = .next u) ∧
    ∀ x, decodeWord (pending State.reset 0#32).pend ≠ .ok (.softReset x) :=
  ⟨⟨_, rfl⟩, fun x h => by cases h⟩

theorem witness_TablesFixedDuringScan :
    oneMcu.status.scanActive = true ∧ ∃ u, step (pending oneMcu 0x00000009#32) = .next u ∧ u.status.scanActive = true :=
  ⟨rfl, _, rfl, by decide +kernel⟩

/-- BEGIN_SCAN and SET_FRAME that complete, and a step that does not reset with FRAME_VALID and a table defined. -/
theorem witness_StatusBitsChangeOnlyBy :
    (∃ u, step (pending (frameState 1 [0x3F]) 5#32) = .next u ∧ (frameState 1 [0x3F]).status.scanActive = false ∧
      u.status.scanActive = true) ∧
    (∃ u, step (pending State.reset 4#32) = .next u ∧ State.reset.status.frameValid = false ∧ u.status.frameValid = true) ∧
    ¬oneMcu.Resets ∧ oneMcu.status.frameValid = true ∧ oneMcu.tableValid.qv.getLsbD 0 = true ∧
      oneMcu.tableValid.dv.getLsbD 0 = true ∧ oneMcu.tableValid.av.getLsbD 0 = true := by
  refine ⟨⟨_, rfl, by decide +kernel, by decide +kernel⟩, ⟨_, rfl, by decide +kernel, by decide +kernel⟩, ?_,
    by decide +kernel, by decide +kernel, by decide +kernel, by decide +kernel⟩
  rintro (⟨x, -, h, -⟩ | h | h) <;> cases h

theorem pending_scan_inv : (pending oneMcu 0x00000009#32).Inv :=
  ⟨by decide +kernel, by decide +kernel, by decide +kernel, by decide +kernel, by decide +kernel⟩

theorem witness_ScanProgressOnlyGrows :
    (pending oneMcu 0x00000009#32).Inv ∧ (pending oneMcu 0x00000009#32).status.scanActive = true ∧
    ∃ u, step (pending oneMcu 0x00000009#32) = .next u ∧ u.status.scanActive = true :=
  ⟨pending_scan_inv, rfl, _, rfl, by decide +kernel⟩

theorem witness_RestartIntervalHasNoEffect : ∀ x, Instr.decodeScan ≠ .softReset x := fun x h => by cases h

/-! ## Witnesses: host accesses -/

/-- Each kind of malformed access at its first offset, and the last well-formed ones. -/
theorem witness_MalformedAccess :
    (∀ r ∈ [(0x68, 4), (0xFFC, 4), (0x8, 2), (0x1000, 4), (0xFFFFFF, 1), (0x1000001, 2), (0x1001000, 1), (0x1000FFE, 4),
        (0x2001000, 1), (0x3FFFFFF, 1), (0x1000000, 3)], r.1 < 0x4000000 ∧ State.reset.Malformed r.1 r.2) ∧
    ∀ r ∈ [(0x0, 4), (0x64, 4), (0x1000000, 1), (0x1000FFC, 4), (0x2000000, 2), (0x2000FFF, 1)],
      r.1 < 0x4000000 ∧ ¬State.reset.Malformed r.1 r.2 := by decide +kernel

theorem witness_WriteWhileBusyDropped :
    (pending State.reset 0#32).status.busy = true ∧ ¬(pending State.reset 0#32).Malformed 0x30 4 ∧
      (pending State.reset 0#32).Malformed 0x68 4 := by decide +kernel

/-- A state with no command pending whose registers are not all 0. -/
theorem witness_RegisterReads : oneMcu.status.busy = false ∧ oneMcu.readReg 0x18 ≠ 0#32 := by decide +kernel

theorem witness_RegisterAccess :
    State.reset.status.busy = false ∧ State.reset.status.scanActive = false ∧
      oneMcu.status.busy = false ∧ oneMcu.status.scanActive = true := by decide +kernel

/-- The last bytes of each buffer, at each size. -/
theorem witness_BufferBytesLittleEndian :
    State.reset.params.Legal ∧ State.reset.status.busy = false ∧
    ∀ r ∈ [(4095, 1), (4094, 2), (4092, 4)], (r.2 = 1 ∨ r.2 = 2 ∨ r.2 = 4) ∧ r.1 % r.2 = 0 ∧
      r.1 + r.2 ≤ State.reset.params.ibufBytes ∧ r.1 + r.2 ≤ State.reset.params.obufBytes := by decide +kernel

/-- The last byte of the IBUF aperture, and the last bytes of OBUF at each size. -/
theorem witness_ReadsWhileBusy :
    (pending State.reset 0#32).status.busy = true ∧ 0xFFFFFF < 0x1000000 ∧
    ∀ r ∈ [(4095, 1), (4094, 2), (4092, 4)], (r.2 = 1 ∨ r.2 = 2 ∨ r.2 = 4) ∧ r.1 % r.2 = 0 ∧
      r.1 + r.2 ≤ (pending State.reset 0#32).params.obufBytes ∧ r.1 < 0x2000000 := by decide +kernel

theorem witness_HostReadsHaveNoSideEffect : State.reset.status.busy = false := rfl

theorem witness_StatusWriteClears :
    State.reset.status.busy = false ∧ (pending State.reset 0#32).status.busy = true := by decide +kernel

theorem witness_IrqLevel : State.reset.status.busy = false := rfl

/-- Both resets from a state with a command pending and a byte stored, which the buffer's size covers. -/
theorem witness_ResetValues :
    let s := pending oneMcu 0x00000006#32
    (∃ r, r = s.platformReset) ∧ (∃ r, r = s.powerOn) ∧ s.ibuf.cells = [(0, 0x3F#8)] ∧
      s.ibuf.within s.params.ibufBytes ∧ s.obuf.within s.params.obufBytes :=
  ⟨⟨_, rfl⟩, ⟨_, rfl⟩, by decide +kernel, by decide +kernel, by decide +kernel⟩

end Sys2Proof.Tests
end

section
/-! PROOFS. The STATUS register seen from the host: writes to it (spec/10_state.md R25, spec/20_memory.md R76) and the
irq level that its bit 9 mirrors (spec/10_state.md R53). -/

namespace Sys2Proof.Machine

/-! ## Writes -/

/-- A write to a register while a command is pending is dropped and sets HAZ, whatever the register (20_memory R76). -/
theorem writeReg_busy (s : State) {o : Nat} {r : Csr} (w : Word) (h : o < 0x1000) (h4 : o % 4 = 0)
    (hr : Csr.ofIndex (o / 4) = some r) (hb : s.status.busy = true) : s.writeReg o w = s.setHaz := by
  unfold State.writeReg State.hostWrite
  rw [windowOffset_base s (by omega)]
  simp only [target_csr s h h4 hr, hb, if_true]

/-- STATUS is not locked in scan, so a write to it always clears what it names (10_state R21, R25). -/
theorem writeCsr_status (s : State) (w : Word) :
    s.writeCsr .status w = { s with status := s.status.clearNamed w } := rfl

/-- Settles O58: with BUSY = 0 the write reaches STATUS and clears the named flags; with BUSY = 1 it is dropped. -/
theorem statusWriteClears : Obligations.StatusWriteClears := by
  intro s w
  constructor
  · intro hidle
    have hwrite : s.writeReg 8 w = s.writeCsr .status w := writeReg_eq s w (by decide) (by decide) rfl hidle
    rw [hwrite, writeCsr_status, Status.clearNamed]
  · intro hbusy
    exact writeReg_busy (r := .status) s w (by decide) (by decide) rfl hbusy

/-! ## The irq level -/

/-- Bit 9 of a STATUS word is its IRQ bit (10_state R24): nine one-bit fields stand below it. -/
theorem Status.word_getLsbD_irq (st : Status) (irq : Bool) : (st.word irq).getLsbD 9 = irq := by
  simp only [Status.word, BitVec.getLsbD_append]
  simp

/-- Settles O59: with BUSY = 0 a read of STATUS returns its word, whose bit 9 is irq; the level is low at reset. -/
theorem irqLevel : Obligations.IrqLevel := by
  refine ⟨fun s => ⟨rfl, fun hidle => ?_⟩, rfl⟩
  have hread : s.readReg 8 = s.status.word s.irq := readReg_idle s (r := .status) (by decide) (by decide) rfl hidle
  rw [hread, Status.word_getLsbD_irq]

end Sys2Proof.Machine
end

section
/-! PROOFS. Malformed host accesses and host writes made while a command is pending (spec/20_memory.md R75, R76,
spec/10_state.md R46). An access within the window either reaches nothing, which is to be malformed (`target_none`), or
reaches a target; the lemmas below say what it does in each case. -/

namespace Sys2Proof.Machine

/-! ## What an access within the window does -/

/-- A well-formed access reaches a target. -/
theorem exists_target_of_not_malformed {s : State} {off n : Nat} (h : ¬s.Malformed off n) :
    ∃ t, s.target off n = some t :=
  Option.ne_none_iff_exists'.mp (mt (target_none s).mp h)

theorem hostRead_of_malformed {s : State} {off n : Nat} (hoff : off < 0x4000000) (h : s.Malformed off n) :
    s.hostRead (s.params.base + off) n = s.setAccErr.setReadData 0#32 := by
  simp only [State.hostRead, windowOffset_base s hoff, (target_none s).mpr h]

theorem hostRead_of_target {s : State} {off n : Nat} {t : Target} (hoff : off < 0x4000000)
    (h : s.target off n = some t) : s.hostRead (s.params.base + off) n = s.readTarget n t := by
  simp only [State.hostRead, windowOffset_base s hoff, h]

theorem hostWrite_of_malformed {s : State} {off n : Nat} (hoff : off < 0x4000000) (h : s.Malformed off n) (v : Word) :
    s.hostWrite (s.params.base + off) n v = if s.status.busy then s.setAccErr.setHaz else s.setAccErr := by
  simp only [State.hostWrite, windowOffset_base s hoff, (target_none s).mpr h]

theorem hostWrite_of_target {s : State} {off n : Nat} {t : Target} (hoff : off < 0x4000000)
    (h : s.target off n = some t) (v : Word) :
    s.hostWrite (s.params.base + off) n v = if s.status.busy then s.setHaz else s.writeTarget n v t := by
  simp only [State.hostWrite, windowOffset_base s hoff, h]

/-! ## Which accesses can change ACCERR -/

/-- A well-formed read keeps ACCERR, whether it returns the value or a draw (20_memory R74, R77). -/
theorem readTarget_accerr (s : State) (n : Nat) (t : Target) :
    (s.readTarget n t).status.accerr = s.status.accerr := by
  cases t with
  | csr r => simp only [State.readTarget]; split <;> rfl
  | ibuf a => rfl
  | obuf a => simp only [State.readTarget]; split <;> rfl

/-- STATUS is the only register whose write can change ACCERR (10_state R25). -/
theorem storeCsr_accerr (s : State) (w : Word) {r : Csr} (hr : r ≠ .status) :
    (s.storeCsr w r).status.accerr = s.status.accerr := by
  cases r with
  | status => exact absurd rfl hr
  | cmd => simp only [State.storeCsr, State.writeCmd]; split <;> rfl
  | _ => rfl

theorem writeTarget_accerr (s : State) (n : Nat) (v : Word) {t : Target} (ht : t ≠ .csr .status) :
    (s.writeTarget n v t).status.accerr = s.status.accerr := by
  cases t with
  | csr r =>
    simp only [State.writeTarget, State.writeCsr]
    split
    · rfl
    · exact storeCsr_accerr s v fun hr => ht (hr ▸ rfl)
  | ibuf a => rfl
  | obuf a => rfl

theorem ofIndex_status {k : Nat} (h : Csr.ofIndex k = some .status) : k = 2 := by
  have hk : k < 26 := Decidable.byContradiction fun hc => by
    rw [ofIndex_none.mpr (Nat.le_of_not_lt hc)] at h
    cases h
  have hsmall : ∀ j : Fin 26, Csr.ofIndex j.val = some .status → j.val = 2 := by decide
  exact hsmall ⟨k, hk⟩ h

/-- Only offset 8 of the window reaches STATUS (20_memory R71, 10_state R24). -/
theorem target_status {s : State} {off n : Nat} (h : s.target off n = some (.csr .status)) : off = 8 := by
  unfold State.target at h
  repeat' split at h
  case isTrue.isTrue =>
    rename_i halign
    obtain ⟨r, hr, hst⟩ := Option.map_eq_some_iff.mp h
    cases hst
    have := ofIndex_status hr
    omega
  all_goals simp at h

/-! ## The obligations -/

/-- Settles O51: a malformed access is the case without a target; with a target, a read keeps ACCERR, and so does a write
unless its target is STATUS, which is the one at offset 8. -/
theorem malformedAccess : Obligations.MalformedAccess := by
  intro s off n hoff
  constructor
  · intro hmal
    refine ⟨hostRead_of_malformed hoff hmal, fun v => ?_⟩
    rw [hostWrite_of_malformed hoff hmal]
    cases hbusy : s.status.busy with
    | true => rw [Bool.or_true]; rfl
    | false => rw [Bool.or_false]; rfl
  · intro hwell
    obtain ⟨t, ht⟩ := exists_target_of_not_malformed hwell
    refine ⟨?_, fun v hne => ?_⟩
    · rw [hostRead_of_target hoff ht, readTarget_accerr]
    · have hst : t ≠ .csr .status := fun he => hne (target_status (he ▸ ht))
      rw [hostWrite_of_target hoff ht]
      split
      · rfl
      · exact writeTarget_accerr s n v hst

/-- Settles O52: with BUSY = 1 both cases of a write take their busy branch. -/
theorem writeWhileBusyDropped : Obligations.WriteWhileBusyDropped := by
  intro s off n v hoff hbusy
  constructor
  · intro hwell
    obtain ⟨t, ht⟩ := exists_target_of_not_malformed hwell
    rw [hostWrite_of_target hoff ht, if_pos hbusy, State.setHaz]
  · intro hmal
    rw [hostWrite_of_malformed hoff hmal, if_pos hbusy]
    rfl

end Sys2Proof.Machine
end

section
/-! PROOFS. The acceptance of a command (spec/42_control.md R160): what a host write to CMD does while no command is
pending. -/

namespace Sys2Proof.Machine

/-! ## Writes to CMD -/

/-- CMD is not locked in scan, so with BUSY = 0 a host write to it is a command write (10_state R21, R23). -/
theorem writeReg_cmd (s : State) (w : Word) (hidle : s.status.busy = false) : s.writeReg 4 w = s.writeCmd w :=
  writeReg_eq (r := .cmd) s w (by decide) (by decide) rfl hidle

/-- With ERR = 1 a word that is not SOFT_RESET is stored in CMD and ignored. -/
theorem writeCmd_of_ignored {s : State} {w : Word} (herr : s.status.err = true) (hop : opField w ≠ 0x01#8) :
    s.writeCmd w = { s with cmd := w } :=
  if_pos (Bool.and_eq_true_iff.mpr ⟨herr, bne_iff_ne.mpr hop⟩)

/-- With ERR = 0 every word becomes pending, and SOFT_RESET does whatever ERR is. -/
theorem writeCmd_of_accepted {s : State} {w : Word} (hacc : s.status.err = false ∨ opField w = 0x01#8) :
    s.writeCmd w = { s with cmd := w, pend := w, status := { s.status with done := false, busy := true } } := by
  refine if_neg fun hignored => ?_
  obtain ⟨herr, hop⟩ := Bool.and_eq_true_iff.mp hignored
  cases hacc with
  | inl hclear => exact Bool.false_ne_true (hclear.symm.trans herr)
  | inr hreset => exact bne_iff_ne.mp hop hreset

/-- Settles O8: with BUSY = 0 the write reaches CMD, and R160's two cases are the two branches of a command write. -/
theorem commandAcceptance : Obligations.CommandAcceptance := by
  intro s w hidle
  rw [writeReg_cmd s w hidle]
  exact ⟨fun ⟨herr, hop⟩ => writeCmd_of_ignored herr hop, writeCmd_of_accepted⟩

end Sys2Proof.Machine
end

section
/-! PROOFS. The magnitude extension of the entropy coder (spec/43_block_decoder.md R183): the two halves of the t-bit values,
each with the range of its magnitudes. -/

namespace Sys2Proof.Machine

/-! ## The two halves of the t-bit values -/

/-- The lower half is negative: v stands for minus the complement of v in t bits. -/
theorem extend_low_eq_neg {v t : Nat} (ht : t ≠ 0) (hv : v < 2 ^ (t - 1)) :
    extend v t = -((2 ^ t - 1 - v : Nat) : Int) := by
  have hsum := Nat.two_pow_pred_add_two_pow_pred (Nat.pos_of_ne_zero ht)
  have hcast : ((2 ^ t : Nat) : Int) = 2 ^ t := Int.natCast_pow 2 t
  rw [extend_low ht hv, ← hcast]
  omega

/-- The magnitude of an extended t-bit value has exactly t bits. -/
theorem extend_natAbs_range {v t : Nat} (ht : t ≠ 0) (hv : v < 2 ^ t) :
    2 ^ (t - 1) ≤ (extend v t).natAbs ∧ (extend v t).natAbs ≤ 2 ^ t - 1 := by
  have hsum := Nat.two_pow_pred_add_two_pow_pred (Nat.pos_of_ne_zero ht)
  by_cases hlow : v < 2 ^ (t - 1)
  · rw [extend_low_eq_neg ht hlow, Int.natAbs_neg, Int.natAbs_natCast]
    omega
  · rw [extend_high ht hlow, Int.natAbs_natCast]
    omega

/-- No t-bit value with t ≥ 1 extends to 0: its magnitude is at least 2^(t-1). -/
theorem extend_ne_zero {v t : Nat} (ht : t ≠ 0) (hv : v < 2 ^ t) : extend v t ≠ 0 :=
  Int.natAbs_pos.mp (Nat.lt_of_lt_of_le (Nat.two_pow_pos (t - 1)) (extend_natAbs_range ht hv).1)

/-- Settles O34: `extend` on each half of the t-bit values, and the range of its magnitude. -/
theorem extendRange : Obligations.ExtendRange := by
  refine ⟨extend_zero, by decide, by decide, fun v t hpos _ hv => ?_⟩
  have ht : t ≠ 0 := Nat.ne_of_gt hpos
  exact ⟨extend_low ht, fun hhigh => extend_high ht (Nat.not_lt.mpr hhigh), extend_ne_zero ht hv, extend_natAbs_range ht hv⟩

end Sys2Proof.Machine
end

section
/-! PROOFS. Reconstruction (spec/44_reconstruction.md): the clamp to a byte (R204), the two passes of the inverse DCT on a
block whose only coefficient is F[0] (R214), and the rounding of the colour conversion (R207 to R209). -/

namespace Sys2Proof.Machine

/-! ## The clamp -/

/-- A clamped value is at most 255, so the byte holds it whole. -/
theorem clampByte_toNat (v : Int) : (clampByte v).toNat = (min 255 (max 0 v)).toNat := by
  rw [clampByte, BitVec.toNat_ofInt, Int.emod_eq_of_lt] <;> omega

/-- The clamp keeps the value of a byte. -/
theorem clampByte_byte (y : Byte) : clampByte y.toNat = y := by
  have hy := y.isLt
  apply BitVec.eq_of_toNat_eq
  rw [clampByte_toNat]
  omega

/-! ## The two passes at one place -/

theorem rowOf_natIndex (row col : Fin 8) : rowOf (natIndex row col) = row := by
  simp only [rowOf, natIndex, Fin.ext_iff]
  omega

theorem colOf_natIndex (row col : Fin 8) : colOf (natIndex row col) = col := by
  simp only [colOf, natIndex, Fin.ext_iff]
  omega

theorem natIndex_eq_zero {row col : Fin 8} : natIndex row col = 0 ↔ row = 0 ∧ col = 0 := by
  simp only [natIndex, Fin.ext_iff, Fin.val_zero]
  omega

theorem idctRows_natIndex (f : Coefs) (v x : Fin 8) :
    (idctRows f)[(natIndex v x).val] = sum8 fun u => kc x u * (f[(natIndex v u).val]).toInt := by
  simp only [idctRows, Vector.getElem_ofFn, Fin.eta, rowOf_natIndex, colOf_natIndex]

theorem idctCols_getElem (t : Vector Int 64) (n : Fin 64) :
    (idctCols t)[n.val] = sum8 fun v => kc (rowOf n) v * t[(natIndex v (colOf n)).val] := by
  simp only [idctCols, Vector.getElem_ofFn]

theorem idct_getElem (f : Coefs) (n : Fin 64) : (idct f)[n.val] = idctRound (idctCols (idctRows f))[n.val] :=
  Vector.getElem_map ..

theorem reconstruct_getElem (f : Coefs) (n : Fin 64) : (reconstruct f)[n.val] = clampByte ((idct f)[n.val] + 128) :=
  Vector.getElem_map ..

/-! ## A block with only F[0] -/

/-- A sum of eight terms with none but the first non-zero. -/
theorem sum8_eq_first {f : Fin 8 → Int} (h : ∀ u, u ≠ 0 → f u = 0) : sum8 f = f 0 := by
  have htail : (List.finRange 7).map (f ∘ Fin.succ) = List.replicate (List.finRange 7).length 0 :=
    List.map_eq_replicate_iff.mpr fun u _ => h u.succ (Fin.succ_ne_zero u)
  rw [sum8, List.finRange_succ, List.map_cons, List.sum_cons, List.map_map, htail, List.sum_replicate_int, Int.mul_zero,
    Int.add_zero]

/-- The column of K at frequency 0 is constant (44_reconstruction R201). -/
theorem kc_zero (p : Fin 8) : kc p 0 = 2896 := by
  revert p
  decide

theorem zeroCoefs_set_zero (d : Word) (n : Fin 64) : (zeroCoefs.set 0 d)[n.val] = if n = 0 then d else 0#32 := by
  rw [Vector.getElem_set]
  simp only [zeroCoefs, Vector.getElem_replicate, Fin.ext_iff, Fin.val_zero, eq_comm]

/-- Pass 1 leaves row 0 flat and every other row 0. -/
theorem idctRows_dcOnly (d : Word) (v x : Fin 8) :
    (idctRows (zeroCoefs.set 0 d))[(natIndex v x).val] = if v = 0 then 2896 * d.toInt else 0 := by
  rw [idctRows_natIndex, sum8_eq_first]
  · rw [zeroCoefs_set_zero, kc_zero]
    simp only [natIndex_eq_zero, and_true]
    split
    · rfl
    · rw [BitVec.toInt_zero, Int.mul_zero]
  · intro u hu
    rw [zeroCoefs_set_zero, if_neg fun h => hu (natIndex_eq_zero.mp h).2, BitVec.toInt_zero, Int.mul_zero]

/-- Pass 2 spreads the flat row 0 over every row. -/
theorem idctCols_dcOnly (d : Word) (n : Fin 64) :
    (idctCols (idctRows (zeroCoefs.set 0 d)))[n.val] = 8386816 * d.toInt := by
  rw [idctCols_getElem, sum8_eq_first]
  · rw [idctRows_dcOnly, if_pos rfl, kc_zero, ← Int.mul_assoc]
    rfl
  · intro v hv
    rw [idctRows_dcOnly, if_neg hv, Int.mul_zero]

/-- Every sample of a block with only F[0] = d is the one closed form (44_reconstruction R214). -/
theorem reconstruct_dcOnly (d : Word) (n : Fin 64) :
    (reconstruct (zeroCoefs.set 0 d))[n.val] = clampByte ((8386816 * d.toInt + 2 ^ 25) / 2 ^ 26 + 128) := by
  rw [reconstruct_getElem, idct_getElem, idctCols_dcOnly, idctRound]

/-- Settles O36: the closed form of a sample, with d = 0 as an instance of it. -/
theorem dcOnlyBlockIsFlat : Obligations.DcOnlyBlockIsFlat := by
  refine ⟨fun d n => ?_, kc_zero, by decide, fun n => ?_⟩
  · rw [reconstruct_dcOnly, clampByte_toNat]
  · rw [reconstruct_dcOnly]
    decide

/-! ## Colour conversion -/

/-- The rounded value lies within half a million of the exact one, and a tie goes upward (44_reconstruction R208). -/
theorem roundMillion_nearest (v : Int) :
    2 * v - 1000000 < 2000000 * roundMillion v ∧ 2000000 * roundMillion v ≤ 2 * v + 1000000 := by
  rw [roundMillion]
  omega

/-- Whole millions come out of the rounding; what is left of the value is rounded alone. -/
theorem roundMillion_add (y v : Int) : roundMillion (1000000 * y + v) = y + roundMillion v := by
  simp only [roundMillion]
  omega

/-- Each output is Y moved by a rounded offset that depends on the chroma alone, then clamped. -/
theorem yccToRgb_eq_offsets (y cb cr : Byte) : yccToRgb y cb cr =
    (clampByte (y.toNat + roundMillion (1402000 * (cr.toNat - 128))),
     clampByte (y.toNat + roundMillion (-344136 * (cb.toNat - 128) - 714136 * (cr.toNat - 128))),
     clampByte (y.toNat + roundMillion (1772000 * (cb.toNat - 128)))) := by
  simp only [yccToRgb, ← roundMillion_add, Int.neg_mul, Int.sub_eq_add_neg, Int.add_assoc]

/-- At Cb = Cr = 128 the three offsets are 0 (44_reconstruction R209). -/
theorem yccToRgb_grey (y : Byte) : yccToRgb y 128#8 128#8 = (y, y, y) := by
  have hred : roundMillion (1402000 * ((128#8).toNat - 128)) = 0 := by decide
  have hgreen : roundMillion (-344136 * ((128#8).toNat - 128) - 714136 * ((128#8).toNat - 128)) = 0 := by decide
  have hblue : roundMillion (1772000 * ((128#8).toNat - 128)) = 0 := by decide
  rw [yccToRgb_eq_offsets, hred, hgreen, hblue, Int.add_zero, clampByte_byte]

/-- Blue at Cb = 3, where the offset is -221.5 before rounding (44_reconstruction R208). -/
theorem yccToRgb_blue_tie_low (y cr : Byte) : (yccToRgb y 3#8 cr).2.2 = clampByte (y.toNat + -221) := by
  rw [yccToRgb_eq_offsets]
  rfl

/-- Blue at Cb = 253, where the offset is 221.5 before rounding (44_reconstruction R208). -/
theorem yccToRgb_blue_tie_high (y cr : Byte) : (yccToRgb y 253#8 cr).2.2 = clampByte (y.toNat + 222) := by
  rw [yccToRgb_eq_offsets]
  rfl

/-- Green at (78, 178), where the offset is -18.5 before rounding (44_reconstruction R208). -/
theorem yccToRgb_green_tie_low (y : Byte) : (yccToRgb y 78#8 178#8).2.1 = clampByte (y.toNat + -18) := by
  rw [yccToRgb_eq_offsets]
  rfl

/-- Green at (178, 78), where the offset is 18.5 before rounding (44_reconstruction R208). -/
theorem yccToRgb_green_tie_high (y : Byte) : (yccToRgb y 178#8 78#8).2.1 = clampByte (y.toNat + 19) := by
  rw [yccToRgb_eq_offsets]
  rfl

/-- Settles O37: the model's own rounded value is the integer of each output, and the grey case and the ties are Y moved by
the offsets above. -/
theorem colourConversionRoundsToNearest : Obligations.ColourConversionRoundsToNearest := by
  refine ⟨fun y cb cr => ?_, yccToRgb_grey, fun y cr => ?_⟩
  · exact ⟨_, _, _, clampByte_toNat _, clampByte_toNat _, clampByte_toNat _,
      roundMillion_nearest _, roundMillion_nearest _, roundMillion_nearest _⟩
  · have hy := y.isLt
    rw [yccToRgb_blue_tie_low, yccToRgb_blue_tie_high, yccToRgb_green_tie_low, yccToRgb_green_tie_high]
    simp only [clampByte_toNat]
    omega

end Sys2Proof.Machine
end

section
/-! PROOFS. The decoder against the encoder (spec/30_encoding.md R90 to R94): the word of a command decodes to it, and a
word that decodes is the word of its command. -/

namespace Sys2Proof

/-! ## From a command to its word and back -/

/-- The word of a command decodes to the command, with every operand. -/
theorem decodeWord_encode (i : Instr) : decodeWord (encode i) = .ok i := by
  cases i with
  | softReset ignored =>
    simp only [decodeWord, encode, opField_softReset, ofByte_toByte, ignored_softReset]
  | readBits n =>
    simp only [decodeWord, encode, opField_packWord, aField_packWord, bField_packWord, reservedField_packWord,
      ofByte_toByte]
    rfl
  | huffDecode c t =>
    simp only [decodeWord, encode, opField_packWord, aField_packWord, bField_packWord, reservedField_packWord,
      ofByte_toByte]
    rfl
  | _ => rfl

/-- Settles O1: the bytes of a word make the word, and the word of a command decodes to it. -/
theorem decodeEncodeRoundTrip : Obligations.DecodeEncodeRoundTrip := by
  intro i rest
  rw [encodeBytes, decodeBytes_bytesOfWord, decodeWord_encode]

/-! ## From a word to its command and back -/

/-- The field check passes exactly when the bits are 0, and then the word is the command named (30_encoding R94). -/
theorem whenZero_ok {w : Word} {must : Bool} {i j : Instr} : whenZero w must i = .ok j ↔ must = true ∧ i = j := by
  cases must <;> simp [whenZero]

theorem whenZero_false (w : Word) (i : Instr) : whenZero w false i = .error (.illegalField (opField w)) := rfl

theorem noOperands_iff {w : Word} : noOperands w = true ↔ aField w = 0#8 ∧ bField w = 0#8 ∧ reservedField w = 0#8 := by
  simp only [noOperands, Bool.and_eq_true, beq_iff_eq, and_assoc]

/-- A word is packed from its fields, whatever they are known to be (30_encoding R90). -/
theorem packWord_of_fields {w : Word} {hi b a op : Byte} (hhi : reservedField w = hi) (hb : bField w = b)
    (ha : aField w = a) (hop : opField w = op) : packWord hi b a op = w := by
  subst hhi hb ha hop
  exact packWord_fields w

/-- Bits [31:8] above bits [7:0] are the word. -/
theorem append_opField (w : Word) : w.extractLsb' 8 24 ++ opField w = w := by
  apply BitVec.eq_of_getLsbD_eq
  intro k hk
  simp only [opField, BitVec.getLsbD_append, BitVec.getLsbD_extractLsb']
  grind

/-- A word whose OP byte is `o` and whose other fields are 0 is packed from them. -/
theorem packWord_noOperands {w : Word} {o : Opcode} (hop : opField w = o.toByte) (hz : noOperands w = true) :
    packWord 0 0 0 o.toByte = w := by
  obtain ⟨ha, hb, hr⟩ := noOperands_iff.mp hz
  exact packWord_of_fields hr hb ha hop

/-- Settles O2: the opcode and the field check of each row leave no bit of the word free. -/
theorem decodedWordIsEncoding : Obligations.DecodedWordIsEncoding := by
  intro w i hdec
  unfold decodeWord at hdec
  cases ho : Opcode.ofByte (opField w) with
  | none => rw [ho] at hdec; cases hdec
  | some o =>
    have hop := ofByte_some ho
    rw [ho] at hdec
    cases o with
    | softReset =>
      cases hdec
      rw [encode, ← hop]
      exact append_opField w
    | readBits =>
      obtain ⟨hz, rfl⟩ := whenZero_ok.mp hdec
      obtain ⟨hb, hr⟩ := Bool.and_eq_true_iff.mp hz
      exact packWord_of_fields (beq_iff_eq.mp hr) (beq_iff_eq.mp hb) rfl hop
    | huffDecode =>
      obtain ⟨hz, rfl⟩ := whenZero_ok.mp hdec
      exact packWord_of_fields (beq_iff_eq.mp hz) rfl rfl hop
    | _ =>
      obtain ⟨hz, rfl⟩ := whenZero_ok.mp hdec
      exact packWord_noOperands hop hz

/-- Settles O3: the words of the map by computation, the fields by definition. -/
theorem opcodeMapDecodes : Obligations.OpcodeMapDecodes :=
  ⟨rfl, rfl, rfl, rfl, rfl, rfl, rfl, rfl, rfl, rfl, rfl, rfl, fun _ => ⟨rfl, rfl, rfl, rfl⟩⟩

end Sys2Proof
end

section
/-! PROOFS. Words that are no command, and the step of the engine on a pending word (spec/30_encoding.md R93, R94,
spec/60_exceptions.md R216, R218, R220, spec/42_control.md R161). -/

namespace Sys2Proof.Machine

/-! ## Error entry in the statements' words -/

/-- The error entry of the model is that of the statements (60_exceptions R218). -/
theorem enterError_eq_afterError (s : State) (e : Raise) :
    s.enterError e = s.afterError e.code.toByte e.sub e.info := rfl

/-! ## Words that are no command -/

theorem decodeWord_reserved {w : Word} (h : 0x0B ≤ (opField w).toNat) :
    decodeWord w = .error (.reservedOpcode (opField w)) := by
  rw [decodeWord, ofByte_none.mpr h]

/-- The commands without operands: their A, B and reserved fields must all be 0 (30_encoding R91). -/
abbrev NoOperandOpcode (o : Opcode) : Prop := o ≠ .softReset ∧ o ≠ .readBits ∧ o ≠ .huffDecode

theorem decodeWord_operand {w : Word} {o : Opcode} (hop : opField w = o.toByte) (ho : NoOperandOpcode o)
    (hbad : reservedField w ≠ 0 ∨ bField w ≠ 0 ∨ aField w ≠ 0) :
    decodeWord w = .error (.illegalField (opField w)) := by
  have hz : noOperands w = false := by
    rw [Bool.eq_false_iff, ne_eq, noOperands_iff]
    rintro ⟨ha, hb, hr⟩
    rcases hbad with hbad | hbad | hbad
    · exact hbad hr
    · exact hbad hb
    · exact hbad ha
  obtain ⟨hsoft, hread, hhuff⟩ := ho
  have hof : Opcode.ofByte (opField w) = some o := by rw [hop, ofByte_toByte]
  unfold decodeWord
  rw [hof, hz]
  cases o with
  | softReset => exact absurd rfl hsoft
  | readBits => exact absurd rfl hread
  | huffDecode => exact absurd rfl hhuff
  | _ => rfl

/-- What a READ_BITS word decodes to (30_encoding R91, R94). -/
theorem decodeWord_readBits {w : Word} (hop : opField w = 0x09#8) :
    decodeWord w = whenZero w (bField w == 0#8 && reservedField w == 0#8) (.readBits (aField w)) := by
  have hof : Opcode.ofByte (opField w) = some .readBits := by rw [hop]; rfl
  unfold decodeWord
  rw [hof]

/-- What a HUFF_DECODE word decodes to (30_encoding R91, R94). -/
theorem decodeWord_huffDecode {w : Word} (hop : opField w = 0x0A#8) :
    decodeWord w = whenZero w (reservedField w == 0#8) (.huffDecode (aField w) (bField w)) := by
  have hof : Opcode.ofByte (opField w) = some .huffDecode := by rw [hop]; rfl
  unfold decodeWord
  rw [hof]

/-! ## The step on such a word -/

/-- Where the opcode is not that of an MCU command, a word that is no command is error entry and nothing else. -/
theorem engineStep_rejects {s : State} {e : DecodeError} (hbusy : s.status.busy = true)
    (hdec : decodeWord s.pend = .error e) (hmcu : opField s.pend ≠ 0x06#8) (hscan : opField s.pend ≠ 0x07#8) :
    engineStep s = .next (s.enterError (decodeFailure s.pend e)) := by
  rw [engineStep_bad hbusy hdec, rejectWord, if_neg]
  rintro (hop | hop)
  · exact hmcu hop
  · exact hscan hop

/-- For an MCU command's opcode the sample grid is any value besides (60_exceptions R220). -/
theorem engineStep_rejects_mcu {s : State} {e : DecodeError} (hbusy : s.status.busy = true)
    (hdec : decodeWord s.pend = .error e) (hop : opField s.pend = 0x06#8 ∨ opField s.pend = 0x07#8) :
    engineStep s = .next (s.enterError (decodeFailure s.pend e)).forgetGrid := by
  rw [engineStep_bad hbusy hdec]
  exact congrArg Host.Outcome.next (if_pos hop)

/-- Settles O4: a reserved opcode is above those of the MCU commands. -/
theorem reservedOpcodeRaises : Obligations.ReservedOpcodeRaises := by
  intro s hbusy hop
  refine engineStep_rejects hbusy (decodeWord_reserved hop) ?_ ?_
  all_goals
    intro heq
    rw [heq] at hop
    exact absurd hop (by decide)

/-! ## The operand checks of the meanings -/

/-- READ_BITS with n above 16 raises InvalidCommand(4), INFO n (30_encoding R94). -/
theorem exec_readBits_tooMany (s : State) {n : Byte} (hn : 16 < n.toNat) :
    exec (.readBits n) s = .next (s.afterError 0x09 4 n) := by
  refine runCommand_raised (e := ⟨.invalidCommand, 4#8, n⟩) (t := s) ?_
  rw [readBitsCommand, bitCount, if_neg (Nat.not_le.mpr hn), run_raise_bind]

/-- HUFF_DECODE with a class above 1 raises InvalidCommand(2), INFO the opcode (30_encoding R94). -/
theorem exec_huffDecode_badClass (s : State) {c : Byte} (t : Byte) (hc : 1 < c.toNat) :
    exec (.huffDecode c t) s = .next (s.afterError 0x09 2 0x0A) := by
  have h0 : c ≠ 0#8 := by rintro rfl; exact absurd hc (by decide)
  have h1 : c ≠ 1#8 := by rintro rfl; exact absurd hc (by decide)
  refine runCommand_raised (e := ⟨.invalidCommand, 2#8, Opcode.huffDecode.toByte⟩) (t := s) ?_
  rw [huffDecodeCommand, huffClass, if_neg h0, if_neg h1, run_raise_bind]

/-- Settles O5: the three forms of a bad field by opcode, and the two checks that the meanings make. -/
theorem illegalFieldRaises : Obligations.IllegalFieldRaises := by
  intro s hbusy
  refine ⟨?_, ?_, ?_⟩
  · rintro (⟨hop, hbad⟩ | ⟨hop, hbad⟩ | ⟨hop, hbad⟩)
    · by_cases hr : reservedField s.pend = 0
      · have hclass := hbad.resolve_left (not_not_intro hr)
        have hdec : decodeWord s.pend = .ok (.huffDecode (aField s.pend) (bField s.pend)) := by
          rw [decodeWord_huffDecode hop, hr]
          rfl
        rw [engineStep_busy hbusy hdec, hop]
        exact exec_huffDecode_badClass s _ hclass
      · have hdec : decodeWord s.pend = .error (.illegalField (opField s.pend)) := by
          rw [decodeWord_huffDecode hop, (beq_eq_false_iff_ne (b := 0#8)).mpr hr, whenZero_false]
        exact engineStep_rejects hbusy hdec (by rw [hop]; decide) (by rw [hop]; decide)
    · have hz : (bField s.pend == 0#8 && reservedField s.pend == 0#8) = false := by
        rcases hbad with hr | hb
        · rw [(beq_eq_false_iff_ne (b := 0#8)).mpr hr, Bool.and_false]
        · rw [(beq_eq_false_iff_ne (b := 0#8)).mpr hb, Bool.false_and]
      have hdec : decodeWord s.pend = .error (.illegalField (opField s.pend)) := by
        rw [decodeWord_readBits hop, hz, whenZero_false]
      exact engineStep_rejects hbusy hdec (by rw [hop]; decide) (by rw [hop]; decide)
    · obtain ⟨o, ho, hnone, hmcu, hscan⟩ : ∃ o : Opcode, opField s.pend = o.toByte ∧ NoOperandOpcode o ∧
          o.toByte ≠ 0x06#8 ∧ o.toByte ≠ 0x07#8 := by
        rcases hop with hop | hop | hop | hop | hop | hop
        · exact ⟨.nop, hop, by decide⟩
        · exact ⟨.loadDqt, hop, by decide⟩
        · exact ⟨.loadDht, hop, by decide⟩
        · exact ⟨.setFrame, hop, by decide⟩
        · exact ⟨.beginScan, hop, by decide⟩
        · exact ⟨.endScan, hop, by decide⟩
      exact engineStep_rejects hbusy (decodeWord_operand ho hnone hbad) (ho ▸ hmcu) (ho ▸ hscan)
  · rintro ⟨hop, hr, hb, hn⟩
    have hdec : decodeWord s.pend = .ok (.readBits (aField s.pend)) := by
      rw [decodeWord_readBits hop, hr, hb]
      rfl
    rw [engineStep_busy hbusy hdec]
    exact exec_readBits_tooMany s hn
  · rintro ⟨hop, hbad⟩
    obtain ⟨o, ho, hnone⟩ : ∃ o : Opcode, opField s.pend = o.toByte ∧ NoOperandOpcode o := by
      rcases hop with hop | hop
      · exact ⟨.decodeMcu, hop, by decide⟩
      · exact ⟨.decodeScan, hop, by decide⟩
    rw [engineStep_rejects_mcu hbusy (decodeWord_operand ho hnone hbad) hop]
    obtain ⟨m, hm, hout⟩ := enterError_forgetGrid s (decodeFailure s.pend (.illegalField (opField s.pend)))
    exact ⟨m, congrArg Host.Outcome.next hm, hout⟩

/-! ## The step on a command -/

/-- Settles O6: each clause is a turn of the schedule and the branch of the engine's step. -/
theorem stepRunsDecodedCommand : Obligations.StepRunsDecodedCommand := by
  refine ⟨fun s i hbusy hdec => ⟨fun hs => ?_, fun rest hs => ?_⟩,
    fun s hidle => ⟨fun hs => ?_, fun rest hs => ?_⟩,
    fun s rest => ⟨fun a n hs => ?_, fun a n v hs => ?_, fun hs => ?_, fun hs => ?_⟩⟩
  · rw [step_no_turn hs, engineStep_busy hbusy hdec]
  · rw [step_turn hs]
    exact engineStep_busy (s := s.setSchedule rest) hbusy hdec
  · rw [step_no_turn hs, engineStep_idle hidle]
  · rw [step_turn hs]
    exact engineStep_idle (s := s.setSchedule rest) hidle
  all_goals
    rw [step_turn hs]
    rfl

/-- A table word that decodes is a command word that decodes. -/
theorem decodeWord_of_decodeTableWord {nbits w : Nat} {i : Instr} (h : decodeTableWord nbits w = some i) :
    decodeWord (tableWord nbits w) = .ok i := by
  have hbytes := decodeBytes_bytesOfWord (tableWord nbits w) []
  rw [List.append_nil] at hbytes
  rw [decodeTableWord, hbytes] at h
  cases hd : decodeWord (tableWord nbits w) with
  | ok j => rw [hd] at h; cases h; rfl
  | error e => rw [hd] at h; cases h

/-- Settles O7: the placed word is pending and the engine's turn is next. -/
theorem placedWordRunsNext : Obligations.PlacedWordRunsNext := by
  intro s nbits w i hdec
  have hturn : (s.withFetchWord nbits w).schedule = .engine :: s.schedule := rfl
  rw [step_turn hturn]
  exact engineStep_busy (s := (s.withFetchWord nbits w).setSchedule s.schedule) rfl (decodeWord_of_decodeTableWord hdec)

end Sys2Proof.Machine
end

section
/-! PROOFS. The invariant of the block (Safety.lean): every turn from a state of the invariant answers a next state of the
invariant, built from the lemmas of Laws/Invariant.lean and Laws/Loads.lean, one for each command and host access. -/

namespace Sys2Proof.Machine

/-! ## Commands -/

/-- Every command from its start answers a next state of the invariant. -/
theorem exec_inv {s : State} (h : Starts s) (i : Instr) : ∃ u, exec i s = .next u ∧ u.Inv := by
  cases i with
  | nop => exact execNop_inv h
  | softReset ignored => exact execSoftReset_inv h.inv
  | loadDqt => exact execLoadDqt_inv h
  | loadDht => exact execLoadDht_inv h
  | setFrame => exact execSetFrame_inv h
  | beginScan => exact execBeginScan_inv h
  | decodeMcu => exact execDecodeMcu_inv h
  | decodeScan => exact execDecodeScan_inv h
  | endScan => exact execEndScan_inv h
  | readBits n => exact execReadBits_inv h n
  | huffDecode c t => exact execHuffDecode_inv h c t

/-- A pending word that is not SOFT_RESET starts with ERR = 0 and DONE = 0 (42_control R160). -/
theorem State.Inv.starts {s : State} (h : s.Inv) (hbusy : s.status.busy = true)
    (hsoft : ∀ x, decodeWord s.pend ≠ .ok (.softReset x)) : Starts s :=
  ⟨h, h.noError hbusy hsoft, h.2.1.1 hbusy⟩

theorem rejectWord_inv {s : State} (h : Starts s) (w : Word) (e : DecodeError) : (rejectWord w e s).Inv := by
  unfold rejectWord
  split
  · exact inv_forgetGrid (h.raises _)
  · exact h.raises _

/-! ## Steps -/

/-- The engine's step, whether idle, on a command or on a word that is none. -/
theorem engineStep_inv {s : State} (h : s.Inv) : ∃ u, engineStep s = .next u ∧ u.Inv := by
  cases hbusy : s.status.busy with
  | false => exact ⟨s, engineStep_idle hbusy, h⟩
  | true =>
    cases hdec : decodeWord s.pend with
    | error e =>
      have hstarts := h.starts hbusy fun x hx => by rw [hdec] at hx; cases hx
      exact ⟨_, engineStep_bad hbusy hdec, rejectWord_inv hstarts _ e⟩
    | ok i =>
      rw [engineStep_busy hbusy hdec]
      by_cases hsoft : ∃ x, i = .softReset x
      · obtain ⟨x, rfl⟩ := hsoft
        exact execSoftReset_inv h
      · refine exec_inv (h.starts hbusy fun x hx => hsoft ⟨x, ?_⟩) i
        rw [hdec] at hx
        exact Except.ok.inj hx

/-- Every turn of every agent. -/
theorem turnStep_inv {s : State} (h : s.Inv) (t : Turn) : ∃ u, turnStep s t = .next u ∧ u.Inv := by
  cases t with
  | hostRead addr n => exact ⟨_, rfl, hostRead_inv h addr n⟩
  | hostWrite addr n v => exact ⟨_, rfl, hostWrite_inv h addr n v⟩
  | engine => exact engineStep_inv h
  | platformReset => exact ⟨_, rfl, platformReset_inv h⟩
  | powerOn => exact ⟨_, rfl, powerOn_inv h⟩

theorem step_inv {s : State} (h : s.Inv) : ∃ u, step s = .next u ∧ u.Inv := by
  cases hs : s.schedule with
  | nil => rw [step_no_turn hs]; exact engineStep_inv h
  | cons t rest => rw [step_turn hs]; exact turnStep_inv (s := s.setSchedule rest) h t

/-- Settles O42: the next state of a step is the one of `step_inv`. -/
theorem stepKeepsInv : Obligations.StepKeepsInv := by
  intro s u h hstep
  obtain ⟨v, hv, hinv⟩ := step_inv h
  rw [hv] at hstep
  cases hstep
  exact hinv

/-- Settles O43: at reset no buffer lists a byte, no table is defined and no scan is active. -/
theorem resetMeetsInv : Obligations.ResetMeetsInv := Tests.reset_inv

/-- Settles O44, as the first half of `step_inv`. -/
theorem invNeverFaults : Obligations.InvNeverFaults := by
  intro s h
  obtain ⟨u, hu, -⟩ := step_inv h
  exact ⟨u, hu⟩

end Sys2Proof.Machine
end

section
/-! PROOFS. How a command ends (spec/42_control.md R161, spec/60_exceptions.md R218): every command but SOFT_RESET is
pseudocode that completes or raises, and this is said once for all of them. -/

namespace Sys2Proof.Machine

/-! ## The pseudocode of a command -/

/-- The pseudocode of a command; SOFT_RESET has none (42_control R163). -/
def commandCode : Instr → Engine Unit
  | .nop => nopCommand
  | .softReset _ => pure ()
  | .loadDqt => loadDqtCommand
  | .loadDht => loadDhtCommand
  | .setFrame => setFrameCommand
  | .beginScan => beginScanCommand
  | .decodeMcu => decodeMcuCommand
  | .decodeScan => decodeScanCommand
  | .endScan => endScanCommand
  | .readBits n => readBitsCommand n
  | .huffDecode c t => huffDecodeCommand c t

/-- A command runs its pseudocode, and DECODE_MCU and DECODE_SCAN lose the sample grid when it raises. -/
theorem exec_eq_run (i : Instr) (s : State) (hi : ∀ x, i ≠ .softReset x) :
    exec i s = if i = .decodeMcu ∨ i = .decodeScan then runDecode (commandCode i) s
      else runCommand (commandCode i) s := by
  cases i with
  | softReset x => exact absurd rfl (hi x)
  | _ => rfl

/-- Everything a command but SOFT_RESET can do when it answers a next state. -/
theorem exec_cases {i : Instr} {s u : State} (hi : ∀ x, i ≠ .softReset x) (h : exec i s = .next u) :
    (∃ t, (commandCode i).run s = .ok () t ∧ u = t.complete) ∨
    ∃ t e, (commandCode i).run s = .error (.raised e) t ∧ (u = t.enterError e ∨ u = (t.enterError e).forgetGrid) := by
  rw [exec_eq_run i s hi] at h
  split at h
  · rcases runDecode_cases h with hok | ⟨t, e, hrun, hu⟩
    · exact .inl hok
    · exact .inr ⟨t, e, hrun, .inr hu⟩
  · rcases runCommand_cases h with hok | ⟨t, e, hrun, hu⟩
    · exact .inl hok
    · exact .inr ⟨t, e, hrun, .inl hu⟩

/-- A pending word but SOFT_RESET ends complete or in error entry: the engine's step, command or no command. -/
theorem engineStep_cases {s u : State} (hbusy : s.status.busy = true)
    (hsoft : ∀ x, decodeWord s.pend ≠ .ok (.softReset x)) (h : engineStep s = .next u) :
    (∃ t : State, u = t.complete) ∨
      ∃ (t : State) (e : Raise), u = t.enterError e ∨ u = (t.enterError e).forgetGrid := by
  cases hdec : decodeWord s.pend with
  | error e =>
    rw [engineStep_bad hbusy hdec] at h
    cases h
    refine .inr ⟨s, decodeFailure s.pend e, ?_⟩
    unfold rejectWord
    split
    · exact .inr rfl
    · exact .inl rfl
  | ok i =>
    rw [engineStep_busy hbusy hdec] at h
    rcases exec_cases (fun x hx => hsoft x (hx ▸ hdec)) h with ⟨t, -, hu⟩ | ⟨t, e, -, hu⟩
    · exact .inl ⟨t, hu⟩
    · exact .inr ⟨t, e, hu⟩

/-! ## SOFT_RESET -/

/-- A word whose OP byte is 0x01 is SOFT_RESET, whatever its other bits are (42_control R163). -/
theorem decodeWord_softReset {w : Word} : opField w = 0x01#8 ↔ ∃ x, decodeWord w = .ok (.softReset x) := by
  constructor
  · intro hop
    exact ⟨w.extractLsb' 8 24, by unfold decodeWord; rw [hop]; rfl⟩
  · rintro ⟨x, hx⟩
    rw [← decodedWordIsEncoding w _ hx]
    exact opField_softReset x _

/-- Settles O11: the cleared registers, field by field. -/
theorem softResetCompletes : Obligations.SoftResetCompletes :=
  fun s _ => ⟨Config.unspecifiedPend s.resets, s.resets + 1, rfl⟩

/-- Settles O9: the step answers a state of the invariant, which says how the flags go together at either end. -/
theorem pendingCommandEndsInOneStep : Obligations.PendingCommandEndsInOneStep := by
  intro s h hbusy
  refine ⟨fun i hdec => engineStep_busy hbusy hdec, ?_⟩
  obtain ⟨u, hu, hinv⟩ := engineStep_inv h
  by_cases hop : opField s.pend = 0x01#8
  · obtain ⟨x, hdec⟩ := decodeWord_softReset.mp hop
    rw [engineStep_busy hbusy hdec] at hu ⊢
    cases hu
    exact ⟨_, rfl, rfl, fun _ => ⟨rfl, rfl⟩, fun hne => absurd hop hne⟩
  · have hends := engineStep_cases hbusy (fun x hx => hop (decodeWord_softReset.mpr ⟨x, hx⟩)) hu
    obtain ⟨-, ⟨-, hdone, -, -, -, -, -, hcode⟩, -⟩ := hinv
    have hflags : u.status.busy = false ∧
        (u.status.done = true ∨ u.status.err = true ∧ u.status.scanActive = false) := by
      rcases hends with ⟨t, rfl⟩ | ⟨t, e, rfl | rfl⟩
      · exact ⟨rfl, .inl rfl⟩
      · exact ⟨rfl, .inr ⟨rfl, rfl⟩⟩
      · exact ⟨rfl, .inr ⟨rfl, rfl⟩⟩
    refine ⟨u, hu, hflags.1, fun heq => absurd heq hop, fun _ => ?_⟩
    rcases hflags.2 with hd | ⟨he, hscan⟩
    · exact .inl ⟨hd, hdone hd⟩
    · refine .inr ⟨Bool.eq_false_iff.mpr fun hd => ?_, he, hcode he, hscan⟩
      exact Bool.false_ne_true ((hdone hd).symm.trans he)

/-! ## NOP, SET_FRAME, END_SCAN and the scan check -/

/-- Settles O10: each command's pseudocode is one assignment; SET_FRAME's comes after a check that passes. -/
theorem statusCommandsComplete : Obligations.StatusCommandsComplete := by
  refine ⟨fun s => rfl, fun s hscan => ?_, fun s => rfl⟩
  refine runCommand_ok (t := s.setFrameValid) ?_
  rw [setFrameCommand, run_bind_ok (a := ()) (t := s) (by rw [run_requireNoScan, hscan]; rfl), run_modify]

/-- Pseudocode that begins with the check for no scan raises during one (60_exceptions R216). -/
theorem run_requireNoScan_bind {s : State} (hscan : s.status.scanActive = true) (op : Opcode) (f : Unit → Engine Unit) :
    (requireNoScan op >>= f).run s = .error (.raised ⟨.invalidCommand, 3#8, op.toByte⟩) s :=
  run_bind_error (by rw [run_requireNoScan, hscan, if_pos rfl])

/-- Pseudocode that begins with the check for a scan raises without one (60_exceptions R216). -/
theorem run_requireScan_bind {s : State} (hscan : s.status.scanActive = false) (op : Opcode) (f : Unit → Engine Unit) :
    (requireScan op >>= f).run s = .error (.raised ⟨.invalidCommand, 3#8, op.toByte⟩) s :=
  run_bind_error (by rw [run_requireScan, hscan]; rfl)

/-- Pseudocode that begins with the check for a scan goes on during one. -/
theorem run_requireScan_passes {s : State} (hscan : s.status.scanActive = true) (op : Opcode) (f : Unit → Engine Unit) :
    (requireScan op >>= f).run s = (f ()).run s :=
  run_bind_ok (by rw [run_requireScan, hscan, if_pos rfl])

/-- A load during a scan is refused by its first check (41_tables R135, R138). -/
theorem run_load_in_scan {s : State} (hscan : s.status.scanActive = true) (op : Opcode) (record : Engine Unit) :
    (do loadChecks op; loadAll record : Engine Unit).run s =
      .error (.raised ⟨.invalidCommand, 3#8, op.toByte⟩) s :=
  run_bind_error (run_requireNoScan_bind hscan op _)

/-- BEGIN_SCAN raises the error its checks find (42_control R166). -/
theorem exec_beginScan_error {s : State} {e : Raise} (h : s.scanError = some e) :
    exec .beginScan s = .next (s.enterError e) := by
  refine runCommand_raised (t := s) ?_
  rw [beginScanCommand, run_get_bind, h, run_raise]

/-- Settles O12: the four commands make the same check first. -/
theorem setupRefusedDuringScan : Obligations.SetupRefusedDuringScan := by
  intro s hscan
  refine ⟨?_, ?_, ?_, ?_⟩
  · exact runCommand_raised (run_load_in_scan hscan .loadDqt loadQuantRecord)
  · exact runCommand_raised (run_load_in_scan hscan .loadDht loadHuffRecord)
  · exact runCommand_raised (run_requireNoScan_bind hscan .setFrame _)
  · exact exec_beginScan_error (by rw [State.scanError, if_pos hscan])

/-- A class of at most 1 names a class of table (30_encoding R91). -/
theorem eq_classByte_of_le {c : Byte} (hc : c.toNat ≤ 1) : ∃ k, c = classByte k := by
  rcases Nat.le_one_iff_eq_zero_or_eq_one.mp hc with h | h
  · exact ⟨.dc, BitVec.eq_of_toNat_eq h⟩
  · exact ⟨.ac, BitVec.eq_of_toNat_eq h⟩

/-- An MCU command that raises before it moved anything: error entry, and the sample grid is any value. -/
theorem runDecode_raised_at {m : Engine Unit} {s : State} {e : Raise} (h : m.run s = .error (.raised e) s) :
    ∃ g, runDecode m s = .next { s.afterError e.code.toByte e.sub e.info with obuf := g } ∧
      ∀ a, s.OutsideGrid a → g.read .obuf a = s.obufByte a := by
  obtain ⟨g, hg, hout⟩ := enterError_forgetGrid s e
  exact ⟨g, by rw [runDecode_raised h, hg], hout⟩

/-- Settles O13: READ_BITS and HUFF_DECODE find their operands legal, and then all four make the same check. -/
theorem streamCommandsNeedScan : Obligations.StreamCommandsNeedScan := by
  intro s hscan
  refine ⟨fun n hn => ?_, fun c t hc => ?_, ?_, ?_⟩
  · refine runCommand_raised (t := s) (e := ⟨.invalidCommand, 3#8, Opcode.readBits.toByte⟩) ?_
    rw [readBitsCommand, bitCount, if_pos hn, run_pure_bind]
    exact run_requireScan_bind hscan .readBits _
  · obtain ⟨k, rfl⟩ := eq_classByte_of_le hc
    refine runCommand_raised (t := s) (e := ⟨.invalidCommand, 3#8, Opcode.huffDecode.toByte⟩) ?_
    rw [huffDecodeCommand, huffClass_classByte, run_pure_bind]
    exact run_requireScan_bind hscan .huffDecode _
  · exact runDecode_raised_at (run_requireScan_bind hscan .decodeMcu _)
  · exact runDecode_raised_at (run_requireScan_bind hscan .decodeScan _)

/-- Settles O20: the table is looked up before a bit is read. -/
theorem huffDecodeUndefinedTable : Obligations.HuffDecodeUndefinedTable := by
  intro s t hscan
  have hraise : ∀ c : HuffClass, (3 < t.toNat ∨ s.tableValid.huff c t.toNat = false) →
      exec (.huffDecode (classByte c) t) s = .next (s.enterError (definedHuffTable.undefinedTable c t)) := by
    intro c hundef
    refine runCommand_raised (t := s) ?_
    rw [huffDecodeCommand, huffClass_classByte, run_pure_bind, run_requireScan_passes hscan]
    refine run_bind_error ?_
    rw [definedHuffTable, run_get_bind]
    split
    · rename_i hlt
      rw [hundef.resolve_left (by omega)]
      rfl
    · rfl
  exact ⟨hraise .dc, hraise .ac⟩

end Sys2Proof.Machine
end

section
/-! PROOFS. The canonical codes of a table (spec/41_tables.md R141 to R143) and the order of the coefficients
(spec/30_encoding.md R103). -/

namespace Sys2Proof.Machine

/-! ## Bits of a number -/

/-- The first bits are those of the number shifted right. -/
theorem bitsOf_take {l n : Nat} (h : l ≤ n) (v : Nat) : (bitsOf n v).take l = bitsOf l (v >>> (n - l)) := by
  unfold bitsOf
  rw [← List.map_take, List.take_range, Nat.min_eq_left h]
  apply List.map_congr_left
  intro j hj
  have hjl := List.mem_range.mp hj
  rw [Nat.testBit_shiftRight]
  congr 1
  omega

/-- Numbers that fit in n bits are told apart by them. -/
theorem bitsOf_injective {n v w : Nat} (hv : v < 2 ^ n) (hw : w < 2 ^ n) (h : bitsOf n v = bitsOf n w) : v = w := by
  refine Nat.eq_of_testBit_eq fun i => ?_
  by_cases hi : i < n
  · have hbit := congrArg (·[n - 1 - i]?) h
    have hpos : n - 1 - (n - 1 - i) = i := by omega
    simpa [bitsOf, show n - 1 - i < n by omega, hpos] using hbit
  · have hle : 2 ^ n ≤ 2 ^ i := Nat.pow_le_pow_right (by omega) (by omega)
    rw [Nat.testBit_lt_two_pow (Nat.lt_of_lt_of_le hv hle), Nat.testBit_lt_two_pow (Nat.lt_of_lt_of_le hw hle)]

/-! ## Prefix-free codes -/

/-- The code value of a list position fits in its length (41_tables R142). -/
theorem codeValue_lt {cnt : Vector Byte 16} (hfit : CodesFit cnt) {len k : Nat} (h : HasCode cnt len k) :
    codeBefore cnt len + (k - symbolsBefore cnt len) < 2 ^ len := by
  obtain ⟨h1, h16, hlow, hhigh⟩ := h
  have hbound := (codesFit_iff cnt).mp ((codesFit_eq cnt).mpr hfit) (len - 1) (by omega)
  rw [Nat.sub_add_cancel h1] at hbound
  omega

/-- A code value of a longer length, cut to a shorter one, is past every code of that length (41_tables R143). -/
theorem codeValue_shifted_ge (cnt : Vector Byte 16) (len : Nat) {m : Nat} (hm : 1 ≤ m) (d : Nat) :
    codeBefore cnt len + countAt cnt len ≤ (codeBefore cnt (len + m) + d) >>> m := by
  have hgrows := codeBefore_grows cnt len m hm
  rw [Nat.shiftRight_eq_div_pow, Nat.le_div_iff_mul_le (Nat.two_pow_pos m)]
  omega

/-- Settles O21: cut to the length of a code that begins it, a longer code would be past all codes of that length; codes
of one length differ by their list positions. -/
theorem codesPrefixFree : Obligations.CodesPrefixFree := by
  intro cnt len len' k k' hfit h h' hpre
  have hle : len ≤ len' := by
    have := hpre.length_le
    rwa [codeBits, codeBits, bitsOf_length, bitsOf_length] at this
  obtain ⟨m, rfl⟩ := Nat.exists_eq_add_of_le hle
  have hv := codeValue_lt hfit h
  have hv' := codeValue_lt hfit h'
  have hbits : bitsOf len (codeBefore cnt len + (k - symbolsBefore cnt len)) =
      bitsOf len ((codeBefore cnt (len + m) + (k' - symbolsBefore cnt (len + m))) >>> m) := by
    have htake := List.prefix_iff_eq_take.mp hpre
    rwa [codeBits, codeBits, bitsOf_length, bitsOf_take hle, Nat.add_sub_cancel_left] at htake
  have heq := bitsOf_injective hv (by
    rw [Nat.shiftRight_eq_div_pow, Nat.div_lt_iff_lt_mul (Nat.two_pow_pos m), ← Nat.pow_add]
    exact hv') hbits
  obtain ⟨-, -, hlow, hhigh⟩ := h
  rcases Nat.eq_zero_or_pos m with rfl | hm
  · obtain ⟨-, -, hlow', -⟩ := h'
    rw [Nat.add_zero] at hlow' heq ⊢
    rw [Nat.shiftRight_zero] at heq
    exact ⟨by omega, rfl⟩
  · have := codeValue_shifted_ge cnt len hm (k' - symbolsBefore cnt (len + m))
    omega

/-! ## The zig-zag order -/

/-- Settles O33: injectivity is `zz_injective`; the walk is checked at each of its 63 steps. -/
theorem zigZagWalksDiagonals : Obligations.ZigZagWalksDiagonals :=
  ⟨rfl, rfl, zz_injective, by decide +kernel⟩

end Sys2Proof.Machine
end

section
/-! PROOFS. BEGIN_SCAN (spec/42_control.md R165, R166): the frame that meets every check, and the first check that
fails. -/

namespace Sys2Proof.Machine

/-! ## The first line that raises -/

/-- The first line that raises, behind lines that do not. -/
theorem firstRaise_split {before after : List (Bool × Byte × Byte × Byte)} {r : Byte × Byte × Byte}
    (h : ∀ c ∈ before, c.1 = false) : firstRaise (before ++ (true, r) :: after) = some r := by
  have hbefore : firstRaise before = none := by
    rw [firstRaise, List.findSome?_eq_none_iff]
    intro c hc
    rw [h c hc]
    rfl
  rw [firstRaise_append, hbefore]
  rfl

/-- Settles O15: the model's error is that of the first raising line (`scanError_checks`). -/
theorem beginScanReportsFirstFailure : Obligations.BeginScanReportsFirstFailure := by
  intro s before after code sub info hchecks hbefore
  have hfirst : s.scanError.map Raise.bytes = some (code, sub, info) := by
    rw [← scanError_checks, hchecks, firstRaise_split hbefore]
  obtain ⟨e, he, hbytes⟩ := Option.map_eq_some_iff.mp hfirst
  cases hbytes
  exact exec_beginScan_error he

/-! ## A frame that meets every check -/

/-- The components of the frame are those below FRAME_NCOMP. -/
theorem lt_of_mem_frameComps {s : State} {i : Fin 3} (h : i ∈ s.frameComps) : i.val < s.frameNcomp.toNat := by
  rw [frameComps_eq, State.components, List.mem_filter] at h
  exact decide_eq_true_eq.mp h.2

/-- No check fails on a frame that meets them all (42_control R166). -/
theorem scanError_eq_none {s : State} (hscan : s.status.scanActive = false) (hframe : s.status.frameValid = true)
    (hsof : s.frameType.sof = 0xC0#8) (hp : s.frameType.p = 8#8) (hn : s.frameNcomp = 1#8 ∨ s.frameNcomp = 3#8)
    (hcomps : ∀ i ∈ s.frameComps, s.samplingOk i = true ∧ s.tableError i = none) (hx : s.frameSize.x ≠ 0#16)
    (hy : s.frameSize.y ≠ 0#16) (hin : s.inBase.toNat + s.inLen.toNat ≤ s.params.ibufBytes)
    (hout : s.gridBase + s.gridBytes ≤ s.params.obufBytes) : s.scanError = none := by
  have hncomp : (s.frameNcomp != 1#8 && s.frameNcomp != 3#8) = false := by
    rcases hn with hn | hn <;> rw [hn] <;> rfl
  have hsampling : (s.frameComps.find? fun i => !s.samplingOk i) = none := by
    rw [List.find?_eq_none]
    intro i hi
    rw [(hcomps i hi).1]
    decide
  have htables : s.frameComps.findSome? s.tableError = none :=
    List.findSome?_eq_none_iff.mpr fun i hi => (hcomps i hi).2
  unfold State.scanError
  simp only [hscan, hframe, hsof, hp, hncomp, hsampling, htables, bne_self_eq_false, Bool.not_true,
    Bool.false_eq_true, if_false, beq_eq_false_iff_ne.mpr hx, beq_eq_false_iff_ne.mpr hy, Bool.or_self,
    if_neg (Nat.not_lt.mpr hin), if_neg (Nat.not_lt.mpr hout)]

/-- Settles O14: no check fails, and what BEGIN_SCAN writes is `startScan`. -/
theorem beginScanCompletes : Obligations.BeginScanCompletes := by
  intro s hscan hframe hsof hp hn hcomps hx hy hin hout
  have hchecks : ∀ i ∈ s.frameComps, s.samplingOk i = true ∧ s.tableError i = none := by
    intro i hi
    obtain ⟨hh, hv, -, hq, -, hd, -, ha⟩ := hcomps i (lt_of_mem_frameComps hi)
    refine ⟨?_, tableError_none.mpr ⟨hq, hd, ha⟩⟩
    rw [State.samplingOk, hh, hv]
    rfl
  have hnone := scanError_eq_none hscan hframe hsof hp hn hchecks hx hy hin hout
  refine runCommand_ok (t := s.startScan) ?_
  rw [beginScanCommand, run_get_bind, hnone, run_set]

end Sys2Proof.Machine
end

section
/-! PROOFS. READ_BITS and HUFF_DECODE on the stream (spec/40_bit_reader.md R121 to R126, spec/41_tables.md R145 to R147). -/

namespace Sys2Proof.Machine

/-! ## The two commands after their checks -/

/-- READ_BITS with a legal count in a scan is an n-bit read, and its value goes to RESULT. -/
theorem run_readBitsCommand {s : State} (hscan : s.status.scanActive = true) {n : Byte} (hn : n.toNat ≤ 16) :
    (readBitsCommand n).run s =
      (readBits 0#8 n.toNat >>= fun v => modify fun t => t.setResult (BitVec.ofNat 32 v)).run s := by
  rw [readBitsCommand, bitCount, if_pos hn, run_pure_bind, run_requireScan_passes hscan]

/-- A stream that can be read is one the reader can run on. -/
theorem State.StreamReady.reader {s : State} (h : s.StreamReady) : ReaderReady s :=
  ⟨h.2.1, h.2.2.1, h.2.2.2.1, h.2.2.2.2⟩

/-- A table that is defined is the one the command looks up (10_state R44, R49). -/
theorem State.Defines.lookup {s : State} {c : HuffClass} {t : Fin 4} {h : HuffTable} (hd : s.Defines c t h) :
    s.tableValid.huff c t.val = true ∧ s.huffTable c t = h := by
  cases c <;> exact hd

/-- HUFF_DECODE of a defined table in a scan is a symbol decode, and the symbol goes to RESULT. -/
theorem run_huffDecodeCommand_bind {s : State} {c : HuffClass} {t : Fin 4} {h : HuffTable}
    (hscan : s.status.scanActive = true) (hd : s.Defines c t h) :
    (huffDecodeCommand (classByte c) (BitVec.ofNat 8 t.val)).run s =
      (huffSymbol h 1#8 (BitVec.ofNat 8 t.val) >>= fun v => modify fun u => u.setResult (v.setWidth 32)).run s := by
  obtain ⟨hvalid, rfl⟩ := hd.lookup
  rw [huffDecodeCommand, huffClass_classByte, run_pure_bind, run_requireScan_passes hscan,
    run_bind_ok (run_definedHuffTable c t s hvalid), run_get_bind]

/-! ## A read that succeeds -/

/-- A command whose pseudocode reads a value off the stream and writes it to RESULT: the next state of the statements. -/
theorem runCommand_read {α : Type} {code : Engine Unit} {m : Engine α} {w : α → Word} {s t : State} {a : α}
    (hcode : code.run s = (m >>= fun v => modify fun u => u.setResult (w v)).run s) (hm : m.run s = .ok a t)
    (hframe : ReadFrame s t) (hfetch : s.Fetched t) :
    ∃ u, runCommand code s = .next u ∧ u.streamBits = t.streamBits ∧ s.Fetched u ∧ u.brBits = t.brBits ∧
      u = { s with result := w a, brPos := u.brPos, brBits := u.brBits
                   status := { s.status with done := true, busy := false } } := by
  refine ⟨(t.setResult (w a)).complete, runCommand_ok ?_, rfl, hfetch, rfl, ?_⟩
  · rw [hcode, run_bind_ok hm, run_modify]
  · obtain ⟨pos, bits, rfl⟩ := hframe
    rfl

/-- Settles O16: the n-bit read takes the first n bits (`readBits_bits`); READ_BITS 0 reads none, whatever the stream. -/
theorem readBitsTakesStream : Obligations.ReadBitsTakesStream := by
  refine ⟨fun s n bits rest hready hn hlen hstream => ?_, fun s hscan => ?_⟩
  · obtain ⟨t, hrun, hrest, -, hframe⟩ := readBits_bits hlen 0#8 hready.reader hstream
    obtain ⟨u, hu, hus, huf, hubits, hueq⟩ := runCommand_read (run_readBitsCommand hready.1 hn) hrun hframe
      ((fetched_readBits 0#8 n.toNat).ok hrun)
    refine ⟨u, hu, hus.trans hrest, huf, fun hne => ?_, hueq⟩
    have hne' : n.toNat ≠ 0 := fun h => hne (BitVec.eq_of_toNat_eq h)
    have hcnt := cnt_readBits 0#8 hne' hready.reader.cnt
    rwa [hrun, endState_ok, ← hubits] at hcnt
  · refine runCommand_ok (t := s.setResult 0#32) ?_
    rw [run_readBitsCommand hscan (by decide)]
    rfl

/-- Settles O18: symbol decode takes exactly the code (`huffSymbol_code`). -/
theorem huffDecodeReadsSymbol : Obligations.HuffDecodeReadsSymbol := by
  intro s c t h v code rest hready hdef hsound hcode hstream
  obtain ⟨w, hrun, hrest, -, hframe⟩ := huffSymbol_code hsound hcode 1#8 (BitVec.ofNat 8 t.val) hready.reader hstream
  obtain ⟨u, hu, hus, huf, hubits, hueq⟩ := runCommand_read (run_huffDecodeCommand_bind hready.1 hdef) hrun hframe
    ((fetched_huffSymbol h 1#8 (BitVec.ofNat 8 t.val)).ok hrun)
  have hcnt := cnt_huffSymbol h 1#8 (BitVec.ofNat 8 t.val) hready.reader.cnt
  rw [hrun, endState_ok, ← hubits] at hcnt
  exact ⟨u, hu, hus.trans hrest, huf, hcnt, hueq⟩

/-! ## A read that raises -/

/-- A command whose reading pseudocode meets the end of the stream ends as `RunsOut` says. -/
theorem runCommand_runsOut {α : Type} {code : Engine Unit} {m : Engine α} {f : α → Engine Unit} {s : State}
    {info : Byte}
    (hcode : code.run s = (m >>= f).run s) (hends : EndsFrom s info (m.run s)) (hfetch : Keeps State.Fetched m) :
    ∃ u, runCommand code s = .next u ∧ s.RunsOut u info := by
  obtain ⟨err, sub, v, hrun, hout⟩ := hends.runsOut (hfetch s)
  exact ⟨_, runCommand_raised (by rw [hcode, run_bind_error hrun]), hout⟩

/-- Settles O17: fewer bits than the read wants bring it to the end of the stream. -/
theorem readBitsRunsOut : Obligations.ReadBitsRunsOut := by
  intro s n hready hn hshort
  exact runCommand_runsOut (run_readBitsCommand hready.1 hn) (readBits_endsAt 0#8 hready.reader hshort)
    (fetched_readBits 0#8 n.toNat)

/-- Settles O19: with 16 bits the decode runs through all lengths, with fewer it meets the end of the stream. -/
theorem huffDecodeFindsNoCode : Obligations.HuffDecodeFindsNoCode := by
  intro s c t h hready hdef hsound
  have hcode := run_huffDecodeCommand_bind hready.1 hdef
  refine ⟨fun bits rest hlen hno hstream => ?_, fun hshort hno => ?_⟩
  · obtain ⟨code, v, herr, hrun, hrest, hframe⟩ :=
      huffSymbol_noCode hsound hlen hno 1#8 (BitVec.ofNat 8 t.val) hready.reader hstream
    have hfetch := (fetched_huffSymbol h 1#8 (BitVec.ofNat 8 t.val)).error hrun
    have hcnt := cnt_huffSymbol h 1#8 (BitVec.ofNat 8 t.val) hready.reader.cnt
    rw [hrun, endState_error] at hcnt
    refine ⟨_, runCommand_raised (by rw [hcode, run_bind_error hrun]), hrest, hfetch, hcnt, ?_⟩
    obtain ⟨pos, b, rfl⟩ := hframe
    rw [enterError_eq_afterError, herr]
    rfl
  · exact runCommand_runsOut hcode (huffSymbol_endsAt hsound 1#8 _ hready.reader hshort hno)
      (fetched_huffSymbol h 1#8 (BitVec.ofNat 8 t.val))

/-! ## What they may change -/

/-- The pseudocode writes the reader's state only, and RESULT besides if it ends without an error. -/
structure ReadsResult (m : Engine Unit) : Prop where
  ok : ∀ s t, m.run s = .ok () t → ∃ r v, t = State.setResult r v ∧ ReadFrame s r
  error : ∀ s e t, m.run s = .error e t → ReaderFrame s t

/-- Pseudocode that changes nothing however it ends: a check. -/
abbrev Checks {α : Type} (m : Engine α) : Prop := Keeps (fun s t => t = s) m

theorem same_composes : Composes fun s t : State => t = s := ⟨fun _ => rfl, fun h k => k.trans h⟩

theorem checks_bitCount (n : Byte) : Checks (bitCount n) :=
  keeps_ite _ (keeps_pure same_composes _) (keeps_raise same_composes _)

theorem checks_requireScan (op : Opcode) : Checks (requireScan op) := keeps_requireScan same_composes op

theorem checks_huffClass (c : Byte) : Checks (huffClass c) := by
  intro s
  rcases run_huffClass_cases c s with ⟨cls, h⟩ | ⟨e, h⟩ <;> rw [h] <;> rfl

theorem checks_definedHuffTable (c : HuffClass) (t : Byte) : Checks (definedHuffTable c t) := by
  intro s
  rcases run_definedHuffTable_cases c t s with ⟨id, h⟩ | ⟨e, h⟩ <;> rw [h] <;> rfl

/-- A check in front of such pseudocode. -/
theorem ReadsResult.after {α : Type} {m : Engine α} {f : α → Engine Unit} (hm : Checks m)
    (hf : ∀ a, ReadsResult (f a)) : ReadsResult (m >>= f) := by
  constructor
  · intro s t h
    rw [run_bind] at h
    cases hr : m.run s with
    | ok a r => rw [hr, hm.ok hr] at h; exact (hf a).ok s t h
    | error e r => rw [hr] at h; cases h
  · intro s e t h
    rw [run_bind] at h
    cases hr : m.run s with
    | ok a r => rw [hr, hm.ok hr] at h; exact (hf a).error s e t h
    | error e r => rw [hr, hm.error hr] at h; cases h; exact ReaderFrame.refl s

theorem readsResult_get {f : State → Engine Unit} (hf : ∀ s, ReadsResult (f s)) : ReadsResult (get >>= f) :=
  ⟨fun s => (hf s).ok s, fun s => (hf s).error s⟩

/-- A read whose value goes to RESULT. -/
theorem readsResult_read {α : Type} {m : Engine α} (hm : Reads m) (hk : Keeps ReaderFrame m) (w : α → Word) :
    ReadsResult (m >>= fun v => modify fun t => t.setResult (w v)) := by
  constructor
  · intro s t h
    rw [run_bind] at h
    cases hr : m.run s with
    | ok a r => rw [hr] at h; cases h; exact ⟨r, w a, rfl, hm s a r hr⟩
    | error e r => rw [hr] at h; cases h
  · intro s e t h
    rw [run_bind] at h
    cases hr : m.run s with
    | ok a r => rw [hr] at h; cases h
    | error e' r => rw [hr] at h; cases h; exact hk.error hr

theorem readsResult_readBitsCommand (n : Byte) : ReadsResult (readBitsCommand n) :=
  ReadsResult.after (checks_bitCount n) fun _ => ReadsResult.after (checks_requireScan _) fun _ =>
    readsResult_read (reads_readBitsFrom _ _ _) (keeps_readBits _ _) _

theorem readsResult_huffDecodeCommand (c t : Byte) : ReadsResult (huffDecodeCommand c t) :=
  ReadsResult.after (checks_huffClass c) fun cls => ReadsResult.after (checks_requireScan _) fun _ =>
    ReadsResult.after (checks_definedHuffTable cls t) fun _ => readsResult_get fun _ =>
      readsResult_read (reads_huffLoop _ _ _ _ _ _) (keeps_huffSymbol _ _ _) _

/-- Settles O28: both commands are such pseudocode, and complete or enter the error behind it. -/
theorem readerCommandsFrame : Obligations.ReaderCommandsFrame := by
  intro s u i hi hu
  have hcode : ∃ m, ReadsResult m ∧ exec i s = runCommand m s := by
    rcases hi with ⟨n, rfl⟩ | ⟨c, t, rfl⟩
    · exact ⟨_, readsResult_readBitsCommand n, rfl⟩
    · exact ⟨_, readsResult_huffDecodeCommand c t, rfl⟩
  obtain ⟨m, hm, hexec⟩ := hcode
  rw [hexec] at hu
  rcases runCommand_cases hu with ⟨t, hrun, rfl⟩ | ⟨t, e, hrun, rfl⟩
  · obtain ⟨r, v, rfl, pos, bits, rfl⟩ := hm.ok s t hrun
    exact ⟨.inl rfl, fun a => ⟨rfl, rfl⟩⟩
  · obtain ⟨pos, bits, seen, code, rfl⟩ := hm.error s _ t hrun
    exact ⟨.inr rfl, fun a => ⟨rfl, rfl⟩⟩

end Sys2Proof.Machine
end

section
/-! PROOFS. The table loads (spec/41_tables.md R135 to R142): a load as its checks and a loop of records, what it does with
a leading record, its other ends, and what it may change. -/

namespace Sys2Proof.Machine

/-! ## A load of either kind -/

/-- A load: the checks of R135 and R138, then one record after another. -/
def loadCommand (op : Opcode) (record : Engine Unit) : Engine Unit := do
  loadChecks op
  loadAll record

theorem loadDqtCommand_eq : loadDqtCommand = loadCommand .loadDqt loadQuantRecord := rfl
theorem loadDhtCommand_eq : loadDhtCommand = loadCommand .loadDht loadHuffRecord := rfl

/-- The source range of a load is good: no scan, within IBUF, and not reversed (41_tables R135). -/
structure RangeOk (s : State) : Prop where
  noScan : s.status.scanActive = false
  inIbuf : s.srcEnd.toNat ≤ s.params.ibufBytes
  order : s.srcPtr.toNat ≤ s.srcEnd.toNat

/-- On a good range a load is its loop. -/
theorem run_loadCommand {s : State} (h : RangeOk s) (op : Opcode) (record : Engine Unit) :
    (loadCommand op record).run s = (loadRecords record (s.srcEnd.toNat - s.srcPtr.toNat)).run s := by
  rw [loadCommand, run_bind_ok (run_loadChecks_ok h.noScan h.inIbuf h.order)]
  rfl

theorem run_loadCommand_badRange {s : State} (hscan : s.status.scanActive = false)
    (h : s.params.ibufBytes < s.srcEnd.toNat ∨ s.srcEnd.toNat < s.srcPtr.toNat) (op : Opcode) (record : Engine Unit) :
    (loadCommand op record).run s = .error (.raised ⟨.invalidConfiguration, 1#8, 0#8⟩) s :=
  run_bind_error (run_loadChecks_bad hscan h)

theorem run_loadCommand_empty {s : State} (h : RangeOk s) (he : s.srcPtr = s.srcEnd) (op : Opcode)
    (record : Engine Unit) : (loadCommand op record).run s = .ok () s := by
  rw [run_loadCommand h, run_loadRecords_done (Nat.le_of_eq (congrArg BitVec.toNat he.symm))]

/-- With bytes left the loop begins with a record. -/
theorem run_loadCommand_more {s : State} (h : RangeOk s) (hlt : s.srcPtr.toNat < s.srcEnd.toNat) (op : Opcode)
    (record : Engine Unit) : (loadCommand op record).run s =
      (record >>= fun _ => loadRecords record (s.srcEnd.toNat - s.srcPtr.toNat - 1)).run s := by
  obtain ⟨n, hn⟩ : ∃ n, s.srcEnd.toNat - s.srcPtr.toNat = n + 1 := ⟨_, (Nat.sub_add_cancel (by omega)).symm⟩
  rw [run_loadCommand h, hn, run_loadRecords_more hlt, Nat.add_sub_cancel]

theorem run_loadCommand_error {s t : State} {e : Stop} (h : RangeOk s) (hlt : s.srcPtr.toNat < s.srcEnd.toNat)
    (op : Opcode) {record : Engine Unit} (hrun : record.run s = .error e t) :
    (loadCommand op record).run s = .error e t := by
  rw [run_loadCommand_more h hlt, run_bind_error hrun]

/-- A load whose first record is stored goes on as a load from behind it. -/
theorem run_loadCommand_record {s t : State} (h : RangeOk s) (hlt : s.srcPtr.toNat < s.srcEnd.toNat) (op : Opcode)
    {record : Engine Unit}
    (hmoves : ∀ s t, record.run s = .ok () t → s.srcPtr.toNat < t.srcPtr.toNat ∧ t.srcEnd = s.srcEnd)
    (hrun : record.run s = .ok () t) (ht : RangeOk t) :
    (loadCommand op record).run s = (loadCommand op record).run t := by
  obtain ⟨hptr, hend⟩ := hmoves s t hrun
  rw [run_loadCommand_more h hlt, run_bind_ok hrun, run_loadCommand ht]
  exact run_loadRecords_enough hmoves _ _ t (by rw [hend]; omega) (Nat.le_refl _)

/-- A command depends on its pseudocode's run alone. -/
theorem runCommand_congr {m : Engine Unit} {s t : State} (h : m.run s = m.run t) : runCommand m s = runCommand m t := by
  rw [runCommand, runCommand, h]

/-! ## Quantization tables -/

/-- A whole first record: the state behind it, and the load from there (41_tables R136, R137). -/
theorem loadDqt_first {s : State} {pq : Nat} {tq : Fin 4} (hscan : s.status.scanActive = false) (hpq : pq ≤ 1)
    (hhead : s.ibufByte s.srcPtr.toNat = BitVec.ofNat 8 (16 * pq + tq.val))
    (hle : s.srcPtr.toNat + (1 + 64 * (pq + 1)) ≤ s.srcEnd.toNat) (hin : s.srcEnd.toNat ≤ s.params.ibufBytes) :
    ∃ q : QuantTable, (∀ i : Fin 64, q[(zz i).val] =
        if pq = 0 then (s.ibufByte (s.srcPtr.toNat + 1 + i.val)).setWidth 16
        else s.ibufByte (s.srcPtr.toNat + 1 + 2 * i.val) ++ s.ibufByte (s.srcPtr.toNat + 2 + 2 * i.val)) ∧
      ∃ t, t = (s.storeQuant tq q).setSrcPtr (BitVec.ofNat 32 (s.srcPtr.toNat + (1 + 64 * (pq + 1)))) ∧ RangeOk t ∧
        loadDqtCommand.run s = loadDqtCommand.run t := by
  obtain ⟨q, hq, hrun⟩ := run_loadQuantRecord_whole hpq hhead hle hin
  have hend := s.srcEnd.isLt
  have hptr : (BitVec.ofNat 32 (s.srcPtr.toNat + (1 + 64 * (pq + 1)))).toNat = s.srcPtr.toNat + (1 + 64 * (pq + 1)) := by
    rw [BitVec.toNat_ofNat, Nat.mod_eq_of_lt (by omega)]
  have ht : RangeOk ((s.storeQuant tq q).setSrcPtr (BitVec.ofNat 32 (s.srcPtr.toNat + (1 + 64 * (pq + 1))))) :=
    ⟨hscan, hin, by rw [setSrcPtr_srcPtr, hptr]; exact hle⟩
  refine ⟨q, hq, _, rfl, ht, ?_⟩
  exact run_loadCommand_record ⟨hscan, hin, by omega⟩ (by omega) .loadDqt loadQuantRecord_moves hrun ht

/-- Settles O22: behind its one record the range is empty. -/
theorem loadDqtStoresTable : Obligations.LoadDqtStoresTable := by
  intro s pq tq hscan hpq hhead hend hin
  obtain ⟨q, hq, t, rfl, ht, hrun⟩ := loadDqt_first hscan hpq hhead (Nat.le_of_eq hend.symm) hin
  have hptr : BitVec.ofNat 32 (s.srcPtr.toNat + (1 + 64 * (pq + 1))) = s.srcEnd := by
    rw [← hend, BitVec.ofNat_toNat, BitVec.setWidth_eq]
  rw [hptr] at ht hrun
  refine ⟨_, runCommand_ok (hrun.trans (run_loadCommand_empty ht rfl .loadDqt loadQuantRecord)), fun i => ?_,
    fun k hk => ?_, rfl⟩
  · rw [← hq i]
    exact congrArg (fun v : QuantTable => v[(zz i).val]) (Vector.getElem_set_self ..)
  · exact Vector.getElem_set_ne tq.isLt k.isLt fun he => hk (Fin.ext he.symm)

/-- Settles O23: the load from behind the first record. -/
theorem loadDqtTakesRecordsInOrder : Obligations.LoadDqtTakesRecordsInOrder := by
  intro s pq tq hscan hpq hhead hle hin
  obtain ⟨q, hq, t, rfl, -, hrun⟩ := loadDqt_first hscan hpq hhead hle hin
  exact ⟨q, hq, runCommand_congr hrun⟩

/-- Settles O24: the range checks of the load, then the checks of its first record in their order. -/
theorem loadDqtChecksRange : Obligations.LoadDqtChecksRange := by
  intro s hscan
  refine ⟨fun hbad => ?_, fun hin he => ?_, fun hin hlt h hh => ?_⟩
  · exact runCommand_raised (run_loadCommand_badRange hscan hbad .loadDqt loadQuantRecord)
  · have hrange : RangeOk s := ⟨hscan, hin, Nat.le_of_eq (congrArg BitVec.toNat he)⟩
    exact runCommand_ok (run_loadCommand_empty hrange he .loadDqt loadQuantRecord)
  · have hraise : ∀ sub : Byte, loadQuantRecord.run s = .error (.raised ⟨.invalidTableDefinition, sub, h⟩) s →
        exec .loadDqt s = .next (s.afterError 0x07 sub h) := fun sub hrun =>
      runCommand_raised (run_loadCommand_error ⟨hscan, hin, Nat.le_of_lt hlt⟩ hlt .loadDqt hrun)
    have hrec := run_loadQuantRecord hin hlt
    simp only [hh, headerHigh, headerLow] at hrec
    refine ⟨fun hpq => hraise 1#8 ?_, fun ⟨hpq, htq⟩ => hraise 2#8 ?_, fun ⟨hpq, htq, hlen⟩ => hraise 5#8 ?_⟩
    · rw [hrec, dif_neg (Nat.not_le.mpr hpq)]
    · rw [hrec, dif_pos hpq, dif_neg (Nat.not_le.mpr htq)]
    · rw [hrec, dif_pos hpq, dif_pos htq]
      exact if_pos hlen

/-! ## Huffman tables -/

/-- The count and the canonical arrays of a sound table, as R141 computes them one length after another. -/
theorem HuffSound.recurrence {t : HuffTable} (h : HuffSound t) :
    t.nsym.toNat = countSum t.count ∧ t.firstCode[0].toNat = 0 ∧ t.valPtr[0].toNat = 0 ∧
      ∀ i : Fin 15, t.firstCode[i.val + 1].toNat = 2 * (t.firstCode[i.val].toNat + t.count[i.val].toNat) ∧
        t.valPtr[i.val + 1].toNat = t.valPtr[i.val].toNat + t.count[i.val].toNat := by
  have hzero : countAt t.count 0 = 0 := dif_neg (by omega)
  obtain ⟨hf0, hv0⟩ := h.arrays 0 (by decide)
  rw [codeBefore, hzero, codeBefore] at hf0
  rw [symbolsBefore, hzero, symbolsBefore] at hv0
  refine ⟨?_, hf0, hv0, fun i => ?_⟩
  · obtain ⟨-, hn, -, hbuilt⟩ := h
    have hnsym : t.nsym = BitVec.ofNat 9 (symbolCount t.count) := congrArg HuffTable.nsym hbuilt
    rw [hnsym, symbolCount_eq, BitVec.toNat_ofNat, Nat.mod_eq_of_lt (by omega)]
  · obtain ⟨hf, hv⟩ := h.arrays i.val (by omega)
    obtain ⟨hf', hv'⟩ := h.arrays (i.val + 1) (by omega)
    rw [hf, hv, hf', hv', ← countAt_index t.count i.val (by omega)]
    exact ⟨rfl, rfl⟩

/-- A whole valid first record: the table it stores, the state behind it, and the load from there (41_tables R139 to
R142). -/
theorem loadDht_first {s : State} {tc : Nat} {th : Fin 4} {cnt : Vector Byte 16} (hscan : s.status.scanActive = false)
    (htc : tc ≤ 1) (hhead : s.ibufByte s.srcPtr.toNat = BitVec.ofNat 8 (16 * tc + th.val))
    (hcnt : ∀ i : Fin 16, cnt[i.val] = s.ibufByte (s.srcPtr.toNat + 1 + i.val)) (hn : countSum cnt ≤ 256)
    (hfit : CodesFit cnt) (hle : s.srcPtr.toNat + 17 + countSum cnt ≤ s.srcEnd.toNat)
    (hin : s.srcEnd.toNat ≤ s.params.ibufBytes) :
    ∃ symbols : List Byte, symbols.length = countSum cnt ∧
      (∀ k, k < countSum cnt → symbols[k]? = some (s.ibufByte (s.srcPtr.toNat + 17 + k))) ∧
      ∃ t, t = (s.storeHuff (classOf tc) th (buildTable cnt symbols)).setSrcPtr
          (BitVec.ofNat 32 (s.srcPtr.toNat + 17 + countSum cnt)) ∧ RangeOk t ∧
        loadDhtCommand.run s = loadDhtCommand.run t := by
  obtain ⟨symbols, hl, hsym, hrun⟩ := run_loadHuffRecord_whole htc hhead cnt hcnt (by rw [symbolCount_eq]; exact hn)
    ((codesFit_eq cnt).mpr hfit) (by rw [symbolCount_eq]; exact hle) hin
  rw [symbolCount_eq] at hl hsym hrun
  have hend := s.srcEnd.isLt
  have hptr : (BitVec.ofNat 32 (s.srcPtr.toNat + 17 + countSum cnt)).toNat = s.srcPtr.toNat + 17 + countSum cnt := by
    rw [BitVec.toNat_ofNat, Nat.mod_eq_of_lt (by omega)]
  have ht : RangeOk ((s.storeHuff (classOf tc) th (buildTable cnt symbols)).setSrcPtr
      (BitVec.ofNat 32 (s.srcPtr.toNat + 17 + countSum cnt))) := by
    refine ⟨?_, ?_, ?_⟩
    · rw [setSrcPtr_status, storeHuff_status]; exact hscan
    · rw [setSrcPtr_srcEnd, storeHuff_srcEnd, setSrcPtr_params, storeHuff_params]; exact hin
    · rw [setSrcPtr_srcPtr, setSrcPtr_srcEnd, storeHuff_srcEnd, hptr]; exact hle
  refine ⟨symbols, hl, hsym, _, rfl, ht, ?_⟩
  exact run_loadCommand_record ⟨hscan, hin, by omega⟩ (by omega) .loadDht loadHuffRecord_moves hrun ht

/-- Settles O25: behind its one record the range is empty. -/
theorem loadDhtStoresTable : Obligations.LoadDhtStoresTable := by
  intro s tc th cnt hscan htc hhead hcnt hn hfit hend hin
  obtain ⟨symbols, hl, hsym, t, rfl, ht, hrun⟩ :=
    loadDht_first hscan htc hhead hcnt hn hfit (Nat.le_of_eq hend.symm) hin
  have hptr : BitVec.ofNat 32 (s.srcPtr.toNat + 17 + countSum cnt) = s.srcEnd := by
    rw [← hend, BitVec.ofNat_toNat, BitVec.setWidth_eq]
  rw [hptr] at ht hrun
  have hempty := run_loadCommand_empty ht (by rw [setSrcPtr_srcPtr, setSrcPtr_srcEnd, storeHuff_srcEnd]) .loadDht
    loadHuffRecord
  obtain ⟨hnsym, hfirst, hval, hnext⟩ := HuffSound.recurrence (t := buildTable cnt symbols) ⟨hfit, hn, hl, rfl⟩
  refine ⟨buildTable cnt symbols, rfl, hnsym, hl, hsym, hfirst, hval, hnext, ?_, ?_⟩
  all_goals
    rintro rfl
    exact runCommand_ok (hrun.trans hempty)

/-- Settles O26: the load from behind the first record. -/
theorem loadDhtTakesRecordsInOrder : Obligations.LoadDhtTakesRecordsInOrder := by
  intro s tc th cnt hscan htc hhead hcnt hn hfit hle hin
  obtain ⟨symbols, hl, hsym, t, rfl, -, hrun⟩ := loadDht_first hscan htc hhead hcnt hn hfit hle hin
  obtain ⟨hnsym, hfirst, hval, hnext⟩ := HuffSound.recurrence (t := buildTable cnt symbols) ⟨hfit, hn, hl, rfl⟩
  refine ⟨buildTable cnt symbols, rfl, hnsym, hl, hsym, hfirst, hval, hnext, ?_, ?_⟩
  all_goals
    rintro rfl
    exact runCommand_congr hrun

/-- Settles O27: the range checks of the load, then the checks of its first record in their order. -/
theorem loadDhtChecksRecord : Obligations.LoadDhtChecksRecord := by
  intro s hscan
  refine ⟨fun hbad => ?_, fun hin he => ?_, fun hin hlt h cnt hh hcnt => ?_⟩
  · exact runCommand_raised (run_loadCommand_badRange hscan hbad .loadDht loadHuffRecord)
  · have hrange : RangeOk s := ⟨hscan, hin, Nat.le_of_eq (congrArg BitVec.toNat he)⟩
    exact runCommand_ok (run_loadCommand_empty hrange he .loadDht loadHuffRecord)
  · have hraise : ∀ sub : Byte, loadHuffRecord.run s = .error (.raised ⟨.invalidTableDefinition, sub, h⟩) s →
        exec .loadDht s = .next (s.afterError 0x07 sub h) := fun sub hrun =>
      runCommand_raised (run_loadCommand_error ⟨hscan, hin, Nat.le_of_lt hlt⟩ hlt .loadDht hrun)
    have hvec : (Vector.ofFn fun i : Fin 16 => s.ibufByte (s.srcPtr.toNat + 1 + i.val)) = cnt := by
      refine Vector.ext fun i hi => ?_
      rw [Vector.getElem_ofFn]
      exact (hcnt ⟨i, hi⟩).symm
    have hrec := run_loadHuffRecord hin hlt
    simp only [hvec, symbolCount_eq, hh, headerHigh, headerLow] at hrec
    refine ⟨fun htc => hraise 3#8 ?_, fun ⟨htc, hth⟩ => hraise 4#8 ?_, fun ⟨htc, hth⟩ =>
      ⟨fun hlen => hraise 5#8 ?_, fun hlen => ⟨fun hsum => hraise 6#8 ?_, fun ⟨hsum, hlen'⟩ => hraise 5#8 ?_,
        fun ⟨hsum, hlen', hfit⟩ => hraise 7#8 ?_⟩⟩⟩
    · rw [hrec, if_neg (Nat.not_le.mpr htc)]
    · rw [hrec, if_pos htc, dif_neg (Nat.not_le.mpr hth)]
    · rw [hrec, if_pos htc, dif_pos hth, if_pos hlen]
    · rw [hrec, if_pos htc, dif_pos hth, if_neg (Nat.not_lt.mpr hlen), if_pos hsum]
    · rw [hrec, if_pos htc, dif_pos hth, if_neg (Nat.not_lt.mpr hlen), if_neg (Nat.not_lt.mpr hsum), if_pos hlen']
    · have hbad : (!codesFit cnt) = true := by
        rw [Bool.not_eq_true', Bool.eq_false_iff]
        exact fun hc => hfit ((codesFit_eq cnt).mp hc)
      rw [hrec, if_pos htc, dif_pos hth, if_neg (Nat.not_lt.mpr hlen), if_neg (Nat.not_lt.mpr hsum),
        if_neg (Nat.not_lt.mpr hlen'), if_pos hbad]

/-! ## What the loads may change -/

/-- Every valid bit of `v` is one of `w`. -/
def ValidRises (v w : BitVec 4) : Prop := ∀ k, v.getLsbD k = true → w.getLsbD k = true

theorem validRises_define (v : BitVec 4) (t : Fin 4) : ValidRises v (defineTable v t) := by
  intro k hk
  rw [defineTable, BitVec.getLsbD_or, hk, Bool.true_or]

/-- What LOAD_DQT may change: the quantization tables, their valid bits, which only rise, and SRC_PTR (41_tables R136). -/
def QuantLoadFrame (s t : State) : Prop :=
  ∃ (q : Vector QuantTable 4) (v : BitVec 4) (p : Word), ValidRises s.tableValid.qv v ∧
    t = { s with quant := q, srcPtr := p, tableValid := { s.tableValid with qv := v } }

/-- What LOAD_DHT may change: the Huffman tables, their valid bits, which only rise, and SRC_PTR (41_tables R139, R140). -/
def HuffLoadFrame (s t : State) : Prop :=
  ∃ (d a : Vector HuffTable 4) (dv av : BitVec 4) (p : Word), ValidRises s.tableValid.dv dv ∧
    ValidRises s.tableValid.av av ∧
    t = { s with dcTable := d, acTable := a, srcPtr := p, tableValid := { s.tableValid with dv := dv, av := av } }

theorem quantLoadFrame_composes : Composes QuantLoadFrame := by
  refine ⟨fun s => ⟨s.quant, s.tableValid.qv, s.srcPtr, fun _ h => h, rfl⟩, ?_⟩
  rintro s t u ⟨q, v, p, hv, rfl⟩ ⟨q', v', p', hv', rfl⟩
  exact ⟨q', v', p', fun k hk => hv' k (hv k hk), rfl⟩

theorem huffLoadFrame_composes : Composes HuffLoadFrame := by
  refine ⟨fun s => ⟨s.dcTable, s.acTable, s.tableValid.dv, s.tableValid.av, s.srcPtr, fun _ h => h, fun _ h => h,
    rfl⟩, ?_⟩
  rintro s t u ⟨d, a, dv, av, p, hd, ha, rfl⟩ ⟨d', a', dv', av', p', hd', ha', rfl⟩
  exact ⟨d', a', dv', av', p', fun k hk => hd' k (hd k hk), fun k hk => ha' k (ha k hk), rfl⟩

theorem quantLoadFrame_loadQuantRecord : Keeps QuantLoadFrame loadQuantRecord := by
  intro s
  rcases loadQuantRecord_cases s with ⟨f, h⟩ | ⟨sub, h⟩ | ⟨q, t, p, h, -⟩ <;> rw [h]
  · exact quantLoadFrame_composes.refl s
  · exact quantLoadFrame_composes.refl s
  · exact ⟨_, _, _, validRises_define _ t, rfl⟩

theorem huffLoadFrame_loadHuffRecord : Keeps HuffLoadFrame loadHuffRecord := by
  intro s
  rcases loadHuffRecord_cases s with ⟨f, h⟩ | ⟨sub, h⟩ | ⟨c, t, cnt, symbols, p, h, -⟩ <;> rw [h]
  · exact huffLoadFrame_composes.refl s
  · exact huffLoadFrame_composes.refl s
  · cases c with
    | dc => exact ⟨_, s.acTable, _, s.tableValid.av, _, validRises_define _ t, fun _ h => h, rfl⟩
    | ac => exact ⟨s.dcTable, _, s.tableValid.dv, _, _, fun _ h => h, validRises_define _ t, rfl⟩

/-- What each record keeps, a load keeps. -/
theorem keeps_loadCommand {R : State → State → Prop} (hR : Composes R) (op : Opcode) {record : Engine Unit}
    (h : Keeps R record) : Keeps R (loadCommand op record) :=
  keeps_bind hR (keeps_loadChecks hR op) fun _ => keeps_get_bind fun s => keeps_loadRecords hR h _ s

theorem quantLoadFrame_loadDqtCommand : Keeps QuantLoadFrame loadDqtCommand :=
  keeps_loadCommand quantLoadFrame_composes .loadDqt quantLoadFrame_loadQuantRecord

theorem huffLoadFrame_loadDhtCommand : Keeps HuffLoadFrame loadDhtCommand :=
  keeps_loadCommand huffLoadFrame_composes .loadDht huffLoadFrame_loadHuffRecord

/-- A command whose pseudocode keeps a relation: the relation, and then one of the two ends (42_control R161). -/
theorem runCommand_keeps {R : State → State → Prop} {m : Engine Unit} (hk : Keeps R m) {s u : State}
    (h : runCommand m s = .next u) : ∃ t, R s t ∧ (u = t.complete ∨ ∃ e, u = t.enterError e) := by
  rcases runCommand_cases h with ⟨t, hrun, hu⟩ | ⟨t, e, hrun, hu⟩
  · exact ⟨t, hk.ok hrun, .inl hu⟩
  · exact ⟨t, hk.error hrun, .inr ⟨e, hu⟩⟩

/-- Settles O29: each load keeps its own frame, and then completes or raises. -/
theorem loadsFrame : Obligations.LoadsFrame := by
  intro s u
  refine ⟨fun h => ?_, fun h => ?_, fun h a => ?_⟩
  · obtain ⟨t, ⟨q, v, p, hv, rfl⟩, rfl | ⟨e, rfl⟩⟩ := runCommand_keeps quantLoadFrame_loadDqtCommand h
    · exact ⟨.inl rfl, hv⟩
    · exact ⟨.inr rfl, hv⟩
  · obtain ⟨t, ⟨d, a, dv, av, p, hd, ha, rfl⟩, rfl | ⟨e, rfl⟩⟩ :=
      runCommand_keeps huffLoadFrame_loadDhtCommand h
    · exact ⟨.inl rfl, fun k => ⟨hd k, ha k⟩⟩
    · exact ⟨.inr rfl, fun k => ⟨hd k, ha k⟩⟩
  · obtain ⟨t, ⟨q, d, ac, v, p, rfl⟩, hend⟩ :
        ∃ t, LoadFrame s t ∧ (u = t.complete ∨ ∃ e, u = t.enterError e) := by
      rcases h with h | h
      · exact runCommand_keeps keeps_loadDqtCommand h
      · exact runCommand_keeps keeps_loadDhtCommand h
    rcases hend with rfl | ⟨e, rfl⟩
    · exact ⟨rfl, rfl⟩
    · exact ⟨rfl, rfl⟩

end Sys2Proof.Machine
end

section
/-! PROOFS. DECODE_MCU and DECODE_SCAN (spec/42_control.md R170, R172): what they may change, how one is the other repeated,
and what they do on coded and on failing streams (spec/43_block_decoder.md, spec/44_reconstruction.md R211). -/

namespace Sys2Proof.Machine

/-! ## The sample grid -/

/-- The frame of the MCU commands, with OBUF kept outside the sample grid (44_reconstruction R211, R212). -/
structure GridFrame (s t : State) : Prop where
  frame : DecodeFrame s t
  outside : ∀ a, s.OutsideGrid a → t.obufByte a = s.obufByte a

/-- The frame of the MCU commands keeps what the sample grid is computed from. -/
theorem DecodeFrame.outsideGrid {s t : State} (h : DecodeFrame s t) (a : Nat) : t.OutsideGrid a ↔ s.OutsideGrid a := by
  obtain ⟨p, b, r, o, i, ac, d, e, c, rfl⟩ := h
  exact Iff.rfl

theorem gridFrame_composes : Composes GridFrame :=
  ⟨fun s => ⟨decodeFrame_composes.refl s, fun _ _ => rfl⟩, fun h k =>
    ⟨decodeFrame_composes.trans h.frame k.frame, fun a ha =>
      (k.outside a ((h.frame.outsideGrid a).mpr ha)).trans (h.outside a ha)⟩⟩

theorem BlockFrame.grid {s t : State} (h : BlockFrame s t) : GridFrame s t := by
  refine ⟨h.decode, fun a _ => ?_⟩
  obtain ⟨p, b, e, c, r, rfl⟩ := h
  rfl

/-- The stores of an MCU change no byte outside the sample grid. -/
theorem read_currentMcuCells_outside {s : State} (m : Memory) (coefs : List Coefs) {a : Nat} (ha : s.OutsideGrid a) :
    (m.writeAll (s.currentMcuCells coefs)).read .obuf a = m.read .obuf a := by
  apply read_writeAll_outside
  rintro c hc rfl
  exact mcuCells_in_grid hc ha

/-- One turn of DECODE_MCU's pseudocode keeps the frame, however it ends. -/
theorem gridFrame_decodeMcuBody : Keeps GridFrame decodeMcuBody := by
  intro s
  refine ⟨keeps_decodeMcuBody s, fun a ha => ?_⟩
  unfold decodeMcuBody
  rw [run_get_bind, run_bind]
  have hblocks := keeps_decodeBlocks s.frameComps s
  cases hb : (decodeBlocks s.frameComps).run s with
  | error e t =>
    rw [hb] at hblocks
    exact hblocks.grid.outside a ha
  | ok coefs t =>
    rw [hb] at hblocks
    have ht : t.obufByte a = s.obufByte a := hblocks.grid.outside a ha
    simp only [run_bind]
    rcases run_engineStore_cases (s.currentMcuCells coefs) t with ⟨-, hs⟩ | ⟨f, hf⟩
    · rw [hs]
      show (t.setObuf _).advanceMcu.obuf.read .obuf a = _
      rw [advanceMcu_obuf, setObuf_obuf, read_currentMcuCells_outside t.obuf coefs ha]
      exact ht
    · rw [hf]
      exact ht

theorem gridFrame_decodeRemaining (n : Nat) : Keeps GridFrame (decodeRemaining n) := by
  induction n with
  | zero => exact keeps_pure gridFrame_composes ()
  | succ n ih =>
    exact keeps_get_bind fun s => keeps_ite _ (keeps_bind gridFrame_composes gridFrame_decodeMcuBody fun _ => ih)
      (keeps_pure gridFrame_composes ()) s

theorem gridFrame_decodeMcuCommand : Keeps GridFrame decodeMcuCommand :=
  keeps_bind gridFrame_composes (keeps_requireScan gridFrame_composes _) fun _ => gridFrame_decodeMcuBody

theorem gridFrame_decodeScanCommand : Keeps GridFrame decodeScanCommand :=
  keeps_bind gridFrame_composes (keeps_requireScan gridFrame_composes _) fun _ =>
    keeps_get_bind fun s => gridFrame_decodeRemaining _ s

/-! ## SCAN_DONE -/

/-- SCAN_DONE is set only with the end of the scan (42_control R170). -/
theorem advanceMcu_scanDone {s : State} (h : s.advanceMcu.status.scanActive = true) :
    s.advanceMcu.status.scanDone = s.status.scanDone := by
  unfold State.advanceMcu
  rw [if_neg (advanceMcu_active h)]
  rfl

/-- A turn that raises, or after which the scan is active, keeps SCAN_DONE. -/
theorem decodeMcuBody_scanDone (s : State) :
    (∀ e t, decodeMcuBody.run s = .error (.raised e) t → t.status.scanDone = s.status.scanDone) ∧
    ∀ t, decodeMcuBody.run s = .ok () t → t.status.scanActive = true → t.status.scanDone = s.status.scanDone := by
  rcases decodeMcuBody_cases s with ⟨f, t, hrun⟩ | ⟨e, t, -, hrun, hframe⟩ | ⟨coefs, t, -, hframe, -, hrun⟩
  · rw [hrun]
    exact ⟨fun _ _ h => (by cases h), fun _ h => (by cases h)⟩
  · obtain ⟨p, b, sn, c, r, rfl⟩ := hframe
    rw [hrun]
    exact ⟨fun _ _ h => (by cases h; rfl), fun _ h => (by cases h)⟩
  · obtain ⟨p, b, sn, c, r, rfl⟩ := hframe
    rw [hrun]
    refine ⟨fun _ _ h => (by cases h), fun t h hact => ?_⟩
    cases h
    exact advanceMcu_scanDone hact

/-- The loop raises only while the scan is active, so SCAN_DONE is kept. -/
theorem decodeRemaining_scanDone (n : Nat) {s t : State} {e : Raise}
    (h : (decodeRemaining n).run s = .error (.raised e) t) : t.status.scanDone = s.status.scanDone := by
  induction n generalizing s with
  | zero => cases h
  | succ n ih =>
    cases hact : s.status.scanActive with
    | false => rw [run_decodeRemaining_inactive hact] at h; cases h
    | true =>
      rw [run_decodeRemaining_active hact, run_bind] at h
      obtain ⟨herr, hok⟩ := decodeMcuBody_scanDone s
      cases hrun : decodeMcuBody.run s with
      | error e' r =>
        rw [hrun] at h
        cases h
        exact herr _ _ hrun
      | ok a r =>
        rw [hrun] at h
        cases hr : r.status.scanActive with
        | false => simp only [run_decodeRemaining_inactive hr] at h; cases h
        | true => exact (ih h).trans (hok r hrun hr)

/-! ## What the two commands may change -/

/-- An MCU command whose pseudocode keeps the frame, and SCAN_DONE when it raises. -/
theorem runDecode_frame {m : Engine Unit} (hk : Keeps GridFrame m)
    (hdone : ∀ s e t, m.run s = .error (.raised e) t → t.status.scanDone = s.status.scanDone) {s u : State}
    (h : runDecode m s = .next u) :
    (u = { s with brPos := u.brPos, brBits := u.brBits, pred := u.pred, obuf := u.obuf, mcuIndex := u.mcuIndex
                  status := { s.status with scanActive := u.status.scanActive, scanDone := u.status.scanDone
                                            markerSeen := u.status.markerSeen, markerCode := u.status.markerCode
                                            done := true, busy := false } } ∨
     u = { s with brPos := u.brPos, brBits := u.brBits, pred := u.pred, obuf := u.obuf, mcuIndex := u.mcuIndex
                  error := u.error
                  status := { s.status with markerSeen := u.status.markerSeen, markerCode := u.status.markerCode
                                            err := true, scanActive := false, busy := false } }) ∧
    ∀ a, u.ibufByte a = s.ibufByte a ∧ (s.OutsideGrid a → u.obufByte a = s.obufByte a) := by
  rcases runDecode_cases h with ⟨t, hrun, rfl⟩ | ⟨t, e, hrun, rfl⟩
  · obtain ⟨⟨p, b, r, o, i, ac, d, sn, c, rfl⟩, hout⟩ := hk.ok hrun
    exact ⟨.inl rfl, fun a => ⟨rfl, hout a⟩⟩
  · have hd := hdone s e t hrun
    obtain ⟨g, hg, hgrid⟩ := enterError_forgetGrid t e
    obtain ⟨⟨p, b, r, o, i, ac, d, sn, c, rfl⟩, hout⟩ := hk.error hrun
    refine ⟨.inr ?_, fun a => ⟨rfl, fun ha => ?_⟩⟩
    · cases hd
      rfl
    · rw [hg]
      exact (hgrid a ha).trans (hout a ha)

/-- Behind its check for a scan, pseudocode raises as its body does. -/
theorem requireScan_bind_scanDone {op : Opcode} {f : Unit → Engine Unit} {s t : State} {e : Raise}
    (hf : (f ()).run s = .error (.raised e) t → t.status.scanDone = s.status.scanDone)
    (h : (requireScan op >>= f).run s = .error (.raised e) t) : t.status.scanDone = s.status.scanDone := by
  cases hscan : s.status.scanActive with
  | false => rw [run_requireScan_bind hscan] at h; cases h; rfl
  | true => rw [run_requireScan_passes hscan] at h; exact hf h

/-- Settles O30: both commands keep the frame and, when they raise, SCAN_DONE. -/
theorem decodeCommandsFrame : Obligations.DecodeCommandsFrame := by
  intro s u h
  rcases h with h | h
  · exact runDecode_frame gridFrame_decodeMcuCommand
      (fun s e t => requireScan_bind_scanDone ((decodeMcuBody_scanDone s).1 e t)) h
  · exact runDecode_frame gridFrame_decodeScanCommand
      (fun s e t => requireScan_bind_scanDone (decodeRemaining_scanDone s.mcusLeft)) h

/-! ## DECODE_MCU, as its blocks end -/

/-- A block that raises ends DECODE_MCU in error entry, and OBUF is kept outside the grid (42_control R170, 60_exceptions
R219, R220). -/
theorem exec_decodeMcu_raised {s t : State} {e : Raise} (hscan : s.status.scanActive = true)
    (h : (decodeBlocks s.frameComps).run s = .error (.raised e) t) :
    exec .decodeMcu s = .next (t.enterError e).forgetGrid ∧
      ∀ a, s.OutsideGrid a → (t.enterError e).forgetGrid.obufByte a = s.obufByte a := by
  have hrun : decodeMcuCommand.run s = .error (.raised e) t := by
    rw [run_decodeMcuCommand hscan, run_decodeMcuBody_error h]
  have hexec := runDecode_raised hrun
  exact ⟨hexec, fun a => ((decodeCommandsFrame s _ (.inl hexec)).2 a).2⟩

/-- Settles O31: the stores are those of `currentMcuCells`; a block that raises leaves the frame of its decode. -/
theorem decodeMcuStoresItsPixels : Obligations.DecodeMcuStoresItsPixels := by
  intro s u hscan hexec
  constructor
  · intro coefs t hblocks a haddr
    have hrun := run_decodeMcuCommand hscan
    rcases decodeMcuBody_cases s with ⟨f, r, hbody⟩ | ⟨e, r, hbad, -, -⟩ | ⟨coefs', r, hok, -, -, hbody⟩
    · rw [hbody] at hrun
      simp only [exec, execDecodeMcu, runDecode, hrun] at hexec
      cases hexec
    · rw [hblocks] at hbad
      cases hbad
    · rw [hblocks] at hok
      cases hok
      have hnext := (runDecode_ok (hrun.trans hbody)).symm.trans hexec
      cases hnext
      show (State.advanceMcu _).obuf.read .obuf a = _
      rw [advanceMcu_obuf]
      exact read_writeAll_outside _ _ _ haddr
  · intro e t hblocks
    cases e with
    | faulted f =>
      have hrun := (run_decodeMcuCommand hscan).trans (run_decodeMcuBody_error hblocks)
      simp only [exec, execDecodeMcu, runDecode, hrun] at hexec
      cases hexec
    | raised e =>
      obtain ⟨hnext, hout⟩ := exec_decodeMcu_raised hscan hblocks
      cases hnext.symm.trans hexec
      obtain ⟨p, b, sn, c, r, rfl⟩ := (keeps_decodeBlocks s.frameComps).error hblocks
      exact ⟨rfl, rfl, hout⟩

/-! ## DECODE_SCAN, a turn at a time -/

/-- A turn that does not end the scan leaves one turn less (42_control R171, R172). -/
theorem mcusLeft_next {s : State} (h : s.mcuIndex + 1#32 ≠ s.mcuTotal) :
    (s.mcuTotal - s.mcuIndex - 1#32).toNat = (s.mcuTotal - (s.mcuIndex + 1#32) - 1#32).toNat + 1 := by
  have hne : (s.mcuIndex + 1#32).toNat ≠ s.mcuTotal.toNat := fun he => h (BitVec.eq_of_toNat_eq he)
  have hi := s.mcuIndex.isLt
  have ht := s.mcuTotal.isLt
  simp only [BitVec.toNat_sub, BitVec.toNat_add, BitVec.toNat_ofNat] at hne ⊢
  omega

/-- A turn that leaves the scan active has advanced MCU_INDEX by one, not to MCU_TOTAL, and kept DONE and BUSY. -/
theorem decodeMcuBody_active {s t : State} (h : decodeMcuBody.run s = .ok () t) (hact : t.status.scanActive = true) :
    t.mcuIndex = s.mcuIndex + 1#32 ∧ t.mcuTotal = s.mcuTotal ∧ s.mcuIndex + 1#32 ≠ s.mcuTotal ∧
      t.status.done = s.status.done ∧ t.status.busy = s.status.busy := by
  rcases decodeMcuBody_cases s with ⟨f, r, hbody⟩ | ⟨e, r, -, hbody, -⟩ | ⟨coefs, r, -, hframe, -, hbody⟩
  · rw [hbody] at h; cases h
  · rw [hbody] at h; cases h
  · obtain ⟨p, b, sn, c, q, rfl⟩ := hframe
    rw [hbody] at h
    cases h
    have hne := advanceMcu_active hact
    refine ⟨advanceMcu_mcuIndex _, advanceMcu_mcuTotal _, hne, ?_, ?_⟩
    all_goals
      unfold State.advanceMcu
      rw [if_neg hne]
      rfl

/-- Settles O41: the loop's first turn is DECODE_MCU's, and behind it the loop stops or goes on with one turn less. -/
theorem decodeScanRepeatsDecodeMcu : Obligations.DecodeScanRepeatsDecodeMcu := by
  intro s u hscan hexec
  have hloop : decodeScanCommand.run s =
      (decodeMcuBody >>= fun _ => decodeRemaining (s.mcuTotal - s.mcuIndex - 1#32).toNat).run s := by
    rw [run_decodeScanCommand hscan, State.mcusLeft, run_decodeRemaining_active hscan]
  rcases runDecode_cases hexec with ⟨t, hrun, rfl⟩ | ⟨t, e, hrun, rfl⟩
  · rw [run_decodeMcuCommand hscan] at hrun
    rw [run_bind_ok hrun] at hloop
    refine ⟨fun hend => runDecode_ok (hloop.trans (run_decodeRemaining_inactive (s := t) hend _)), fun hact => ?_⟩
    obtain ⟨hidx, htot, hne, hdone, hbusy⟩ := decodeMcuBody_active hrun hact
    have hback :
        { t.complete with status := { t.complete.status with done := s.status.done, busy := s.status.busy } } = t := by
      rw [← hdone, ← hbusy]
      rfl
    rw [hback]
    have hnext : decodeScanCommand.run t = decodeScanCommand.run s := by
      rw [hloop, run_decodeScanCommand (s := t) hact, mcusLeft_next hne, State.mcusLeft, hidx, htot]
    show runDecode decodeScanCommand s = runDecode decodeScanCommand t
    rw [runDecode, runDecode, hnext]
  · rw [run_decodeMcuCommand hscan] at hrun
    refine ⟨fun _ => runDecode_raised (hloop.trans (run_bind_error hrun)), fun hact => ?_⟩
    cases hact

/-! ## DECODE_MCU on a coded MCU -/

/-- After a turn the other bytes of OBUF are as before. -/
theorem afterMcu_obufByte_outside (s t : State) (pred : Vector Word 3) (coefs : List Coefs) {a : Nat}
    (ha : s.OutsideGrid a) : (s.afterMcu t pred coefs).obufByte a = s.obufByte a := by
  rw [State.obufByte, State.afterMcu, advanceMcu_obuf]
  exact read_currentMcuCells_outside s.obuf coefs ha

/-- Before the last MCU a turn leaves STATUS alone: the scan stays active and not done. -/
theorem afterMcu_of_more {s : State} (h : s.mcuIndex + 1#32 ≠ s.mcuTotal) (hscan : s.status.scanActive = true)
    (hdone : s.status.scanDone = false) (t : State) (pred : Vector Word 3) (coefs : List Coefs) :
    s.afterMcu t pred coefs =
      { s with brPos := t.brPos, brBits := t.brBits, pred := pred
               obuf := s.obuf.writeAll (s.currentMcuCells coefs), mcuIndex := s.mcuIndex + 1#32
               status := { s.status with scanActive := true, scanDone := false } } := by
  have hst : { s.status with scanActive := true, scanDone := false } = s.status := by
    rw [← hscan, ← hdone]
  rw [hst]
  unfold State.afterMcu State.advanceMcu
  exact if_neg h

/-- At the last MCU a turn ends the scan; what MARKER_SEEN and MARKER_CODE then say is the probe's. -/
theorem afterMcu_of_last {s : State} (h : s.mcuIndex + 1#32 = s.mcuTotal) (t : State) (pred : Vector Word 3)
    (coefs : List Coefs) : s.afterMcu t pred coefs =
      { s with brPos := t.brPos, brBits := t.brBits, pred := pred
               obuf := s.obuf.writeAll (s.currentMcuCells coefs), mcuIndex := s.mcuIndex + 1#32
               status := { s.status with
                 scanActive := false, scanDone := true
                 markerSeen := (s.afterMcu t pred coefs).status.markerSeen
                 markerCode := (s.afterMcu t pred coefs).status.markerCode } } := by
  unfold State.afterMcu State.advanceMcu
  rw [if_pos (show s.mcuIndex + 1#32 = s.mcuTotal from h)]
  unfold State.probeMarker
  split <;> rfl

/-- Settles O39: one turn on coded data (`decodeMcuBody_coded`), and what each part of its state is. -/
theorem decodeMcuDecodesStream : Obligations.DecodeMcuDecodesStream := by
  intro s bits rest coefs pred hinv hscan hcoded hstream
  have hturn := hinv.turnReady hscan
  rw [← frameComps_eq] at hcoded
  have hlen : coefs.length = 1 ∨ coefs.length = 3 := by
    rw [mcuCoded_length hcoded]
    exact hturn.comps
  obtain ⟨t, hready, hrest, hframe, hcnt, hfetch, hrun⟩ := decodeMcuBody_coded hturn hcoded hstream
  obtain ⟨-, ⟨-, -, -, -, hcode, hactive, -⟩, -⟩ := hinv
  obtain ⟨-, hdone, hseen⟩ := hactive hscan
  have hprobe : s.mcuIndex + 1#32 = s.mcuTotal → _ := fun hlast => advanceMcu_probe
    (s := { s with brPos := t.brPos, brBits := t.brBits, pred := pred
                   obuf := s.obuf.writeAll (s.currentMcuCells coefs) })
    hseen (by obtain ⟨p, b, rfl⟩ := hframe; exact hready.pos) hlast
  refine ⟨(s.afterMcu t pred coefs).complete, runDecode_ok ((run_decodeMcuCommand hscan).trans hrun), ?_,
    fetched_afterMcu coefs hfetch hframe, ?_, ?_, ?_, ?_, fun hlast => (hprobe hlast).2, ?_, ?_⟩
  · rw [← hrest]
    obtain ⟨p, b, rfl⟩ := hframe
    apply streamBits_congr <;> simp [State.afterMcu]
  · by_cases hlast : s.mcuIndex + 1#32 = s.mcuTotal
    · rw [afterMcu_of_last hlast, decide_eq_true hlast, decide_eq_false (not_not_intro hlast)]
      rfl
    · rw [afterMcu_of_more hlast hscan hdone, decide_eq_false hlast, decide_eq_true hlast]
      rfl
  · show (s.afterMcu t pred coefs).brBits.cnt.toNat < 8
    rw [State.afterMcu, advanceMcu_brBits]
    exact hcnt
  · intro hmore
    rw [afterMcu_of_more hmore hscan hdone]
    exact hseen
  · by_cases hlast : s.mcuIndex + 1#32 = s.mcuTotal
    · intro hno
      exact ((hprobe hlast).1 hno).trans (hcode hseen)
    · rw [afterMcu_of_more hlast hscan hdone]
      exact hcode
  · intro x y hx hy
    have hpixel : (s.afterMcu t pred coefs).complete.pixel x y =
        (s.setObuf (s.obuf.writeAll (s.currentMcuCells coefs))).pixel x y := afterMcu_pixel s t pred coefs x y
    rw [hpixel]
    exact pixel_currentMcu hlen hx hy
  · exact fun a ha => afterMcu_obufByte_outside s t pred coefs ha

/-! ## DECODE_SCAN on the coded MCUs that remain -/

/-- The loop may make as many turns as MCUs remain (42_control R172). -/
theorem mcusLeft_eq {s : State} (h : s.mcuIndex.toNat < s.mcuTotal.toNat) :
    s.mcusLeft = s.mcuTotal.toNat - s.mcuIndex.toNat := by
  have hi := s.mcuIndex.isLt
  have ht := s.mcuTotal.isLt
  unfold State.mcusLeft
  simp only [BitVec.toNat_sub, BitVec.toNat_ofNat]
  omega

/-- Settles O40: the loop on coded MCUs that end the frame (`decodeRemaining_coded`). -/
theorem decodeScanDecodesStream : Obligations.DecodeScanDecodesStream := by
  intro s bits rest mcus pred hinv hscan hcoded hlen hstream
  obtain ⟨-, -, -, -, -, -, -, -, htotal, hlt⟩ := hinv.2.2.2.1 hscan
  have hne : mcus ≠ [] := by
    rintro rfl
    rw [List.length_nil] at hlen
    omega
  have hleft : mcus.length ≤ s.mcusLeft := by rw [mcusLeft_eq hlt]; omega
  have hturn := hinv.turnReady hscan
  obtain ⟨-, ⟨-, -, -, -, hcode, hactive, -⟩, -⟩ := hinv
  obtain ⟨-, hdone, hseen⟩ := hactive hscan
  obtain ⟨u, hrun, hrest, hfetch, hcnt, hmark, hprobe, hu, hpixels, hout⟩ := decodeRemaining_coded s hcoded s rfl rfl rfl
    rfl rfl rfl hturn hscan hdone hne hlen hstream s.mcusLeft hleft
  refine ⟨u.complete, runDecode_ok ((run_decodeScanCommand hscan).trans hrun), hrest, hfetch, ?_, hcnt,
    fun hno => (hmark hno).trans (hcode hseen), hprobe, fun x y hx hy => ?_, hout⟩
  · rw [hu]
    rfl
  · have hmcu := mcuOf_lt hx hy
    have hpixel := hpixels x y hx hy
    have hcomplete : u.complete.pixel x y = u.pixel x y := rfl
    rw [hcomplete]
    simpa only [htotal, hmcu, and_true] using hpixel

end Sys2Proof.Machine
end

section
/-! PROOFS. DECODE_MCU on a stream whose block goes wrong or is cut short (spec/43_block_decoder.md R181, R185, R186, R188),
and the inverse DCT as one double sum (spec/44_reconstruction.md R201, R202). -/

namespace Sys2Proof.Machine

/-! ## DECODE_MCU on a failing block -/

/-- The coded blocks before component `i` are decoded, and then the block decoder is ready for `i`. -/
theorem decodeBlocks_before {s : State} {pre post : List (Fin 3)} {i : Fin 3} {td ta : Fin 4} {coded tail : List Bool}
    {fs : List Coefs} {p : Vector Word 3} (hinv : s.Inv) (hscan : s.status.scanActive = true)
    (hcomps : s.frameComps = pre ++ i :: post) (hcoded : McuCoded s pre s.pred coded fs p)
    (htd : s.comp[i.val].td.toNat = td.val) (hta : s.comp[i.val].ta.toNat = ta.val)
    (h : s.streamBits = coded ++ tail) :
    ∃ v tq, (decodeBlocks pre).run s = .ok fs v ∧ v.streamBits = tail ∧ ReaderReady v ∧
      ReadFrame { s with pred := p } v ∧ BlockReady v i tq td ta := by
  have hturn := hinv.turnReady hscan
  have hi : i ∈ s.frameComps := hcomps ▸ List.mem_append_right pre List.mem_cons_self
  have hpre : ∀ j ∈ pre, j ∈ s.frameComps := fun j hj => hcomps ▸ List.mem_append_left _ hj
  obtain ⟨tq, -, -, htq, -, -⟩ := hinv.tableIds hscan hi
  obtain ⟨v, hv, hvs, hvr, hvf⟩ := decodeBlocks_coded hcoded (fun j hj => hturn.sound j (hpre j hj)) (ReadFrame.refl s)
    hturn.reader h
  refine ⟨v, tq, hv, hvs, hvr, hvf, ?_⟩
  obtain ⟨hdc, -⟩ := hturn.sound i hi td
  obtain ⟨-, hac⟩ := hturn.sound i hi ta
  obtain ⟨pos, b, rfl⟩ := hvf
  exact ⟨htq, htd, hta, hdc htd, hac hta⟩

/-- A block's decode fetches as the reader does. -/
theorem fetched_decodeBlock (i : Fin 3) : Keeps State.Fetched (decodeBlock i) :=
  keeps_decodeBlock_of fetched_composes fetched_readBit fetched_setPred i

/-- `RunsOut` does not speak of OBUF. -/
theorem runsOut_setObuf {s u : State} {info : Byte} (h : s.RunsOut u info) (m : Memory) :
    (s.setObuf m).RunsOut (u.setObuf m) info := by
  obtain ⟨hfetch, hrest, hcnt, ⟨hleft, hu⟩ | ⟨hleft, hu⟩ | ⟨b, rest, hleft, hb, hu⟩⟩ := h
  · exact ⟨hfetch, hrest, hcnt, .inl ⟨hleft, congrArg (·.setObuf m) hu⟩⟩
  · exact ⟨hfetch, hrest, hcnt, .inr (.inl ⟨hleft, congrArg (·.setObuf m) hu⟩)⟩
  · exact ⟨hfetch, hrest, hcnt, .inr (.inr ⟨b, rest, hleft, hb, congrArg (·.setObuf m) hu⟩)⟩

/-- Settles O32: the blocks before component `i` are decoded, and the block of `i` ends the run as it fails or is cut short
(`decodeBlock_fails`, `decodeBlock_truncated`). -/
theorem decodeMcuReportsBlockErrors : Obligations.DecodeMcuReportsBlockErrors := by
  intro s pre post i td ta coded bits rest fs p w hinv hscan hcomps hcoded htd hta
  rw [← frameComps_eq] at hcomps
  refine ⟨fun err sub hfail hstream => ?_, fun hcut hstream => ?_⟩
  · rw [List.append_assoc] at hstream
    obtain ⟨v, tq, hv, hvs, hvr, hvf, hready⟩ := decodeBlocks_before hinv hscan hcomps hcoded htd hta hstream
    have hfail' : BlockFails v.dcTable[td.val] v.acTable[ta.val] v.pred[i.val] bits err sub w := by
      obtain ⟨pos, b, rfl⟩ := hvf
      exact hfail
    obtain ⟨code, u, rfl, hblock, hus, huf⟩ := decodeBlock_fails hready hfail' hvr hvs
    have hrun := run_decodeBlocks_error (post := i :: post) hv (run_bind_error hblock)
    rw [← hcomps] at hrun
    obtain ⟨hexec, hout⟩ := exec_decodeMcu_raised hscan hrun
    have hcnt := cnt_decodeBlocks (l := s.frameComps) (by simp [hcomps]) (hinv.turnReady hscan).reader.cnt
      (by rw [hrun]; exact fun _ _ => by simp)
    rw [hrun] at hcnt
    have hfetch : s.Fetched u := (fetched_decodeBlocks _).error hrun
    refine ⟨_, hexec, hus, hfetch, hcnt, ?_, hout⟩
    obtain ⟨pos, b, rfl⟩ := hvf
    obtain ⟨pos', b', rfl⟩ := huf
    rfl
  · obtain ⟨v, tq, hv, hvs, hvr, hvf, hready⟩ := decodeBlocks_before hinv hscan hcomps hcoded htd hta hstream
    have hcut' : BlockTruncated v.dcTable[td.val] v.acTable[ta.val] v.pred[i.val] bits w := by
      obtain ⟨pos, b, rfl⟩ := hvf
      exact hcut
    have hframe : ReadFrame { s with pred := p.set i.val w } (v.setPred i w) := by
      obtain ⟨pos, b, rfl⟩ := hvf
      exact ⟨pos, b, rfl⟩
    have hfetch := fetched_composes.trans ((fetched_decodeBlocks pre).ok hv) (fetched_decodeBlock i v)
    obtain ⟨code, sub, u, hblock, hends⟩ := ((decodeBlock_truncated hready hcut' hvr hvs).from hframe).runsOut hfetch
    have hrun := run_decodeBlocks_error (post := i :: post) hv (run_bind_error hblock)
    rw [← hcomps] at hrun
    obtain ⟨hexec, hout⟩ := exec_decodeMcu_raised hscan hrun
    exact ⟨_, hexec, runsOut_setObuf hends _, hout⟩

/-! ## The inverse DCT -/

/-- A factor of every term is a factor of the sum. -/
theorem mul_sum_map {α : Type} (c : Int) (f : α → Int) (l : List α) :
    c * (l.map f).sum = (l.map fun a => c * f a).sum := by
  induction l with
  | nil => exact Int.mul_zero c
  | cons a l ih => rw [List.map_cons, List.map_cons, List.sum_cons, List.sum_cons, Int.mul_add, ih]

theorem mul_sum8 (c : Int) (f : Fin 8 → Int) : c * sum8 f = sum8 fun u => c * f u :=
  mul_sum_map c f (List.finRange 8)

/-- The two passes give the double sum (44_reconstruction R202). -/
theorem idct_natIndex (f : Coefs) (y x : Fin 8) : (idct f)[(natIndex y x).val] =
    idctRound (sum8 fun v => sum8 fun u => kc y v * kc x u * (f[(natIndex v u).val]).toInt) := by
  rw [idct_getElem, idctCols_getElem]
  simp only [rowOf_natIndex, colOf_natIndex, idctRows_natIndex, mul_sum8, Int.mul_assoc]

/-- Settles O35: the double sum, the table of K, and the clamp. -/
theorem idctIsRoundedDoubleSum : Obligations.IdctIsRoundedDoubleSum := by
  refine ⟨idct_natIndex, by decide, by decide, fun f n => ?_⟩
  rw [reconstruct_getElem, clampByte_toNat]

end Sys2Proof.Machine
end

section
/-! PROOFS. What the pseudocode does not depend on (spec/43_block_decoder.md R191, spec/10_state.md R33): with some fields
changed beforehand it runs the same and ends in the same state, with those fields changed. -/

namespace Sys2Proof.Machine

/-! ## Runs from a changed state -/

/-- A change of the predictors, of the component registers and of RESTART_INTERVAL. -/
structure Change where
  pred : Vector Word 3 → Vector Word 3
  comp : Vector Comp 3 → Vector Comp 3
  interval : BitVec 16 → BitVec 16

/-- The state after the change. -/
def Change.apply (g : Change) (s : State) : State :=
  { s with pred := g.pred s.pred, comp := g.comp s.comp, restartInterval := g.interval s.restartInterval }

/-- A result with its end state changed. -/
def Change.result {α : Type} (g : Change) : EStateM.Result Stop State α → EStateM.Result Stop State α
  | .ok a t => .ok a (g.apply t)
  | .error e t => .error e (g.apply t)

/-- From the changed state, `m'` runs as `m` does from `s`. -/
def Change.Follows {α : Type} (g : Change) (s : State) (m m' : Engine α) : Prop :=
  m'.run (g.apply s) = g.result (m.run s)

/-- The pseudocode does not depend on what the change concerns. -/
def Change.Commutes {α : Type} (g : Change) (m : Engine α) : Prop := ∀ s, g.Follows s m m

section
variable {α β : Type} {g : Change} {s : State}

theorem follows_pure (a : α) : g.Follows s (pure a) (pure a) := rfl

theorem follows_raise (e : Raise) : g.Follows s (raise e : Engine α) (raise e) := rfl

theorem follows_fault (f : Fault) : g.Follows s (faultWith f : Engine α) (faultWith f) := rfl

theorem follows_set {t u : State} (h : u = g.apply t) : g.Follows s (set t) (set u) := h ▸ rfl

theorem follows_modify {f : State → State} (h : f (g.apply s) = g.apply (f s)) : g.Follows s (modify f) (modify f) := by
  show EStateM.Result.ok _ _ = _
  rw [h]
  rfl

theorem follows_failIf (b : Bool) (e : Raise) : g.Follows s (failIf b e) (failIf b e) := by
  cases b <;> rfl

theorem follows_bind {m m' : Engine α} {f f' : α → Engine β} (hm : g.Follows s m m')
    (hf : ∀ a t, g.Follows t (f a) (f' a)) : g.Follows s (m >>= f) (m' >>= f') := by
  unfold Change.Follows at hm ⊢
  rw [run_bind, run_bind, hm]
  cases m.run s with
  | ok a t => exact hf a t
  | error e t => rfl

theorem follows_get_bind {f f' : State → Engine β} (h : g.Follows s (f s) (f' (g.apply s))) :
    g.Follows s (get >>= f) (get >>= f') := h

theorem follows_ite {c : Prop} [Decidable c] {m k m' k' : Engine α} (hm : g.Follows s m m') (hk : g.Follows s k k') :
    g.Follows s (if c then m else k) (if c then m' else k') := by
  split <;> assumption

theorem follows_dite {c : Prop} [Decidable c] {m m' : c → Engine α} {k k' : ¬c → Engine α}
    (hm : ∀ h, g.Follows s (m h) (m' h)) (hk : ∀ h, g.Follows s (k h) (k' h)) :
    g.Follows s (if h : c then m h else k h) (if h : c then m' h else k' h) := by
  split
  · exact hm _
  · exact hk _

end

/-! ## The reader and the memories -/

section
variable (g : Change)

theorem commutes_engineRead (a : Nat) : g.Commutes (engineRead a) := fun _ =>
  follows_get_bind (follows_ite (follows_pure _) (follows_fault _))

theorem commutes_engineReadBytes (a n : Nat) : g.Commutes (engineReadBytes a n) := fun _ =>
  follows_get_bind (follows_ite (follows_pure _) (follows_fault _))

theorem commutes_engineStore (cells : List Host.Cell) : g.Commutes (engineStore cells) := by
  intro s
  refine follows_get_bind ?_
  have hparams : (g.apply s).params = s.params := rfl
  rw [hparams]
  cases cells.find? fun c => !decide (c.1 < s.params.obufBytes) with
  | none => exact follows_set rfl
  | some c => exact follows_fault _

theorem commutes_tableId (sel : BitVec 4) : g.Commutes (tableId sel) := fun _ =>
  follows_dite (fun _ => follows_pure _) fun _ => follows_fault _

theorem commutes_fetchByte (info : Byte) : g.Commutes (fetchByte info) := fun _ =>
  follows_get_bind (follows_ite (follows_raise _) (follows_ite (follows_raise _)
    (follows_bind (commutes_engineRead g _ _) fun _ _ => follows_ite
      (follows_bind (follows_set rfl) fun _ _ => follows_pure _)
      (follows_ite (follows_raise _) (follows_bind (commutes_engineRead g _ _) fun _ _ => follows_ite
        (follows_bind (follows_set rfl) fun _ _ => follows_pure _)
        (follows_bind (follows_set rfl) fun _ _ => follows_raise _))))))

theorem commutes_readBit (info : Byte) : g.Commutes (readBit info) := fun _ =>
  follows_bind (follows_get_bind (follows_ite
      (follows_bind (commutes_fetchByte g info _) fun _ _ => follows_modify rfl) (follows_pure _)))
    fun _ _ => follows_get_bind (follows_bind (follows_set rfl) fun _ _ => follows_pure _)

theorem commutes_readBitsFrom (info : Byte) (n : Nat) : ∀ v, g.Commutes (readBitsFrom info n v) := by
  induction n with
  | zero => exact fun v s => follows_pure v
  | succ n ih => exact fun v s => follows_bind (commutes_readBit g info s) fun b => ih _

theorem commutes_huffLoop (t : HuffTable) (sub info : Byte) (n : Nat) :
    ∀ i code, g.Commutes (huffLoop t sub info n i code) := by
  induction n with
  | zero => exact fun i code s => follows_raise _
  | succ n ih =>
    intro i code s
    refine follows_bind (commutes_readBit g info s) fun b t' => ?_
    cases matchCode t i (2 * code + b.toNat) with
    | some v => exact follows_pure v
    | none => exact ih _ _ t'

/-! ## The block decoder -/

/-- The change does not concern the predictor and the register of component `i`. -/
structure Change.Misses (i : Fin 3) : Prop where
  pred_get : ∀ p : Vector Word 3, (g.pred p)[i.val] = p[i.val]
  pred_set : ∀ (p : Vector Word 3) (v : Word), g.pred (p.set i.val v) = (g.pred p).set i.val v
  comp_get : ∀ r : Vector Comp 3, (g.comp r)[i.val] = r[i.val]

variable {g} {i : Fin 3} (hg : g.Misses i)
include hg

theorem Change.apply_setPred (s : State) (v : Word) : (g.apply s).setPred i v = g.apply (s.setPred i v) := by
  simp only [State.setPred, Change.apply, hg.pred_set]

theorem commutes_decodeDc (dc : HuffTable) (q : QuantTable) : g.Commutes (decodeDc i dc q) := fun _ =>
  follows_bind (commutes_huffLoop g dc _ _ _ _ _ _) fun _ _ => follows_ite (follows_raise _)
    (follows_bind (commutes_readBitsFrom g _ _ _ _) fun v t => follows_get_bind (by
      have hget : (g.apply t).pred[i.val] = t.pred[i.val] := hg.pred_get t.pred
      rw [hget]
      exact follows_bind (follows_set (by rw [Change.apply_setPred hg])) fun _ _ => follows_pure _))

omit hg in
theorem commutes_decodeAcFrom (ac : HuffTable) (q : QuantTable) (n : Nat) :
    ∀ k f, g.Commutes (decodeAcFrom i ac q n k f) := by
  induction n with
  | zero => exact fun k f s => follows_pure f
  | succ n ih =>
    intro k f s
    refine follows_ite (follows_bind (commutes_huffLoop g ac _ _ _ _ _ s) fun rs t => ?_) (follows_pure f)
    refine follows_ite (follows_ite (follows_pure f) (follows_ite (follows_ite (follows_raise _) (ih _ _ t))
      (follows_raise _))) (follows_dite (fun _ => ?_) fun _ => follows_raise _)
    exact follows_bind (commutes_readBitsFrom g _ _ _ t) fun v => ih _ _

theorem commutes_decodeBlock : g.Commutes (decodeBlock i) := by
  intro s
  refine follows_get_bind ?_
  have hget : (g.apply s).comp[i.val] = s.comp[i.val] := hg.comp_get s.comp
  rw [hget]
  exact follows_bind (commutes_tableId g _ s) fun tq _ => follows_bind (commutes_tableId g _ _) fun td _ =>
    follows_bind (commutes_tableId g _ _) fun ta _ => follows_bind (commutes_decodeDc hg _ _ _) fun f0 =>
      commutes_decodeAcFrom _ _ _ _ _

end

/-- A changed predictor and register of component `j`. -/
def changeComponent (j : Fin 3) (w : Word) (c : Comp) : Change :=
  { pred := fun p => p.set j.val w, comp := fun r => r.set j.val c, interval := id }

theorem changeComponent_misses {i j : Fin 3} (h : j ≠ i) (w : Word) (c : Comp) :
    (changeComponent j w c).Misses i := by
  have hne : j.val ≠ i.val := fun he => h (Fin.ext he)
  exact ⟨fun p => Vector.getElem_set_ne j.isLt i.isLt hne, fun p v => Vector.set_comm (hj := j.isLt) _ _ hne.symm,
    fun r => Vector.getElem_set_ne j.isLt i.isLt hne⟩

/-- Decoding a block of `i` keeps the predictor of `j`: writing its own value there beforehand changes nothing. -/
theorem decodeBlock_keeps_pred {i j : Fin 3} (h : j ≠ i) (s : State) :
    (endState ((decodeBlock i).run s)).pred[j.val] = s.pred[j.val] := by
  have hrun := commutes_decodeBlock (changeComponent_misses h s.pred[j.val] s.comp[j.val]) s
  have hself : (changeComponent j s.pred[j.val] s.comp[j.val]).apply s = s := by
    simp only [changeComponent, Change.apply, Vector.set_getElem_self, id]
  rw [Change.Follows, hself] at hrun
  rw [hrun]
  cases (decodeBlock i).run s with
  | ok f t => exact Vector.getElem_set_self ..
  | error e t => exact Vector.getElem_set_self ..

/-- Settles O38: the change of another component's predictor and register commutes with the block decoder. -/
theorem componentsAreIsolated : Obligations.ComponentsAreIsolated := by
  intro i j s w c hne
  have hrun := commutes_decodeBlock (changeComponent_misses hne w c) s
  have hpred := decodeBlock_keeps_pred hne s
  refine ⟨fun f t h => ?_, fun e t h => ?_⟩
  all_goals
    rw [Change.Follows, h] at hrun
    rw [h] at hpred
    exact ⟨hpred, hrun⟩

/-! ## RESTART_INTERVAL -/

/-- Another value in RESTART_INTERVAL. -/
def changeInterval (r : BitVec 16) : Change := { pred := id, comp := id, interval := fun _ => r }

section
variable (r : BitVec 16)

theorem changeInterval_misses (i : Fin 3) : (changeInterval r).Misses i := ⟨fun _ => rfl, fun _ _ => rfl, fun _ => rfl⟩

theorem commutes_requireScan (op : Opcode) : (changeInterval r).Commutes (requireScan op) := fun _ =>
  follows_get_bind (follows_failIf _ _)

theorem commutes_requireNoScan (op : Opcode) : (changeInterval r).Commutes (requireNoScan op) := fun _ =>
  follows_get_bind (follows_failIf _ _)

theorem commutes_loadQuantRecord : (changeInterval r).Commutes loadQuantRecord := fun _ =>
  follows_get_bind (follows_bind (commutes_engineRead _ _ _) fun _ _ => follows_dite
    (fun _ => follows_dite (fun _ => follows_ite (follows_raise _)
      (follows_bind (commutes_engineReadBytes _ _ _ _) fun _ _ => follows_set rfl)) fun _ => follows_raise _)
    fun _ => follows_raise _)

theorem changeInterval_storeHuff (s : State) (c : HuffClass) (t : Fin 4) (h : HuffTable) (p : Word) :
    (((changeInterval r).apply s).storeHuff c t h).setSrcPtr p =
      (changeInterval r).apply ((s.storeHuff c t h).setSrcPtr p) := by
  cases c <;> rfl

theorem commutes_loadHuffRecord : (changeInterval r).Commutes loadHuffRecord := fun _ =>
  follows_get_bind (follows_bind (commutes_engineRead _ _ _) fun _ _ => follows_ite
    (follows_dite (fun _ => follows_ite (follows_raise _)
      (follows_bind (commutes_engineReadBytes _ _ _ _) fun _ _ => follows_ite (follows_raise _)
        (follows_ite (follows_raise _) (follows_ite (follows_raise _)
          (follows_bind (commutes_engineReadBytes _ _ _ _) fun _ _ =>
            follows_set (changeInterval_storeHuff r ..)))))) fun _ => follows_raise _)
    (follows_raise _))

theorem commutes_loadRecords {record : Engine Unit} (h : (changeInterval r).Commutes record) (n : Nat) :
    (changeInterval r).Commutes (loadRecords record n) := by
  induction n with
  | zero => exact fun s => follows_pure ()
  | succ n ih => exact fun s => follows_get_bind (follows_ite (follows_bind (h s) fun _ t => ih t) (follows_pure ()))

theorem commutes_load {record : Engine Unit} (h : (changeInterval r).Commutes record) (op : Opcode) :
    (changeInterval r).Commutes (loadChecks op >>= fun _ => loadAll record) := fun _ =>
  follows_bind (follows_bind (commutes_requireNoScan r op _) fun _ _ => follows_get_bind (follows_failIf _ _))
    fun _ _ => follows_get_bind (commutes_loadRecords r h _ _)

theorem commutes_beginScan : (changeInterval r).Commutes beginScanCommand := by
  intro s
  refine follows_get_bind ?_
  have herr : ((changeInterval r).apply s).scanError = s.scanError := rfl
  rw [herr]
  cases s.scanError with
  | some e => exact follows_raise e
  | none => exact follows_set rfl

theorem commutes_decodeBlocks (l : List (Fin 3)) : (changeInterval r).Commutes (decodeBlocks l) := by
  induction l with
  | nil => exact fun s => follows_pure []
  | cons i l ih =>
    exact fun s => follows_bind (commutes_decodeBlock (changeInterval_misses r i) s) fun f t =>
      follows_bind (ih t) fun fs _ => follows_pure _

theorem changeInterval_probeMarker (s : State) :
    ((changeInterval r).apply s).probeMarker = (changeInterval r).apply s.probeMarker := by
  unfold State.probeMarker
  rw [apply_ite (changeInterval r).apply]
  rfl

theorem changeInterval_advanceMcu (s : State) :
    ((changeInterval r).apply s).advanceMcu = (changeInterval r).apply s.advanceMcu := by
  unfold State.advanceMcu
  rw [apply_ite (changeInterval r).apply, ← changeInterval_probeMarker]
  rfl

theorem commutes_decodeMcuBody : (changeInterval r).Commutes decodeMcuBody := fun s =>
  follows_get_bind (follows_bind (commutes_decodeBlocks r s.frameComps s) fun coefs _ =>
    follows_bind (commutes_engineStore _ (s.currentMcuCells coefs) _) fun _ t =>
      follows_modify (changeInterval_advanceMcu r t))

theorem commutes_decodeRemaining (n : Nat) : (changeInterval r).Commutes (decodeRemaining n) := by
  induction n with
  | zero => exact fun s => follows_pure ()
  | succ n ih =>
    exact fun s => follows_get_bind (follows_ite (follows_bind (commutes_decodeMcuBody r s) fun _ t => ih t)
      (follows_pure ()))

theorem commutes_readBitsCommand (n : Byte) : (changeInterval r).Commutes (readBitsCommand n) := fun _ =>
  follows_bind (follows_ite (follows_pure _) (follows_raise _)) fun _ _ =>
    follows_bind (commutes_requireScan r _ _) fun _ _ =>
      follows_bind (commutes_readBitsFrom _ _ _ _ _) fun _ _ => follows_modify rfl

theorem commutes_definedHuffTable (c : HuffClass) (t : Byte) : (changeInterval r).Commutes (definedHuffTable c t) :=
  fun _ => follows_get_bind (follows_dite (fun _ => follows_ite (follows_pure _) (follows_raise _))
    fun _ => follows_raise _)

theorem commutes_huffDecodeCommand (c t : Byte) : (changeInterval r).Commutes (huffDecodeCommand c t) := fun _ =>
  follows_bind (follows_ite (follows_pure _) (follows_ite (follows_pure _) (follows_raise _))) fun _ _ =>
    follows_bind (commutes_requireScan r _ _) fun _ _ =>
      follows_bind (commutes_definedHuffTable r _ _ _) fun _ _ =>
        follows_get_bind (follows_bind (commutes_huffLoop _ _ _ _ _ _ _ _) fun _ _ => follows_modify rfl)

/-- No command's pseudocode depends on RESTART_INTERVAL (10_state R33). -/
theorem commutes_commandCode (i : Instr) : (changeInterval r).Commutes (commandCode i) := by
  cases i with
  | nop => exact fun _ => follows_pure ()
  | softReset x => exact fun _ => follows_pure ()
  | loadDqt => exact commutes_load r (commutes_loadQuantRecord r) _
  | loadDht => exact commutes_load r (commutes_loadHuffRecord r) _
  | setFrame => exact fun s => follows_bind (commutes_requireNoScan r _ s) fun _ _ => follows_modify rfl
  | beginScan => exact commutes_beginScan r
  | decodeMcu => exact fun s => follows_bind (commutes_requireScan r _ s) fun _ => commutes_decodeMcuBody r
  | decodeScan =>
    exact fun s => follows_bind (commutes_requireScan r _ s) fun _ t => follows_get_bind (commutes_decodeRemaining r _ t)
  | endScan => exact fun _ => follows_modify rfl
  | readBits n => exact commutes_readBitsCommand r n
  | huffDecode c t => exact commutes_huffDecodeCommand r c t

end

/-- Settles O50: the pseudocode does not depend on RESTART_INTERVAL, and neither do the two ends of a command. -/
theorem restartIntervalHasNoEffect : Obligations.RestartIntervalHasNoEffect := by
  intro i s r hi
  have hrun : (commandCode i).run { s with restartInterval := r } = (changeInterval r).result ((commandCode i).run s) :=
    commutes_commandCode r i s
  rw [exec_eq_run i _ hi, exec_eq_run i _ hi, runDecode, runDecode, runCommand, runCommand, hrun]
  rcases (commandCode i).run s with ⟨a, t⟩ | ⟨⟨e⟩ | ⟨f⟩, t⟩ <;> split <;> rfl

end Sys2Proof.Machine
end

section
/-! PROOFS. Rules of the whole machine: what the engine's step and the host's accesses keep (spec/10_state.md section 2,
spec/20_memory.md R87, spec/60_exceptions.md R222, R223), and the progress of a scan (spec/40_bit_reader.md R130). -/

namespace Sys2Proof.Machine

/-! ## Two parts of the state -/

/-- What only the host or the platform writes, with everything else at its reset value. -/
def State.hostPart (s : State) : State :=
  { State.reset with
    params := s.params, cmd := s.cmd, irqEn := s.irqEn, frameType := s.frameType, frameSize := s.frameSize
    frameNcomp := s.frameNcomp, comp := s.comp, restartInterval := s.restartInterval, srcEnd := s.srcEnd
    inBase := s.inBase, inLen := s.inLen, outBase := s.outBase, ibuf := s.ibuf
    status := { Status.cleared with haz := s.status.haz, accerr := s.status.accerr } }

/-- What no access of the host writes, with everything else at its reset value: ERROR, the reader's and the scan's state,
the predictors and the tables, and the bits of STATUS that are the engine's alone. -/
def State.enginePart (s : State) : State :=
  { State.reset with
    error := s.error, brPos := s.brPos, brBits := s.brBits, mcuIndex := s.mcuIndex, mcuTotal := s.mcuTotal
    result := s.result, tableValid := s.tableValid, pred := s.pred, quant := s.quant, dcTable := s.dcTable
    acTable := s.acTable
    status := { s.status with busy := false, done := false, haz := false, accerr := false } }

/-- A host read keeps the engine's part (20_memory R82). -/
theorem hostRead_enginePart (s : State) (addr n : Nat) : (s.hostRead addr n).enginePart = s.enginePart := by
  obtain ⟨d, k, acc, h⟩ := hostRead_frame s addr n
  rw [h]
  rfl

/-- No register write reaches the engine's part (10_state R21 to R46). -/
theorem writeCsr_enginePart (s : State) (r : Csr) (w : Word) : (s.writeCsr r w).enginePart = s.enginePart := by
  unfold State.writeCsr
  split
  · rfl
  · cases r with
    | cmd => simp only [State.storeCsr, State.writeCmd]; split <;> rfl
    | _ => rfl

/-- A host write keeps the engine's part (20_memory R74, R76). -/
theorem hostWrite_enginePart (s : State) (addr n : Nat) (v : Word) : (s.hostWrite addr n v).enginePart = s.enginePart := by
  cases hbusy : s.status.busy with
  | true =>
    obtain ⟨haz, acc, h⟩ := hostWrite_busy hbusy addr n v
    rw [h]
    rfl
  | false =>
    unfold State.hostWrite
    cases s.windowOffset addr with
    | none => rfl
    | some off =>
      cases ht : s.target off n with
      | none => simp only [ht, hbusy]; rfl
      | some t =>
        simp only [ht, hbusy]
        cases t with
        | csr r => exact writeCsr_enginePart s r v
        | ibuf a => rfl
        | obuf a => rfl

/-! ## What each command's pseudocode may change -/

/-- What a command may change before it ends, command by command. -/
def CommandFrame : Instr → State → State → Prop
  | .nop, s, t | .softReset _, s, t => t = s
  | .loadDqt, s, t => QuantLoadFrame s t
  | .loadDht, s, t => HuffLoadFrame s t
  | .setFrame, s, t => t = s ∨ t = s.setFrameValid
  | .beginScan, s, t => t = s ∨ t = s.startScan
  | .endScan, s, t => t = s.setScanActive false
  | .decodeMcu, s, t | .decodeScan, s, t => DecodeFrame s t
  | .readBits _, s, t | .huffDecode _ _, s, t => ∃ r v, ReaderFrame s r ∧ (t = r ∨ t = State.setResult r v)

/-- Pseudocode that writes RESULT at its end keeps the readers' frame. -/
theorem ReadsResult.keeps {m : Engine Unit} (h : ReadsResult m) :
    Keeps (fun s t => ∃ r v, ReaderFrame s r ∧ (t = r ∨ t = State.setResult r v)) m := by
  intro s
  cases hr : m.run s with
  | ok a t =>
    obtain ⟨r, v, rfl, p, b, rfl⟩ := h.ok s t hr
    exact ⟨_, v, ⟨p, b, s.status.markerSeen, s.status.markerCode, rfl⟩, .inr rfl⟩
  | error e t => exact ⟨t, 0#32, h.error s e t hr, .inl rfl⟩

theorem commandFrame (i : Instr) : Keeps (CommandFrame i) (commandCode i) := by
  cases i with
  | nop | softReset x | endScan => exact fun s => rfl
  | loadDqt => exact quantLoadFrame_loadDqtCommand
  | loadDht => exact huffLoadFrame_loadDhtCommand
  | setFrame =>
    intro s
    show CommandFrame _ _ (endState ((requireNoScan .setFrame >>= fun _ => modify fun s => s.setFrameValid).run s))
    rw [run_bind, run_requireNoScan]
    cases s.status.scanActive with
    | true => exact .inl rfl
    | false => exact .inr rfl
  | beginScan =>
    intro s
    show CommandFrame _ _ (endState (beginScanCommand.run s))
    rw [beginScanCommand, run_get_bind]
    cases s.scanError with
    | some e => exact .inl rfl
    | none => exact .inr rfl
  | decodeMcu => exact keeps_decodeMcuCommand
  | decodeScan => exact keeps_decodeScanCommand
  | readBits n => exact (readsResult_readBitsCommand n).keeps
  | huffDecode c t => exact (readsResult_huffDecodeCommand c t).keeps

/-- No command writes what is the host's (10_state section 2). -/
theorem CommandFrame.hostPart {i : Instr} {s t : State} (h : CommandFrame i s t) : t.hostPart = s.hostPart := by
  cases i with
  | nop | softReset x | endScan => cases h; rfl
  | loadDqt => obtain ⟨q, v, p, -, rfl⟩ := h; rfl
  | loadDht => obtain ⟨d, a, dv, av, p, -, -, rfl⟩ := h; rfl
  | setFrame | beginScan => rcases h with rfl | rfl <;> rfl
  | decodeMcu | decodeScan => obtain ⟨p, b, r, o, n, a, d, e, c, rfl⟩ := h; rfl
  | readBits n => obtain ⟨r, v, ⟨p, b, e, c, rfl⟩, rfl | rfl⟩ := h <;> rfl
  | huffDecode c t => obtain ⟨r, v, ⟨p, b, e, c, rfl⟩, rfl | rfl⟩ := h <;> rfl

/-! ## What a step can be -/

/-- A step keeps the engine's part, or resets the block, or raises for a word that is no command, or runs a command that
is not SOFT_RESET. -/
theorem step_parts {s u : State} (h : step s = .next u) :
    u.enginePart = s.enginePart ∨ (s.Resets ∧ u.status = Status.cleared) ∨
    (s.status.busy = true ∧ (∀ x, decodeWord s.pend ≠ .ok (.softReset x)) ∧
      ((∃ e, u.enginePart = (s.enterError e).enginePart) ∨
        ∃ i l, s.Executes i ∧ (∀ x, i ≠ .softReset x) ∧ exec i (s.setSchedule l) = .next u)) := by
  rcases step_cases h with ⟨r, hr, h⟩ | ⟨addr, n, rest, -, rfl⟩ | ⟨addr, n, v, rest, -, rfl⟩ | ⟨rest, hs, rfl⟩ |
    ⟨rest, hs, rfl⟩
  · have hturn : s.schedule = [] ∨ s.schedule.head? = some .engine := by
      rcases hr with ⟨hs, -⟩ | ⟨rest, hs, -⟩
      · exact .inl hs
      · exact .inr (by rw [hs]; rfl)
    obtain ⟨l, rfl⟩ : ∃ l, r = s.setSchedule l := by
      rcases hr with ⟨-, rfl⟩ | ⟨rest, -, rfl⟩
      · exact ⟨r.schedule, rfl⟩
      · exact ⟨rest, rfl⟩
    cases hbusy : s.status.busy with
    | false =>
      rw [engineStep_idle (s := s.setSchedule l) hbusy] at h
      cases h
      exact .inl rfl
    | true =>
      cases hdec : decodeWord s.pend with
      | error e =>
        rw [engineStep_bad (s := s.setSchedule l) hbusy hdec] at h
        cases h
        refine .inr (.inr ⟨rfl, fun x hx => (by cases hx), .inl ⟨decodeFailure s.pend e, ?_⟩⟩)
        unfold rejectWord
        split <;> rfl
      | ok i =>
        rw [engineStep_busy (s := s.setSchedule l) hbusy hdec] at h
        by_cases hsoft : ∃ x, i = .softReset x
        · obtain ⟨x, rfl⟩ := hsoft
          cases h
          exact .inr (.inl ⟨.inl ⟨x, hturn, hbusy, hdec⟩, rfl⟩)
        · exact .inr (.inr ⟨rfl, fun x hx => hsoft ⟨x, by cases hx; rfl⟩,
            .inr ⟨i, l, ⟨hturn, hbusy, hdec⟩, fun x hx => hsoft ⟨x, hx⟩, h⟩⟩)
  · exact .inl (hostRead_enginePart (s.setSchedule rest) addr n)
  · exact .inl (hostWrite_enginePart (s.setSchedule rest) addr n v)
  · exact .inr (.inl ⟨.inr (.inl (by rw [hs]; rfl)), rfl⟩)
  · exact .inr (.inl ⟨.inr (.inr (by rw [hs]; rfl)), rfl⟩)

/-! ## What the engine keeps -/

theorem exec_hostPart {i : Instr} {s u : State} (hi : ∀ x, i ≠ .softReset x) (h : exec i s = .next u) :
    u.hostPart = s.hostPart := by
  rcases exec_cases hi h with ⟨t, hrun, rfl⟩ | ⟨t, e, hrun, rfl | rfl⟩
  · exact ((commandFrame i).ok hrun).hostPart
  · exact ((commandFrame i).error hrun).hostPart
  · exact ((commandFrame i).error hrun).hostPart

/-- The engine's step keeps what is the host's, unless it is SOFT_RESET, which keeps the buffers and CMD. -/
theorem engineStep_hostPart {s u : State} (h : engineStep s = .next u) :
    u.hostPart = s.hostPart ∨ (∃ x, decodeWord s.pend = .ok (.softReset x)) ∧ u = s.clearRegisters := by
  cases hbusy : s.status.busy with
  | false => rw [engineStep_idle hbusy] at h; cases h; exact .inl rfl
  | true =>
    cases hdec : decodeWord s.pend with
    | error e =>
      rw [engineStep_bad hbusy hdec] at h
      cases h
      unfold rejectWord
      split <;> exact .inl rfl
    | ok i =>
      rw [engineStep_busy hbusy hdec] at h
      by_cases hsoft : ∃ x, i = .softReset x
      · obtain ⟨x, rfl⟩ := hsoft
        cases h
        exact .inr ⟨⟨x, rfl⟩, rfl⟩
      · exact .inl (exec_hostPart (fun x hx => hsoft ⟨x, hx⟩) h)

/-- Settles O46: the engine's step keeps the host's part. -/
theorem engineKeepsHostState : Obligations.EngineKeepsHostState := by
  intro s u h
  rcases engineStep_hostPart h with hpart | ⟨⟨x, hx⟩, rfl⟩
  · have hkept : ∀ {α : Type} (f : State → α), f u.hostPart = f s.hostPart := fun f => congrArg f hpart
    exact ⟨fun a => hkept (·.ibufByte a), hkept State.cmd, hkept State.params, fun _ =>
      ⟨hkept State.irqEn, hkept State.frameType, hkept State.frameSize, hkept State.frameNcomp, hkept State.comp,
        hkept State.restartInterval, hkept State.srcEnd, hkept State.inBase, hkept State.inLen, hkept State.outBase,
        hkept (·.status.haz), hkept (·.status.accerr)⟩⟩
  · exact ⟨fun a => rfl, rfl, rfl, fun hno => absurd hx (hno x)⟩

/-- Settles O45: with ERR = 1 only SOFT_RESET can be pending (42_control R160), so the engine does nothing. -/
theorem errorHeldUntilReset : Obligations.ErrorHeldUntilReset := by
  intro s u hinv herr hstep hreset
  rcases step_parts hstep with hpart | ⟨hr, -⟩ | ⟨hbusy, hsoft, -⟩
  · have hkept : ∀ {α : Type} (f : State → α), f u.enginePart = f s.enginePart := fun f => congrArg f hpart
    have herr' : u.status.err = s.status.err := hkept (·.status.err)
    exact ⟨herr'.trans herr, hkept State.error⟩
  · exact absurd hr hreset
  · obtain ⟨-, ⟨-, -, -, hpend, -⟩, -⟩ := hinv
    obtain ⟨x, hx⟩ := decodeWord_softReset.mp (hpend herr hbusy)
    exact absurd hx (hsoft x)

end Sys2Proof.Machine
end

section
/-! PROOFS. What a scan and the reset leave alone (spec/20_memory.md R87, spec/10_state.md R24, R44), and the progress of a
scan (spec/40_bit_reader.md R130, spec/42_control.md R171). -/

namespace Sys2Proof.Machine

/-! ## The tables during a scan -/

/-- A command that leaves the scan active has completed. -/
theorem exec_active {i : Instr} {s u : State} (hi : ∀ x, i ≠ .softReset x) (h : exec i s = .next u)
    (hact : u.status.scanActive = true) : ∃ t, (commandCode i).run s = .ok () t ∧ u = t.complete := by
  rcases exec_cases hi h with hok | ⟨t, e, -, rfl | rfl⟩
  · exact hok
  · cases hact
  · cases hact

/-- The parts of the state that hold the tables. -/
def State.tables (s : State) : Vector QuantTable 4 × Vector HuffTable 4 × Vector HuffTable 4 × TableValid :=
  (s.quant, s.dcTable, s.acTable, s.tableValid)

/-- A command that completes during a scan keeps the tables: the loads are refused (20_memory R87). -/
theorem commandCode_tables {i : Instr} {s t : State} (hact : s.status.scanActive = true)
    (h : (commandCode i).run s = .ok () t) : t.tables = s.tables := by
  have hframe := (commandFrame i).ok h
  cases i with
  | nop | softReset x | endScan => cases hframe; rfl
  | loadDqt => cases h.symm.trans (run_load_in_scan hact .loadDqt loadQuantRecord)
  | loadDht => cases h.symm.trans (run_load_in_scan hact .loadDht loadHuffRecord)
  | setFrame | beginScan => rcases hframe with rfl | rfl <;> rfl
  | decodeMcu | decodeScan => obtain ⟨p, b, r, o, n, a, d, e, c, rfl⟩ := hframe; rfl
  | readBits n => obtain ⟨r, v, ⟨p, b, e, c, rfl⟩, rfl | rfl⟩ := hframe <;> rfl
  | huffDecode c t => obtain ⟨r, v, ⟨p, b, e, c, rfl⟩, rfl | rfl⟩ := hframe <;> rfl

/-- A step during a scan that leaves it active keeps the tables. -/
theorem step_tables {s u : State} (hact : s.status.scanActive = true) (h : step s = .next u)
    (hact' : u.status.scanActive = true) : u.tables = s.tables := by
  rcases step_parts h with hpart | ⟨-, hcleared⟩ | ⟨-, -, ⟨e, hpart⟩ | ⟨i, l, -, hi, hexec⟩⟩
  · have htables : u.enginePart.tables = s.enginePart.tables := congrArg State.tables hpart
    exact htables
  · rw [hcleared] at hact'
    cases hact'
  · have hend : u.status.scanActive = false := congrArg (fun p : State => p.status.scanActive) hpart
    cases hend.symm.trans hact'
  · obtain ⟨t, hrun, rfl⟩ := exec_active hi hexec hact'
    exact commandCode_tables (s := s.setSchedule l) (t := t) hact hrun

/-- Settles O47: the step rule, and the refusals of O12. -/
theorem tablesFixedDuringScan : Obligations.TablesFixedDuringScan := by
  refine ⟨fun s u hact h hact' => ?_, fun s hact => ?_⟩
  · have htables := step_tables hact h hact'
    simpa only [State.tables, Prod.mk.injEq] using htables
  · obtain ⟨hdqt, hdht, -, -⟩ := setupRefusedDuringScan s hact
    exact ⟨hdqt, hdht⟩

/-! ## The bits of STATUS and TABLE_VALID -/

/-- FRAME_VALID and the bits of TABLE_VALID do not fall. -/
structure ValidKept (s t : State) : Prop where
  frame : s.status.frameValid = true → t.status.frameValid = true
  quant : ValidRises s.tableValid.qv t.tableValid.qv
  dc : ValidRises s.tableValid.dv t.tableValid.dv
  ac : ValidRises s.tableValid.av t.tableValid.av

theorem ValidKept.of_same {s t : State} (hframe : t.status.frameValid = s.status.frameValid)
    (htables : t.tableValid = s.tableValid) : ValidKept s t := by
  refine ⟨fun h => hframe.trans h, ?_, ?_, ?_⟩ <;> rw [htables] <;> exact fun _ h => h

/-- The engine's part holds those bits. -/
theorem ValidKept.of_enginePart {s t : State} (h : t.enginePart = s.enginePart) : ValidKept s t := by
  have hkept : ValidKept s.enginePart t.enginePart := h ▸ ValidKept.of_same rfl rfl
  exact ⟨hkept.frame, hkept.quant, hkept.dc, hkept.ac⟩

/-- No command's pseudocode lets those bits fall (10_state R24, R44). -/
theorem CommandFrame.validKept {i : Instr} {s t : State} (h : CommandFrame i s t) : ValidKept s t := by
  cases i with
  | nop | softReset x | endScan => cases h; exact .of_same rfl rfl
  | loadDqt => obtain ⟨q, v, p, hv, rfl⟩ := h; exact ⟨id, hv, fun _ => id, fun _ => id⟩
  | loadDht => obtain ⟨d, a, dv, av, p, hd, ha, rfl⟩ := h; exact ⟨id, fun _ => id, hd, ha⟩
  | setFrame =>
    rcases h with rfl | rfl
    · exact .of_same rfl rfl
    · exact ⟨fun _ => rfl, fun _ => id, fun _ => id, fun _ => id⟩
  | beginScan => rcases h with rfl | rfl <;> exact .of_same rfl rfl
  | decodeMcu | decodeScan => obtain ⟨p, b, r, o, n, a, d, e, c, rfl⟩ := h; exact .of_same rfl rfl
  | readBits n => obtain ⟨r, v, ⟨p, b, e, c, rfl⟩, rfl | rfl⟩ := h <;> exact .of_same rfl rfl
  | huffDecode c t => obtain ⟨r, v, ⟨p, b, e, c, rfl⟩, rfl | rfl⟩ := h <;> exact .of_same rfl rfl

/-- Only SET_FRAME's pseudocode writes FRAME_VALID (42_control R164). -/
theorem CommandFrame.frameValid {i : Instr} {s t : State} (h : CommandFrame i s t) (hi : i ≠ .setFrame) :
    t.status.frameValid = s.status.frameValid := by
  cases i with
  | nop | softReset x | endScan => cases h; rfl
  | loadDqt => obtain ⟨q, v, p, -, rfl⟩ := h; rfl
  | loadDht => obtain ⟨d, a, dv, av, p, -, -, rfl⟩ := h; rfl
  | setFrame => exact absurd rfl hi
  | beginScan => rcases h with rfl | rfl <;> rfl
  | decodeMcu | decodeScan => obtain ⟨p, b, r, o, n, a, d, e, c, rfl⟩ := h; rfl
  | readBits n => obtain ⟨r, v, ⟨p, b, e, c, rfl⟩, rfl | rfl⟩ := h <;> rfl
  | huffDecode c t => obtain ⟨r, v, ⟨p, b, e, c, rfl⟩, rfl | rfl⟩ := h <;> rfl

/-- Only BEGIN_SCAN's pseudocode completes with a scan where none was (42_control R166). -/
theorem commandCode_inactive {i : Instr} {s t : State} (hi : i ≠ .beginScan) (hact : s.status.scanActive = false)
    (h : (commandCode i).run s = .ok () t) : t.status.scanActive = false := by
  have hframe := (commandFrame i).ok h
  cases i with
  | nop | softReset x => cases hframe; exact hact
  | endScan => cases hframe; rfl
  | loadDqt => obtain ⟨q, v, p, -, rfl⟩ := hframe; exact hact
  | loadDht => obtain ⟨d, a, dv, av, p, -, -, rfl⟩ := hframe; exact hact
  | setFrame => rcases hframe with rfl | rfl <;> exact hact
  | beginScan => exact absurd rfl hi
  | decodeMcu => cases h.symm.trans (run_requireScan_bind hact .decodeMcu fun _ => decodeMcuBody)
  | decodeScan =>
    cases h.symm.trans (run_requireScan_bind hact .decodeScan fun _ => get >>= fun s => decodeRemaining s.mcusLeft)
  | readBits n => obtain ⟨r, v, ⟨p, b, e, c, rfl⟩, rfl | rfl⟩ := hframe <;> exact hact
  | huffDecode c t => obtain ⟨r, v, ⟨p, b, e, c, rfl⟩, rfl | rfl⟩ := hframe <;> exact hact

/-- A command that is not SOFT_RESET ends in a state with its pseudocode's frame, but for how it ended. -/
theorem exec_frame {i : Instr} {s u : State} (hi : ∀ x, i ≠ .softReset x) (h : exec i s = .next u) :
    ∃ t, CommandFrame i s t ∧ (u = t.complete ∨ ∃ e, u = t.enterError e ∨ u = (t.enterError e).forgetGrid) := by
  rcases exec_cases hi h with ⟨t, hrun, hu⟩ | ⟨t, e, hrun, hu⟩
  · exact ⟨t, (commandFrame i).ok hrun, .inl hu⟩
  · exact ⟨t, (commandFrame i).error hrun, .inr ⟨e, hu⟩⟩

theorem exec_validKept {i : Instr} {s u : State} (hi : ∀ x, i ≠ .softReset x) (h : exec i s = .next u) :
    ValidKept s u := by
  obtain ⟨t, hframe, rfl | ⟨e, rfl | rfl⟩⟩ := exec_frame hi h
  all_goals
    obtain ⟨hf, hq, hd, ha⟩ := hframe.validKept
    exact ⟨hf, hq, hd, ha⟩

/-- FRAME_VALID rises only by a SET_FRAME, which then has completed. -/
theorem exec_frameValid {i : Instr} {s u : State} (hi : ∀ x, i ≠ .softReset x) (h : exec i s = .next u)
    (hlow : s.status.frameValid = false) (hhigh : u.status.frameValid = true) :
    i = .setFrame ∧ u.status.done = true := by
  by_cases hset : i = .setFrame
  · subst hset
    cases hact : s.status.scanActive with
    | true =>
      obtain ⟨-, -, hrefused, -⟩ := setupRefusedDuringScan s hact
      cases hrefused.symm.trans h
      cases hlow.symm.trans hhigh
    | false =>
      cases (statusCommandsComplete.2.1 s hact).symm.trans h
      exact ⟨rfl, rfl⟩
  · obtain ⟨t, hframe, hend⟩ := exec_frame hi h
    have hkept : u.status.frameValid = t.status.frameValid := by
      rcases hend with rfl | ⟨e, rfl | rfl⟩ <;> rfl
    cases (hkept.symm.trans hhigh).symm.trans ((hframe.frameValid hset).trans hlow)

/-- Settles O48: in each kind of step, which of the bits can change. -/
theorem statusBitsChangeOnlyBy : Obligations.StatusBitsChangeOnlyBy := by
  intro s u h
  rcases step_parts h with hpart | ⟨hreset, hcleared⟩ | ⟨-, -, ⟨e, hpart⟩ | ⟨i, l, hexecutes, hi, hexec⟩⟩
  · have hkept : ∀ {α : Type} (f : State → α), f u.enginePart = f s.enginePart := fun f => congrArg f hpart
    have hscan : u.status.scanActive = s.status.scanActive := hkept (·.status.scanActive)
    have hframe : u.status.frameValid = s.status.frameValid := hkept (·.status.frameValid)
    obtain ⟨hf, hq, hd, ha⟩ := ValidKept.of_enginePart hpart
    refine ⟨fun hlow hhigh => ?_, fun hlow hhigh => ?_, fun _ => ⟨hf, fun k => ⟨hq k, hd k, ha k⟩⟩⟩
    · cases (hscan.symm.trans hhigh).symm.trans hlow
    · cases (hframe.symm.trans hhigh).symm.trans hlow
  · rw [hcleared]
    exact ⟨fun _ hhigh => (by cases hhigh), fun _ hhigh => (by cases hhigh), fun hno => absurd hreset hno⟩
  · have hkept : ∀ {α : Type} (f : State → α), f u.enginePart = f (s.enterError e).enginePart :=
      fun f => congrArg f hpart
    have hscan : u.status.scanActive = false := hkept (·.status.scanActive)
    have hframe : u.status.frameValid = s.status.frameValid := hkept (·.status.frameValid)
    obtain ⟨hf, hq, hd, ha⟩ := ValidKept.of_enginePart hpart
    refine ⟨fun _ hhigh => ?_, fun hlow hhigh => ?_, fun _ => ⟨hf, fun k => ⟨hq k, hd k, ha k⟩⟩⟩
    · cases hscan.symm.trans hhigh
    · cases (hframe.symm.trans hhigh).symm.trans hlow
  · obtain ⟨hf, hq, hd, ha⟩ := exec_validKept hi hexec
    refine ⟨fun hlow hhigh => ?_, fun hlow hhigh => ?_, fun _ => ⟨hf, fun k => ⟨hq k, hd k, ha k⟩⟩⟩
    · obtain ⟨t, hrun, rfl⟩ := exec_active hi hexec hhigh
      by_cases hbegin : i = .beginScan
      · subst hbegin
        exact ⟨hexecutes, rfl⟩
      · have hlow' := commandCode_inactive (s := s.setSchedule l) hbegin hlow hrun
        cases hlow'.symm.trans hhigh
    · obtain ⟨rfl, hdone⟩ := exec_frameValid hi hexec hlow hhigh
      exact ⟨hexecutes, hdone⟩

/-! ## The progress of a scan -/

/-- BR_POS does not fall. -/
def PosGrows (s t : State) : Prop := s.brPos.toNat ≤ t.brPos.toNat

theorem posGrows_composes : Composes PosGrows := ⟨fun _ => Nat.le_refl _, Nat.le_trans⟩

theorem State.Fetched.posGrows {s t : State} (h : s.Fetched t) : PosGrows s t := by
  obtain ⟨data, -, hpos, -⟩ := h
  unfold PosGrows
  omega

theorem Checks.posGrows {α : Type} {m : Engine α} (h : Checks m) : Keeps PosGrows m :=
  h.mono fun _ _ hst => hst ▸ Nat.le_refl _

theorem posGrows_setResult (v : Word) (s : State) : PosGrows s (s.setResult v) := Nat.le_refl _

theorem posGrows_readBitsCommand (n : Byte) : Keeps PosGrows (readBitsCommand n) :=
  keeps_bind posGrows_composes (checks_bitCount n).posGrows fun k =>
    keeps_bind posGrows_composes (checks_requireScan _).posGrows fun _ =>
      keeps_bind posGrows_composes ((fetched_readBits _ k).mono fun _ _ => State.Fetched.posGrows) fun _ =>
        keeps_modify _ (posGrows_setResult _)

theorem posGrows_huffDecodeCommand (c t : Byte) : Keeps PosGrows (huffDecodeCommand c t) :=
  keeps_bind posGrows_composes (checks_huffClass c).posGrows fun cls =>
    keeps_bind posGrows_composes (checks_requireScan _).posGrows fun _ =>
      keeps_bind posGrows_composes (checks_definedHuffTable cls t).posGrows fun _ => keeps_get_bind fun s =>
        keeps_bind posGrows_composes ((fetched_huffSymbol _ _ _).mono fun _ _ => State.Fetched.posGrows)
          (fun _ => keeps_modify _ (posGrows_setResult _)) s

theorem posGrows_engineStore (cells : List Host.Cell) : Keeps PosGrows (engineStore cells) := by
  intro s
  rcases run_engineStore_cases cells s with ⟨-, h⟩ | ⟨f, h⟩ <;> rw [h] <;> exact Nat.le_refl _

theorem posGrows_decodeMcuBody : Keeps PosGrows decodeMcuBody :=
  keeps_get_bind fun s => keeps_bind posGrows_composes
    ((fetched_decodeBlocks s.frameComps).mono fun _ _ => State.Fetched.posGrows)
    (fun coefs => keeps_bind posGrows_composes (posGrows_engineStore (s.currentMcuCells coefs)) fun _ =>
      keeps_modify _ fun t => Nat.le_of_eq (congrArg BitVec.toNat (advanceMcu_brPos t).symm)) s

/-- While the scan stays active BR_POS and MCU_INDEX do not fall, MCU_INDEX stays below MCU_TOTAL, and MCU_TOTAL stays
(40_bit_reader R130, 42_control R171). -/
def ScanGrows (s t : State) : Prop :=
  PosGrows s t ∧ t.mcuTotal = s.mcuTotal ∧
    (s.mcuIndex.toNat < s.mcuTotal.toNat → s.mcuIndex.toNat ≤ t.mcuIndex.toNat ∧ t.mcuIndex.toNat < t.mcuTotal.toNat)

theorem ScanGrows.trans {s t u : State} (h : ScanGrows s t) (k : ScanGrows t u) : ScanGrows s u := by
  obtain ⟨hpos, htotal, hidx⟩ := h
  obtain ⟨kpos, ktotal, kidx⟩ := k
  refine ⟨Nat.le_trans hpos kpos, ktotal.trans htotal, fun hlt => ?_⟩
  obtain ⟨hle, hlt'⟩ := hidx hlt
  obtain ⟨kle, klt⟩ := kidx hlt'
  exact ⟨Nat.le_trans hle kle, klt⟩

theorem scanGrows_of_same {s t : State} (hpos : PosGrows s t) (hidx : t.mcuIndex = s.mcuIndex)
    (htotal : t.mcuTotal = s.mcuTotal) : ScanGrows s t :=
  ⟨hpos, htotal, fun hlt => by rw [hidx, htotal]; exact ⟨Nat.le_refl _, hlt⟩⟩

/-- One turn that leaves the scan active. -/
theorem scanGrows_decodeMcuBody {s t : State} (h : decodeMcuBody.run s = .ok () t) (hact : t.status.scanActive = true) :
    ScanGrows s t := by
  obtain ⟨hidx, htotal, hne, -, -⟩ := decodeMcuBody_active h hact
  refine ⟨posGrows_decodeMcuBody.ok h, htotal, fun hlt => ?_⟩
  have hne' : (s.mcuIndex + 1#32).toNat ≠ s.mcuTotal.toNat := fun he => hne (BitVec.eq_of_toNat_eq he)
  have htop := s.mcuTotal.isLt
  rw [hidx, htotal]
  simp only [BitVec.toNat_add, BitVec.toNat_ofNat] at hne' ⊢
  omega

/-- The loop, if it leaves the scan active. -/
theorem scanGrows_decodeRemaining (n : Nat) {s t : State} (h : (decodeRemaining n).run s = .ok () t)
    (hact : t.status.scanActive = true) : ScanGrows s t := by
  induction n generalizing s with
  | zero => cases h; exact scanGrows_of_same (Nat.le_refl _) rfl rfl
  | succ n ih =>
    cases hs : s.status.scanActive with
    | false =>
      rw [run_decodeRemaining_inactive hs] at h
      cases h
      cases hs.symm.trans hact
    | true =>
      rw [run_decodeRemaining_active hs, run_bind] at h
      cases hrun : decodeMcuBody.run s with
      | error e r => rw [hrun] at h; cases h
      | ok a r =>
        rw [hrun] at h
        cases hr : r.status.scanActive with
        | false =>
          have hstop : r = t := by
            simp only [run_decodeRemaining_inactive hr] at h
            cases h
            rfl
          rw [hstop] at hr
          cases hr.symm.trans hact
        | true => exact (scanGrows_decodeMcuBody hrun hr).trans (ih h)

/-- A command that completes during a scan and leaves it active. -/
theorem scanGrows_commandCode {i : Instr} {s t : State} (hs : s.status.scanActive = true)
    (h : (commandCode i).run s = .ok () t) (hact : t.status.scanActive = true) : ScanGrows s t := by
  have hframe := (commandFrame i).ok h
  cases i with
  | nop | softReset x => cases hframe; exact scanGrows_of_same (Nat.le_refl _) rfl rfl
  | endScan => cases hframe; cases hact
  | loadDqt => obtain ⟨q, v, p, -, rfl⟩ := hframe; exact scanGrows_of_same (Nat.le_refl _) rfl rfl
  | loadDht => obtain ⟨d, a, dv, av, p, -, -, rfl⟩ := hframe; exact scanGrows_of_same (Nat.le_refl _) rfl rfl
  | setFrame => rcases hframe with rfl | rfl <;> exact scanGrows_of_same (Nat.le_refl _) rfl rfl
  | beginScan =>
    have hrefused : s.scanError = some _ := if_pos hs
    have hrun : beginScanCommand.run s = _ := run_get_bind _ _
    rw [hrefused] at hrun
    cases h.symm.trans hrun
  | decodeMcu => exact scanGrows_decodeMcuBody ((run_decodeMcuCommand hs).symm.trans h) hact
  | decodeScan => exact scanGrows_decodeRemaining _ ((run_decodeScanCommand hs).symm.trans h) hact
  | readBits n =>
    have hpos := (posGrows_readBitsCommand n).ok h
    obtain ⟨r, v, ⟨p, b, e, c, rfl⟩, rfl | rfl⟩ := hframe <;> exact scanGrows_of_same hpos rfl rfl
  | huffDecode c t =>
    have hpos := (posGrows_huffDecodeCommand c t).ok h
    obtain ⟨r, v, ⟨p, b, e, c, rfl⟩, rfl | rfl⟩ := hframe <;> exact scanGrows_of_same hpos rfl rfl

/-- A step during a scan that leaves it active. -/
theorem scanGrows_step {s u : State} (hs : s.status.scanActive = true) (h : step s = .next u)
    (hact : u.status.scanActive = true) : ScanGrows s u := by
  rcases step_parts h with hpart | ⟨-, hcleared⟩ | ⟨-, -, ⟨e, hpart⟩ | ⟨i, l, -, hi, hexec⟩⟩
  · have hkept : ∀ {α : Type} (f : State → α), f u.enginePart = f s.enginePart := fun f => congrArg f hpart
    have hpos : u.brPos = s.brPos := hkept State.brPos
    exact scanGrows_of_same (Nat.le_of_eq (congrArg BitVec.toNat hpos.symm)) (hkept State.mcuIndex) (hkept State.mcuTotal)
  · rw [hcleared] at hact
    cases hact
  · have hend : u.status.scanActive = false := congrArg (fun p : State => p.status.scanActive) hpart
    cases hend.symm.trans hact
  · obtain ⟨t, hrun, rfl⟩ := exec_active hi hexec hact
    exact scanGrows_commandCode (s := s.setSchedule l) (t := t) hs hrun hact

/-- Settles O49: the progress is `scanGrows_step`, and the bounds are the invariant's. -/
theorem scanProgressOnlyGrows : Obligations.ScanProgressOnlyGrows := by
  intro s u hinv hs h hact
  obtain ⟨hpos, htotal, hidx⟩ := scanGrows_step hs h hact
  obtain ⟨-, -, -, -, -, -, -, -, -, hlt⟩ := hinv.2.2.2.1 hs
  obtain ⟨-, -, -, -, -, hbound⟩ := stepKeepsInv s u hinv h
  exact ⟨hpos, hbound hact, (hidx hlt).1, (hidx hlt).2, htotal⟩

end Sys2Proof.Machine
end

section
/-! PROOFS. What the host reads and writes at each register (spec/10_state.md section 2, spec/20_memory.md R71, R74, R77). -/

namespace Sys2Proof.Machine

/-! ## The registers' offsets -/

/-- The offset of a register in the window (10_state section 2). -/
def Csr.offset : Csr → Nat
  | .id => 0x00
  | .cmd => 0x04
  | .status => 0x08
  | .error => 0x0C
  | .irqEn => 0x10
  | .frameType => 0x14
  | .frameSize => 0x18
  | .frameNcomp => 0x1C
  | .comp i => 0x20 + 4 * i.val
  | .restartInterval => 0x2C
  | .srcPtr => 0x30
  | .srcEnd => 0x34
  | .inBase => 0x38
  | .inLen => 0x3C
  | .outBase => 0x40
  | .brPos => 0x44
  | .brBits => 0x48
  | .mcuIndex => 0x4C
  | .mcuTotal => 0x50
  | .result => 0x54
  | .tableValid => 0x58
  | .pred i => 0x5C + 4 * i.val

/-- The offset is the one at which the model finds the register. -/
theorem Csr.offset_spec (r : Csr) : r.offset < 0x1000 ∧ r.offset % 4 = 0 ∧ Csr.ofIndex (r.offset / 4) = some r := by
  cases r with
  | comp i => revert i; decide
  | pred i => revert i; decide
  | _ => decide

/-- A read of a register reaches it. -/
theorem hostRead_offset (s : State) (r : Csr) : s.hostRead (s.params.base + r.offset) 4 = s.readTarget 4 (.csr r) := by
  obtain ⟨hlt, hmod, hidx⟩ := r.offset_spec
  exact hostRead_csr s hlt hmod hidx

/-- While no command is pending a read returns the register's value (20_memory R74). -/
theorem readReg_offset {s : State} (hidle : s.status.busy = false) (r : Csr) : s.readReg r.offset = s.readCsr r := by
  obtain ⟨hlt, hmod, hidx⟩ := r.offset_spec
  exact readReg_idle s hlt hmod hidx hidle

/-- A register no command writes returns its value at all times (20_memory R77). -/
theorem readReg_undrawn (s : State) {r : Csr} (hr : ∀ d, r.drawn d = none) : s.readReg r.offset = s.readCsr r := by
  rw [State.readReg, hostRead_offset, State.readTarget, hr, ite_self]
  rfl

/-- While a command is pending any other register returns the next draw and counts it (20_memory R77). -/
theorem hostRead_drawn {s : State} (hbusy : s.status.busy = true) {r : Csr} {v : Word}
    (hr : r.drawn (Config.draw s.draws) = some v) :
    s.readReg r.offset = v ∧ (s.hostRead (s.params.base + r.offset) 4).draws = s.draws + 1 := by
  have hread : s.hostRead (s.params.base + r.offset) 4 = s.returnDraw v := by
    rw [hostRead_offset, State.readTarget, if_pos hbusy, hr]
  rw [State.readReg, hread]
  exact ⟨rfl, rfl⟩

/-- While no command is pending a write to a register that is not locked out stores there (10_state R21). -/
theorem writeReg_offset {s : State} (hidle : s.status.busy = false) {r : Csr}
    (hfree : (r.locked && s.status.scanActive) = false) (w : Word) : s.writeReg r.offset w = s.storeCsr w r := by
  obtain ⟨hlt, hmod, hidx⟩ := r.offset_spec
  rw [writeReg_eq s w hlt hmod hidx hidle, State.writeCsr, hfree]
  rfl

/-- A write to a register locked in scan is dropped during one and sets HAZ (10_state R21). -/
theorem writeReg_locked {s : State} (hidle : s.status.busy = false) (hact : s.status.scanActive = true) {r : Csr}
    (hlocked : r.locked = true) (w : Word) : s.writeReg r.offset w = s.setHaz := by
  obtain ⟨hlt, hmod, hidx⟩ := r.offset_spec
  rw [writeReg_eq s w hlt hmod hidx hidle, State.writeCsr, hlocked, hact]
  rfl

/-! ## What a read returns -/

/-- Settles O53: each register's value, unfolded. -/
theorem registerReads : Obligations.RegisterReads := by
  intro s hidle
  have hread := readReg_offset hidle
  have hstatus : s.readReg 0x08 = s.statusWord := hread .status
  rw [State.statusWord, Status.word, hidle] at hstatus
  refine ⟨hread .id, hread .cmd, hstatus, hread .error, hread .irqEn, hread .frameType, hread .frameSize, ?_,
    fun i => hread (.comp i), ?_, hread .srcPtr, hread .srcEnd, hread .inBase, hread .inLen, hread .outBase,
    hread .brPos, hread .brBits, hread .mcuIndex, hread .mcuTotal, hread .result, hread .tableValid,
    fun i => hread (.pred i)⟩
  · exact (hread .frameNcomp).trans (BitVec.setWidth_eq_append (by decide))
  · exact (hread .restartInterval).trans (BitVec.setWidth_eq_append (by decide))

/-! ## Masks -/

/-- A mask of low bits. -/
theorem getLsbD_lowMask {m i : Nat} (hi : i < 32) : (BitVec.ofNat 32 (2 ^ m - 1)).getLsbD i = decide (i < m) := by
  rw [BitVec.getLsbD_ofNat, Nat.testBit_two_pow_sub_one, decide_eq_true hi, Bool.true_and]

/-- No common bit. -/
theorem and_eq_zero_of_bits {v m : Word} (h : ∀ i, i < 32 → m.getLsbD i = true → v.getLsbD i = false) :
    v &&& m = 0#32 := by
  apply BitVec.eq_of_getLsbD_eq
  intro i hi
  rw [BitVec.getLsbD_and, BitVec.getLsbD_zero]
  cases hm : m.getLsbD i with
  | false => rw [Bool.and_false]
  | true => rw [h i hi hm, Bool.false_and]

/-- A word masked twice by disjoint masks. -/
theorem and_and_eq_zero (v : Word) {m k : Word} (h : m &&& k = 0#32) : v &&& m &&& k = 0#32 := by
  rw [BitVec.and_assoc, h, BitVec.and_zero]

theorem and_lowMask_32 (w : Word) : w &&& 0xFFFFFFFF#32 = w := BitVec.and_allOnes

/-! ## Words written and read back -/

theorem irqEnable_word_ofWord (w : Word) : (IrqEnable.ofWord w).word = w &&& 0x3#32 := by
  apply BitVec.eq_of_getLsbD_eq
  intro i hi
  have hmask := getLsbD_lowMask (m := 2) hi
  simp only [IrqEnable.word, IrqEnable.ofWord, BitVec.getLsbD_append, BitVec.getLsbD_and, BitVec.getLsbD_zero]
  grind

theorem frameType_word_ofWord (w : Word) : (FrameType.ofWord w).word = w &&& 0xFFFF#32 := by
  apply BitVec.eq_of_getLsbD_eq
  intro i hi
  have hmask := getLsbD_lowMask (m := 16) hi
  simp only [FrameType.word, FrameType.ofWord, BitVec.getLsbD_append, BitVec.getLsbD_extractLsb', BitVec.getLsbD_and,
    BitVec.getLsbD_zero]
  grind

theorem frameSize_word_ofWord (w : Word) : (FrameSize.ofWord w).word = w &&& 0xFFFFFFFF#32 := by
  apply BitVec.eq_of_getLsbD_eq
  intro i hi
  have hmask := getLsbD_lowMask (m := 32) hi
  simp only [FrameSize.word, FrameSize.ofWord, BitVec.getLsbD_append, BitVec.getLsbD_extractLsb', BitVec.getLsbD_and]
  grind

theorem comp_word_ofWord (w : Word) : (Comp.ofWord w).word = w &&& 0xFFFFF#32 := by
  apply BitVec.eq_of_getLsbD_eq
  intro i hi
  have hmask := getLsbD_lowMask (m := 20) hi
  simp only [Comp.word, Comp.ofWord, BitVec.getLsbD_append, BitVec.getLsbD_extractLsb', BitVec.getLsbD_and,
    BitVec.getLsbD_zero]
  grind

/-- The low bits of a word, widened again. -/
theorem setWidth_extract_low (w : Word) (m : Nat) :
    (w.extractLsb' 0 m).setWidth 32 = w &&& BitVec.ofNat 32 (2 ^ m - 1) := by
  apply BitVec.eq_of_getLsbD_eq
  intro i hi
  rw [BitVec.getLsbD_setWidth, BitVec.getLsbD_extractLsb', BitVec.getLsbD_and, getLsbD_lowMask hi, Nat.zero_add,
    decide_eq_true hi, Bool.true_and, Bool.and_comm]

/-- STATUS has no field in bits [15:10] and [31:24] (10_state R24). -/
theorem status_word_reserved (st : Status) (irq : Bool) {i : Nat} (hi : (10 ≤ i ∧ i < 16) ∨ 24 ≤ i) :
    (st.word irq).getLsbD i = false := by
  unfold Status.word
  iterate 10 rw [BitVec.getLsbD_append, if_neg (by omega)]
  rw [BitVec.getLsbD_append, BitVec.getLsbD_append, BitVec.getLsbD_zero, BitVec.getLsbD_zero]
  split
  · rfl
  · exact if_neg (by omega)

/-! ## Reserved bits -/

/-- A word whose fields fill the low `m` bits has no bit in common with a mask above them. -/
theorem and_high_eq_zero {m : Nat} {v k : Word} (hv : ∀ i, m ≤ i → v.getLsbD i = false)
    (hk : ∀ i : Fin 32, k.getLsbD i.val = true → m ≤ i.val) : v &&& k = 0#32 :=
  and_eq_zero_of_bits fun i hi hbit => hv i (hk ⟨i, hi⟩ hbit)

theorem setWidth_high {m : Nat} (x : BitVec m) (i : Nat) (hi : m ≤ i) : (x.setWidth 32).getLsbD i = false := by
  rw [BitVec.getLsbD_setWidth, BitVec.getLsbD_of_ge x i hi, Bool.and_false]

theorem errorReg_word_high (e : ErrorReg) (i : Nat) (hi : 24 ≤ i) : e.word.getLsbD i = false := by
  simp only [ErrorReg.word, BitVec.getLsbD_append, BitVec.getLsbD_zero]
  grind

theorem irqEnable_word_high (e : IrqEnable) (i : Nat) (hi : 2 ≤ i) : e.word.getLsbD i = false := by
  simp only [IrqEnable.word, BitVec.getLsbD_append, BitVec.getLsbD_zero]
  grind

theorem frameType_word_high (f : FrameType) (i : Nat) (hi : 16 ≤ i) : f.word.getLsbD i = false := by
  simp only [FrameType.word, BitVec.getLsbD_append, BitVec.getLsbD_zero]
  grind

theorem comp_word_high (c : Comp) (i : Nat) (hi : 20 ≤ i) : c.word.getLsbD i = false := by
  simp only [Comp.word, BitVec.getLsbD_append, BitVec.getLsbD_zero]
  grind

theorem brBits_word_high (b : BrBits) (i : Nat) (hi : 12 ≤ i) : b.word.getLsbD i = false := by
  simp only [BrBits.word, BitVec.getLsbD_append, BitVec.getLsbD_zero]
  grind

theorem tableValid_word_high (t : TableValid) (i : Nat) (hi : 12 ≤ i) : t.word.getLsbD i = false := by
  simp only [TableValid.word, BitVec.getLsbD_append, BitVec.getLsbD_zero]
  grind

/-- Reserved bits of a register that a command may write: 0 in its value, and 0 in a draw (20_memory R77, log 6). -/
theorem readReg_reserved {s : State} {r : Csr} {k : Word} (hvalue : s.readCsr r &&& k = 0#32)
    (hdraw : ∀ v, r.drawn (Config.draw s.draws) = some v → v &&& k = 0#32) : s.readReg r.offset &&& k = 0#32 := by
  cases hbusy : s.status.busy with
  | false => rw [readReg_offset hbusy]; exact hvalue
  | true =>
    cases hr : r.drawn (Config.draw s.draws) with
    | some v => rw [(hostRead_drawn hbusy hr).1]; exact hdraw v hr
    | none =>
      have hread : s.readReg r.offset = s.readCsr r := by
        rw [State.readReg, hostRead_offset, State.readTarget, hbusy, if_pos rfl, hr]
        rfl
      rw [hread]
      exact hvalue

/-- The same of a register no command writes. -/
theorem readReg_reserved_undrawn {s : State} {r : Csr} {m : Nat} {k : Word} (hr : ∀ d, r.drawn d = none)
    (hv : ∀ i, m ≤ i → (s.readCsr r).getLsbD i = false) (hk : ∀ i : Fin 32, k.getLsbD i.val = true → m ≤ i.val) :
    s.readReg r.offset &&& k = 0#32 := by
  rw [readReg_undrawn s hr]
  exact and_high_eq_zero hv hk

/-! ## Reading back what was written -/

/-- A write that is not locked out, of a register whose write does not make a command pending, is read back. -/
theorem readBack {s : State} (hidle : s.status.busy = false) {r : Csr} (hfree : (r.locked && s.status.scanActive) = false)
    {w v : Word} (hkeep : (s.storeCsr w r).status.busy = false) (hread : (s.storeCsr w r).readCsr r = v) :
    (s.writeReg r.offset w).readReg r.offset = v := by
  rw [writeReg_offset hidle hfree, readReg_offset hkeep, hread]

/-- CMD reads back as it was written, whether the command is accepted or ignored (10_state R23). -/
theorem readBack_cmd {s : State} (hidle : s.status.busy = false) (w : Word) :
    (s.writeReg 0x04 w).readReg 0x04 = w := by
  have hwrite : s.writeReg 0x04 w = s.writeCmd w := writeReg_offset hidle (r := .cmd) rfl w
  have hread : (s.writeCmd w).readReg 0x04 = (s.writeCmd w).cmd := readReg_undrawn _ (r := .cmd) fun _ => rfl
  rw [hwrite, hread]
  unfold State.writeCmd
  split <;> rfl

/-- A register locked in scan: what a write leaves to be read back, and what it does during a scan (10_state R21). -/
theorem lockedRegister {s : State} (hidle : s.status.busy = false) {r : Csr} (hlocked : r.locked = true) {w v : Word}
    (hkeep : (s.storeCsr w r).status.busy = false) (hread : (s.storeCsr w r).readCsr r = v) :
    (s.status.scanActive = false → (s.writeReg r.offset w).readReg r.offset = v) ∧
      (s.status.scanActive = true → s.writeReg r.offset w = s.setHaz) :=
  ⟨fun hact => readBack hidle (by rw [hlocked, hact]; rfl) hkeep hread,
    fun hact => writeReg_locked hidle hact hlocked w⟩

/-- A component's register holds the fields of what was written (10_state R31). -/
theorem storeCsr_comp_readCsr (s : State) (i : Fin 3) (w : Word) :
    (s.storeCsr w (.comp i)).readCsr (.comp i) = w &&& 0xFFFFF#32 := by
  show ((s.comp.set i.val (Comp.ofWord w))[i.val]).word = _
  rw [Vector.getElem_set_self, comp_word_ofWord]

/-- Settles O54: the lists of registers, one after another. -/
theorem registerAccess : Obligations.RegisterAccess := by
  intro s w
  simp only [List.forall_mem_cons, List.not_mem_nil, false_implies, implies_true, and_true]
  refine ⟨fun hidle => ⟨?_, ?_, ?_⟩, ?_, readReg_undrawn s (r := .id) fun _ => rfl, fun hidle => ?_⟩
  · exact ⟨(readBack_cmd hidle w).trans (and_lowMask_32 w).symm,
      readBack hidle (r := .irqEn) rfl hidle (irqEnable_word_ofWord w),
      readBack hidle (r := .restartInterval) rfl hidle (setWidth_extract_low w 16),
      readBack hidle (r := .srcPtr) rfl hidle (w := w) (and_lowMask_32 w).symm,
      readBack hidle (r := .srcEnd) rfl hidle (w := w) (and_lowMask_32 w).symm⟩
  · exact ⟨lockedRegister hidle (r := .frameType) rfl hidle (frameType_word_ofWord w),
      lockedRegister hidle (r := .frameSize) rfl hidle (frameSize_word_ofWord w),
      lockedRegister hidle (r := .frameNcomp) rfl hidle (setWidth_extract_low w 8),
      lockedRegister hidle (r := .comp 0) rfl hidle (storeCsr_comp_readCsr s 0 w),
      lockedRegister hidle (r := .comp 1) rfl hidle (storeCsr_comp_readCsr s 1 w),
      lockedRegister hidle (r := .comp 2) rfl hidle (storeCsr_comp_readCsr s 2 w),
      lockedRegister hidle (r := .inBase) rfl hidle (w := w) (and_lowMask_32 w).symm,
      lockedRegister hidle (r := .inLen) rfl hidle (w := w) (and_lowMask_32 w).symm,
      lockedRegister hidle (r := .outBase) rfl hidle (w := w) (and_lowMask_32 w).symm⟩
  · have hstore : ∀ r : Csr, r.locked = false → s.writeReg r.offset w = s.storeCsr w r := fun r hr =>
      writeReg_offset hidle (by rw [hr]; rfl) w
    exact ⟨hstore .id rfl, hstore .error rfl, hstore .brPos rfl, hstore .brBits rfl, hstore .mcuIndex rfl,
      hstore .mcuTotal rfl, hstore .result rfl, hstore .tableValid rfl, hstore (.pred 0) rfl, hstore (.pred 1) rfl,
      hstore (.pred 2) rfl⟩
  · refine ⟨?_, ?_, ?_, ?_, ?_, ?_, ?_, ?_, ?_, ?_, ?_⟩
    · refine readReg_reserved (r := .status) (and_eq_zero_of_bits fun i hi hbit => ?_) fun v hv => ?_
      · have hfields : ∀ j : Fin 32, (0xFF00FC00#32).getLsbD j.val = true →
            (10 ≤ j.val ∧ j.val < 16) ∨ 24 ≤ j.val := by decide
        exact status_word_reserved s.status s.irq (hfields ⟨i, hi⟩ hbit)
      · cases hv
        rw [BitVec.and_or_distrib_right, and_and_eq_zero _ (by decide)]
        decide
    · exact readReg_reserved (r := .error) (and_high_eq_zero (errorReg_word_high s.error) (by decide)) fun v hv => by
        cases hv; exact and_and_eq_zero _ (by decide)
    · exact readReg_reserved_undrawn (r := .irqEn) (fun _ => rfl) (irqEnable_word_high s.irqEn) (by decide)
    · exact readReg_reserved_undrawn (r := .frameType) (fun _ => rfl) (frameType_word_high s.frameType) (by decide)
    · exact readReg_reserved_undrawn (r := .frameNcomp) (fun _ => rfl) (setWidth_high s.frameNcomp) (by decide)
    · exact readReg_reserved_undrawn (r := .comp 0) (fun _ => rfl) (comp_word_high s.comp[0]) (by decide)
    · exact readReg_reserved_undrawn (r := .comp 1) (fun _ => rfl) (comp_word_high s.comp[1]) (by decide)
    · exact readReg_reserved_undrawn (r := .comp 2) (fun _ => rfl) (comp_word_high s.comp[2]) (by decide)
    · exact readReg_reserved_undrawn (r := .restartInterval) (fun _ => rfl) (setWidth_high s.restartInterval) (by decide)
    · exact readReg_reserved (r := .brBits) (and_high_eq_zero (brBits_word_high s.brBits) (by decide)) fun v hv => by
        cases hv; exact and_and_eq_zero _ (by decide)
    · exact readReg_reserved (r := .tableValid) (and_high_eq_zero (tableValid_word_high s.tableValid) (by decide))
        fun v hv => by cases hv; exact and_and_eq_zero _ (by decide)
  · have hstore := fun (r : Csr) hfree => writeReg_offset hidle (r := r) hfree w
    exact ⟨hstore .irqEn rfl, hstore .restartInterval rfl, hstore .srcPtr rfl, hstore .srcEnd rfl, fun hact =>
      ⟨hstore .frameType hact, hstore .frameSize hact, hstore .frameNcomp hact, fun i => hstore (.comp i) hact,
        hstore .inBase hact, hstore .inLen hact, hstore .outBase hact⟩⟩

end Sys2Proof.Machine
end

section
/-! PROOFS. The host's accesses to the buffers, reads made while a command is pending, and what a reset leaves
(spec/20_memory.md R72 to R77, R82, spec/70_reset_and_hazards.md R240 to R242). -/

namespace Sys2Proof.Machine

/-! ## Buffer accesses -/

/-- An access of a size the block has (20_memory R74). -/
abbrev AccessSize (n : Nat) : Prop := n = 1 ∨ n = 2 ∨ n = 4

/-- An aligned access within IBUF reaches it (20_memory R72). -/
theorem target_of_ibuf {s : State} {a n : Nat} (hn : AccessSize n) (halign : a % n = 0) (hin : a + n ≤ s.params.ibufBytes)
    (ha : a < 0x1000000) : s.target (0x1000000 + a) n = some (.ibuf a) := by
  unfold State.target Config.csrBytes Config.ibufBase Config.obufBase bufferOffset
  rw [if_neg (by omega), if_neg (by omega), if_neg (by omega), if_pos (by omega), Nat.add_sub_cancel_left,
    if_pos ⟨halign, hin⟩]
  rfl

/-- An aligned access within OBUF reaches it (20_memory R73). -/
theorem target_of_obuf {s : State} {a n : Nat} (hn : AccessSize n) (halign : a % n = 0)
    (hin : a + n ≤ s.params.obufBytes) : s.target (0x2000000 + a) n = some (.obuf a) := by
  unfold State.target Config.csrBytes Config.ibufBase Config.obufBase bufferOffset
  rw [if_neg (by omega), if_neg (by omega), if_neg (by omega), if_neg (by omega), Nat.add_sub_cancel_left,
    if_pos ⟨halign, hin⟩]
  rfl

/-- Whatever an access to IBUF's part of the window reaches is in IBUF. -/
theorem target_ibuf_window (s : State) {a n : Nat} (ha : a < 0x1000000) :
    s.target (0x1000000 + a) n = none ∨ ∃ b, s.target (0x1000000 + a) n = some (.ibuf b) := by
  unfold State.target Config.csrBytes Config.ibufBase Config.obufBase
  split
  · exact .inl rfl
  · rw [if_neg (by omega), if_neg (by omega), if_pos (by omega)]
    cases bufferOffset 0x1000000 s.params.ibufBytes (0x1000000 + a) n with
    | none => exact .inl rfl
    | some b => exact .inr ⟨b, rfl⟩

/-! ## Byte order -/

/-- Byte `k` of the assembled bytes is the one at offset `k` (20_memory R74). -/
theorem littleEndian_byte (f : Nat → Byte) (a n k : Nat) (hk : k < 4) :
    (littleEndian f a n).extractLsb' (8 * k) 8 = if k < n then f (a + k) else 0#8 := by
  induction n generalizing a k with
  | zero => rw [if_neg (Nat.not_lt_zero k), littleEndian, BitVec.extractLsb'_zero]
  | succ n ih =>
    apply BitVec.eq_of_getLsbD_eq
    intro i hi
    rw [littleEndian, BitVec.getLsbD_extractLsb', decide_eq_true hi, Bool.true_and, BitVec.getLsbD_or,
      BitVec.getLsbD_shiftLeft, BitVec.getLsbD_setWidth]
    cases k with
    | zero =>
      rw [if_pos (Nat.succ_pos n), Nat.mul_zero, Nat.zero_add, decide_eq_true hi, decide_eq_true (show i < 32 by omega)]
      rfl
    | succ k =>
      have hbyte := congrArg (BitVec.getLsbD · i) (ih (a + 1) k (by omega))
      simp only [BitVec.getLsbD_extractLsb', decide_eq_true hi, Bool.true_and] at hbyte
      rw [BitVec.getLsbD_of_ge (f a) _ (by omega), decide_eq_true (show 8 * (k + 1) + i < 32 by omega),
        decide_eq_false (show ¬8 * (k + 1) + i < 8 by omega), show 8 * (k + 1) + i - 8 = 8 * k + i by omega, hbyte]
      simp only [Nat.add_lt_add_iff_right, show a + 1 + k = a + (k + 1) by omega, Bool.true_and, Bool.not_false,
        Bool.and_false, Bool.or_false]

/-- Byte `k` of a word cut to its low `n` bytes (20_memory R77). -/
theorem lowBytes_byte (v : Word) (n k : Nat) (hk : k < 4) :
    (lowBytes v n).extractLsb' (8 * k) 8 = if k < n then v.extractLsb' (8 * k) 8 else 0#8 := by
  apply BitVec.eq_of_getLsbD_eq
  intro i hi
  rw [BitVec.getLsbD_extractLsb', lowBytes, BitVec.getLsbD_and, getLsbD_lowMask (by omega)]
  split
  · rw [BitVec.getLsbD_extractLsb', decide_eq_true (show 8 * k + i < 8 * n by omega), Bool.and_true]
  · rw [decide_eq_false (show ¬8 * k + i < 8 * n by omega), Bool.and_false, Bool.and_false, BitVec.getLsbD_zero]

/-- Writing the bytes of a word stores byte `k` at offset `k` (20_memory R74). -/
theorem read_bytesAt (id : BufferId) (m : Memory) (v : Word) (a : Nat) {n k : Nat} (hk : k < n) :
    (m.writeAll (bytesAt v a n)).read id (a + k) = v.extractLsb' (8 * k) 8 := by
  obtain ⟨m, rfl⟩ := Nat.exists_eq_add_of_le (Nat.succ_le_of_lt hk)
  rw [bytesAt, List.range_add, List.range_succ, List.append_assoc, List.map_append, List.singleton_append,
    List.map_cons]
  apply read_writeAll_once
  intro c hc
  simp only [List.mem_map, List.mem_range] at hc
  obtain ⟨j, ⟨i, -, rfl⟩, rfl⟩ := hc
  simp only
  omega

/-- Writing the bytes of a word changes no other byte. -/
theorem read_bytesAt_outside (id : BufferId) (m : Memory) (v : Word) (a n : Nat) {b : Nat} (hb : b < a ∨ a + n ≤ b) :
    (m.writeAll (bytesAt v a n)).read id b = m.read id b := by
  apply read_writeAll_outside
  intro c hc hcb
  obtain ⟨hlo, hhi⟩ := bytesAt_range v a n c hc
  omega

/-- Settles O55: the access reaches its buffer, and the bytes are those of `littleEndian` and `bytesAt`. -/
theorem bufferBytesLittleEndian : Obligations.BufferBytesLittleEndian := by
  intro s a n v hlegal hn halign
  obtain ⟨-, hibuf, -, hobuf, -⟩ := hlegal
  rw [Config.maxBufferBytes] at hibuf hobuf
  rw [Nat.add_assoc, Nat.add_assoc]
  refine ⟨fun hin => ?_, fun hin hidle => ?_⟩
  · have htarget := target_of_ibuf (s := s) hn halign hin (by omega)
    refine ⟨fun k hk => ?_, fun hidle => ⟨s.ibuf.writeAll (bytesAt v a n), ?_, fun k hk => read_bytesAt _ _ _ _ hk,
      fun b hb => read_bytesAt_outside _ _ _ _ _ hb⟩⟩
    · rw [hostRead_of_target (by omega) htarget]
      exact littleEndian_byte s.ibufByte a n k hk
    · rw [hostWrite_of_target (by omega) htarget, hidle]
      rfl
  · have htarget := target_of_obuf (s := s) hn halign hin
    refine ⟨fun k hk => ?_, s.obuf.writeAll (bytesAt v a n), ?_, fun k hk => read_bytesAt _ _ _ _ hk,
      fun b hb => read_bytesAt_outside _ _ _ _ _ hb⟩
    · rw [hostRead_of_target (by omega) htarget, State.readTarget, hidle]
      exact littleEndian_byte s.obufByte a n k hk
    · rw [hostWrite_of_target (by omega) htarget, hidle]
      rfl

/-! ## Reads while a command is pending -/

/-- A register no command writes reads as with BUSY = 0. -/
theorem readReg_setBusy (s : State) {r : Csr} (hr : ∀ d, r.drawn d = none) :
    s.readReg r.offset = (s.setBusy false).readReg r.offset := by
  rw [readReg_undrawn s hr, readReg_undrawn (s.setBusy false) hr]
  cases r with
  | status => cases hr 0#32
  | _ => rfl

/-- The draw with the bit that BUSY reads set by hand. -/
theorem draw_status (d : Word) : d &&& 0x00FF03FF#32 ||| 1#32 = d &&& 0x00FF03FE#32 ||| 1#32 := by
  have hmask : 0x00FF03FF#32 = 0x00FF03FE#32 ||| 1#32 := by decide
  rw [hmask, BitVec.and_or_distrib_left, BitVec.or_assoc]
  congr 1
  apply BitVec.eq_of_getLsbD_eq
  intro i hi
  rw [BitVec.getLsbD_or, BitVec.getLsbD_and]
  cases (1#32).getLsbD i with
  | false => rw [Bool.and_false, Bool.or_false]
  | true => rw [Bool.or_true]

/-- Settles O56: the undrawn registers and IBUF, and each drawn register with its draw. -/
theorem readsWhileBusy : Obligations.ReadsWhileBusy := by
  intro s hbusy
  simp only [List.forall_mem_cons, List.not_mem_nil, false_implies, implies_true, and_true]
  have hsame := fun (r : Csr) hr => readReg_setBusy s (r := r) hr
  have hdraw := fun (r : Csr) v hr => hostRead_drawn hbusy (r := r) (v := v) hr
  have hwhole : ∀ r : Csr, r.drawn (Config.draw s.draws) = some (Config.draw s.draws) →
      s.readReg r.offset = Config.draw s.draws &&& 0xFFFFFFFF#32 ∧
        (s.hostRead (s.params.base + r.offset) 4).draws = s.draws + 1 := by
    intro r hr
    rw [and_lowMask_32]
    exact hdraw r _ hr
  refine ⟨⟨hsame .id fun _ => rfl, hsame .cmd fun _ => rfl, hsame .irqEn fun _ => rfl, hsame .frameType fun _ => rfl,
    hsame .frameSize fun _ => rfl, hsame .frameNcomp fun _ => rfl, hsame (.comp 0) fun _ => rfl,
    hsame (.comp 1) fun _ => rfl, hsame (.comp 2) fun _ => rfl, hsame .restartInterval fun _ => rfl,
    hsame .srcEnd fun _ => rfl, hsame .inBase fun _ => rfl, hsame .inLen fun _ => rfl, hsame .outBase fun _ => rfl⟩,
    fun a n ha => ?_, ?_, ⟨hdraw .error _ rfl, hwhole .srcPtr rfl, hwhole .brPos rfl, hdraw .brBits _ rfl,
    hwhole .mcuIndex rfl, hwhole .mcuTotal rfl, hwhole .result rfl, hdraw .tableValid _ rfl, hwhole (.pred 0) rfl,
    hwhole (.pred 1) rfl, hwhole (.pred 2) rfl⟩, fun a n hn halign hin ha => ?_⟩
  · rw [Nat.add_assoc]
    have hoff : 0x1000000 + a < 0x4000000 := by omega
    rcases target_ibuf_window s (n := n) ha with htarget | ⟨b, htarget⟩
    · rw [hostRead_of_malformed hoff ((target_none s).mp htarget)]
      exact (congrArg State.readData
        (hostRead_of_malformed (s := s.setBusy false) hoff ((target_none s).mp htarget))).symm
    · rw [hostRead_of_target hoff htarget]
      exact (congrArg State.readData (hostRead_of_target (s := s.setBusy false) hoff htarget)).symm
  · rw [← draw_status]
    exact hdraw .status _ rfl
  · rw [Nat.add_assoc]
    have hread : s.hostRead (s.params.base + (0x2000000 + a)) n = s.returnDraw (lowBytes (Config.draw s.draws) n) := by
      rw [hostRead_of_target (by omega) (target_of_obuf hn halign hin), State.readTarget, if_pos hbusy]
    rw [hread]
    exact ⟨lowBytes_byte _ n, rfl⟩

/-! ## Reads have no side effect -/

/-- While no command is pending a well-formed read returns what is there and changes nothing else. -/
theorem readTarget_idle {s : State} (hidle : s.status.busy = false) (n : Nat) (t : Target) :
    ∃ v, s.readTarget n t = s.setReadData v ∧ ∀ w, (s.setReadData w).readTarget n t = s.setReadData v := by
  cases t with
  | csr r =>
    refine ⟨s.readCsr r, ?_, fun w => ?_⟩
    · rw [State.readTarget, hidle]
      rfl
    · have hcsr : (s.setReadData w).readCsr r = s.readCsr r := by cases r <;> rfl
      rw [State.readTarget, setReadData_status, hidle, hcsr]
      rfl
  | ibuf a => exact ⟨_, rfl, fun w => rfl⟩
  | obuf a =>
    refine ⟨littleEndian s.obufByte a n, ?_, fun w => ?_⟩
    · rw [State.readTarget, hidle]
      rfl
    · rw [State.readTarget, setReadData_status, hidle]
      rfl

/-- While no command is pending a read counts no draw, and again returns the same (20_memory R82). -/
theorem hostRead_again {s : State} (hidle : s.status.busy = false) (addr n : Nat) :
    (s.hostRead addr n).draws = s.draws ∧
      ((s.hostRead addr n).hostRead addr n).readData = (s.hostRead addr n).readData := by
  cases hoff : s.windowOffset addr with
  | none =>
    have hread : s.hostRead addr n = s := by simp only [State.hostRead, hoff]
    rw [hread, hread]
    exact ⟨rfl, rfl⟩
  | some off =>
    cases ht : s.target off n with
    | none =>
      have hread : ∀ r : State, r.params = s.params → r.hostRead addr n = r.setAccErr.setReadData 0#32 := by
        intro r hr
        simp only [State.hostRead, State.windowOffset, State.target, hr] at hoff ht ⊢
        simp only [hoff, ht]
      rw [hread s rfl, hread (s.setAccErr.setReadData 0#32) rfl]
      exact ⟨rfl, rfl⟩
    | some t =>
      have hread : ∀ r : State, r.params = s.params → r.hostRead addr n = r.readTarget n t := by
        intro r hr
        simp only [State.hostRead, State.windowOffset, State.target, hr] at hoff ht ⊢
        simp only [hoff, ht]
      obtain ⟨v, hv, hagain⟩ := readTarget_idle hidle n t
      rw [hread s rfl, hv, hread (s.setReadData v) rfl, hagain]
      exact ⟨rfl, rfl⟩

/-- Settles O57: the frame of a read, and the read made again. -/
theorem hostReadsHaveNoSideEffect : Obligations.HostReadsHaveNoSideEffect := by
  intro s addr n
  refine ⟨?_, fun hidle => hostRead_again hidle addr n⟩
  obtain ⟨d, k, acc, h⟩ := hostRead_frame s addr n
  rw [h]

/-! ## After a reset -/

/-- Every register but ID reads 0 in the reset state (70_reset R240). -/
theorem reset_readCsr (k : Nat) (hlo : 1 ≤ k) (hhi : k ≤ 25) :
    ∃ r, Csr.ofIndex k = some r ∧ State.reset.readCsr r = 0#32 := by
  have hall : ∀ j : Fin 26, 1 ≤ j.val → (Csr.ofIndex j.val).map State.reset.readCsr = some 0#32 := by decide
  exact Option.map_eq_some_iff.mp (hall ⟨k, by omega⟩ hlo)

/-- Nothing is listed after the whole buffer is forgotten (10_state R51, R52). -/
theorem forget_all_cells {m : Memory} {size : Nat} (h : m.within size) : (m.forget 0 size).cells = [] := by
  unfold Memory.forget
  split
  · next hzero => exact List.eq_nil_iff_forall_not_mem.mpr fun c hc => by have := h c hc; omega
  · refine List.filter_eq_nil_iff.mpr fun c hc => ?_
    have := h c hc
    simp only [Nat.zero_le, Nat.zero_add, true_and, decide_eq_true this, Bool.not_true, Bool.false_eq_true, not_false_iff]

/-- Settles O60: a reset leaves the registers of the reset state, and the buffers as it says. -/
theorem resetValues : Obligations.ResetValues := by
  refine ⟨fun r hr => ?_, ⟨rfl, rfl⟩, fun s => ⟨fun a => ⟨rfl, rfl⟩, fun h => forget_all_cells h,
    fun h => forget_all_cells h⟩⟩
  obtain ⟨hcsr, hidle, hirq⟩ :
      (∀ c, r.readCsr c = State.reset.readCsr c) ∧ r.status.busy = false ∧ r.irq = false := by
    rcases hr with rfl | ⟨s, rfl | rfl⟩
    · exact ⟨fun _ => rfl, rfl, rfl⟩
    · exact ⟨fun c => (readCsr_reset s c).1, rfl, rfl⟩
    · exact ⟨fun c => (readCsr_reset s c).2, rfl, rfl⟩
  refine ⟨(readReg_offset hidle .id).trans (hcsr .id), fun k hlo hhi => ?_, hidle, hirq⟩
  obtain ⟨c, hidx, hzero⟩ := reset_readCsr k hlo hhi
  have hread : r.readReg (4 * k) = r.readCsr c :=
    readReg_idle r (by omega) (by omega) (by rw [Nat.mul_div_cancel_left k (by decide)]; exact hidx) hidle
  rw [hread, hcsr, hzero]

end Sys2Proof.Machine
end
